-- ==== Sys2Proof/Word.lean ====
section
/-! DEFINITION. The words of the GJ-2600: bytes of memory and 32-bit register values. -/

namespace Sys2Proof

/-- One byte of the work area. -/
abbrev Byte := BitVec 8

/-- A 32-bit register value, a TIME value, or a 32-bit count that wraps. -/
abbrev Word := BitVec 32

end Sys2Proof
end

