-- ==== Sys2Proof/Syntax.lean ====
section
/-! DEFINITION. The commands and events of spec/opcode_table.json, one constructor per row. -/

namespace Sys2Proof

/-- The register accesses of the row REGISTER_WRITE_NO_EFFECT (R178, and R145 for EVENTS).
`misfit` accesses are those that are not at a multiple of 4, or of fewer than 32 bits. -/
inductive NoEffectAccess where
  | identWrite (value : Word)
  | stateWrite (value : Word)
  | timeWrite (value : Word)
  | eventsWrite (value : Word)
  | misfitWrite (offset bytes : Nat) (value : Word)
  | misfitRead (offset bytes : Nat)
  deriving DecidableEq, Repr

/-- R173, R177: what the bus answers to the attempt in flight, success or an error, or a late answer to an attempt
that the Port has ended or a reset has cut off. -/
inductive BusAnswer where
  | succeeded | failed | late
  deriving DecidableEq, Repr

/-- One constructor per row of the table. Operands are what the camera processor writes, what the
bus answers and what the pins show; every other datum of a step stands in the state. -/
inductive Instr where
  -- register accesses
  | start
  | stop
  | abort
  | resume
  | rescan
  | reload
  | reset
  | commandUnknown (value : Word)
  | winBaseWrite (value : Word)
  | winSizeWrite (value : Word)
  | eventsRead
  | lineEnableWrite (value : Word)
  | registerWriteNoEffect (access : NoEffectAccess)
  -- lines and time
  | powerOnReset
  | frameReadyEdge
  | rescanTimerExpiry
  -- the memory bus
  /-- `others` is what other masters of the memory wrote before the bytes of this attempt were read or placed
  (assumption log 2). -/
  | memoryAttemptAnswer (answer : BusAnswer) (others : List Host.Cell)
  | memoryAttemptTimeout
  | retryDelayExpiry
  -- ends of work
  | configReadDone
  | statusWriteDone
  | cursorRecordReadDone
  | cursorLinkReadDone
  | advanceReadDone
  | lookAheadRecordReadDone
  | subchainRecordReadDone
  | boardReadDone
  | profileLoadDone
  | poolReadDone
  | slotBusyWriteDone
  | tableBuildDone
  | subtileRowsReadDone
  | outputRowWriteDone
  | derivedRowWriteDone
  | rawcopyRowDone
  | slotReleaseDone
  | retirementWritesDone
  | frameReadyFallingEdge
  /-- `level` is the level of the frame-ready line at the end of the reset (R92). -/
  | resetEnd (level : Bool)
  | timeTick
  | chainRecordWriteDone
  | callRecordRereadDone
  | slotEmptyWriteDone
  | dropCountWriteDone
  deriving DecidableEq, Repr

end Sys2Proof
end

