-- ==== Sys2Proof/WellFormed.lean ====
section
/-! DEFINITION. Which terms of `Instr` stand for something that can be commanded or can occur. -/

namespace Sys2Proof

/-- R178: an access within the 32 bytes of the register space that is not at a multiple of 4 or is
of fewer than 32 bits. -/
def misfit (offset bytes : Nat) : Bool :=
  decide (offset < 32) && decide (0 < bytes) && decide (bytes ≤ 4) &&
    (decide (offset % 4 ≠ 0) || decide (bytes < 4))

/-- The cells another master wrote: addresses strictly rising, and each one an address the engine's
own accesses can reach (R167: WIN_BASE × 4096 plus an offset below 2^32). -/
def cellsOk : List Host.Cell → Bool
  | [] => true
  | [c] => decide (c.1 < (2 ^ 32 - 1) * 4096 + 2 ^ 32)
  | c :: d :: rest => decide (c.1 < d.1) && cellsOk (d :: rest)

/-- R180: the values of the seven commands. -/
def isCommandValue (v : Word) : Bool := decide (1 ≤ v.toNat) && decide (v.toNat ≤ 7)

/-- A term that stands for an access the camera processor can make or an answer the bus can give. -/
def Instr.wellFormed : Instr → Bool
  | .commandUnknown v => !isCommandValue v
  | .registerWriteNoEffect (.misfitWrite offset bytes _) => misfit offset bytes
  | .registerWriteNoEffect (.misfitRead offset bytes) => misfit offset bytes
  | .memoryAttemptAnswer _ others => cellsOk others
  | _ => true

end Sys2Proof
end

