-- ==== Sys2Proof/Decode.lean ====
section
/-! DEFINITION. From words to commands. No row of spec/opcode_table.json gives bits, so no word of
the table's own spells a command; what the spec does encode is which register access is which row
(R178, R180, 10.9), and that is here. -/

namespace Sys2Proof

/-- The command that a word spells by the table's bits: no row gives bits. -/
def decodeTableWord (_nbits _w : Nat) : Option Instr := none

/-- R180: the command that a 32-bit value written to COMMAND carries. -/
def commandOfValue (v : Word) : Instr :=
  match v.toNat with
  | 1 => .start
  | 2 => .stop
  | 3 => .abort
  | 4 => .resume
  | 5 => .rescan
  | 6 => .reload
  | 7 => .reset
  | _ => .commandUnknown v

/-- R178, 10.9: the row that a 32-bit write at `offset` of the register space is. `none` outside the
32 bytes of the eight registers. -/
def registerWrite (offset : Nat) (v : Word) : Option Instr :=
  match offset with
  | 0x00 => some (.registerWriteNoEffect (.identWrite v))
  | 0x04 => some (.winBaseWrite v)
  | 0x08 => some (.winSizeWrite v)
  | 0x0C => some (commandOfValue v)
  | 0x10 => some (.registerWriteNoEffect (.stateWrite v))
  | 0x14 => some (.registerWriteNoEffect (.eventsWrite v))
  | 0x18 => some (.lineEnableWrite v)
  | 0x1C => some (.registerWriteNoEffect (.timeWrite v))
  | _ => if offset < 32 then some (.registerWriteNoEffect (.misfitWrite offset 4 v)) else none

end Sys2Proof
end

