-- ==== Sys2Proof/Config.lean ====
section
/-! DEFINITION. What is fixed for the machine, and the values the spec leaves free. -/

namespace Sys2Proof.Config

/-- FREE VALUE (assumption log 3). Whether byte `i` of the `n`-th write attempt that failed or was
cut off by a reset reached memory: R173 and R177 say only that it may have. -/
opaque partWritten (n i : Nat) : Bool

/-- FREE VALUE (assumption log 34). Whether a FILTERED settle with both tolerances at 4095 accepts a consecutive
pair of one lens whose zooms differ by more than 4095: R59 says that it accepts any, condition 4 of R58 that it does
not. -/
opaque fullTolerancesAcceptAll : Bool

/-- FREE VALUE (assumption log 38). Whether the clean read of a RESUME that a STOP has turned into STOPPING sets a
cursor that is not 0 to the chain head: R153 says that it does, R155 and R158 that the cursor is kept. -/
opaque stopTakesChainHead : Bool

/-- What a byte of DRAM reads as that nothing has written. DESIGN CHOICE, unsafe (assumption log 1). -/
def unlistedByte : Byte := 0

/-- R179: what IDENT reads as. -/
def ident : Word := 0x47260001

/-- R23: the dither generator's state after either reset, and what a seed of 0 loads (R24). -/
def ditherReset : Word := 0x1D872B41

/-- R173: microseconds after which an attempt without an answer has failed. -/
def answerLimit : Nat := 2048

/-- R102: the most records a look-ahead reads. -/
def lookAheadLimit : Nat := 64

/-- R103, R105: the most entries the return stack holds. -/
def stackDepth : Nat := 4

/-- R101: the most derived entries of a group. -/
def maxEntries : Nat := 4

/-- R67: the width and the height of a tile. -/
def tileWidth : Nat := 64
def tileHeight : Nat := 32

/-- R65: the columns and the rows of the footprint buffer. -/
def bufferWidth : Nat := 96
def bufferHeight : Nat := 64

/-- R70: a sub-tile can be split on an axis only while it is larger than this. -/
def smallestSubTile : Nat := 8

/-- R164: the largest value WIN_SIZE holds, a window of 4 GiB. -/
def maxWinSize : Word := 1048576

end Sys2Proof.Config
end

