-- ==== Sys2Proof/Machine/State.lean ====
section
/-! DEFINITION. Everything the spec gives the machine, block by block, as plain data, and the state
right after reset. Fields marked MODEL are bookkeeping of work that the spec describes in time. -/

namespace Sys2Proof.Machine

/-! ### Reasons a step stops: none -/

/-- The engine never stops without a next state: halts, frame faults and refused commands are effects
on the state. So there is no fault, and the type has no constructor. -/
inductive Fault where
  deriving DecidableEq, Repr

/-- `notModelled` is raised by a row of the table that has no meaning yet (safe: the model stops where
the hardware goes on). No row raises it. -/
inductive Refusal where
  | notModelled (mnemonic : String)
  deriving DecidableEq, Repr

/-! ### Engine Controller -/

/-- R149. -/
inductive EngineState where
  | stopped | starting | parked | working | stopping | halted
  deriving DecidableEq, Repr

/-- R106, R149, with the codes of 10.1 in `HaltReason.code`. `noHalt` is NONE. -/
inductive HaltReason where
  | noHalt | linkBad | callBad | stackFull | stackEmpty | subchainState | subchainFrame
  | unterminated | badKind | chainRead | recordWrite | statusWrite | config
  deriving DecidableEq, Repr

/-- R149, R158, 10.3: the configuration copy. Numbers as read; `settleMode` is 1 FILTERED or 2 DIRECT
after a clean read. -/
structure ConfigCopy where
  rescanInterval : Nat := 0
  chainHead : Nat := 0
  rn : Nat := 0
  settleMode : Nat := 0
  reliefThreshold : Nat := 0
  opticalX : Nat := 0
  opticalY : Nat := 0
  boardOffset : Nat := 0
  dirOffset : Nat := 0
  dirLength : Nat := 0
  poolCount : Nat := 0
  retryCount : Nat := 0
  poolTable : Nat := 0
  staleLimit : Nat := 0
  holdLimit : Nat := 0
  zoomTol : Nat := 0
  focusTol : Nat := 0
  frameBudget : Nat := 0
  retryDelay : Nat := 0
  deriving DecidableEq, Repr

/-- R163: an armed rescan timer holds the TIME of arming and the interval (ms) it was armed under. -/
structure Timer where
  armedAt : Word
  interval : Nat
  deriving DecidableEq, Repr

/-- What the engine goes on with when a status write has ended. MODEL (R143, R144). -/
inductive After where
  | nothing
  | readConfig (resume : Bool)
  | look
  | boundary
  deriving DecidableEq, Repr

/-- A status write: the events set when it has ended without a failure, the events set when it has
ended or failed (R147), what follows it, and the cursor as it stood when the write began (R144). -/
structure StatusWrite where
  onSuccess : BitVec 10 := 0
  onEnd : BitVec 10 := 0
  after : After := .nothing
  cursorAtStart : Nat := 0
  deriving DecidableEq, Repr

/-- For what a configuration read is made (R157, R159, R160). -/
inductive ConfigWhy where
  | start | resume | reload | boundary
  deriving DecidableEq, Repr

/-- What the Engine Controller asks of the Memory Port, one after another. MODEL. -/
inductive EcTask where
  | status (w : StatusWrite)
  | config (why : ConfigWhy)
  deriving DecidableEq, Repr

/-- R143: the three accesses of a status write. -/
inductive StatusStage where
  | leading | body | trailing
  deriving DecidableEq, Repr

/-- The Engine Controller's work at the Port. `body` is the status block as it stood when the write
began (R141). -/
inductive EcJob where
  | config (why : ConfigWhy)
  | status (w : StatusWrite) (stage : StatusStage) (body : List Byte)
  deriving DecidableEq, Repr

/-- A job of the Engine Controller, and its result once its accesses have ended. -/
structure EcWork where
  job : EcJob
  ended : Bool := false
  ok : Bool := false
  data : List Byte := []
  deriving DecidableEq, Repr

/-- R91, R142, R149 and the bookkeeping of R143, R144, R153, R154, R159, R160. -/
structure Controller where
  engine : EngineState := .stopped
  haltReason : HaltReason := .noHalt
  haltRecord : Nat := 0
  cfg : ConfigCopy := {}
  cfgValid : Bool := false
  reloadReq : Bool := false
  abortReq : Bool := false
  timer : Option Timer := none
  cursor : Nat := 0
  linkWait : Bool := false
  wakePending : Bool := false
  groupsTaken : Word := 0
  groupsRetired : Word := 0
  framesDone : Word := 0
  framesFaulted : Word := 0
  derivedFilled : Word := 0
  derivedDropped : Word := 0
  derivedSkipped : Word := 0
  lastFrameNumber : Word := 0
  writeCount : Word := 0
  /-- The controller's access in progress. -/
  job : Option EcWork := none
  /-- MODEL: tasks that wait for the controller's turn. -/
  queue : List EcTask := []
  /-- R144, R160 step 2: a halt called for while a group is in flight. -/
  heldHalt : Option (HaltReason × Nat) := none
  /-- MODEL: the last main-chain record of the group whose boundary is being passed (R160). -/
  boundaryLast : Option Nat := none
  /-- MODEL: a STOP or ABORT was taken in PARKED and work in progress runs to its end (R153). -/
  stopAsked : Bool := false
  /-- MODEL: an ABORT taken with no group in flight ends the look, or abandons the configuration read of a
  START or RESUME, when its access has run to its end (R154, R160). -/
  endedByAbort : Bool := false
  /-- MODEL: a status write failed while a group was in flight or at its boundary, or after a failed access of the look
  had called for a halt: the entry into HALTED is not written (R144, R161). -/
  statusFailed : Bool := false
  /-- MODEL: a look was ended for a RELOAD and begins again after its read (R159, R160). -/
  lookAfterRead : Bool := false
  /-- MODEL: the cursor moved in the course of a look and no status write has been asked for since (R143). -/
  cursorDue : Bool := false
  /-- MODEL: events waiting for the status write that follows (R147: RECORD_FAULT). -/
  eventsDue : BitVec 10 := 0
  deriving DecidableEq, Repr

/-! ### Register Interface -/

/-- A register access or a wake that waits for a status write or a reset to end (R143, R167, R178). -/
inductive Held where
  | access (c : Instr)
  | wake
  deriving DecidableEq, Repr

/-- R145, R148, R164, R182, and R92's last level seen. -/
structure RegisterInterface where
  winBase : Word := 0
  winSize : Word := 0
  events : BitVec 10 := 0
  lineEnable : BitVec 10 := 0
  time : Word := 0
  frameReadySeen : Bool := false
  held : List Held := []
  /-- MODEL: a reset is in progress (R178). -/
  inReset : Bool := false
  /-- MODEL: the value the last register read of a table row returned. -/
  readData : Word := 0
  deriving DecidableEq, Repr

/-! ### Chain Reader -/

/-- 10.2. -/
inductive RecordKind where
  | frame | derived | call | ret | override
  deriving DecidableEq, Repr

/-- R88, 10.1. -/
inductive RecordState where
  | opened | ready | taken | done | skipped | faulted | standing
  deriving DecidableEq, Repr

/-- R87, 10.1, with the codes in `FaultCode.code`. -/
inductive FaultCode where
  | groupUnterminated | groupFull | orphan | format | window | recordWrite | aborted
  | sourceRead | outputWrite | poolBad | tooLarge | write
  deriving DecidableEq, Repr

/-- R107: an override's four fields, each present or absent. -/
structure Override where
  lens : Option Nat := none
  zoom : Option Nat := none
  focus : Option Nat := none
  strength : Option Nat := none
  deriving DecidableEq, Repr

/-- The camera processor's fields of a FRAME record (10.2). -/
structure FrameFields where
  frameNumber : Nat := 0
  srcOffset : Nat := 0
  srcPitch : Nat := 0
  srcW : Nat := 0
  srcH : Nat := 0
  outOffset : Nat := 0
  outPitch : Nat := 0
  outW : Nat := 0
  outH : Nat := 0
  depth : Nat := 0
  edge : Nat := 0
  scan : Nat := 0
  dither : Nat := 0
  strength : Nat := 0
  seedPresent : Bool := false
  seed : Nat := 0
  fillR : Nat := 0
  fillG : Nat := 0
  fillB : Nat := 0
  deriving DecidableEq, Repr

/-- The FRAME record of a group (R97). -/
structure FrameRecord where
  offset : Nat
  endFlag : Bool
  notify : Bool
  fields : FrameFields
  deriving DecidableEq, Repr

/-- The camera processor's fields of a DERIVED record (R115, 10.2). -/
structure DerivedFields where
  kind : Nat := 0
  pool : Nat := 0
  mask : Nat := 0
  sense : Nat := 0
  yields : Bool := false
  factor : Nat := 0
  rx : Nat := 0
  ry : Nat := 0
  rw : Nat := 0
  rh : Nat := 0
  deriving DecidableEq, Repr

/-- R115: the five results of a derived entry. -/
inductive EntryResult where
  | filled (slot : Nat)
  | dropped
  | skippedCondition
  | skippedRelief
  | faulted (code : FaultCode)
  deriving DecidableEq, Repr

/-- R97, R115, R116: a derived entry of the group, its result once it is set, and its CLIPPED warning. -/
structure DerivedEntry where
  offset : Nat
  fields : DerivedFields
  mainChain : Bool
  result : Option EntryResult := none
  clipped : Bool := false
  deriving DecidableEq, Repr

/-- R97: a main-chain record of the group after the FRAME. `entry` is the place among the derived
entries of a DERIVED record that joined; a DERIVED record without one is held out (R101). -/
structure MainRecord where
  offset : Nat
  kind : RecordKind
  endFlag : Bool
  notify : Bool
  entry : Option Nat := none
  deriving DecidableEq, Repr

/-- R97: the group under assembly, which at the take becomes the group in flight. -/
structure Group where
  frame : Option FrameRecord := none
  mainList : List MainRecord := []
  entries : List DerivedEntry := []
  staged : Override := {}
  readCount : Nat := 0
  /-- R102: the last record the look-ahead read. -/
  lastRead : Nat := 0
  deriving DecidableEq, Repr

/-- R64: the seven resolution flags. -/
structure ResFlags where
  stale : Bool := false
  hold : Bool := false
  moving : Bool := false
  lensNew : Bool := false
  unknownLens : Bool := false
  outsideGrid : Bool := false
  override : Bool := false
  deriving DecidableEq, Repr

/-- R63: what the Lens State Unit hands on. -/
structure LensFrame where
  lens : Option Nat := none
  zoom : Option Nat := none
  focus : Option Nat := none
  flags : ResFlags := {}
  deriving DecidableEq, Repr

/-- R47: the lens, zoom and focus used, and the flags delivered. All zero until the frame is resolved. -/
structure Used where
  lens : Nat := 0
  zoom : Nat := 0
  focus : Nat := 0
  flags : ResFlags := {}
  deriving DecidableEq, Repr

/-- R3: a coefficient set. -/
structure Coeffs where
  k1 : Int := 0
  k2 : Int := 0
  k3 : Int := 0
  ar : Int := 0
  br : Int := 0
  ab : Int := 0
  bb : Int := 0
  sx : Int := 0
  sy : Int := 0
  deriving DecidableEq, Repr

/-- What the blocks hand one another while a group is in flight. -/
structure Flight where
  inFlight : Bool := false
  /-- R110 step 1: offsets of the TAKEN writes not yet made. -/
  takenTodo : List Nat := []
  /-- R108: the override the frame consumed. -/
  override : Override := {}
  lens : LensFrame := {}
  used : Used := {}
  coeffs : Coeffs := {}
  strength : Nat := 0
  /-- R117: the flags have been delivered and the entries judged or being judged. -/
  judged : Bool := false
  judging : Bool := false
  building : Bool := false
  fault : Option FaultCode := none
  duration : Word := 0
  overrun : Bool := false
  /-- R146: a retirement write of FAULTED has succeeded. -/
  faultWritten : Bool := false
  deriving DecidableEq, Repr

/-! ### Memory Port -/

/-- R170: the requesting blocks. -/
inductive Block where
  | engineController | chainReader | lensStateUnit | resolver | tilePassUnit | outputWriter
  | poolManager
  deriving DecidableEq, Repr

/-- R171: the kinds of access. -/
inductive AccessKind where
  | configRead | statusCopyWrite | statusBodyWrite | recordRead | recordCompletionWrite
  | recordStateWrite | boardHeaderRead | boardSlotRead | directoryRead | profileHeaderRead
  | profileNodeRead | poolTableRead | poolHeaderRead | slotEntriesRead | slotWrite | poolWordWrite
  | sourceRowRead | outputRowWrite | derivedRowWrite
  deriving DecidableEq, Repr

/-- R170: a request. `data` holds the bytes of a write and is absent for a read. -/
structure Request where
  block : Block
  kind : AccessKind
  offset : Nat
  length : Nat
  data : Option (List Byte) := none
  deriving DecidableEq, Repr

/-- R169: the state of the current attempt. -/
inductive AttemptPhase where
  | attempt | delay
  deriving DecidableEq, Repr

/-- R169: the access in flight. `address` is the bus address formed when the access began (R167: the
window holds still for the whole of every access). -/
structure Access where
  req : Request
  address : Nat
  attempts : Nat
  phase : AttemptPhase
  deriving DecidableEq, Repr

/-- R169. -/
structure Port where
  retryCount : Nat := 0
  retryDelay : Nat := 0
  requests : List Request := []
  inFlight : Option Access := none
  delayStart : Word := 0
  attemptStart : Word := 0
  deriving DecidableEq, Repr

/-! ### Lens State Unit -/

/-- R51, R52, R56. -/
structure LensUnit where
  settledLens : Option Nat := none
  settledZoom : Option Nat := none
  settledFocus : Option Nat := none
  lastSeq : Word := 0
  prevStale : Bool := false
  deriving DecidableEq, Repr

/-! ### Profile Cache and Resolver -/

/-- R29, R32: the copy a READY entry holds: used zoom stops and focus codes, rest node, nodes zoom-major. -/
structure Profile where
  zooms : List Nat := []
  foci : List Nat := []
  restZoom : Nat := 0
  restFocus : Nat := 0
  nodes : List Coeffs := []
  deriving DecidableEq, Repr

/-- R32. -/
inductive EntryState where
  | empty | loading | ready | invalid
  deriving DecidableEq, Repr

/-- R32: a cache entry. An EMPTY entry holds no identifier; only LOADING and READY ones hold a copy. -/
structure CacheEntry where
  state : EntryState := .empty
  lens : Option Nat := none
  copy : Option Profile := none
  deriving DecidableEq, Repr

/-- E0 or E1. -/
inductive CacheSlot where
  | e0 | e1
  deriving DecidableEq, Repr

/-- R32, R33. -/
structure Cache where
  e0 : CacheEntry := {}
  e1 : CacheEntry := {}
  lastServed : Option CacheSlot := none
  deriving DecidableEq, Repr

/-! ### Table Builder -/

/-- R1: three radial scale tables of 129 entries and the frame centre. -/
structure Tables where
  red : List Int := List.replicate 129 65536
  green : List Int := List.replicate 129 65536
  blue : List Int := List.replicate 129 65536
  cx16 : Int := 0
  cy16 : Int := 0
  deriving DecidableEq, Repr

/-! ### Tile Pass Unit -/

/-- A sampling position (xs, ys) of R13, after the edge policy. -/
structure Pos where
  xs : Int
  ys : Int
  deriving DecidableEq, Repr

/-- R65: the position store's entry for one pixel. -/
structure PixelPos where
  fill : Bool
  r : Pos
  g : Pos
  b : Pos
  deriving DecidableEq, Repr

/-- An output rectangle (left column, top row, width, height), R65. -/
structure Rect where
  left : Nat
  top : Nat
  width : Nat
  height : Nat
  deriving DecidableEq, Repr

/-- A box of source pixels: left column, top row, width, height (R69); empty when a dimension is 0. -/
structure Box where
  x : Nat := 0
  y : Nat := 0
  width : Nat := 0
  height : Nat := 0
  deriving DecidableEq, Repr

/-- R65: one pixel of the footprint buffer: three 12-bit components, each with an overrange mark. -/
structure Texel where
  r : Nat := 0
  g : Nat := 0
  b : Nat := 0
  rOver : Bool := false
  gOver : Bool := false
  bOver : Bool := false
  deriving DecidableEq, Repr

/-- R65: 96 columns × 64 rows, row after row, and the box it holds. -/
structure FootprintBuffer where
  texels : List Texel := List.replicate (96 * 64) {}
  box : Box := {}
  deriving DecidableEq, Repr

/-- R65: three corrected 12-bit values and the overrange mark. -/
structure Sample where
  r : Nat := 0
  g : Nat := 0
  b : Nat := 0
  overMark : Bool := false
  deriving DecidableEq, Repr

/-- MODEL: the sub-tile being served, the box read for it, and whether it is served under overspan. -/
structure Serving where
  rect : Rect
  box : Box
  overspan : Bool
  deriving DecidableEq, Repr

/-- R65. -/
structure TileUnit where
  row : Nat := 0
  col : Nat := 0
  positions : List PixelPos := []
  subTiles : List Rect := []
  buffer : FootprintBuffer := {}
  samples : List Sample := []
  outOfFrame : Nat := 0
  overspan : Nat := 0
  overrange : Nat := 0
  overspanInd : Bool := false
  serving : Option Serving := none
  deriving DecidableEq, Repr

/-! ### Output Writer and Pool Manager -/

/-- R121, R125: the sums of one PREVIEW entry for the tile in hand, block row after block row. -/
structure Accum where
  entry : Nat
  sums : List (Nat × Nat × Nat)
  deriving DecidableEq, Repr

/-- MODEL: a quantized row that waits to be written. -/
structure RowWrite where
  offset : Nat
  bytes : List Byte
  deriving DecidableEq, Repr

/-- MODEL: a quantized row part of a derived entry that waits to be written. -/
structure DerivedRow where
  entry : Nat
  offset : Nat
  bytes : List Byte
  deriving DecidableEq, Repr

/-- R23, R121. -/
structure Writer where
  dither : Word := Config.ditherReset
  accums : List Accum := []
  outRows : List RowWrite := []
  derivedRows : List DerivedRow := []
  deriving DecidableEq, Repr

/-- R121: an entry of the held-slot list. `desc` is the offset of the pool's descriptor. -/
structure HeldSlot where
  entry : Nat
  pool : Nat
  slot : Nat
  offset : Nat
  depth : Nat
  width : Nat
  height : Nat
  pitch : Nat
  desc : Nat
  deriving DecidableEq, Repr

/-- R121. -/
structure PoolManager where
  heldSlots : List HeldSlot := []
  deriving DecidableEq, Repr

/-- R122: a pool as read for one judging. Slots are (offset, state) pairs. -/
structure PoolView where
  desc : Nat
  slotCount : Nat
  depth : Nat
  slotSize : Nat
  lastFilled : Nat
  dropCount : Nat
  slots : List (Nat × Nat)
  deriving DecidableEq, Repr

/-! ### Pace Monitor -/

/-- R138. -/
structure PaceMonitor where
  takeTime : Word := 0
  overruns : Word := 0
  consecutive : Nat := 0
  relief : Bool := false
  reliefForTake : Bool := false
  deriving DecidableEq, Repr

/-! ### The work of the look or of the group in flight -/

/-- Why a chain record is read (R93, R94, R95, R98, R104, R105). -/
inductive ReadWhy where
  | cursor | cursorLink | advance | lookAhead | subchain | callReread
  deriving DecidableEq, Repr

/-- Why a chain record is written outside retirement (R109, R110, R100). `completion` says that a
completion write is in progress and the state write is still to follow. -/
inductive WriteWhy where
  | taken
  | groupStart (completion : Bool) (kind : RecordKind)
  | unterminated
  deriving DecidableEq, Repr

/-- R37: how far a load is. -/
inductive LoadStage where
  | directory (entry : Nat)
  | header (offset : Nat)
  | node (offset index count : Nat)
  deriving DecidableEq, Repr

/-- The access, or the sequence of accesses, that ends in one step of the table. -/
inductive Job where
  | recordRead (why : ReadWhy) (offset : Nat)
  | recordWrite (why : WriteWhy) (offset : Nat)
  | boardHeader
  | boardNewest (n : Nat)
  | boardPrevious (newest : List Byte)
  | load (victim : CacheSlot) (lens : Nat) (stage : LoadStage)
  | poolTable (entry : Nat)
  | poolHeader (entry desc : Nat)
  | poolSlots (entry : Nat) (pool : PoolView)
  | slotBusy (slot : HeldSlot)
  | dropCount (entry : Nat)
  | slotEmpty (entry : Nat)
  | releaseFilled (slot : HeldSlot)
  | releaseIndex (slot : HeldSlot)
  | rows (row : Nat)
  | outRow
  | derivedRow (entry : Nat)
  | rawRead (entry row : Nat)
  | rawWrite (entry row : Nat)
  | retire (todo : List Request) (failed : Bool)
  /-- A look ended by an immediate halt whose access still runs in the Port (R144). `startWrite` is the kind of
  the record when that access is the state write of a group-start handling (R109). -/
  | abandoned (startWrite : Option RecordKind)
  deriving DecidableEq, Repr

/-- A job, and its result once its accesses have ended: success, what the reads returned, and TIME at
the end of the last access (R50). -/
structure Work where
  job : Job
  ended : Bool := false
  ok : Bool := false
  data : List Byte := []
  endedAt : Word := 0
  deriving DecidableEq, Repr

/-- R100: the fault writes of an unterminated group still to make, the second FRAME, and the first
record whose write failed. MODEL. -/
structure Unterminated where
  todo : List (Nat × Request)
  second : Nat
  failed : Option Nat := none
  deriving DecidableEq, Repr

/-- R97, R105, R108. -/
structure ChainReader where
  group : Group := {}
  flight : Flight := {}
  returnStack : List Nat := []
  override : Override := {}
  unterminated : Option Unterminated := none
  deriving DecidableEq, Repr

/-! ### The whole machine -/

/-- The GJ-2600, the camera's DRAM as it reaches it, and the queue of commands and events that wait. -/
structure State where
  reg : RegisterInterface
  ec : Controller
  chain : ChainReader
  lens : LensUnit
  cache : Cache
  tables : Tables
  tile : TileUnit
  writer : Writer
  pools : PoolManager
  pace : PaceMonitor
  port : Port
  work : Option Work
  dram : List Host.Cell
  freeCount : Nat
  pending : List Instr
  deriving DecidableEq, Repr

/-- The machine right after a reset has ended (R165, R166, and the rules they name), with the
frame-ready line low, DRAM with nothing listed and an empty queue (assumption log 1, 3, 4, 5, 6). -/
def State.reset : State where
  reg := {}
  ec := {}
  chain := {}
  lens := {}
  cache := {}
  tables := {}
  tile := {}
  writer := {}
  pools := {}
  pace := {}
  port := {}
  work := none
  dram := []
  freeCount := 0
  pending := []

end Sys2Proof.Machine
end

