-- ==== Sys2Proof/Machine/Bytes.lean ====
section
/-! DEFINITION. Bytes and numbers: little-endian fields (Conventions, "Byte order and offsets") and the
rounding of the Conventions. -/

namespace Sys2Proof.Machine

/-- The number a run of bytes spells, the first byte the least significant. -/
def leNat : List Byte → Nat
  | [] => 0
  | b :: rest => b.toNat + 256 * leNat rest

/-- A number in `width` bytes, the least significant first. -/
def leBytes : Nat → Nat → List Byte
  | 0, _ => []
  | width + 1, n => BitVec.ofNat 8 n :: leBytes width (n / 256)

/-- The unsigned field of `width` bytes at `offset`. -/
def field (bytes : List Byte) (offset width : Nat) : Nat :=
  leNat ((bytes.drop offset).take width)

/-- Two's complement of `bits` bits ("Signed fields"). -/
def signed (bits n : Nat) : Int :=
  let v := n % 2 ^ bits
  if v < 2 ^ (bits - 1) then (v : Int) else (v : Int) - 2 ^ bits

/-- `n` bytes of 0. -/
def zeroBytes (n : Nat) : List Byte := List.replicate n 0

/-- A flag as a byte: 1 set, 0 clear. -/
def flagByte (b : Bool) : List Byte := [if b then 1 else 0]

/-- rnd(n / d) for positive d: to the nearest integer, halves away from zero ("Rounding"). -/
def rndDiv (n d : Int) : Int :=
  if 0 ≤ n then (2 * n + d) / (2 * d) else -((2 * -n + d) / (2 * d))

/-- "A value clamped to a..b". -/
def clampInt (lo hi v : Int) : Int := if v < lo then lo else if hi < v then hi else v

/-- Rounded up to a multiple of 64 (R123). -/
def roundUp64 (n : Nat) : Nat := (n + 63) / 64 * 64

end Sys2Proof.Machine
end

