-- ==== Sys2Proof/Machine/Memory.lean ====
section
/-! DEFINITION. The camera's DRAM as a list of (bus address, byte) pairs in one canonical form: addresses
strictly rising, and no entry equal to what an unlisted address reads as. -/

namespace Sys2Proof.Machine

/-- The byte at an address. -/
def memGet : List Host.Cell → Nat → Byte
  | [], _ => Config.unlistedByte
  | c :: rest, a => if c.1 = a then c.2 else if a < c.1 then Config.unlistedByte else memGet rest a

/-- Writes one byte, keeping the canonical form. -/
def memSet : List Host.Cell → Nat → Byte → List Host.Cell
  | [], a, b => if b = Config.unlistedByte then [] else [(a, b)]
  | c :: rest, a, b =>
    if c.1 < a then c :: memSet rest a b
    else if c.1 = a then (if b = Config.unlistedByte then rest else (a, b) :: rest)
    else if b = Config.unlistedByte then c :: rest else (a, b) :: c :: rest

/-- The bytes of a read access. -/
def memRead (m : List Host.Cell) (a len : Nat) : List Byte :=
  (List.range len).map fun i => memGet m (a + i)

/-- Places a run of bytes. -/
def memWrite : List Host.Cell → Nat → List Byte → List Host.Cell
  | m, _, [] => m
  | m, a, b :: rest => memWrite (memSet m a b) (a + 1) rest

/-- Places those bytes of a run whose place (counted from `i`) `placed` picks (R173, R177). -/
def memWriteSome (placed : Nat → Bool) : List Host.Cell → Nat → Nat → List Byte → List Host.Cell
  | m, _, _, [] => m
  | m, a, i, b :: rest =>
    memWriteSome placed (if placed i then memSet m (a + i) b else m) a (i + 1) rest

/-- What other masters of the memory wrote, in the order listed. -/
def memLand : List Host.Cell → List Host.Cell → List Host.Cell
  | m, [] => m
  | m, c :: rest => memLand (memSet m c.1 c.2) rest

/-- The canonical form holds. -/
def memWf : List Host.Cell → Bool
  | [] => true
  | [c] => decide (c.2 ≠ Config.unlistedByte)
  | c :: d :: rest =>
    decide (c.2 ≠ Config.unlistedByte) && decide (c.1 < d.1) && memWf (d :: rest)

end Sys2Proof.Machine
end

