-- ==== Sys2Proof/Machine/Flags.lean ====
section
/-! DEFINITION. Encoded values and sets of flags: the codes of 10.1, the event bits of 10.9, the
resolution flags and warnings, and the interrupt line. -/

namespace Sys2Proof.Machine

/-! ### Event bits (10.9) -/

/-- The mask of event bit `n`. -/
def eventBit (n : Nat) : BitVec 10 := 1#10 <<< n

def evGroupDone : BitVec 10 := eventBit 0
def evRecordFault : BitVec 10 := eventBit 1
def evHalt : BitVec 10 := eventBit 2
def evStopped : BitVec 10 := eventBit 3
def evParked : BitVec 10 := eventBit 4
def evLensChange : BitVec 10 := eventBit 5
def evLensStale : BitVec 10 := eventBit 6
def evOverrun : BitVec 10 := eventBit 7
def evPoolDrop : BitVec 10 := eventBit 8
def evCmdRefused : BitVec 10 := eventBit 9

/-- `e` when the cause holds, nothing otherwise. -/
def eventWhen (cause : Bool) (e : BitVec 10) : BitVec 10 := if cause then e else 0

/-- R148: the interrupt line is asserted exactly when EVENTS AND LINE_ENABLE is non-zero. -/
def lineAsserted (s : State) : Bool := decide (s.reg.events &&& s.reg.lineEnable ≠ 0)

/-! ### Codes (10.1) -/

def EngineState.code : EngineState → Nat
  | .stopped => 0 | .starting => 1 | .parked => 2 | .working => 3 | .stopping => 4 | .halted => 5

def HaltReason.code : HaltReason → Nat
  | .noHalt => 0 | .linkBad => 1 | .callBad => 2 | .stackFull => 3 | .stackEmpty => 4
  | .subchainState => 5 | .subchainFrame => 6 | .unterminated => 7 | .badKind => 8
  | .chainRead => 9 | .recordWrite => 10 | .statusWrite => 11 | .config => 12

def FaultCode.code : FaultCode → Nat
  | .groupUnterminated => 0x01 | .groupFull => 0x02 | .orphan => 0x03 | .format => 0x04
  | .window => 0x05 | .recordWrite => 0x06 | .aborted => 0x07 | .sourceRead => 0x08
  | .outputWrite => 0x09 | .poolBad => 0x0A | .tooLarge => 0x0B | .write => 0x0C

def EntryState.code : EntryState → Nat
  | .empty => 0 | .loading => 1 | .ready => 2 | .invalid => 3

def RecordState.code : RecordState → Nat
  | .opened => 0 | .ready => 1 | .taken => 2 | .done => 3 | .skipped => 4 | .faulted => 5
  | .standing => 6

/-- `none` is an unrecognized state (R87). -/
def recordStateOf (n : Nat) : Option RecordState :=
  match n with
  | 0 => some .opened | 1 => some .ready | 2 => some .taken | 3 => some .done
  | 4 => some .skipped | 5 => some .faulted | 6 => some .standing | _ => none

/-- `none` is an unknown kind (R87). -/
def recordKindOf (n : Nat) : Option RecordKind :=
  match n with
  | 1 => some .frame | 2 => some .derived | 3 => some .call | 4 => some .ret
  | 5 => some .override | _ => none

/-- 10.1: the result of a derived entry as a number. -/
def EntryResult.code : EntryResult → Nat
  | .filled _ => 1 | .dropped => 2 | .skippedCondition => 3 | .skippedRelief => 4 | .faulted _ => 5

/-- 10.1: NOT_RUN. -/
def notRunCode : Nat := 6

/-! ### Resolution flags (10.1) and warnings (10.2) -/

/-- The seven flags in one byte, STALE in bit 0. -/
def ResFlags.bits (f : ResFlags) : Nat :=
  f.stale.toNat + 2 * f.hold.toNat + 4 * f.moving.toNat + 8 * f.lensNew.toNat +
    16 * f.unknownLens.toNat + 32 * f.outsideGrid.toNat + 64 * f.override.toNat

/-- R118: whether a flag of the mask is among the frame's flags; bit 7 stands for no flag. -/
def ResFlags.meets (f : ResFlags) (mask : Nat) : Bool :=
  decide (BitVec.ofNat 7 f.bits &&& BitVec.ofNat 7 mask ≠ 0)

/-- R118: whether the condition lets an entry run: sense 1 ANY, 2 NONE. -/
def conditionRuns (f : ResFlags) (mask sense : Nat) : Bool :=
  if sense = 1 then f.meets mask else !f.meets mask

/-- R135: OUT_OF_FRAME bit 0, OVERSPAN bit 1, SOURCE_OVERRANGE bit 2. -/
def warningBits (t : TileUnit) : Nat :=
  (decide (t.outOfFrame ≠ 0)).toNat + 2 * t.overspanInd.toNat + 4 * (decide (t.overrange ≠ 0)).toNat

/-- R140: when pace relief is active. -/
def reliefActive (threshold consecutive : Nat) : Bool :=
  decide (threshold ≠ 0) && decide (threshold ≤ consecutive)

end Sys2Proof.Machine
end

