-- ==== Sys2Proof/Machine/Operands.lean ====
section
/-! DEFINITION. What the engine reads from bytes: chain records, the configuration block, the lens sample
board, directory and profiles, pools (chapter 10), each field where its table places it. -/

namespace Sys2Proof.Machine

/-! ### Chain records (10.2) -/

/-- The common part of a record. -/
structure RecordHead where
  state : Option RecordState
  kind : Option RecordKind
  endFlag : Bool
  notify : Bool
  link : Nat
  deriving DecidableEq, Repr

def recordHead (b : List Byte) : RecordHead where
  state := recordStateOf (field b 0x00 4)
  kind := recordKindOf (field b 0x04 1)
  endFlag := (field b 0x05 1).testBit 0
  notify := (field b 0x05 1).testBit 1
  link := field b 0x08 4

def frameFields (b : List Byte) : FrameFields where
  frameNumber := field b 0x50 4
  srcOffset := field b 0x54 4
  srcPitch := field b 0x58 4
  srcW := field b 0x5C 2
  srcH := field b 0x5E 2
  outOffset := field b 0x60 4
  outPitch := field b 0x64 4
  outW := field b 0x68 2
  outH := field b 0x6A 2
  depth := field b 0x6C 1
  edge := field b 0x6D 1
  scan := field b 0x6E 1
  dither := field b 0x6F 1
  strength := field b 0x70 2
  seedPresent := decide (field b 0x72 1 ≠ 0)
  seed := field b 0x74 4
  fillR := field b 0x78 2
  fillG := field b 0x7A 2
  fillB := field b 0x7C 2

def derivedFields (b : List Byte) : DerivedFields where
  kind := field b 0x10 1
  pool := field b 0x11 1
  mask := field b 0x12 1
  sense := field b 0x13 1
  yields := decide (field b 0x14 1 ≠ 0)
  factor := field b 0x15 1
  rx := field b 0x18 2
  ry := field b 0x1A 2
  rw := field b 0x1C 2
  rh := field b 0x1E 2

/-- The target of a CALL record. -/
def callTarget (b : List Byte) : Nat := field b 0x10 4

/-- A field is read only when its presence bit is set (10.2). -/
def presentField (b : List Byte) (bit offset width : Nat) : Option Nat :=
  if (field b 0x10 1).testBit bit then some (field b offset width) else none

def overrideFields (b : List Byte) : Override where
  lens := presentField b 0 0x14 4
  zoom := presentField b 1 0x18 2
  focus := presentField b 2 0x1A 2
  strength := presentField b 3 0x1C 2

/-- R107: each field the record marks present replaces the override's; the others stay. -/
def Override.merge (held record : Override) : Override where
  lens := record.lens.or held.lens
  zoom := record.zoom.or held.zoom
  focus := record.focus.or held.focus
  strength := record.strength.or held.strength

/-! ### The configuration block (10.3) -/

/-- The fields as read, before the checks and clamps. -/
def configFields (b : List Byte) : ConfigCopy where
  rescanInterval := field b 0x00 2
  chainHead := field b 0x04 4
  rn := field b 0x08 2
  settleMode := field b 0x0A 1
  reliefThreshold := field b 0x0B 1
  opticalX := field b 0x0C 4
  opticalY := field b 0x10 4
  boardOffset := field b 0x14 4
  dirOffset := field b 0x18 4
  dirLength := field b 0x1C 2
  poolCount := field b 0x1E 1
  retryCount := field b 0x1F 1
  poolTable := field b 0x20 4
  staleLimit := field b 0x24 2
  holdLimit := field b 0x26 2
  zoomTol := field b 0x28 2
  focusTol := field b 0x2A 2
  frameBudget := field b 0x2C 4
  retryDelay := field b 0x30 2

/-- R158 in the order of its table: each check with the offset that a failure of it names (R157). -/
def configChecks (c : ConfigCopy) (window : Nat) : List (Bool × Nat) :=
  [ (decide (1 ≤ c.rn ∧ c.rn ≤ 8192), 0x08),
    (decide (c.opticalX ≤ 131072), 0x0C),
    (decide (c.opticalY ≤ 98304), 0x10),
    (decide (c.chainHead ≠ 0 ∧ c.chainHead % 64 = 0 ∧ c.chainHead + 128 ≤ window), 0x04),
    (decide (c.boardOffset ≠ 0 ∧ c.boardOffset % 64 = 0 ∧ c.boardOffset + 256 ≤ window), 0x14),
    (decide (c.dirLength ≤ 64), 0x1C),
    (decide (c.dirOffset % 8 = 0 ∧ (c.dirLength ≠ 0 → c.dirOffset ≠ 0) ∧
      c.dirOffset + 8 * c.dirLength ≤ window), 0x18),
    (decide (c.poolCount ≤ 8), 0x1E),
    (decide (c.poolCount ≠ 0 → c.poolTable ≠ 0 ∧ c.poolTable % 4 = 0 ∧
      c.poolTable + 4 * c.poolCount ≤ window), 0x20),
    (decide (1 ≤ c.staleLimit), 0x24),
    (decide (1 ≤ c.holdLimit), 0x26),
    (decide (c.settleMode = 1 ∨ c.settleMode = 2), 0x0A),
    (decide (c.frameBudget ≤ 1000000), 0x2C),
    (decide (c.reliefThreshold ≤ 15), 0x0B),
    (decide (c.retryDelay ≤ 1023), 0x30) ]

/-- The offset of the first check that fails. -/
def configFault (c : ConfigCopy) (window : Nat) : Option Nat :=
  ((configChecks c window).find? fun p => !p.1).map Prod.snd

/-- R158: the clamps of a clean read. -/
def clampConfig (c : ConfigCopy) : ConfigCopy :=
  { c with
    holdLimit := max c.holdLimit c.staleLimit
    zoomTol := min c.zoomTol 4095
    focusTol := min c.focusTol 4095
    retryCount := min c.retryCount 7 }

/-! ### The lens sample board (10.5) -/

/-- R49: one slot as read; a focus above 4095 is taken as 4095. -/
structure LensSample where
  seq : Nat
  stamp : Word
  lens : Nat
  zoom : Nat
  focus : Nat
  valid : Bool
  deriving DecidableEq, Repr

def lensSample (b : List Byte) : LensSample where
  seq := field b 0x00 4
  stamp := BitVec.ofNat 32 (field b 0x04 4)
  lens := field b 0x08 4
  zoom := field b 0x0C 2
  focus := min (field b 0x0E 2) 4095
  valid := decide (field b 0x10 4 ≠ 0)

/-- R48: the newest-slot index, modulo 8. -/
def newestIndex (header : List Byte) : Nat := field header 0 1 % 8

/-- R50: the slot before slot `n`. -/
def slotBefore (n : Nat) : Nat := if n = 0 then 7 else n - 1

/-- 10.5: where slot `n` lies from the start of the board. -/
def boardSlotOffset (n : Nat) : Nat := 0x08 + 24 * n

/-! ### Directory and profiles (10.6) -/

/-- R30: a node's fields. -/
def nodeFields (b : List Byte) : Coeffs where
  k1 := signed 24 (field b 0x00 4)
  k2 := signed 24 (field b 0x04 4)
  k3 := signed 24 (field b 0x08 4)
  ar := signed 16 (field b 0x0C 2)
  br := signed 16 (field b 0x0E 2)
  ab := signed 16 (field b 0x10 2)
  bb := signed 16 (field b 0x12 2)
  sx := signed 16 (field b 0x14 2)
  sy := signed 16 (field b 0x16 2)

def headerLens (b : List Byte) : Nat := field b 0x00 4
def headerNz (b : List Byte) : Nat := field b 0x04 1
def headerNf (b : List Byte) : Nat := field b 0x05 1

/-- The used zoom stops and focus codes and the rest node of a header; no node read yet. -/
def headerProfile (b : List Byte) : Profile where
  zooms := (List.range (headerNz b)).map fun i => field b (0x08 + 2 * i) 2
  foci := (List.range (headerNf b)).map fun j => field b (0x28 + 2 * j) 2
  restZoom := field b 0x06 1
  restFocus := field b 0x07 1
  nodes := []

/-- Strictly ascending (R31, checks 5 and 6). -/
def ascending : List Nat → Bool
  | [] => true
  | [_] => true
  | a :: b :: rest => decide (a < b) && ascending (b :: rest)

/-- R31, checks 3 to 8, on the header read at `offset` for lens `lens`. -/
def headerOk (b : List Byte) (lens offset window : Nat) : Bool :=
  let p := headerProfile b
  decide (headerLens b = lens) &&
  decide (1 ≤ headerNz b ∧ headerNz b ≤ 16 ∧ 1 ≤ headerNf b ∧ headerNf b ≤ 8) &&
  ascending p.zooms &&
  (ascending p.foci && p.foci.all fun f => decide (f ≤ 4095)) &&
  decide (p.restZoom < headerNz b ∧ p.restFocus < headerNf b) &&
  decide (offset + 64 + 32 * headerNz b * headerNf b ≤ window)

/-- R31, checks 1 and 2: the offset, and the header inside the window. -/
def profilePlaceOk (offset window : Nat) : Bool :=
  decide (offset ≠ 0 ∧ offset % 64 = 0 ∧ offset + 64 ≤ window)

/-! ### Pools (10.7) -/

/-- The header fields of a descriptor at `desc`; the slots are not read yet. -/
def poolHeaderView (desc : Nat) (b : List Byte) : PoolView where
  desc := desc
  slotCount := field b 0x00 1
  depth := field b 0x01 1
  slotSize := field b 0x04 4
  lastFilled := field b 0x08 4
  dropCount := field b 0x0C 4
  slots := []

/-- Offset and state of each slot entry. -/
def slotEntries (count : Nat) (b : List Byte) : List (Nat × Nat) :=
  (List.range count).map fun i => (field b (16 * i) 4, field b (16 * i + 4) 4)

/-- 8, 10 and 12 are the output depths. -/
def depthOk (d : Nat) : Bool := decide (d = 8 ∨ d = 10 ∨ d = 12)

/-- Bytes per pixel: 3, 4 or 6 at depth 8, 10 or 12 (10.8). -/
def bytesPerPixel (d : Nat) : Nat := if d = 8 then 3 else if d = 10 then 4 else 6

/-- R122: offset and extent of a descriptor header. -/
def descPlaceOk (desc window : Nat) : Bool :=
  decide (desc ≠ 0 ∧ desc % 64 = 0 ∧ desc + 32 ≤ window)

/-- R122: the header's own fields and the extent of the whole descriptor. -/
def poolHeaderOk (p : PoolView) (window : Nat) : Bool :=
  decide (1 ≤ p.slotCount ∧ p.slotCount ≤ 16) && depthOk p.depth &&
    decide (p.desc + 32 + 16 * p.slotCount ≤ window)

/-! ### Links (R90) -/

/-- A non-zero offset that is a multiple of 64 with the record inside the window. -/
def offsetOk (off window : Nat) : Bool := decide (off % 64 = 0 ∧ off + 128 ≤ window)

end Sys2Proof.Machine
end

