-- ==== Sys2Proof/Machine/Ops.lean ====
section
/-! DEFINITION. Named operations: one updater per block of State, events, the window, and handing the
Memory Port a request. -/

namespace Sys2Proof.Machine

/-! ### One updater per block -/

def State.mapReg (s : State) (f : RegisterInterface → RegisterInterface) : State := { s with reg := f s.reg }
def State.mapEc (s : State) (f : Controller → Controller) : State := { s with ec := f s.ec }
def State.mapChain (s : State) (f : ChainReader → ChainReader) : State := { s with chain := f s.chain }
def State.mapLens (s : State) (f : LensUnit → LensUnit) : State := { s with lens := f s.lens }
def State.mapCache (s : State) (f : Cache → Cache) : State := { s with cache := f s.cache }
def State.mapTile (s : State) (f : TileUnit → TileUnit) : State := { s with tile := f s.tile }
def State.mapWriter (s : State) (f : Writer → Writer) : State := { s with writer := f s.writer }
def State.mapPools (s : State) (f : PoolManager → PoolManager) : State := { s with pools := f s.pools }
def State.mapPace (s : State) (f : PaceMonitor → PaceMonitor) : State := { s with pace := f s.pace }
def State.mapPort (s : State) (f : Port → Port) : State := { s with port := f s.port }
def State.setTables (s : State) (t : Tables) : State := { s with tables := t }
def State.setWork (s : State) (w : Option Work) : State := { s with work := w }
def State.setDram (s : State) (m : List Host.Cell) : State := { s with dram := m }

/-- The group under assembly or in flight. -/
def State.mapGroup (s : State) (f : Group → Group) : State :=
  s.mapChain fun c => { c with group := f c.group }

/-- What the blocks hand one another for the group in flight. -/
def State.mapFlight (s : State) (f : Flight → Flight) : State :=
  s.mapChain fun c => { c with flight := f c.flight }

/-! ### Events (R145) -/

/-- Sets event bits; a bit already set stays set. -/
def State.setEvents (s : State) (e : BitVec 10) : State :=
  s.mapReg fun r => { r with events := r.events ||| e }

/-! ### The window (R164, R167) -/

/-- The window size in bytes. -/
def State.window (s : State) : Nat := s.reg.winSize.toNat * 4096

/-- The bus address of an offset, formed exactly. -/
def State.busAddress (s : State) (offset : Nat) : Nat := s.reg.winBase.toNat * 4096 + offset

/-! ### Requests (R170) -/

/-- A block hands the Port a request: it joins the end of the request list. `settle` (Port.lean) begins
it in the same step when the Port is free. -/
def State.submit (s : State) (r : Request) : State :=
  s.mapPort fun p => { p with requests := p.requests ++ [r] }

/-- The sequential work of the look or of the group goes on with one access. -/
def State.doJob (s : State) (j : Job) (r : Request) : State :=
  (s.setWork (some { job := j })).submit r

/-- The job at hand has ended and waits for the step that acts on it. -/
def State.endJob (s : State) (j : Job) (ok : Bool) (data : List Byte) : State :=
  s.setWork (some { job := j, ended := true, ok := ok, data := data, endedAt := s.reg.time })

/-! ### Kinds of request (R171) -/

def recordReadReq (off : Nat) : Request :=
  { block := .chainReader, kind := .recordRead, offset := off, length := 128 }

/-- A state write: the state word of the record at `off`. -/
def stateWriteReq (off : Nat) (st : RecordState) : Request :=
  { block := .chainReader, kind := .recordStateWrite, offset := off, length := 4,
    data := some (leBytes 4 st.code) }

/-- A completion write: the access that starts at 0x0C of the record. -/
def completionReq (off : Nat) (bytes : List Byte) : Request :=
  { block := .chainReader, kind := .recordCompletionWrite, offset := off + 0x0C,
    length := bytes.length, data := some bytes }

def lensReadReq (kind : AccessKind) (off len : Nat) : Request :=
  { block := .lensStateUnit, kind := kind, offset := off, length := len }

def resolverReadReq (kind : AccessKind) (off len : Nat) : Request :=
  { block := .resolver, kind := kind, offset := off, length := len }

def poolReadReq (kind : AccessKind) (off len : Nat) : Request :=
  { block := .poolManager, kind := kind, offset := off, length := len }

def poolWriteReq (kind : AccessKind) (off : Nat) (bytes : List Byte) : Request :=
  { block := .poolManager, kind := kind, offset := off, length := bytes.length, data := some bytes }

def rowWriteReq (kind : AccessKind) (off : Nat) (bytes : List Byte) : Request :=
  { block := .outputWriter, kind := kind, offset := off, length := bytes.length, data := some bytes }

def sourceReadReq (block : Block) (off len : Nat) : Request :=
  { block := block, kind := .sourceRowRead, offset := off, length := len }

end Sys2Proof.Machine
end

