-- ==== Sys2Proof/Machine/Geometry.lean ====
section
/-! DEFINITION. Chapter 1: the radial scale tables, the frame centre, the mapping of an output pixel, the
edge policy, bilinear sampling, quantization and dither. Every product and quotient is exact. -/

namespace Sys2Proof.Machine

/-! ### The tables (R5 to R9) -/

/-- R5: Graw. -/
def graw (c : Coeffs) (i : Int) : Int :=
  65536 + rndDiv (c.k1 * i * 4096 + c.k2 * i ^ 2 * 64 + c.k3 * i ^ 3) 4194304

/-- R6: every entry lies in 32768..131071. -/
def clampEntry (v : Int) : Int := clampInt 32768 131071 v

/-- R6: the green entry of index `i` at strength `s`. -/
def greenEntry (c : Coeffs) (s i : Int) : Int :=
  clampEntry (65536 + rndDiv ((graw c i - 65536) * s) 256)

/-- R7: the red or blue entry of index `i` from the green one, with its two colour terms. -/
def tintEntry (gs a b s i : Int) : Int :=
  clampEntry (gs + rndDiv (gs * (a * 64 + b * i) * s) (2 ^ 36))

/-- The 129 indexes of a table. -/
def tableIndexes : List Int := (List.range 129).map fun i => (i : Int)

/-- R9: one coordinate of the frame centre; `extent` is the source width or height in pixels. -/
def centreCoord (optical shift extent : Int) : Int :=
  clampInt 0 (16 * extent) (optical + clampInt (-1024) 1024 shift)

/-- R2 to R9: the build for a frame. `strength` is 0 and the set all zeros under UNKNOWN_LENS (R3, R4). -/
def buildTables (c : Coeffs) (strength : Nat) (cfg : ConfigCopy) (f : FrameFields) : Tables where
  green := tableIndexes.map fun i => greenEntry c strength i
  red := tableIndexes.map fun i => tintEntry (greenEntry c strength i) c.ar c.br strength i
  blue := tableIndexes.map fun i => tintEntry (greenEntry c strength i) c.ab c.bb strength i
  cx16 := centreCoord cfg.opticalX c.sx f.srcW
  cy16 := centreCoord cfg.opticalY c.sy f.srcH

/-! ### From output pixel to source position (R10 to R13) -/

/-- R10: the offset of a pixel's centre from the output centre on one axis, in 1/16 px. -/
def centreOffset (x extent : Nat) : Int := 16 * (x : Int) + 8 - 8 * (extent : Int)

/-- R11: the normalized squared radius, clamped to 131071. -/
def radiusU (dx dy : Int) (rn : Nat) : Nat :=
  min (((dx ^ 2 + dy ^ 2) * 65536) / (256 * (rn : Int) ^ 2)).toNat 131071

/-- R12: the magnification of one colour at `u`. -/
def magnification (table : List Int) (u : Nat) : Int :=
  let idx := u / 1024
  let frac := u - 1024 * idx
  let lower := table.getD idx 65536
  lower + rndDiv ((table.getD (idx + 1) 65536 - lower) * frac) 1024

/-- R13: the sampling position of one colour. -/
def samplePos (t : Tables) (s dx dy : Int) : Pos where
  xs := t.cx16 + rndDiv (dx * s) 65536 - 8
  ys := t.cy16 + rndDiv (dy * s) 65536 - 8

/-! ### Edge policy (R14 to R16) -/

/-- R14: a position is in frame. -/
def inFrame (w h : Nat) (p : Pos) : Bool :=
  decide (0 ≤ p.xs ∧ p.xs ≤ 16 * ((w : Int) - 1) ∧ 0 ≤ p.ys ∧ p.ys ≤ 16 * ((h : Int) - 1))

/-- R15: each coordinate clamped into its range. -/
def clampPos (w h : Nat) (p : Pos) : Pos where
  xs := clampInt 0 (16 * ((w : Int) - 1)) p.xs
  ys := clampInt 0 (16 * ((h : Int) - 1)) p.ys

/-- R68: the three positions of an output pixel before the edge policy. -/
def rawPositions (t : Tables) (f : FrameFields) (rn x y : Nat) : Pos × Pos × Pos :=
  let dx := centreOffset x f.outW
  let dy := centreOffset y f.outH
  let u := radiusU dx dy rn
  (samplePos t (magnification t.red u) dx dy, samplePos t (magnification t.green u) dx dy,
    samplePos t (magnification t.blue u) dx dy)

/-- R15, R16: a pixel is counted when any colour is out of frame. -/
def pixelOut (t : Tables) (f : FrameFields) (rn x y : Nat) : Bool :=
  let (r, g, b) := rawPositions t f rn x y
  !(inFrame f.srcW f.srcH r && inFrame f.srcW f.srcH g && inFrame f.srcW f.srcH b)

/-- R68: what the position store keeps for an output pixel. Edge policy 1 is CLAMP, 2 is FILL; the
positions of a fill-marked pixel are not kept. DESIGN CHOICE: the store then shows (0, 0) for all three colours
(assumption log 39). -/
def pixelPos (t : Tables) (f : FrameFields) (rn x y : Nat) : PixelPos :=
  let (r, g, b) := rawPositions t f rn x y
  let out := pixelOut t f rn x y
  if f.edge = 2 then
    if out then { fill := true, r := ⟨0, 0⟩, g := ⟨0, 0⟩, b := ⟨0, 0⟩ }
    else { fill := false, r := r, g := g, b := b }
  else
    { fill := false, r := clampPos f.srcW f.srcH r, g := clampPos f.srcW f.srcH g,
      b := clampPos f.srcW f.srcH b }

/-! ### Bilinear sampling (R18, R19) -/

/-- R18: the whole pixel and the fraction of a coordinate that is in frame. -/
def wholePart (v : Int) : Nat := (v / 16).toNat
def fracPart (v : Int) : Nat := (v % 16).toNat

/-- R19. -/
def bilinear (fx fy p00 p10 p01 p11 : Nat) : Nat :=
  ((16 - fx) * (16 - fy) * p00 + fx * (16 - fy) * p10 + (16 - fx) * fy * p01 + fx * fy * p11 + 128) / 256

/-! ### Quantization and dither (R21 to R26) -/

/-- The low bits dropped at a depth. -/
def dropBits (depth : Nat) : Nat := 12 - depth

/-- R21, R26: quantization with ROUND; depth 12 leaves the value unchanged. -/
def quantRound (depth v : Nat) : Nat :=
  if depth = 12 then v
  else min ((v + 2 ^ (dropBits depth - 1)) / 2 ^ dropBits depth) (2 ^ depth - 1)

/-- R23: one step of the generator. -/
def ditherStep (x : Word) : Word :=
  let x := x ^^^ (x <<< 13)
  let x := x ^^^ (x >>> 17)
  x ^^^ (x <<< 5)

/-- R22: quantization with the generator's next output `g`. -/
def quantDither (depth v : Nat) (g : Word) : Nat :=
  min ((v + g.toNat % 2 ^ dropBits depth) / 2 ^ dropBits depth) (2 ^ depth - 1)

/-- R24: what a seed loads. -/
def seedState (seed : Nat) : Word :=
  if BitVec.ofNat 32 seed = 0 then Config.ditherReset else BitVec.ofNat 32 seed

/-- Three quantized components in the pixel format of a depth (10.8). -/
def pixelBytes (depth r g b : Nat) : List Byte :=
  if depth = 8 then leBytes 1 r ++ leBytes 1 g ++ leBytes 1 b
  else if depth = 10 then leBytes 4 (r + g * 1024 + b * 1048576)
  else leBytes 2 r ++ leBytes 2 g ++ leBytes 2 b

end Sys2Proof.Machine
end

