-- ==== Sys2Proof/Machine/Resolver.lean ====
section
/-! DEFINITION. Chapter 2: interpolation of the coefficient set, and the profile cache's operations. -/

namespace Sys2Proof.Machine

/-! ### Interpolation (R43 to R46) -/

/-- R43: lower index, upper index and weight on one axis. -/
def bracket (stops : List Nat) (v : Nat) : Nat × Nat × Nat :=
  let last := stops.length - 1
  if v ≤ stops.getD 0 0 then (0, 0, 0)
  else if stops.getD last 0 ≤ v then (last, last, 0)
  else
    let i := stops.countP (· ≤ v) - 1
    let z := stops.getD i 0
    (i, i + 1, (v - z) * 4096 / (stops.getD (i + 1) 0 - z))

/-- R44: a value outside the stops of an axis; an axis of one stop never flags. -/
def outsideAxis (stops : List Nat) (v : Nat) : Bool :=
  decide (stops.length ≠ 1) &&
    (decide (v < stops.getD 0 0) || decide (stops.getD (stops.length - 1) 0 < v))

/-- R45: the blend of a toward b by w. -/
def blend (a b : Int) (w : Nat) : Int := a + rndDiv ((b - a) * w) 4096

/-- R29: node (i, j), zoom-major. -/
def Profile.node (p : Profile) (i j : Nat) : Coeffs := p.nodes.getD (i * p.foci.length + j) {}

/-- R45: one field from the four corner nodes. -/
def blendField (p : Profile) (zx fx : Nat × Nat × Nat) (get : Coeffs → Int) : Int :=
  let lower := blend (get (p.node zx.1 fx.1)) (get (p.node zx.1 fx.2.1)) fx.2.2
  let upper := blend (get (p.node zx.2.1 fx.1)) (get (p.node zx.2.1 fx.2.1)) fx.2.2
  blend lower upper zx.2.2

/-- R43, R45: the coefficient set at a zoom and a focus. -/
def interpolate (p : Profile) (zoom focus : Nat) : Coeffs :=
  let zx := bracket p.zooms zoom
  let fx := bracket p.foci focus
  { k1 := blendField p zx fx Coeffs.k1, k2 := blendField p zx fx Coeffs.k2,
    k3 := blendField p zx fx Coeffs.k3, ar := blendField p zx fx Coeffs.ar,
    br := blendField p zx fx Coeffs.br, ab := blendField p zx fx Coeffs.ab,
    bb := blendField p zx fx Coeffs.bb, sx := blendField p zx fx Coeffs.sx,
    sy := blendField p zx fx Coeffs.sy }

/-- R46, R62: the zoom and focus interpolated at. Under HOLD the rest node's stop and code stand in on each
axis the override does not supply; otherwise the frame's own values are used. -/
def usedZoom (p : Profile) (f : LensFrame) (o : Override) : Nat :=
  if f.flags.hold then o.zoom.getD (p.zooms.getD p.restZoom 0) else f.zoom.getD 0

/-- As `usedZoom`; an override focus above 4095 is taken as 4095 (R107). -/
def usedFocus (p : Profile) (f : LensFrame) (o : Override) : Nat :=
  if f.flags.hold then (o.focus.map (min · 4095)).getD (p.foci.getD p.restFocus 0) else f.focus.getD 0

/-! ### The cache (R32, R33, R35, R36, R41) -/

def Cache.get (c : Cache) : CacheSlot → CacheEntry
  | .e0 => c.e0
  | .e1 => c.e1

def Cache.set (c : Cache) (slot : CacheSlot) (e : CacheEntry) : Cache :=
  match slot with
  | .e0 => { c with e0 := e }
  | .e1 => { c with e1 := e }

/-- A READY or INVALID entry that holds the lens (R35). -/
def CacheEntry.holds (e : CacheEntry) (lens : Nat) : Bool :=
  (decide (e.state = .ready) || decide (e.state = .invalid)) && decide (e.lens = some lens)

/-- R35: the entry a lookup hits. -/
def Cache.find (c : Cache) (lens : Nat) : Option CacheSlot :=
  if c.e0.holds lens then some .e0 else if c.e1.holds lens then some .e1 else none

/-- R36: the victim of a miss. -/
def Cache.victim (c : Cache) : CacheSlot :=
  match c.lastServed with
  | some .e0 => .e1
  | _ => .e0

/-- R41: both entries EMPTY and the last-served mark none. -/
def emptyCache : Cache := {}

/-- What the Resolver delivers (R42, R47). -/
structure Resolved where
  coeffs : Coeffs
  used : Used
  deriving DecidableEq, Repr

/-- R42, R47: resolved under UNKNOWN_LENS. -/
def resolveUnknown (f : LensFrame) : Resolved where
  coeffs := {}
  used := { lens := f.lens.getD 0, zoom := f.zoom.getD 0, focus := f.focus.getD 0,
            flags := { f.flags with unknownLens := true } }

/-- R42 to R47: resolved from a READY entry's copy. -/
def resolveFrom (p : Profile) (f : LensFrame) (o : Override) : Resolved :=
  let z := usedZoom p f o
  let fo := usedFocus p f o
  { coeffs := interpolate p z fo
    used := { lens := f.lens.getD 0, zoom := z, focus := fo,
              flags := { f.flags with
                outsideGrid := outsideAxis p.zooms z || outsideAxis p.foci fo } } }

/-- The frame as the entry's state decides it (R35, R42). -/
def resolveEntry (e : CacheEntry) (f : LensFrame) (o : Override) : Resolved :=
  match e.state, e.copy with
  | .ready, some p => resolveFrom p f o
  | _, _ => resolveUnknown f

end Sys2Proof.Machine
end

