-- ==== Sys2Proof/Machine/Lens.lean ====
section
/-! DEFINITION. Chapter 3: the lens decision of a frame from the board's two slots, the settled lens and
the consumed override. -/

namespace Sys2Proof.Machine

/-- R49: a slot is usable when it is valid and its stamp is not in the future. -/
def usable (now : Word) (p : LensSample) : Bool :=
  p.valid && decide ((now - p.stamp).toNat ≤ 2 ^ 31)

/-- R53: the newest usable sample, and slot P when both are usable. -/
def chooseSamples (now : Word) (n p : LensSample) : Option (LensSample × Option LensSample) :=
  if usable now n then some (n, if usable now p then some p else none)
  else if usable now p then some (p, none) else none

/-- What the board step leaves: the unit's settled state and the frame's lens state. -/
structure BoardStep where
  unit : LensUnit
  frame : LensFrame
  deriving DecidableEq, Repr

/-- The frame takes the settled identifier, zoom and focus. -/
def takeSettled (u : LensUnit) (flags : ResFlags) : LensFrame where
  lens := u.settledLens
  zoom := u.settledZoom
  focus := u.settledFocus
  flags := flags

/-- R54: no newest usable sample. -/
def boardNone (u : LensUnit) : BoardStep where
  unit := u
  frame := takeSettled u { hold := u.settledLens.isSome }

/-- |a − b|. -/
def apart (a b : Nat) : Nat := (a - b) + (b - a)

/-- R58, R59: the settle filter accepts slot N. With both tolerances at 4095 the two rules disagree on zooms further
apart than that: whether such a pair is accepted is a FREE VALUE (assumption log 34). -/
def settles (cfg : ConfigCopy) (n : LensSample) (p : Option LensSample) : Bool :=
  match p with
  | none => false
  | some p =>
    decide (p.lens = n.lens) && decide ((p.seq + 1) % 2 ^ 32 = n.seq) &&
    decide (apart n.focus p.focus ≤ cfg.focusTol) &&
    (decide (apart n.zoom p.zoom ≤ cfg.zoomTol) ||
      (decide (cfg.zoomTol = 4095 ∧ cfg.focusTol = 4095) && Config.fullTolerancesAcceptAll))

/-- The settled lens takes the sample's values. -/
def settleOn (u : LensUnit) (n : LensSample) : LensUnit :=
  { u with settledLens := some n.lens, settledZoom := some n.zoom, settledFocus := some n.focus }

/-- R57 to R59: a sample within the hold limit. -/
def boardWithin (cfg : ConfigCopy) (u : LensUnit) (n : LensSample) (p : Option LensSample) (stale : Bool) :
    BoardStep :=
  if u.settledLens ≠ some n.lens then
    { unit := settleOn u n, frame := takeSettled (settleOn u n) { stale := stale, lensNew := true } }
  else if cfg.settleMode = 2 || settles cfg n p then
    { unit := settleOn u n, frame := takeSettled (settleOn u n) { stale := stale } }
  else { unit := u, frame := takeSettled u { stale := stale, moving := true } }

/-- R55: the newest usable sample judged by its age. -/
def boardSome (cfg : ConfigCopy) (now : Word) (u : LensUnit) (n : LensSample) (p : Option LensSample) :
    BoardStep :=
  let age := (now - n.stamp).toNat
  let u := { u with lastSeq := BitVec.ofNat 32 n.seq }
  if age ≤ cfg.staleLimit * 1000 then boardWithin cfg u n p false
  else if age ≤ cfg.holdLimit * 1000 then boardWithin cfg u n p true
  else { unit := u, frame := takeSettled u { stale := true, hold := u.settledLens.isSome } }

/-- R53 to R59: the board step. `slots` is absent when the board read failed (R50). -/
def boardStep (cfg : ConfigCopy) (now : Word) (u : LensUnit) (slots : Option (LensSample × LensSample)) :
    BoardStep :=
  match slots.bind fun np => chooseSamples now np.1 np.2 with
  | none => boardNone u
  | some (n, p) => boardSome cfg now u n p

/-- R60, R61: the consumed override replaces what it supplies. -/
def overrideFrame (o : Override) (f : LensFrame) : LensFrame where
  lens := o.lens.or f.lens
  zoom := o.zoom.or f.zoom
  focus := (o.focus.map (min · 4095)).or f.focus
  flags := { f.flags with override := f.flags.override || o.lens.isSome || o.zoom.isSome || o.focus.isSome }

/-- R60: the override supplies all three. -/
def Override.full (o : Override) : Bool := o.lens.isSome && o.zoom.isSome && o.focus.isSome

/-- R62: the frame's lens state completed. -/
def completeFrame (f : LensFrame) : LensFrame :=
  match f.lens with
  | none => { f with flags := { f.flags with unknownLens := true } }
  | some 0 => { f with flags := { f.flags with unknownLens := true } }
  | some _ =>
    if f.zoom.isNone || f.focus.isNone then { f with flags := { f.flags with hold := true } } else f

/-- What a decision leaves (R63): the unit, the frame's lens state, and the events it reports (R56, R57). -/
structure Decision where
  unit : LensUnit
  frame : LensFrame
  events : BitVec 10
  deriving DecidableEq, Repr

/-- R56: the previous-stale mark follows the frame's STALE flag, and its rise is reported. -/
def finishDecision (b : BoardStep) (o : Override) : Decision where
  unit := { b.unit with prevStale := b.frame.flags.stale }
  frame := completeFrame (overrideFrame o b.frame)
  events := eventWhen b.frame.flags.lensNew evLensChange |||
    eventWhen (b.frame.flags.stale && !b.unit.prevStale) evLensStale

/-- R61: the decision after a board read. -/
def decideFromBoard (cfg : ConfigCopy) (now : Word) (u : LensUnit)
    (slots : Option (LensSample × LensSample)) (o : Override) : Decision :=
  finishDecision (boardStep cfg now u slots) o

/-- R60: the decision under a full override; the board is not read. -/
def decideFull (u : LensUnit) (o : Override) : Decision :=
  finishDecision { unit := u, frame := {} } o

end Sys2Proof.Machine
end

