-- ==== Sys2Proof/Machine/Status.lean ====
section
/-! DEFINITION. The Engine Controller's own accesses (configuration reads, status writes) and the entries
into STOPPED, PARKED and HALTED. -/

namespace Sys2Proof.Machine

/-! ### The status block (R141, 10.4) -/

def presenceByte (l : LensUnit) : Nat :=
  l.settledLens.isSome.toNat + 2 * l.settledZoom.isSome.toNat + 4 * l.settledFocus.isSome.toNat

/-- The 248 bytes of the body write, 0x04..0xFB of the block. -/
def statusBody (s : State) : List Byte :=
  let c := s.ec
  leBytes 1 c.engine.code ++ flagByte c.linkWait ++ leBytes 1 c.haltReason.code ++
  flagByte s.pace.relief ++ leBytes 4 c.cursor ++ leBytes 4 c.haltRecord ++
  leBytes 4 c.groupsTaken.toNat ++ leBytes 4 c.groupsRetired.toNat ++
  leBytes 4 c.framesDone.toNat ++ leBytes 4 c.framesFaulted.toNat ++
  leBytes 4 c.derivedFilled.toNat ++ leBytes 4 c.derivedDropped.toNat ++
  leBytes 4 c.derivedSkipped.toNat ++ leBytes 4 s.pace.overruns.toNat ++
  leBytes 1 s.pace.consecutive ++ leBytes 1 (presenceByte s.lens) ++
  leBytes 2 (s.lens.settledZoom.getD 0) ++ leBytes 4 (s.lens.settledLens.getD 0) ++
  leBytes 2 (s.lens.settledFocus.getD 0) ++ leBytes 1 s.cache.e0.state.code ++
  leBytes 1 s.cache.e1.state.code ++ leBytes 4 (s.cache.e0.lens.getD 0) ++
  leBytes 4 (s.cache.e1.lens.getD 0) ++ leBytes 4 s.lens.lastSeq.toNat ++
  leBytes 4 c.lastFrameNumber.toNat ++ zeroBytes 176

/-- R168, 10.4: the leading copy, the body and the trailing copy of the status block. -/
def statusReq (stage : StatusStage) (count : Word) (body : List Byte) : Request :=
  match stage with
  | .leading => { block := .engineController, kind := .statusCopyWrite, offset := 256, length := 4,
                  data := some (leBytes 4 count.toNat) }
  | .body => { block := .engineController, kind := .statusBodyWrite, offset := 260,
               length := body.length, data := some body }
  | .trailing => { block := .engineController, kind := .statusCopyWrite, offset := 508, length := 4,
                   data := some (leBytes 4 count.toNat) }

/-- R157: one access of 256 bytes at window offset 0. -/
def configReadReq : Request :=
  { block := .engineController, kind := .configRead, offset := 0, length := 256 }

/-! ### The controller's tasks -/

/-- A status write is in flight: commands other than RESET, and wakes, wait for its end (R143). -/
def State.statusInFlight (s : State) : Bool :=
  match s.ec.job with
  | some { job := .status .., .. } => true
  | _ => false

/-- A configuration read is in flight, or the controller's next task. -/
def State.configBusy (s : State) : Bool :=
  (match s.ec.job with
    | some { job := .config .., .. } => true
    | _ => false) ||
  s.ec.queue.any fun t => match t with | .config _ => true | .status _ => false

/-- R143: a status write begins. The write count advances, the block is taken as it stands, and the
leading copy goes first. DESIGN CHOICE: it begins when the leading copy is handed to the Port, which may still be
busy then (assumption log 33); the events it sets at its end are those due when it was asked for (assumption log 41). -/
def beginStatus (w : StatusWrite) (s : State) : State :=
  let s := s.mapEc fun c => { c with writeCount := c.writeCount + 1 }
  let body := statusBody s
  let w := { w with cursorAtStart := s.ec.cursor }
  (s.mapEc fun c => { c with job := some { job := .status w .leading body } }).submit
    (statusReq .leading s.ec.writeCount body)

/-- R157: a configuration read begins. -/
def beginConfigRead (why : ConfigWhy) (s : State) : State :=
  (s.mapEc fun c => { c with job := some { job := .config why } }).submit configReadReq

/-- R170: the controller hands over its next task when its previous one has been reported. -/
def kick (s : State) : State :=
  match s.ec.job, s.ec.queue with
  | none, .status w :: rest => beginStatus w (s.mapEc fun c => { c with queue := rest })
  | none, .config why :: rest => beginConfigRead why (s.mapEc fun c => { c with queue := rest })
  | _, _ => s

/-- Asks for a status write. Events that wait for the next one go with it (R147), and it shows a cursor that
has moved (R143). DESIGN CHOICE: they are attached here, so that a write asked for before an orphan's FAULTED write
has ended does not carry its RECORD_FAULT, though it may begin after it (assumption log 41). -/
def requestStatus (w : StatusWrite) (s : State) : State :=
  kick (s.mapEc fun c =>
    { c with queue := c.queue ++ [.status { w with onEnd := w.onEnd ||| c.eventsDue }]
             eventsDue := 0
             cursorDue := false })

/-- Asks for a configuration read. -/
def requestConfig (why : ConfigWhy) (s : State) : State :=
  kick (s.mapEc fun c => { c with queue := c.queue ++ [.config why] })

/-! ### Entering a state (R149, R150, R161, R163) -/

/-- R163: armed with TIME, and only while the interval of the copy is non-zero. -/
def armTimer (s : State) : State :=
  s.mapEc fun c =>
    { c with timer := if c.cfg.rescanInterval = 0 then none
                      else some { armedAt := s.reg.time, interval := c.cfg.rescanInterval } }

/-- The kind of the record whose state write at group start the job is (R109), also when a halt has left that
write running in the Port. -/
def Job.startWrite : Job → Option RecordKind
  | .recordWrite (.groupStart false kind) _ => some kind
  | .abandoned k => k
  | _ => none

/-- R109, R146: the event of a record written at group start: RECORD_FAULT for an orphan, none for an OVERRIDE. -/
def orphanEvent : Option RecordKind → BitVec 10
  | some kind => eventWhen (decide (kind ≠ .override)) evRecordFault
  | none => 0

/-- What is left of the work when a look or a group ends: an access that still runs in the Port after an
immediate halt (R144) is remembered until its report. -/
def leftWork : Option Work → Option Work
  | some { job := .abandoned k, .. } => some { job := .abandoned k }
  | _ => none

/-- Ends the look: nothing is under assembly and the return stack is empty (R97, R105). -/
def clearAssembly (s : State) : State :=
  (s.setWork (leftWork s.work)).mapChain fun c =>
    { c with group := {}, returnStack := [], unterminated := none }

/-- What every entry into STOPPED or HALTED clears (R150, R161, R92). -/
def Controller.quiet (c : Controller) : Controller :=
  { c with reloadReq := false, abortReq := false, timer := none, wakePending := false,
           heldHalt := none, boundaryLast := none, stopAsked := false, endedByAbort := false,
           statusFailed := false, lookAfterRead := false, cursorDue := false }

/-- R150: the entry into STOPPED. The STOPPED event goes with its status write (R147). -/
def enterStopped (s : State) : State :=
  let s := (clearAssembly s).mapChain fun c => { c with override := {} }
  requestStatus { onSuccess := evStopped } <| s.mapEc fun c =>
    { c.quiet with engine := .stopped, haltReason := .noHalt, haltRecord := 0 }

/-- R161: HALTED with its reason and record; the status write is the caller's. -/
def haltWith (reason : HaltReason) (record : Nat) (s : State) : State :=
  let s := (clearAssembly s).mapChain fun c => { c with override := {} }
  s.mapEc fun c => { c.quiet with engine := .halted, haltReason := reason, haltRecord := record }

/-- R161: the entry into HALTED with its status write; HALT is set when that write has ended, and also
when it has failed, since the engine is HALTED all the same (R144, R147). -/
def enterHalted (reason : HaltReason) (record : Nat) (s : State) : State :=
  requestStatus { onEnd := evHalt } (haltWith reason record s)

/-- Tasks of the controller that are not carried out any more; events that were to be set at the end of a
dropped write wait for the next one (R147). -/
def dropQueue (s : State) : State :=
  s.mapEc fun c =>
    { c with queue := []
             eventsDue := c.queue.foldl (fun e t => match t with
               | .status w => e ||| w.onEnd
               | .config _ => e) c.eventsDue }

/-- R144, R161: HALTED without a status write; HALT is set at the entry. -/
def haltUnreported (reason : HaltReason) (record : Nat) (s : State) : State :=
  (haltWith reason record (dropQueue s)).setEvents evHalt

/-- R144, R161: the entry into HALTED for a halt that has been called for: without a status write when one has failed
since. -/
def enterCalledHalt (reason : HaltReason) (record : Nat) (s : State) : State :=
  if s.ec.statusFailed then haltUnreported reason record s else enterHalted reason record s

end Sys2Proof.Machine
end

