-- ==== Sys2Proof/Machine/Look.lean ====
section
/-! DEFINITION. The pieces of a look that the chain, the boundary and the commands share: beginning a look,
ending it, parking, halting, moving the cursor (R91 to R96, R106). -/

namespace Sys2Proof.Machine

/-- The Chain Reader reads a record (R87). -/
def readRecord (why : ReadWhy) (off : Nat) (s : State) : State :=
  s.doJob (.recordRead why off) (recordReadReq off)

/-- R92: begins a look at the cursor. While an access of the Chain Reader is still in the Port the look
waits for its end. -/
def beginLook (s : State) : State :=
  if s.work.isSome then s.mapEc fun c => { c with wakePending := true }
  else if s.ec.linkWait then readRecord .cursorLink s.ec.cursor s
  else readRecord .cursor s.ec.cursor s

/-- R92, R143: a wake. During a status write it waits for the write's end. -/
def wakeNow (s : State) : State :=
  if s.ec.engine = .parked then
    if s.work.isSome || s.configBusy then s.mapEc fun c => { c with wakePending := true }
    else beginLook s
  else s

def wake (s : State) : State :=
  if s.statusInFlight then s.mapReg fun r => { r with held := r.held ++ [.wake] } else wakeNow s

/-- R96: a command taken during the look ends it at the step that acts on the access in flight. -/
def State.lookMustEnd (s : State) : Bool :=
  s.ec.stopAsked || s.ec.reloadReq || decide (s.ec.engine = .stopping)

/-- R96, R153, R154, R159, R160: a look that a command ends. A RELOAD that waited is carried out (unless an ABORT
ended the look, R160), and the engine stops if a STOP or ABORT was taken. `moved` says the step changed the cursor or
the flag. DESIGN CHOICE: a wake-pending mark is kept for the look after a RELOAD's read (assumption log 49). -/
def endLook (moved : Bool) (s : State) : State :=
  let s := clearAssembly s
  if s.ec.reloadReq && !s.ec.endedByAbort then
    let s := if moved || s.ec.cursorDue then requestStatus {} s else s
    requestConfig .reload <| s.mapEc fun c => { c with reloadReq := false, lookAfterRead := true }
  else enterStopped s

/-- R106, R109, R161: a halt of the chain ends the look. It makes no status write when one failed after a failed access
of the look had called for this halt (R144; assumption log 46). -/
def chainHalt (reason : HaltReason) (record : Nat) (s : State) : State := enterCalledHalt reason record s

/-- Sets the cursor and the link-wait flag. -/
def setCursor (off : Nat) (lw : Bool) (s : State) : State :=
  s.mapEc fun c => { c with cursor := off, linkWait := lw }

/-- Whether setting them would change them (R91: a change calls for a status write). -/
def cursorMoves (off : Nat) (lw : Bool) (s : State) : Bool :=
  decide (s.ec.cursor ≠ off) || decide (s.ec.linkWait ≠ lw)

/-- R93, R99: a look that finds no ready work parks at `off`. Entering PARKED from WORKING sets the PARKED
event; a park arms the timer and, with a wake pending, a new look begins at once (R92), beside the status write
when there is one. -/
def park (off : Nat) (lw : Bool) (s : State) : State :=
  let moved := cursorMoves off lw s || s.ec.cursorDue
  let s := setCursor off lw (clearAssembly s)
  if s.lookMustEnd then endLook moved s
  else
    let fromWorking := decide (s.ec.engine = .working)
    let again := s.ec.wakePending
    let s := armTimer (s.mapEc fun c => { c with engine := .parked, wakePending := false })
    let s := if moved || fromWorking then requestStatus { onSuccess := eventWhen fromWorking evParked } s else s
    if again then beginLook s else s

/-- R94, R95: the cursor moves on and the same look reads the record there. The status write that reports the
move comes with what that read brings (R143; assumption log 9). -/
def moveOn (off : Nat) (s : State) : State :=
  let moved := cursorMoves off false s
  let s := setCursor off false (clearAssembly s)
  if s.lookMustEnd then endLook moved s
  else beginLook (s.mapEc fun c => { c with cursorDue := c.cursorDue || moved })

/-- R100, R143: the move past an unterminated group calls for a status write, also when the second FRAME is the
group's own (R102). DEDUCED: the look goes on when that write has ended (assumption log 9). DESIGN CHOICE: it reads
the second FRAME afresh by R93, and parks if that is no longer READY (assumption log 30). -/
def moveOnReported (off : Nat) (s : State) : State :=
  let s := setCursor off false (clearAssembly s)
  if s.lookMustEnd then endLook true s else requestStatus { after := .look } s

/-- R143: the status write for a cursor that moved, when nothing else has called for one. -/
def reportCursor (s : State) : State := if s.ec.cursorDue then requestStatus {} s else s

/-- R95: reads a finished record afresh to advance past it. -/
def advancePast (off : Nat) (s : State) : State :=
  readRecord .advance off (clearAssembly s)

end Sys2Proof.Machine
end

