-- ==== Sys2Proof/Machine/Retire.lean ====
section
/-! DEFINITION. Retirement: the pace measurement, the outcome, the completion sections and the retirement
writes (R113, R133 to R139), and the release and return of held slots (R128 to R131). -/

namespace Sys2Proof.Machine

/-! ### The group's FRAME -/

/-- The FRAME record of the group (all zero when there is none). -/
def State.frame (s : State) : FrameRecord :=
  s.chain.group.frame.getD { offset := 0, endFlag := false, notify := false, fields := {} }

/-- R100, R142, R146: the fault of the unterminated group under assembly: it counts among the frames faulted, and
its RECORD_FAULT goes with the next status write (R147). -/
def countUnterminated (s : State) : State :=
  s.mapEc fun c =>
    { c with framesFaulted := c.framesFaulted + 1
             lastFrameNumber := BitVec.ofNat 32 s.frame.fields.frameNumber
             eventsDue := c.eventsDue ||| evRecordFault }

/-- R113, R144: the last main-chain record of a group, the FRAME when it has no other. -/
def Group.lastMain (g : Group) : Nat :=
  match g.mainList.getLast? with
  | some m => m.offset
  | none => (g.frame.map FrameRecord.offset).getD 0

/-- R117: the entries that the derived results list gives: those of a frame that was judged. -/
def State.results (s : State) : List DerivedEntry :=
  if s.chain.flight.judged then s.chain.group.entries else []

/-- Sets the result of entry `k`. -/
def setResult (k : Nat) (r : EntryResult) (s : State) : State :=
  s.mapGroup fun g => { g with entries := g.entries.modify k fun e => { e with result := some r } }

/-! ### Pace (R139, R140) -/

/-- R139: the frame is measured at the start of its retirement. -/
def measure (s : State) : State :=
  let duration := s.reg.time - s.pace.takeTime
  let judged := s.chain.flight.fault.isNone
  let late := judged && decide (s.ec.cfg.frameBudget ≠ 0) && decide (s.ec.cfg.frameBudget < duration.toNat)
  let consecutive := if late then min (s.pace.consecutive + 1) 255 else if judged then 0 else s.pace.consecutive
  (s.mapFlight fun f => { f with duration := duration, overrun := late }).mapPace fun p =>
    { p with overruns := if late then p.overruns + 1 else p.overruns
             consecutive := consecutive
             relief := reliefActive s.ec.cfg.reliefThreshold consecutive }

/-! ### Completion sections (R134 to R137, 10.2) -/

/-- R135: DONE 0x80, DONE_WITH_WARNINGS 0x81, or the frame's fault code. -/
def outcomeCode (s : State) : Nat :=
  match s.chain.flight.fault with
  | some c => c.code
  | none => if warningBits s.tile = 0 then 0x80 else 0x81

/-- 10.1: a fault code of 0 means none. -/
def faultCodeOf (f : Option FaultCode) : Nat := (f.map FaultCode.code).getD 0

/-- 10.2: an entry of the derived results list. -/
def resultBytes (e : DerivedEntry) : List Byte :=
  leBytes 4 e.offset ++ leBytes 1 e.fields.pool ++
  leBytes 1 ((e.result.map EntryResult.code).getD 0) ++
  leBytes 1 (match e.result with
    | some (.filled slot) => slot
    | some (.faulted c) => c.code
    | _ => 0) ++
  flagByte e.clipped

/-- The four places of the derived results list; those beyond the count are 0. -/
def resultListBytes (es : List DerivedEntry) : List Byte :=
  ((es.flatMap resultBytes) ++ zeroBytes 32).take 32

/-- R134, 10.2: the 68 bytes of a FRAME's completion write. -/
def frameCompletion (s : State) : List Byte :=
  let u := s.chain.flight.used
  leBytes 1 (faultCodeOf s.chain.flight.fault) ++ leBytes 1 (outcomeCode s) ++
  leBytes 1 (warningBits s.tile) ++ leBytes 1 u.flags.bits ++ leBytes 1 s.results.length ++
  flagByte s.chain.flight.overrun ++ leBytes 2 u.zoom ++ leBytes 4 u.lens ++ leBytes 2 u.focus ++
  zeroBytes 2 ++ leBytes 4 s.pace.takeTime.toNat ++ leBytes 4 s.chain.flight.duration.toNat ++
  leBytes 4 s.tile.outOfFrame ++ leBytes 4 s.tile.overspan ++ leBytes 4 s.tile.overrange ++
  resultListBytes s.results

/-- R136: the section of a FRAME of an unterminated group: only code and outcome are not 0. -/
def unterminatedFrameCompletion : List Byte :=
  leBytes 1 FaultCode.groupUnterminated.code ++ leBytes 1 FaultCode.groupUnterminated.code ++ zeroBytes 66

/-- 10.2: a DERIVED record's completion write: fault code, outcome, slot index, 0. -/
def derivedCompletion (code outcome slot : Nat) : List Byte :=
  leBytes 1 code ++ leBytes 1 outcome ++ leBytes 1 slot ++ zeroBytes 1

/-- 10.2: a CALL's or OVERRIDE's completion write: the fault code. -/
def plainCompletion (code : Nat) : List Byte := leBytes 1 code ++ zeroBytes 3

/-- R101, R117, R137: fault code, outcome, slot index and state word of a main-chain DERIVED record. -/
def derivedOutcome (s : State) (m : MainRecord) : Nat × Nat × Nat × RecordState :=
  match m.entry with
  | none => (FaultCode.groupFull.code, (EntryResult.faulted .groupFull).code, 0, .faulted)
  | some k =>
    if s.chain.flight.judged then
      match (s.chain.group.entries[k]?).bind DerivedEntry.result with
      | some (.filled slot) => (0, (EntryResult.filled slot).code, slot, .done)
      | some (.faulted c) => (c.code, (EntryResult.faulted c).code, 0, .faulted)
      | some r => (0, r.code, 0, .skipped)
      | none => (0, notRunCode, 0, .skipped)
    else (0, notRunCode, 0, .skipped)

/-- R113: the state word a main-chain record is retired with. -/
def retiredState (s : State) (m : MainRecord) : RecordState :=
  match m.kind with
  | .derived => (derivedOutcome s m).2.2.2
  | _ => .done

/-- R113: the state word the FRAME is retired with. -/
def retiredFrameState (s : State) : RecordState :=
  if s.chain.flight.fault.isSome then .faulted else .done

/-- R113, R137: the completion write of a main-chain record. -/
def mainCompletion (s : State) (m : MainRecord) : Request :=
  match m.kind with
  | .derived =>
    let (code, outcome, slot, _) := derivedOutcome s m
    completionReq m.offset (derivedCompletion code outcome slot)
  | _ => completionReq m.offset (plainCompletion 0)

/-- R113: the completion writes first, then the state words, the FRAME's last. -/
def retirementWrites (s : State) : List Request :=
  let main := s.chain.group.mainList
  completionReq s.frame.offset (frameCompletion s) :: main.map (mainCompletion s) ++
  main.map (fun m => stateWriteReq m.offset (retiredState s m)) ++
  [stateWriteReq s.frame.offset (retiredFrameState s)]

/-- R113, R139: the group goes to retirement. -/
def retire (s : State) : State :=
  let s := measure s
  match retirementWrites s with
  | r :: rest => s.doJob (.retire rest false) r
  | [] => s

/-! ### Held slots (R121, R128, R130, R131) -/

/-- Where the state of the slot lies. -/
def HeldSlot.stateOffset (h : HeldSlot) : Nat := h.desc + 32 + 16 * h.slot + 4

/-- A slot leaves the held-slot list. -/
def dropHeld (k : Nat) (s : State) : State :=
  s.mapPools fun p => { p with heldSlots := p.heldSlots.filter fun h => h.entry ≠ k }

/-- The EMPTY write that returns the slot of entry `h.entry`. -/
def returnSlot (h : HeldSlot) (s : State) : State :=
  s.doJob (.slotEmpty h.entry) (poolWriteReq .slotWrite h.stateOffset (leBytes 4 0))

/-- R130: after a frame fault each held slot's entry takes the frame's code and its slot is returned; when
the list is empty the group retires. DESIGN CHOICE: the slots are returned from the head of the list on, in the order
of the entries, and each entry takes its code when its own return begins (assumption log 37). -/
def returnNext (s : State) : State :=
  match s.pools.heldSlots, s.chain.flight.fault with
  | h :: _, some code => returnSlot h (setResult h.entry (.faulted code) s)
  | _, _ => retire s

/-- A fault of the frame (R40, R75, R81, R82, R110, R111, R129, R130): its slots are returned and the
group retires. Nothing of the tile in hand is written any more. An ABORT that is taken discards the pending
override (R108). DESIGN CHOICE: the preview accumulators stay as they are (assumption log 44), and so do the sub-tiles
that still wait in the list (assumption log 45). -/
def faultFrame (code : FaultCode) (s : State) : State :=
  let s := s.mapFlight fun f => { f with fault := some code }
  let s := s.mapChain fun c => { c with override := if code = .aborted then {} else c.override }
  returnNext (s.mapWriter fun w => { w with outRows := [], derivedRows := [] })

/-- R131: the FILLED write: state, frame number, width and height in one access of 12 bytes (10.7). -/
def filledBytes (h : HeldSlot) (frameNumber : Nat) : List Byte :=
  leBytes 4 2 ++ leBytes 4 frameNumber ++ leBytes 2 h.width ++ leBytes 2 h.height

/-- R131: the held slots are released in entry order, and then the group retires. -/
def releaseNext (s : State) : State :=
  match s.pools.heldSlots with
  | h :: _ => s.doJob (.releaseFilled h)
      (poolWriteReq .slotWrite h.stateOffset (filledBytes h s.frame.fields.frameNumber))
  | [] => retire s

end Sys2Proof.Machine
end

