-- ==== Sys2Proof/Machine/Derived.lean ====
section
/-! DEFINITION. Derived images (R123, R125 to R129): sizes, placement, the parts a tile gives, and the
RAWCOPY phase. -/

namespace Sys2Proof.Machine

/-! ### Kinds, clipping and sizes (R115, R116, R123) -/

/-- R116: the extent of the clipped rectangle on one axis; 0 when it is empty. -/
def clipExtent (at_ len extent : Nat) : Nat := min (at_ + len) extent - at_

/-- R116: the frame a rectangle refers to: the output for CROP (2), the source for RAWCOPY (3). -/
def rectFrame (d : DerivedFields) (f : FrameFields) : Nat × Nat :=
  if d.kind = 3 then (f.srcW, f.srcH) else (f.outW, f.outH)

/-- R116: width and height of the clipped rectangle. -/
def clippedSize (d : DerivedFields) (f : FrameFields) : Nat × Nat :=
  (clipExtent d.rx d.rw (rectFrame d f).1, clipExtent d.ry d.rh (rectFrame d f).2)

/-- R116: whether the entry's fields fail a check. -/
def formatBad (d : DerivedFields) (f : FrameFields) : Bool :=
  !(decide (d.kind = 1 ∨ d.kind = 2 ∨ d.kind = 3)) || !(decide (d.sense = 1 ∨ d.sense = 2)) ||
  (decide (d.kind = 1) && !(decide (d.factor = 2 ∨ d.factor = 4 ∨ d.factor = 8))) ||
  (decide (d.kind = 2 ∨ d.kind = 3) &&
    (decide ((clippedSize d f).1 = 0) || decide ((clippedSize d f).2 = 0)))

/-- R116: a clipped rectangle that is not empty and is smaller than the one written gives CLIPPED. -/
def isClipped (d : DerivedFields) (f : FrameFields) : Bool :=
  decide (d.kind = 2 ∨ d.kind = 3) && decide ((clippedSize d f).1 ≠ 0 ∧ (clippedSize d f).2 ≠ 0) &&
    decide (clippedSize d f ≠ (d.rw, d.rh))

/-- R123: width and height of an entry's image. -/
def imageSize (d : DerivedFields) (f : FrameFields) : Nat × Nat :=
  if d.kind = 1 then (f.outW / d.factor, f.outH / d.factor) else clippedSize d f

/-- R123: the derived pitch of an image. -/
def derivedPitch (width depth : Nat) : Nat := roundUp64 (width * bytesPerPixel depth)

/-! ### Placement (R127) -/

/-- R127: where the row part of image row `b`, columns `aL` to `aR`, is written. -/
def derivedOffset (h : HeldSlot) (reverse : Bool) (b aL aR : Nat) : Nat :=
  if reverse then h.offset + (h.height - 1 - b) * h.pitch + (h.width - 1 - aR) * bytesPerPixel h.depth
  else h.offset + b * h.pitch + aL * bytesPerPixel h.depth

/-- A row of quantized pixels as bytes, in the order of the scan direction (R80, R127). -/
def rowBytes (reverse : Bool) (depth : Nat) (px : List (Nat × Nat × Nat)) : List Byte :=
  (if reverse then px.reverse else px).flatMap fun p => pixelBytes depth p.1 p.2.1 p.2.2

/-- R26: three 12-bit values quantized with ROUND to a pool's depth. -/
def roundPixel (depth : Nat) (p : Nat × Nat × Nat) : Nat × Nat × Nat :=
  (quantRound depth p.1, quantRound depth p.2.1, quantRound depth p.2.2)

/-- R127: the write of a row part whose first pixel is image column `aL` of row `b`. -/
def derivedRow (h : HeldSlot) (reverse : Bool) (b aL : Nat) (px : List (Nat × Nat × Nat)) : DerivedRow where
  entry := h.entry
  offset := derivedOffset h reverse b aL (aL + px.length - 1)
  bytes := rowBytes reverse h.depth (px.map (roundPixel h.depth))

/-! ### The part of a tile (R125, R126) -/

/-- The 12-bit values of one row of a rectangle within a tile. -/
def tileRowValues (tile : Rect) (samples : List Sample) (y x len : Nat) : List (Nat × Nat × Nat) :=
  ((samples.drop ((y - tile.top) * tile.width + (x - tile.left))).take len).map fun p => (p.r, p.g, p.b)

def addTriple (a b : Nat × Nat × Nat) : Nat × Nat × Nat := (a.1 + b.1, a.2.1 + b.2.1, a.2.2 + b.2.2)

/-- R125: the sum of the block of factor `f` whose left column is `x` and top row `y`. -/
def blockSum (tile : Rect) (samples : List Sample) (f x y : Nat) : Nat × Nat × Nat :=
  ((List.range f).flatMap fun j => tileRowValues tile samples (y + j) x f).foldl addTriple (0, 0, 0)

/-- R125: the blocks on one axis that lie in a tile starting at `start`. -/
def blocksIn (start len f : Nat) : Nat := (start + len) / f - start / f

/-- R125: the accumulator of a PREVIEW for a tile, block row after block row. -/
def previewSums (tile : Rect) (samples : List Sample) (f : Nat) : List (Nat × Nat × Nat) :=
  (List.range (blocksIn tile.top tile.height f)).flatMap fun j =>
    (List.range (blocksIn tile.left tile.width f)).map fun i =>
      blockSum tile samples f (tile.left + f * i) (tile.top + f * j)

/-- R125: the mean of a block, rounded half up. -/
def blockMean (f sum : Nat) : Nat := (sum + f * f / 2) / (f * f)

/-- R125, R127: the rows a tile gives a PREVIEW, from its accumulator. -/
def previewRows (h : HeldSlot) (reverse : Bool) (f : Nat) (tile : Rect) (sums : List (Nat × Nat × Nat)) :
    List DerivedRow :=
  let n := blocksIn tile.left tile.width f
  if n = 0 then []
  else (List.range (blocksIn tile.top tile.height f)).map fun j =>
    derivedRow h reverse (tile.top / f + j) (tile.left / f) <|
      ((sums.drop (j * n)).take n).map fun p => (blockMean f p.1, blockMean f p.2.1, blockMean f p.2.2)

/-- R126, R127: the rows a tile gives a CROP. -/
def cropRows (h : HeldSlot) (reverse : Bool) (d : DerivedFields) (tile : Rect) (samples : List Sample) :
    List DerivedRow :=
  let x0 := max d.rx tile.left
  let x1 := min (d.rx + h.width) (tile.left + tile.width)
  let y0 := max d.ry tile.top
  let y1 := min (d.ry + h.height) (tile.top + tile.height)
  if x0 < x1 then
    (List.range (y1 - y0)).map fun j =>
      derivedRow h reverse (y0 + j - d.ry) (x0 - d.rx) (tileRowValues tile samples (y0 + j) x0 (x1 - x0))
  else []

/-- The derived fields of the entry a slot serves. -/
def State.entryFields (s : State) (k : Nat) : DerivedFields :=
  ((s.chain.group.entries[k]?).map DerivedEntry.fields).getD {}

/-- R125: the accumulators of the running PREVIEWs for the tile in hand. -/
def tileAccums (s : State) (tile : Rect) (samples : List Sample) : List Accum :=
  (s.pools.heldSlots.filter fun h => (s.entryFields h.entry).kind = 1).map fun h =>
    { entry := h.entry, sums := previewSums tile samples (s.entryFields h.entry).factor }

/-- R78, R127: the rows the tile gives the running PREVIEWs and CROPs, in entry order. -/
def tileDerivedRows (s : State) (tile : Rect) (samples : List Sample) (accums : List Accum) :
    List DerivedRow :=
  let reverse := decide (s.frame.fields.scan = 2)
  s.pools.heldSlots.flatMap fun h =>
    let d := s.entryFields h.entry
    if d.kind = 1 then
      previewRows h reverse d.factor tile
        ((accums.find? fun a => a.entry = h.entry).map Accum.sums |>.getD [])
    else if d.kind = 2 then cropRows h reverse d tile samples
    else []

/-! ### The RAWCOPY phase (R129, R130) -/

/-- R74, R129: a container of the source, at most 4095. -/
def container (bytes : List Byte) (i : Nat) : Nat := min (field bytes (2 * i) 2) 4095

/-- R74: the source pixels of a row read, each component with its overrange mark. -/
def sourceTexels (bytes : List Byte) (columns : Nat) : List Texel :=
  (List.range columns).map fun q =>
    { r := container bytes (3 * q), g := container bytes (3 * q + 1), b := container bytes (3 * q + 2)
      rOver := decide (4095 < field bytes (6 * q) 2), gOver := decide (4095 < field bytes (6 * q + 2) 2)
      bOver := decide (4095 < field bytes (6 * q + 4) 2) }

/-- R129: the row of a RAWCOPY entry; the abort point before the read of each row is here (R130). -/
def rawRow (h : HeldSlot) (row : Nat) (s : State) : State :=
  if s.ec.abortReq then faultFrame .aborted s
  else
    let d := s.entryFields h.entry
    let f := s.frame.fields
    s.doJob (.rawRead h.entry row)
      (sourceReadReq .outputWriter (f.srcOffset + (d.ry + row) * f.srcPitch + 6 * d.rx) (h.width * 6))

/-- R129: the running RAWCOPY entries from entry `k` on; after the last the slots are released (R131). -/
def rawFrom (k : Nat) (s : State) : State :=
  match s.pools.heldSlots.find? fun h => k ≤ h.entry && decide ((s.entryFields h.entry).kind = 3) with
  | some h => rawRow h 0 s
  | none => releaseNext s

/-- The held slot of entry `k`. -/
def State.heldFor (s : State) (k : Nat) : Option HeldSlot :=
  s.pools.heldSlots.find? fun h => h.entry = k

/-- R129: the write of a RAWCOPY row from the bytes read. -/
def rawWriteRow (h : HeldSlot) (reverse : Bool) (row : Nat) (bytes : List Byte) : DerivedRow :=
  derivedRow h reverse row 0 ((sourceTexels bytes h.width).map fun t => (t.r, t.g, t.b))

end Sys2Proof.Machine
end

