-- ==== Sys2Proof/Machine/Tile.lean ====
section
/-! DEFINITION. Chapter 4: the tile pass: tiles, positions, footprints, splitting, overspan, sampling,
quantization and the rows of the primary output. -/

namespace Sys2Proof.Machine

/-! ### Tiles (R67) -/

/-- The number of tiles on one axis. -/
def tileCount (extent size : Nat) : Nat := (extent + size - 1) / size

/-- R67: the output rectangle of the tile in hand. -/
def tileRect (f : FrameFields) (row col : Nat) : Rect where
  left := Config.tileWidth * col
  top := Config.tileHeight * row
  width := min Config.tileWidth (f.outW - Config.tileWidth * col)
  height := min Config.tileHeight (f.outH - Config.tileHeight * row)

def State.tileInHand (s : State) : Rect := tileRect s.frame.fields s.tile.row s.tile.col

/-- Every pixel (x, y) of a rectangle in raster order. -/
def Rect.pixels (r : Rect) : List (Nat × Nat) :=
  (List.range r.height).flatMap fun j => (List.range r.width).map fun i => (r.left + i, r.top + j)

/-- The entries of a store of the tile that belong to a part of it, in raster order. -/
def rectSlice {α : Type} (tile part : Rect) (store : List α) : List α :=
  (List.range part.height).flatMap fun j =>
    (store.drop ((part.top - tile.top + j) * tile.width + (part.left - tile.left))).take part.width

/-! ### Footprints (R69) -/

/-- Least and greatest source column and row touched so far. -/
structure Bounds where
  x0 : Nat
  y0 : Nat
  x1 : Nat
  y1 : Nat
  deriving DecidableEq, Repr

/-- R69: what one position touches with non-zero weight. -/
def posBounds (p : Pos) : Bounds where
  x0 := wholePart p.xs
  y0 := wholePart p.ys
  x1 := if fracPart p.xs = 0 then wholePart p.xs else wholePart p.xs + 1
  y1 := if fracPart p.ys = 0 then wholePart p.ys else wholePart p.ys + 1

def Bounds.join (a b : Bounds) : Bounds where
  x0 := min a.x0 b.x0
  y0 := min a.y0 b.y0
  x1 := max a.x1 b.x1
  y1 := max a.y1 b.y1

def growBounds (acc : Option Bounds) (p : Pos) : Option Bounds :=
  match acc with
  | none => some (posBounds p)
  | some a => some (a.join (posBounds p))

/-- R69: the three positions of a pixel that is not fill-marked. -/
def pixelPositions (p : PixelPos) : List Pos := if p.fill then [] else [p.r, p.g, p.b]

/-- R69: the box of the stored positions of a part; empty when every pixel is fill-marked. -/
def footprint (px : List PixelPos) : Box :=
  match (px.flatMap pixelPositions).foldl growBounds none with
  | none => {}
  | some b => { x := b.x0, y := b.y0, width := b.x1 - b.x0 + 1, height := b.y1 - b.y0 + 1 }

/-! ### Splitting (R70, R71) -/

def Rect.leftHalf (r : Rect) : Rect := { r with width := (r.width + 1) / 2 }
def Rect.rightHalf (r : Rect) : Rect :=
  { r with left := r.left + (r.width + 1) / 2, width := r.width - (r.width + 1) / 2 }
def Rect.topHalf (r : Rect) : Rect := { r with height := (r.height + 1) / 2 }
def Rect.bottomHalf (r : Rect) : Rect :=
  { r with top := r.top + (r.height + 1) / 2, height := r.height - (r.height + 1) / 2 }

/-- R70: the box overflows on an axis on which the sub-tile can be split. -/
def splitX (r : Rect) (b : Box) : Bool :=
  decide (Config.bufferWidth < b.width) && decide (Config.smallestSubTile < r.width)
def splitY (r : Rect) (b : Box) : Bool :=
  decide (Config.bufferHeight < b.height) && decide (Config.smallestSubTile < r.height)

/-- R70, R71: the parts that replace a split sub-tile, in raster order; none when it is served. -/
def splitParts (r : Rect) (b : Box) : List Rect :=
  match splitX r b, splitY r b with
  | true, true => [r.topHalf.leftHalf, r.topHalf.rightHalf, r.bottomHalf.leftHalf, r.bottomHalf.rightHalf]
  | true, false => [r.leftHalf, r.rightHalf]
  | false, true => [r.topHalf, r.bottomHalf]
  | false, false => []

/-- R70: a box fits the buffer. -/
def boxFits (b : Box) : Bool :=
  decide (b.width ≤ Config.bufferWidth) && decide (b.height ≤ Config.bufferHeight)

/-- R73: the box anchored at its own corner and cut to the buffer. -/
def cutBox (b : Box) : Box :=
  { b with width := min b.width Config.bufferWidth, height := min b.height Config.bufferHeight }

/-! ### The buffer (R72, R74) -/

/-- R72: a row read enters buffer row `row`, columns 0 to its width. -/
def FootprintBuffer.putRow (b : FootprintBuffer) (row : Nat) (px : List Texel) : FootprintBuffer :=
  { b with texels := b.texels.take (Config.bufferWidth * row) ++ px ++
      b.texels.drop (Config.bufferWidth * row + px.length) }

/-- The buffer's pixel of a source column and row. -/
def FootprintBuffer.at (b : FootprintBuffer) (x y : Nat) : Texel :=
  b.texels.getD (Config.bufferWidth * (y - b.box.y) + (x - b.box.x)) {}

/-! ### Sampling (R73, R76) -/

/-- R73: a stored position clamped into the anchored box. -/
def overspanPos (b : Box) (p : Pos) : Pos where
  xs := clampInt (16 * b.x) (16 * (b.x + (Config.bufferWidth - 1) : Nat)) p.xs
  ys := clampInt (16 * b.y) (16 * (b.y + (Config.bufferHeight - 1) : Nat)) p.ys

/-- The position a served sub-tile samples at. -/
def Serving.pos (v : Serving) (p : Pos) : Pos := if v.overspan then overspanPos v.box p else p

/-- R76: the value of one colour and whether an overrange component carried weight. -/
def sampleColour (buf : FootprintBuffer) (value : Texel → Nat) (mark : Texel → Bool) (p : Pos) : Nat × Bool :=
  let x0 := wholePart p.xs
  let y0 := wholePart p.ys
  let fx := fracPart p.xs
  let fy := fracPart p.ys
  let x1 := if fx = 0 then x0 else x0 + 1
  let y1 := if fy = 0 then y0 else y0 + 1
  let p00 := buf.at x0 y0
  let p10 := buf.at x1 y0
  let p01 := buf.at x0 y1
  let p11 := buf.at x1 y1
  (bilinear fx fy (value p00) (value p10) (value p01) (value p11),
    mark p00 || mark p10 || mark p01 || mark p11)

/-- R76, R16: the sample of a pixel. -/
def samplePixel (v : Serving) (buf : FootprintBuffer) (f : FrameFields) (p : PixelPos) : Sample :=
  if p.fill then { r := f.fillR, g := f.fillG, b := f.fillB, overMark := false }
  else
    let r := sampleColour buf Texel.r Texel.rOver (v.pos p.r)
    let g := sampleColour buf Texel.g Texel.gOver (v.pos p.g)
    let b := sampleColour buf Texel.b Texel.bOver (v.pos p.b)
    { r := r.1, g := g.1, b := b.1, overMark := r.2 || g.2 || b.2 }

/-- R73: a pixel with a coordinate moved by the overspan clamp. -/
def overspanMoved (v : Serving) (p : PixelPos) : Bool :=
  v.overspan && !p.fill &&
    (decide (v.pos p.r ≠ p.r) || decide (v.pos p.g ≠ p.g) || decide (v.pos p.b ≠ p.b))

/-- A pixel lies in a rectangle. -/
def Rect.has (r : Rect) (x y : Nat) : Bool :=
  decide (r.left ≤ x ∧ x < r.left + r.width ∧ r.top ≤ y ∧ y < r.top + r.height)

/-- The sample store with the entries of one part replaced; entries run over the tile in raster order. -/
def putSamples (tile part : Rect) (store : List Sample) (new : List PixelPos → List Sample)
    (positions : List PixelPos) : List Sample :=
  ((store.zip (new positions)).zip tile.pixels).map fun e =>
    if part.has e.2.1 e.2.2 then e.1.2 else e.1.1

/-- R76: a sub-tile is sampled and the counts advance. -/
def sampleSubTile (v : Serving) (s : State) : State :=
  let part := rectSlice s.tileInHand v.rect s.tile.positions
  let fresh := part.map (samplePixel v s.tile.buffer s.frame.fields)
  s.mapTile fun t =>
    { t with
      samples := putSamples s.tileInHand v.rect t.samples
        (List.map (samplePixel v t.buffer s.frame.fields)) t.positions
      overspan := t.overspan + part.countP (overspanMoved v)
      overrange := t.overrange + fresh.countP Sample.overMark
      serving := none }

/-! ### The finished tile (R78 to R80) -/

/-- R22, R25: values quantized under DITHER, red, green, blue of each pixel in turn. -/
def ditherPixels (depth : Nat) : Word → List Sample → Word × List (Nat × Nat × Nat)
  | x, [] => (x, [])
  | x, p :: rest =>
    let xr := ditherStep x
    let xg := ditherStep xr
    let xb := ditherStep xg
    let (x', q) := ditherPixels depth xb rest
    (x', (quantDither depth p.r xr, quantDither depth p.g xg, quantDither depth p.b xb) :: q)

/-- R21, R22, R25: the quantized values of a tile and the generator's state after them. Dither mode 2 is
DITHER. -/
def quantizeTile (f : FrameFields) (x : Word) (samples : List Sample) : Word × List (Nat × Nat × Nat) :=
  if f.dither = 2 ∧ f.depth ≠ 12 then ditherPixels f.depth x samples
  else (x, samples.map fun p => (quantRound f.depth p.r, quantRound f.depth p.g, quantRound f.depth p.b))

/-- R79, R80: where a tile row is written: computed row `y`, columns `xL` to `xR`. -/
def outputOffset (f : FrameFields) (y xL xR : Nat) : Nat :=
  if f.scan = 2 then
    f.outOffset + (f.outH - 1 - y) * f.outPitch + (f.outW - 1 - xR) * bytesPerPixel f.depth
  else f.outOffset + y * f.outPitch + xL * bytesPerPixel f.depth

/-- R79, R80: the rows of a tile, from the top row in computed coordinates. -/
def outputRows (f : FrameFields) (tile : Rect) (q : List (Nat × Nat × Nat)) : List RowWrite :=
  (List.range tile.height).map fun j =>
    { offset := outputOffset f (tile.top + j) tile.left (tile.left + tile.width - 1)
      bytes := rowBytes (decide (f.scan = 2)) f.depth ((q.drop (j * tile.width)).take tile.width) }

/-- The Output Writer's next row of the primary output. -/
def writeOutRow (s : State) : State :=
  match s.writer.outRows with
  | r :: rest => (s.mapWriter fun w => { w with outRows := rest }).doJob .outRow
      (rowWriteReq .outputRowWrite r.offset r.bytes)
  | [] => s

/-- R78: the whole tile is quantized, its rows and the derived parts of it are made, and the first row
goes to the Port. -/
def finishTile (s : State) : State :=
  let f := s.frame.fields
  let tile := s.tileInHand
  let (x, q) := quantizeTile f s.writer.dither s.tile.samples
  let accums := tileAccums s tile s.tile.samples
  writeOutRow <| s.mapWriter fun w =>
    { w with dither := x, accums := accums, outRows := outputRows f tile q
             derivedRows := tileDerivedRows s tile s.tile.samples accums }

/-! ### Judging sub-tiles (R70 to R73, R82) -/

/-- R72, R73, R74: the read of row `row` of the box being served. -/
def readBoxRow (v : Serving) (row : Nat) (s : State) : State :=
  let f := s.frame.fields
  s.doJob (.rows row) (sourceReadReq .tilePassUnit
    (f.srcOffset + (v.box.y + row) * f.srcPitch + 6 * v.box.x) (6 * v.box.width))

/-- R72, R73: the sub-tile is served from its box; under overspan the indication is set. DESIGN CHOICE: the
indication (assumption log 23) and the buffer's box origin and size (assumption log 36) are set when the serving
begins, so they stand also when a row read then fails. -/
def serve (r : Rect) (box : Box) (s : State) : State :=
  let v : Serving := { rect := r, box := cutBox box, overspan := !boxFits box }
  readBoxRow v 0 <| s.mapTile fun t =>
    { t with serving := some v, buffer := { t.buffer with box := v.box }
             overspanInd := t.overspanInd || v.overspan }

/-- R82: the abort point between two sub-tiles of one tile. -/
def abortBetween (s : State) : Bool := s.ec.abortReq && !s.tile.subTiles.isEmpty

/-- R70 to R72: takes sub-tiles from the head of the list until one needs rows or the list is empty. A
sub-tile with an empty box reads no rows and is sampled at once. `fuel` bounds the judgings: see
`judgeFuel`. -/
def judgeSubTiles : Nat → State → State
  | 0, s => s
  | fuel + 1, s =>
    match s.tile.subTiles with
    | [] => finishTile s
    | r :: rest =>
      let box := footprint (rectSlice s.tileInHand r s.tile.positions)
      match splitParts r box with
      | [] =>
        let s := s.mapTile fun t => { t with subTiles := rest }
        if box.width = 0 then
          let s := sampleSubTile { rect := r, box := box, overspan := false } s
          if abortBetween s then faultFrame .aborted s else judgeSubTiles fuel s
        else serve r box s
      | parts => judgeSubTiles fuel (s.mapTile fun t => { t with subTiles := parts ++ rest })

/-- A sub-tile of n pixels is judged at most 2n − 1 times with its parts, since each part of a split holds at
least one pixel; one more judging finds the list empty. -/
def judgeFuel (rs : List Rect) : Nat := (rs.map fun r => 2 * (r.width * r.height) + 1).sum + 1

def judgeTile (s : State) : State := judgeSubTiles (judgeFuel s.tile.subTiles) s

/-- R65, R68: a tile is begun. The positions of the whole tile are computed once and its out-of-frame
pixels counted; the preview accumulators are empty (R121). The abort point before the tile is here
(R82). DESIGN CHOICE: accumulators of entries that stopped running within the tile before stay until then (assumption
log 44), and the sample store then holds 0 and clear marks for every pixel of the tile until it is sampled
(assumption log 35). -/
def beginTile (s : State) : State :=
  if s.ec.abortReq then faultFrame .aborted s
  else
    let f := s.frame.fields
    let tile := s.tileInHand
    let px := tile.pixels
    judgeTile <| (s.mapTile fun t =>
      { t with
        positions := px.map fun p => pixelPos s.tables f s.ec.cfg.rn p.1 p.2
        outOfFrame := t.outOfFrame + px.countP fun p => pixelOut s.tables f s.ec.cfg.rn p.1 p.2
        subTiles := [tile]
        samples := List.replicate (tile.width * tile.height) {} }).mapWriter fun w => { w with accums := [] }

/-- R66: the pass begins at tile row 0, tile column 0. -/
def beginPass (s : State) : State :=
  beginTile <| s.mapTile fun t => { t with row := 0, col := 0 }

/-- R67, R82, R86: the tile has been written in full, primary and derived. The next tile is begun; after the
last one the RAWCOPY phase follows, past its abort point. DESIGN CHOICE: the tile position moves on before the abort
point of the next tile, so that an ABORT taken there leaves the position at the tile not begun (assumption log 47). -/
def tileDone (s : State) : State :=
  let f := s.frame.fields
  if s.tile.col + 1 < tileCount f.outW Config.tileWidth then
    beginTile <| s.mapTile fun t => { t with col := t.col + 1 }
  else if s.tile.row + 1 < tileCount f.outH Config.tileHeight then
    beginTile <| s.mapTile fun t => { t with row := t.row + 1, col := 0 }
  else if s.ec.abortReq then faultFrame .aborted s
  else rawFrom 0 s

/-- R127: the next row part of a derived entry; after the last one the tile is done. -/
def nextDerivedRow (s : State) : State :=
  match s.writer.derivedRows with
  | r :: rest => (s.mapWriter fun w => { w with derivedRows := rest }).doJob (.derivedRow r.entry)
      (rowWriteReq .derivedRowWrite r.offset r.bytes)
  | [] => tileDone s

/-- R79: the next row of the primary output; after the last one the derived parts. -/
def nextOutRow (s : State) : State :=
  match s.writer.outRows with
  | _ :: _ => writeOutRow s
  | [] => nextDerivedRow s

end Sys2Proof.Machine
end

