-- ==== Sys2Proof/Machine/Deliver.lean ====
section
/-! DEFINITION. From the Resolver's delivery to the start of the pass: the judging of the derived entries
(R116 to R124) and the table build (R2). -/

namespace Sys2Proof.Machine

/-! ### Judging without memory (R117, steps 1 to 3, and the pool index of R122) -/

/-- The result that the fields, the condition, relief or the pool index settle. -/
def preJudge (s : State) (e : DerivedEntry) : Option EntryResult :=
  if formatBad e.fields s.frame.fields then some (.faulted .format)
  else if !conditionRuns s.chain.flight.used.flags e.fields.mask e.fields.sense then some .skippedCondition
  else if e.fields.yields && s.pace.reliefForTake then some .skippedRelief
  else if s.ec.cfg.poolCount ≤ e.fields.pool then some (.faulted .poolBad)
  else none

/-- R116: an entry carries CLIPPED when its rectangle was cut, whatever its result becomes. -/
def markClipped (k : Nat) (s : State) : State :=
  s.mapGroup fun g => { g with entries := g.entries.modify k fun e =>
    { e with clipped := isClipped e.fields s.frame.fields } }

/-- R117: the judging of all entries has ended. The pass begins unless the build is still under way. -/
def judgingEnded (s : State) : State :=
  let s := s.mapFlight fun f => { f with judging := false }
  if s.chain.flight.building then s else beginPass s

/-- R117: judges the entries from entry `k` on, until one needs its pool read. -/
def judgeEntries : Nat → Nat → State → State
  | 0, _, s => judgingEnded s
  | fuel + 1, k, s =>
    match s.chain.group.entries[k]? with
    | none => judgingEnded s
    | some e =>
      let s := markClipped k s
      match preJudge s e with
      | some r => judgeEntries fuel (k + 1) (setResult k r s)
      | none => s.doJob (.poolTable k)
          (poolReadReq .poolTableRead (s.ec.cfg.poolTable + 4 * e.fields.pool) 4)

def judgeFrom (k : Nat) (s : State) : State := judgeEntries (s.chain.group.entries.length + 1) k s

/-- The result of entry `k` is settled and the next entry is judged. -/
def judgeOn (k : Nat) (r : EntryResult) (s : State) : State := judgeFrom (k + 1) (setResult k r s)

/-! ### The pool as read (R122 to R124) -/

/-- R122, R124: the slots in the order of the search. -/
def searchOrder (p : PoolView) : List Nat :=
  let last := if p.slotCount ≤ p.lastFilled then p.slotCount - 1 else p.lastFilled
  (List.range p.slotCount).map fun i => (last + 1 + i) % p.slotCount

/-- R124: a slot that memory shows EMPTY and that the held-slot list does not name for this pool. -/
def slotFree (held : List HeldSlot) (pool : Nat) (p : PoolView) (i : Nat) : Bool :=
  decide ((p.slots[i]?).map Prod.snd = some 0) &&
    !held.any fun h => decide (h.pool = pool) && decide (h.slot = i)

/-- R124: the slot chosen. -/
def chooseSlot (held : List HeldSlot) (pool : Nat) (p : PoolView) : Option Nat :=
  (searchOrder p).find? (slotFree held pool p)

/-- R123: what the held-slot list would carry for entry `k` in slot `i` of the pool. -/
def slotFor (s : State) (k : Nat) (p : PoolView) (i : Nat) : HeldSlot :=
  let d := s.entryFields k
  let size := imageSize d s.frame.fields
  { entry := k, pool := d.pool, slot := i, offset := ((p.slots[i]?).map Prod.fst).getD 0, depth := p.depth
    width := size.1, height := size.2, pitch := derivedPitch size.1 p.depth, desc := p.desc }

/-- R124: the chosen slot's offset is fit. -/
def slotFit (h : HeldSlot) (window : Nat) : Bool :=
  decide (h.offset ≠ 0 ∧ h.offset % 64 = 0 ∧ h.offset + h.pitch * h.height ≤ window)

/-- R123, R124: the size and the slot search of entry `k` in the pool read. -/
def judgePool (k : Nat) (p : PoolView) (s : State) : State :=
  let d := s.entryFields k
  let size := imageSize d s.frame.fields
  if p.slotSize < derivedPitch size.1 p.depth * size.2 then judgeOn k (.faulted .tooLarge) s
  else
    match chooseSlot s.pools.heldSlots d.pool p with
    | none => s.doJob (.dropCount k)
        (poolWriteReq .poolWordWrite (p.desc + 0x0C) (leBytes 4 (p.dropCount + 1)))
    | some i =>
      let h := slotFor s k p i
      if slotFit h s.window then
        s.doJob (.slotBusy h) (poolWriteReq .slotWrite h.stateOffset (leBytes 4 1))
      else judgeOn k (.faulted .poolBad) s

/-- R124: the BUSY write has ended: the slot joins the held-slot list, or the entry is faulted. -/
def slotBusyEnded (h : HeldSlot) (ok : Bool) (s : State) : State :=
  if ok then judgeFrom (h.entry + 1) (s.mapPools fun p => { p with heldSlots := p.heldSlots ++ [h] })
  else judgeOn h.entry (.faulted .poolBad) s

/-- R124: the drop-count write has ended: DROPPED with POOL_DROP, or POOL_BAD. -/
def dropCountEnded (k : Nat) (ok : Bool) (s : State) : State :=
  if ok then judgeOn k .dropped (s.setEvents evPoolDrop) else judgeOn k (.faulted .poolBad) s

/-! ### Delivery and build (R42, R4, R2) -/

/-- R4: the strength the frame is made with. -/
def usedStrength (o : Override) (recordStrength : Nat) (flags : ResFlags) : Nat :=
  if flags.unknownLens then 0 else min (o.strength.getD recordStrength) 256

/-- R42: the coefficient set and the flags are delivered; the build begins and the entries are judged. -/
def deliver (r : Resolved) (s : State) : State :=
  judgeFrom 0 <| s.mapFlight fun f =>
    { f with
      used := r.used
      coeffs := r.coeffs
      strength := usedStrength f.override s.frame.fields.strength r.used.flags
      judged := true
      judging := true
      building := true }

/-- R2: the build has ended. The pass begins unless an entry is still being judged (R117). -/
def buildEnded (s : State) : State :=
  let f := s.chain.flight
  let s := (s.setTables (buildTables f.coeffs f.strength s.ec.cfg s.frame.fields)).mapFlight fun f =>
    { f with building := false }
  if s.chain.flight.judging then s else beginPass s

end Sys2Proof.Machine
end

