-- ==== Sys2Proof/Machine/Take.lean ====
section
/-! DEFINITION. The take (R110, R111, R24, R60), the lens decision's consequences (R63) and the lookup with
its load (R34 to R40). -/

namespace Sys2Proof.Machine

/-! ### Lookup and load -/

/-- R28: the request for directory entry `n`. -/
def directoryReq (cfg : ConfigCopy) (n : Nat) : Request :=
  resolverReadReq .directoryRead (cfg.dirOffset + 8 * n) 8

/-- R36, R37: a load begins. A directory of length 0 is searched without a read (R27). -/
def beginLoad (lens : Nat) (s : State) : State :=
  let victim := s.cache.victim
  let s := s.mapCache fun c => c.set victim { state := .loading, lens := some lens, copy := some {} }
  let job := Job.load victim lens (.directory 0)
  if s.ec.cfg.dirLength = 0 then s.endJob job false []
  else s.doJob job (directoryReq s.ec.cfg 0)

/-- R34 to R36, R40: the lookup of the frame's lens, or none under UNKNOWN_LENS. -/
def lookup (s : State) : State :=
  let f := s.chain.flight.lens
  if f.flags.unknownLens then deliver (resolveUnknown f) s
  else
    let lens := f.lens.getD 0
    match s.cache.find lens with
    | some slot =>
      deliver (resolveEntry (s.cache.get slot) f s.chain.flight.override)
        (s.mapCache fun c => { c with lastServed := some slot })
    | none => if s.ec.abortReq then faultFrame .aborted s else beginLoad lens s

/-- R37, R38: the entry after a load that was not ended by an ABORT. -/
def loadedEntry (e : CacheEntry) (ok : Bool) : CacheEntry :=
  if ok then { e with state := .ready } else { state := .invalid, lens := e.lens, copy := none }

/-- R37, R38, R40: the load has ended, or an ABORT is taken at it. -/
def loadEnded (victim : CacheSlot) (ok : Bool) (s : State) : State :=
  if s.ec.abortReq then faultFrame .aborted (s.mapCache fun c => c.set victim {})
  else
    let e := loadedEntry (s.cache.get victim) ok
    deliver (resolveEntry e s.chain.flight.lens s.chain.flight.override)
      (s.mapCache fun c => { c.set victim e with lastServed := some victim })

/-! ### The lens decision (R63) -/

/-- R63: the decision is handed on and its events are reported. -/
def applyDecision (d : Decision) (s : State) : State :=
  let s := (s.mapLens fun _ => d.unit).setEvents d.events
  lookup <| s.mapFlight fun f => { f with lens := d.frame }

/-- R50: the two slots of a board read that succeeded, from the bytes of N and P. -/
def boardSlots (ok : Bool) (data : List Byte) : Option (LensSample × LensSample) :=
  if ok then some (lensSample (data.take 24), lensSample (data.drop 24)) else none

/-- R50 to R63: the board reads have ended at `now`. -/
def boardEnded (ok : Bool) (data : List Byte) (now : Word) (s : State) : State :=
  applyDecision (decideFromBoard s.ec.cfg now s.lens (boardSlots ok data) s.chain.flight.override) s

/-! ### Validation (R111) -/

/-- R111: a width or height in its range. -/
def sizeOk (w h : Nat) : Bool := decide (64 ≤ w ∧ w ≤ 8192 ∧ 64 ≤ h ∧ h ≤ 6144)

/-- R111: an offset that is 0 or not a multiple of 64 fails. -/
def placeOk (offset : Nat) : Bool := decide (offset ≠ 0 ∧ offset % 64 = 0)

/-- R111: a pitch that is not a multiple of 64 or is less than the row fails. -/
def pitchOk (pitch row : Nat) : Bool := decide (pitch % 64 = 0 ∧ row ≤ pitch)

/-- R111: the FORMAT checks. -/
def formatOk (f : FrameFields) : Bool :=
  sizeOk f.srcW f.srcH && sizeOk f.outW f.outH && depthOk f.depth && pitchOk f.srcPitch (f.srcW * 6) &&
  pitchOk f.outPitch (f.outW * bytesPerPixel f.depth) && placeOk f.srcOffset && placeOk f.outOffset &&
  decide (f.edge = 1 ∨ f.edge = 2) && decide (f.scan = 1 ∨ f.scan = 2) &&
  decide (f.dither = 1 ∨ f.dither = 2)

/-- R111: the WINDOW checks. -/
def windowOk (f : FrameFields) (window : Nat) : Bool :=
  decide (f.srcOffset + f.srcPitch * f.srcH ≤ window ∧ f.outOffset + f.outPitch * f.outH ≤ window)

/-- R111: the first check that fails. -/
def validateFrame (f : FrameFields) (window : Nat) : Option FaultCode :=
  if !formatOk f then some .format else if !windowOk f window then some .window else none

/-- R111: the clamps made without a fault. -/
def clampFrame (f : FrameFields) : FrameFields :=
  { f with strength := min f.strength 256, fillR := min f.fillR 4095, fillG := min f.fillG 4095,
           fillB := min f.fillB 4095 }

/-- R24, R50, R60: a frame that passed validation: its seed is loaded, and its lens state is decided from a
full override or from the board. -/
def frameAccepted (s : State) : State :=
  let s := s.mapGroup fun g =>
    { g with frame := g.frame.map fun r => { r with fields := clampFrame r.fields } }
  let f := s.frame.fields
  let s := if f.seedPresent then s.mapWriter fun w => { w with dither := seedState f.seed } else s
  if s.chain.flight.override.full then applyDecision (decideFull s.lens s.chain.flight.override) s
  else s.doJob .boardHeader (lensReadReq .boardHeaderRead s.ec.cfg.boardOffset 8)

/-- R110 step 4. -/
def validate (s : State) : State :=
  match validateFrame s.frame.fields s.window with
  | some code => faultFrame code s
  | none => frameAccepted s

/-! ### The take (R110) -/

/-- R110 step 2, R138, R65: the take time, the relief for the take, the count and the frame's counts. -/
def recordTake (s : State) : State :=
  let s := s.mapPace fun p => { p with takeTime := s.reg.time, reliefForTake := p.relief }
  let s := s.mapEc fun c => { c with groupsTaken := c.groupsTaken + 1 }
  s.mapTile fun t => { t with outOfFrame := 0, overspan := 0, overrange := 0, overspanInd := false }

/-- R110 step 3, R108: the frame consumes the pending override and the staged one becomes pending. -/
def consumeOverride (s : State) : State :=
  s.mapChain fun c =>
    { c with flight := { c.flight with override := c.override }, override := c.group.staged
             group := { c.group with staged := {} } }

/-- R110 steps 2 to 4, after the TAKEN writes or the first of them that failed. -/
def afterTaken (ok : Bool) (s : State) : State :=
  let s := consumeOverride (recordTake s)
  if ok then validate s else faultFrame .recordWrite s

/-- R110 step 1: the next TAKEN write. -/
def nextTaken (s : State) : State :=
  match s.chain.flight.takenTodo with
  | off :: rest => (s.mapFlight fun f => { f with takenTodo := rest }).doJob (.recordWrite .taken off)
      (stateWriteReq off .taken)
  | [] => afterTaken true s

/-- R110: a TAKEN write has ended. -/
def takenEnded (ok : Bool) (s : State) : State := if ok then nextTaken s else afterTaken false s

/-- R110, R92, R163: the take moves the engine to WORKING, which ends any pending wake and disarms the
rescan timer, and the first TAKEN write is made. -/
def take (s : State) : State :=
  let fromParked := decide (s.ec.engine = .parked)
  let s := s.mapEc fun c => { c with engine := .working, timer := none, wakePending := false }
  let s := if fromParked then requestStatus {} s else s
  nextTaken <| s.mapFlight fun _ =>
    { inFlight := true, takenTodo := s.frame.offset :: s.chain.group.mainList.map MainRecord.offset }

end Sys2Proof.Machine
end

