-- ==== Sys2Proof/Machine/Chain.lean ====
section
/-! DEFINITION. Chapter 5: what a look does with each record read and each record written (R93 to R109). -/

namespace Sys2Proof.Machine

/-! ### The look-ahead's pieces (R98 to R105) -/

/-- R102: the look-ahead's next read, within its limit. A look that a command ends makes no further access
(R96). -/
def nextRead (why : ReadWhy) (off : Nat) (s : State) : State :=
  if s.lookMustEnd then endLook false s
  else if Config.lookAheadLimit ≤ s.chain.group.readCount then
    chainHalt .unterminated s.chain.group.lastRead s
  else readRecord why off s

/-- R99: the group is incomplete; the engine parks at its FRAME. -/
def incomplete (s : State) : State := park s.ec.cursor false s

/-- R98: follows a link in the main chain of the group. -/
def followMain (record link : Nat) (s : State) : State :=
  if link = 0 then incomplete s
  else if offsetOk link s.window then nextRead .lookAhead link s
  else chainHalt .linkBad record s

/-- R104: follows a link in a sub-chain. -/
def followSub (record link : Nat) (s : State) : State :=
  if link = 0 then chainHalt .unterminated record s
  else if offsetOk link s.window then nextRead .subchain link s
  else chainHalt .linkBad record s

/-- R98: the group is complete and is taken, unless a command ends the look without a take (R96). -/
def completeGroup (s : State) : State := if s.lookMustEnd then endLook false s else take s

/-- R98: after a record that carries END the group is complete; otherwise its link is followed. -/
def afterMain (off : Nat) (h : RecordHead) (s : State) : State :=
  if h.endFlag then completeGroup s else followMain off h.link s

/-- R102: counts a record read. -/
def countRead (off : Nat) (s : State) : State :=
  s.mapGroup fun g => { g with readCount := g.readCount + 1, lastRead := off }

/-- R97: a record joins the main-chain list. -/
def addMain (off : Nat) (kind : RecordKind) (h : RecordHead) (entry : Option Nat) (s : State) : State :=
  s.mapGroup fun g => { g with mainList := g.mainList ++
    [{ offset := off, kind := kind, endFlag := h.endFlag, notify := h.notify, entry := entry }] }

/-- R101: the place a DERIVED record would take among the entries; none when four have joined. -/
def entryPlace (s : State) : Option Nat :=
  if s.chain.group.entries.length < Config.maxEntries then some s.chain.group.entries.length else none

/-- R101: a DERIVED record joins, or is held out or passed over. -/
def joinEntry (off : Nat) (b : List Byte) (main : Bool) (s : State) : State :=
  if (entryPlace s).isSome then
    s.mapGroup fun g => { g with entries := g.entries ++
      [{ offset := off, fields := derivedFields b, mainChain := main }] }
  else s

/-- R107: merges an OVERRIDE record into the staged override. -/
def stageOverride (b : List Byte) (s : State) : State :=
  s.mapGroup fun g => { g with staged := g.staged.merge (overrideFields b) }

/-- R103: a CALL's target is checked and the CALL is pushed. -/
def callPush (off target : Nat) (s : State) : State :=
  if target = 0 ∨ !offsetOk target s.window then chainHalt .callBad off s
  else if Config.stackDepth ≤ s.chain.returnStack.length then chainHalt .stackFull off s
  else nextRead .subchain target <| s.mapChain fun c => { c with returnStack := c.returnStack ++ [off] }

/-- R105: the main-chain CALL whose sub-chain was walked carries END. -/
def callCarriesEnd (s : State) : Bool :=
  match s.chain.group.mainList.getLast? with
  | some m => m.endFlag
  | none => false

/-- R105: a RETURN pops the newest CALL and its link is read afresh, or the group is complete. -/
def returnPop (s : State) : State :=
  match s.chain.returnStack.getLast? with
  | none => s
  | some call =>
    let s := s.mapChain fun c => { c with returnStack := c.returnStack.dropLast }
    if s.chain.returnStack.isEmpty && callCarriesEnd s then completeGroup s
    else nextRead .callReread call s

/-! ### An unterminated group (R100) -/

/-- R137: the completion write of a main-chain record of an unterminated group. -/
def unterminatedCompletion (m : MainRecord) : List Byte :=
  match m.kind with
  | .derived => derivedCompletion FaultCode.groupUnterminated.code
      (EntryResult.faulted .groupUnterminated).code 0
  | _ => plainCompletion FaultCode.groupUnterminated.code

/-- R100, R134: the writes in order, each with its record, in two passes: every completion section is written before
any state word of the group, and in each pass the main-chain list goes first and the FRAME last. DEDUCED: the passes
(assumption log 21). -/
def unterminatedWrites (frame : Nat) (main : List MainRecord) : List (Nat × Request) :=
  main.map (fun m => (m.offset, completionReq m.offset (unterminatedCompletion m))) ++
  [(frame, completionReq frame unterminatedFrameCompletion)] ++
  main.map (fun m => (m.offset, stateWriteReq m.offset .faulted)) ++ [(frame, stateWriteReq frame .faulted)]

/-- R100, R142: the group is faulted; the cursor moves to the second FRAME, and the engine looks there or
halts for a write that failed. -/
def unterminatedEnded (u : Unterminated) (s : State) : State :=
  let s := countUnterminated s
  match u.failed with
  | some record => chainHalt .recordWrite record (setCursor u.second false s)
  | none => moveOnReported u.second s

/-- R100: the next fault write, or the end of them. -/
def nextUnterminated (s : State) : State :=
  match s.chain.unterminated with
  | none => s
  | some u =>
    match u.todo with
    | (record, r) :: rest =>
      (s.mapChain fun c => { c with unterminated := some { u with todo := rest } }).doJob
        (.recordWrite .unterminated record) r
    | [] => unterminatedEnded u s

/-- R100: the second FRAME has been met. A look that a command ends writes nothing (R96). -/
def beginUnterminated (second : Nat) (s : State) : State :=
  if s.lookMustEnd then endLook false s
  else
    let todo := unterminatedWrites s.frame.offset s.chain.group.mainList
    nextUnterminated (s.mapChain fun c => { c with unterminated := some { todo := todo, second := second } })

/-- R100, R96: a fault write has ended. DEDUCED: a command that ends the look lets no further write begin, and a
failure already met faults the group and halts the engine all the same (assumption log 11). -/
def unterminatedWritten (record : Nat) (ok : Bool) (s : State) : State :=
  match s.chain.unterminated with
  | none => s
  | some u =>
    let u := { u with failed := u.failed.or (if ok then none else some record) }
    let s := s.mapChain fun c => { c with unterminated := some u }
    if s.lookMustEnd && !u.todo.isEmpty then
      if u.failed.isSome then unterminatedEnded u s else endLook false s
    else nextUnterminated s

/-! ### Group start (R109) -/

/-- R109: the completion section of a record handled at group start. -/
def groupStartCompletion (kind : RecordKind) : List Byte :=
  match kind with
  | .derived => derivedCompletion FaultCode.orphan.code (EntryResult.faulted .orphan).code 0
  | .override => plainCompletion 0
  | _ => plainCompletion FaultCode.orphan.code

/-- R109: the state a record handled at group start is written with. -/
def groupStartState (kind : RecordKind) : RecordState :=
  match kind with
  | .override => .done
  | _ => .faulted

/-- R109: the handling begins: an OVERRIDE is merged into the pending override, and the completion write is
made. -/
def beginGroupStart (kind : RecordKind) (b : List Byte) (s : State) : State :=
  let off := s.ec.cursor
  let s := if kind = .override then
      s.mapChain fun c => { c with override := c.override.merge (overrideFields b) } else s
  s.doJob (.recordWrite (.groupStart true kind) off) (completionReq off (groupStartCompletion kind))

/-- R109: a write of the handling has ended: the state write follows the completion write, and the advance
follows the state write. DEDUCED: a command that ends the look lets the advance's read be made
(assumption log 10). RECORD_FAULT of an orphan waits for whatever status write follows (R147), however late
that is (assumption log 26). -/
def groupStartWritten (completion : Bool) (kind : RecordKind) (off : Nat) (ok : Bool) (s : State) : State :=
  if !ok then chainHalt .recordWrite off s
  else if completion then
    s.doJob (.recordWrite (.groupStart false kind) off) (stateWriteReq off (groupStartState kind))
  else
    advancePast off <| s.mapEc fun c =>
      { c with eventsDue := c.eventsDue ||| orphanEvent (some kind) }

/-! ### Records read (R93 to R95, R98, R104, R105) -/

/-- R98: the look-ahead begins at the READY FRAME at the cursor. -/
def beginGroup (b : List Byte) (s : State) : State :=
  let off := s.ec.cursor
  let h := recordHead b
  let s := s.mapChain fun c =>
    { c with
      returnStack := []
      group := { frame := some { offset := off, endFlag := h.endFlag, notify := h.notify
                                 fields := frameFields b }
                 readCount := 1, lastRead := off } }
  afterMain off h s

/-- R93: the cursor record as read. DESIGN CHOICE: under a STOP, an ABORT or a RELOAD remembered the look-ahead does not
begin at a READY FRAME, so that its link is not examined and a bad one gives no LINK_BAD (R96; assumption log 50). -/
def cursorRead (b : List Byte) (s : State) : State :=
  let h := recordHead b
  if h.state ≠ some .ready then park s.ec.cursor s.ec.linkWait s
  else
    match h.kind with
    | none => chainHalt .badKind s.ec.cursor s
    | some .ret => chainHalt .stackEmpty s.ec.cursor s
    | some .frame => if s.lookMustEnd then endLook false s else reportCursor (beginGroup b s)
    | some k => if s.lookMustEnd then endLook false s else reportCursor (beginGroupStart k b s)

/-- R94: the cursor record's link as read with the link-wait flag set. -/
def cursorLinkRead (link : Nat) (s : State) : State :=
  if link = 0 then park s.ec.cursor s.ec.linkWait s
  else if offsetOk link s.window then moveOn link s
  else chainHalt .linkBad s.ec.cursor s

/-- R95: the link of the record advanced past. -/
def advanceRead (off link : Nat) (s : State) : State :=
  if link = 0 then park off true s
  else if offsetOk link s.window then moveOn link s
  else chainHalt .linkBad off (setCursor off true s)

/-- R98: a main-chain record of the group as read. -/
def lookAheadRead (off : Nat) (b : List Byte) (s : State) : State :=
  let h := recordHead b
  if h.state ≠ some .ready then incomplete s
  else
    match h.kind with
    | none => chainHalt .badKind off s
    | some .ret => chainHalt .stackEmpty off s
    | some .frame => beginUnterminated off s
    | some .derived => afterMain off h (joinEntry off b true (addMain off .derived h (entryPlace s) s))
    | some .override => afterMain off h (stageOverride b (addMain off .override h none s))
    | some .call => callPush off (callTarget b) (addMain off .call h none s)

/-- R104: a sub-chain record as read. -/
def subchainRead (off : Nat) (b : List Byte) (s : State) : State :=
  let h := recordHead b
  if h.state ≠ some .standing then chainHalt .subchainState off s
  else
    match h.kind with
    | none => chainHalt .badKind off s
    | some .frame => chainHalt .subchainFrame off s
    | some .derived => followSub off h.link (joinEntry off b false s)
    | some .override => followSub off h.link (stageOverride b s)
    | some .call => callPush off (callTarget b) s
    | some .ret => returnPop s

/-- R105: the link of a CALL read again after its RETURN. -/
def callReread (off link : Nat) (s : State) : State :=
  if s.chain.returnStack.isEmpty then followMain off link s else followSub off link s

end Sys2Proof.Machine
end

