-- ==== Sys2Proof/Machine/Commands.lean ====
section
/-! DEFINITION. What each register access does when it is judged (R145, R148, R151 to R156, R159, R160, R164,
R178, R180, R183), the two resets (R165, R166), and the accesses and wakes that are held (R143, R167, R178). -/

namespace Sys2Proof.Machine

/-! ### Commands (R151) -/

/-- R151: a refused command changes no state and sets CMD_REFUSED. -/
def refuse (s : State) : State := s.setEvents evCmdRefused

/-- R152: what START clears. -/
def clearForStart (s : State) : State :=
  let s := (s.setWork (leftWork s.work)).mapChain fun _ => {}
  let s := s.mapEc fun c =>
    { c.quiet with
      engine := .starting, haltReason := .noHalt, haltRecord := 0, cursor := 0, linkWait := false
      cfgValid := false, groupsTaken := 0, groupsRetired := 0, framesDone := 0, framesFaulted := 0
      derivedFilled := 0, derivedDropped := 0, derivedSkipped := 0, lastFrameNumber := 0 }
  let s := (s.mapPools fun p => { p with heldSlots := [] }).mapCache fun _ => emptyCache
  let s := s.mapLens fun _ => {}
  s.mapPace fun p => { p with overruns := 0, consecutive := 0, relief := false, reliefForTake := false }

/-- START (R152). -/
def actStart (s : State) : State :=
  if (s.ec.engine = .stopped ∨ s.ec.engine = .halted) ∧ s.reg.winSize ≠ 0 then
    requestStatus { after := .readConfig false } (clearForStart s)
  else refuse s

/-- R153, R154: STOP or ABORT in PARKED. Work in progress runs to its end first. -/
def stopParked (s : State) : State :=
  if s.work.isSome || s.configBusy then s.mapEc fun c => { c with stopAsked := true } else enterStopped s

/-- The move to STOPPING, with its status write (R143); nothing when the engine is there already. -/
def toStopping (s : State) : State :=
  if s.ec.engine = .stopping then s
  else requestStatus {} (s.mapEc fun c => { c with engine := .stopping })

/-- STOP (R153). -/
def actStop (s : State) : State :=
  match s.ec.engine with
  | .parked => stopParked s
  | .starting => toStopping s
  | .working => toStopping s
  | .halted => if s.reg.winSize ≠ 0 then enterStopped s else refuse s
  | .stopped => refuse s
  | .stopping => refuse s

/-- The configuration read of a START or RESUME is in flight. -/
def State.startReadBusy (s : State) : Bool :=
  match s.ec.job with
  | some { job := .config .start, .. } => true
  | some { job := .config .resume, .. } => true
  | _ => false

/-- R154: ABORT in WORKING or STOPPING: the abort request with a group in flight; otherwise the look or the
configuration read of a START or RESUME is ended. A RELOAD's read is not. -/
def abortActive (s : State) : State :=
  if s.chain.flight.inFlight then toStopping (s.mapEc fun c => { c with abortReq := true })
  else
    let ends := s.startReadBusy || (s.ec.boundaryLast.isNone && s.work.isSome)
    toStopping (s.mapEc fun c => { c with endedByAbort := c.endedByAbort || ends })

/-- ABORT (R154). -/
def actAbort (s : State) : State :=
  match s.ec.engine with
  | .parked => stopParked s
  | .starting => s.mapEc fun c => { c with endedByAbort := true }
  | .working => abortActive s
  | .stopping => abortActive s
  | .stopped => refuse s
  | .halted => refuse s

/-- RESUME (R155). -/
def actResume (s : State) : State :=
  if s.ec.engine = .halted ∧ s.reg.winSize ≠ 0 then
    let s := s.mapEc fun c => { c with haltReason := .noHalt, haltRecord := 0 }
    if s.ec.cfgValid then
      requestStatus { after := .look } (armTimer (s.mapEc fun c => { c with engine := .parked }))
    else
      requestStatus { after := .readConfig true } (s.mapEc fun c => { c with engine := .starting })
  else refuse s

/-- RESCAN (R156). -/
def actRescan (s : State) : State :=
  match s.ec.engine with
  | .parked => wakeNow s
  | .starting => s
  | .working => s
  | .stopping => s
  | .stopped => refuse s
  | .halted => refuse s

/-- RELOAD waits for a group boundary, for the look's end or for a read in flight. -/
def holdReload (s : State) : State := s.mapEc fun c => { c with reloadReq := true }

/-- RELOAD (R159, R160). -/
def actReload (s : State) : State :=
  match s.ec.engine with
  | .parked => if s.work.isSome || s.configBusy then holdReload s else requestConfig .reload s
  | .working => holdReload s
  | .stopping => holdReload s
  | .stopped => refuse s
  | .starting => refuse s
  | .halted => refuse s

/-- A COMMAND write whose value is none of the seven commands (R180). -/
def actCommandUnknown (s : State) : State := refuse s

/-! ### Resets (R165, R166) -/

/-- Which bytes of a write attempt that did not succeed reached memory (R173, R177, log 3). An access of 4
bytes at a multiple of 4 reaches memory whole (R175). -/
def placedByte (n : Nat) (r : Request) (i : Nat) : Bool :=
  if r.length = 4 ∧ r.offset % 4 = 0 then Config.partWritten n 0 else Config.partWritten n i

/-- R173, R177: what a write attempt leaves in memory that failed or was cut off. -/
def landPart (a : Access) (s : State) : State :=
  match a.req.data with
  | some bytes =>
    { s with dram := memWriteSome (placedByte s.freeCount a.req) s.dram a.address 0 bytes
             freeCount := s.freeCount + 1 }
  | none => s

/-- R177: the access cut off by a reset. -/
def cutAccess (s : State) : State :=
  match s.port.inFlight with
  | some a => if a.phase = .attempt then landPart a s else s
  | none => s

def Held.isAccess : Held → Bool
  | .access _ => true
  | .wake => false

/-- R165, R166: a reset begins. Every block takes its reset value, memory keeps what it held, and register
accesses that are held wait for the reset's end (R167, R178). -/
def resetState (s : State) : State :=
  let s := cutAccess s
  { State.reset with
    reg := { inReset := true, held := s.reg.held.filter Held.isAccess }
    dram := s.dram
    freeCount := s.freeCount
    pending := s.pending }

/-- RESET (R166). -/
def actReset (s : State) : State := resetState s

/-! ### Window registers (R164, R183) -/

/-- A window write is accepted in STOPPED and in HALTED; in HALTED it clears the configuration-valid mark. DESIGN
CHOICE: an access that an immediate halt left in the Port does not hold the write back (assumption log 43). -/
def windowWrite (f : RegisterInterface → RegisterInterface) (s : State) : State :=
  match s.ec.engine with
  | .stopped => s.mapReg f
  | .halted => (s.mapReg f).mapEc fun c => { c with cfgValid := false }
  | .starting => refuse s
  | .parked => refuse s
  | .working => refuse s
  | .stopping => refuse s

/-- WIN_BASE takes all 32 bits. -/
def actWinBase (v : Word) (s : State) : State := windowWrite (fun r => { r with winBase := v }) s

/-- WIN_SIZE above 1,048,576 is taken as 1,048,576. -/
def actWinSize (v : Word) (s : State) : State :=
  windowWrite (fun r => { r with winSize := if Config.maxWinSize < v then Config.maxWinSize else v }) s

/-! ### EVENTS, LINE_ENABLE and accesses without effect -/

/-- R145: the read returns the set and clears every bit it returns. -/
def actEventsRead (s : State) : State :=
  s.mapReg fun r => { r with readData := r.events.setWidth 32, events := 0 }

/-- R148: bits that stand for no event are not held. -/
def actLineEnable (v : Word) (s : State) : State := s.mapReg fun r => { r with lineEnable := v.setWidth 10 }

/-- R178, R145: no effect; a misfit read returns 0. -/
def actNoEffect (a : NoEffectAccess) (s : State) : State :=
  match a with
  | .misfitRead _ _ => s.mapReg fun r => { r with readData := 0 }
  | .identWrite _ => s
  | .stateWrite _ => s
  | .timeWrite _ => s
  | .eventsWrite _ => s
  | .misfitWrite _ _ _ => s

/-! ### Held accesses and wakes (R143, R167, R178) -/

/-- R143, R167: commands other than RESET and window writes wait for the end of a status write. -/
def waitsForStatus : Instr → Bool
  | .start => true
  | .stop => true
  | .abort => true
  | .resume => true
  | .rescan => true
  | .reload => true
  | .commandUnknown _ => true
  | .winBaseWrite _ => true
  | .winSizeWrite _ => true
  | _ => false

/-- R178, R143, R167: an access waits for the end of a reset, and some for the end of a status write. -/
def State.accessWaits (s : State) (c : Instr) : Bool :=
  s.reg.inReset || (waitsForStatus c && s.statusInFlight)

/-- A register access is judged. Only register accesses stand here; nothing else is ever held. -/
def judgeAccess (c : Instr) (s : State) : State :=
  match c with
  | .start => actStart s
  | .stop => actStop s
  | .abort => actAbort s
  | .resume => actResume s
  | .rescan => actRescan s
  | .reload => actReload s
  | .reset => actReset s
  | .commandUnknown _ => actCommandUnknown s
  | .winBaseWrite v => actWinBase v s
  | .winSizeWrite v => actWinSize v s
  | .eventsRead => actEventsRead s
  | .lineEnableWrite v => actLineEnable v s
  | .registerWriteNoEffect a => actNoEffect a s
  | _ => s

/-- A register access arrives: it is held or judged. -/
def takeAccess (c : Instr) (s : State) : State :=
  if s.accessWaits c then s.mapReg fun r => { r with held := r.held ++ [.access c] }
  else judgeAccess c s

/-- What was held is judged again in the order of arrival, each against the state the one before it left. A
wake has no effect during a reset. -/
def judgeHeld (h : Held) (s : State) : State :=
  match h with
  | .access c => takeAccess c s
  | .wake => if s.reg.inReset then s else wake s

def judgeAll : List Held → State → State
  | [], s => s
  | h :: rest, s => judgeAll rest (judgeHeld h s)

/-- R143, R167, R178: the end of a status write or of a reset. -/
def drainHeld (s : State) : State := judgeAll s.reg.held (s.mapReg fun r => { r with held := [] })

end Sys2Proof.Machine
end

