-- ==== Sys2Proof/Machine/Boundary.lean ====
section
/-! DEFINITION. The ends of the Engine Controller's work: the configuration read (R157 to R160), the status
write (R143, R144, R147), the retirement (R114) and the group boundary (R160). -/

namespace Sys2Proof.Machine

/-! ### Retirement and group boundary -/

/-- How many entries of the derived results list have a result that `p` picks. -/
def countResults (s : State) (p : EntryResult → Bool) : Word :=
  BitVec.ofNat 32 (s.results.countP fun e => match e.result with | some r => p r | none => false)

def EntryResult.isFilled : EntryResult → Bool
  | .filled _ => true
  | _ => false

def EntryResult.isSkipped : EntryResult → Bool
  | .skippedCondition => true
  | .skippedRelief => true
  | _ => false

/-- R146: the events of a retirement. -/
def retirementEvents (s : State) : BitVec 10 :=
  eventWhen (s.frame.notify || s.chain.group.mainList.any MainRecord.notify) evGroupDone |||
  eventWhen s.chain.flight.faultWritten evRecordFault |||
  eventWhen s.chain.flight.overrun evOverrun

/-- R114, R142: the counts of a retirement. -/
def countRetirement (s : State) : State :=
  let clean := s.chain.flight.fault.isNone
  let filled := countResults s EntryResult.isFilled
  let dropped := countResults s fun r => decide (r = .dropped)
  let skipped := countResults s EntryResult.isSkipped
  let number := BitVec.ofNat 32 s.frame.fields.frameNumber
  s.mapEc fun c =>
    { c with
      groupsRetired := c.groupsRetired + 1
      framesDone := if clean then c.framesDone + 1 else c.framesDone
      framesFaulted := if clean then c.framesFaulted else c.framesFaulted + 1
      derivedFilled := c.derivedFilled + filled
      derivedDropped := c.derivedDropped + dropped
      derivedSkipped := c.derivedSkipped + skipped
      lastFrameNumber := number }

/-- R113, R114: the retirement writes have ended, `failed` when one of them failed. The status write comes
next, and then the group boundary. -/
def retirementEnded (failed : Bool) (s : State) : State :=
  let events := retirementEvents s
  let last := s.chain.group.lastMain
  let s := (countRetirement s).mapEc fun c =>
    { c with boundaryLast := some last
             heldHalt := c.heldHalt.or (if failed then some (.recordWrite, last) else none) }
  requestStatus { onEnd := events, after := .boundary } <|
    s.mapChain fun c => { c with group := {}, flight := {} }

/-- R160 steps 2 to 5. `fault` is the CONFIG fault of step 1, `reloaded` says that step 1 was carried out. -/
def boundaryEnd (fault : Option Nat) (reloaded : Bool) (s : State) : State :=
  match s.ec.boundaryLast with
  | none => s
  | some last =>
    match s.ec.heldHalt with
    | some (reason, record) =>
      enterCalledHalt reason record <|
        (setCursor last true s).mapEc fun c => { c with cfgValid := c.cfgValid && !reloaded }
    | none =>
      match fault with
      | some field => enterHalted .config field (setCursor last true s)
      | none =>
        if s.ec.engine = .stopping ∨ s.ec.abortReq then enterStopped (setCursor last true s)
        else advancePast last (s.mapEc fun c => { c with boundaryLast := none })

/-- R160 step 1. -/
def boundaryStart (s : State) : State :=
  if s.ec.reloadReq then requestConfig .boundary (s.mapEc fun c => { c with reloadReq := false })
  else boundaryEnd none false s

/-! ### Configuration read (R157 to R160) -/

/-- R157, R140: a clean read replaces the copy whole, and relief is judged afresh. -/
def applyCopy (fields : ConfigCopy) (s : State) : State :=
  (s.mapEc fun c => { c with cfg := clampConfig fields, cfgValid := true }).mapPace fun p =>
    { p with relief := reliefActive fields.reliefThreshold p.consecutive }

/-- R157, R161: a CONFIG fault. -/
def configHalt (field : Nat) (s : State) : State :=
  enterHalted .config field (s.mapEc fun c => { c with cfgValid := false })

/-- R152, R155: PARKED with a wake at the cursor. -/
def parkFromStarting (s : State) : State :=
  requestStatus { after := .look } (armTimer (s.mapEc fun c => { c with engine := .parked }))

/-- R153, R160: a START or RESUME that a STOP turned into STOPPING. A RELOAD that waited is carried out. -/
def stopFromStarting (moved : Bool) (s : State) : State :=
  if s.ec.reloadReq then
    let s := if moved then requestStatus {} s else s
    requestConfig .reload (s.mapEc fun c => { c with reloadReq := false })
  else enterStopped s

/-- R152 to R155: the read of a START or RESUME. Under a STOP in the STARTING of a RESUME whose cursor is not 0 the
rules disagree: R153 has the cursor set to the chain head, R155 and R158 have it kept. Which of the two happens is a
FREE VALUE (assumption log 38). -/
def startRead (resume : Bool) (fields : ConfigCopy) (fault : Option Nat) (s : State) : State :=
  if s.ec.endedByAbort then enterStopped s
  else
    match fault with
    | some field => configHalt field s
    | none =>
      let toHead := !resume || decide (s.ec.cursor = 0) ||
        (decide (s.ec.engine = .stopping) && Config.stopTakesChainHead)
      let s := applyCopy fields s
      let head := s.ec.cfg.chainHead
      let moved := toHead && cursorMoves head false s
      let s := if toHead then setCursor head false s else s
      if s.ec.engine = .stopping then stopFromStarting moved s else parkFromStarting s

/-- R159, R160: the read of a RELOAD outside a group boundary. DESIGN CHOICE: the new look uses up a wake-pending mark
set during the look that the RELOAD ended or during the read: the mark is cleared as that look begins, so that no
second look follows its park (R92 and R96 name no such clearing; assumption log 49). -/
def reloadRead (fields : ConfigCopy) (fault : Option Nat) (s : State) : State :=
  let s := s.mapCache fun _ => emptyCache
  match fault with
  | some field => configHalt field s
  | none =>
    let s := applyCopy fields s
    if s.ec.reloadReq then requestConfig .reload (s.mapEc fun c => { c with reloadReq := false })
    else if s.ec.stopAsked ∨ s.ec.engine = .stopping then enterStopped s
    else if s.ec.lookAfterRead ∨ s.ec.wakePending ∨ s.ec.engine = .working then
      beginLook (s.mapEc fun c => { c with lookAfterRead := false, wakePending := false })
    else s

/-- R160: the read of a RELOAD at a group boundary. -/
def boundaryRead (fields : ConfigCopy) (fault : Option Nat) (s : State) : State :=
  let s := s.mapCache fun _ => emptyCache
  match fault with
  | some field => boundaryEnd (some field) true (s.mapEc fun c => { c with cfgValid := false })
  | none =>
    let s := applyCopy fields s
    if s.ec.reloadReq then requestConfig .boundary (s.mapEc fun c => { c with reloadReq := false })
    else boundaryEnd none true s

/-- R157: the halt record of a CONFIG fault; none when the read is clean. -/
def readFault (ok : Bool) (data : List Byte) (window : Nat) : Option Nat :=
  if ok then configFault (configFields data) window else some 0

/-- R157: the configuration read has ended. -/
def configEnded (why : ConfigWhy) (ok : Bool) (data : List Byte) (s : State) : State :=
  let fault := readFault ok data s.window
  let fields := configFields data
  let s := s.mapEc fun c => { c with job := none }
  kick (match why with
    | .start => startRead false fields fault s
    | .resume => startRead true fields fault s
    | .reload => reloadRead fields fault s
    | .boundary => boundaryRead fields fault s)

/-! ### Status write (R143, R144, R147) -/

/-- What the engine goes on with when a status write has ended without a failure. -/
def continueAfter (a : After) (s : State) : State :=
  match a with
  | .nothing => s
  | .readConfig resume => requestConfig (if resume then .resume else .start) s
  | .look => beginLook s
  | .boundary => boundaryStart s

/-- An access of the look that runs on in the Port when the engine halts at once. -/
def abandonWork : Option Work → Option Work
  | some w => if w.ended then none else some { job := .abandoned w.job.startWrite }
  | none => none

/-- R146: an orphan whose FAULTED write has ended before the halt, and has not been acted on. -/
def endedOrphan : Option Work → BitVec 10
  | some w => eventWhen (w.ended && w.ok) (orphanEvent w.job.startWrite)
  | none => 0

/-- R100: every fault write of an unterminated group has been handed to the Port. -/
def State.faultsWritten (s : State) : Bool :=
  match s.chain.unterminated with
  | some u => u.todo.isEmpty
  | none => false

/-- R144: the look is ended by a halt at once. DEDUCED: an unterminated group whose last fault write had been
handed over is faulted all the same (assumption log 17); that write leaves the Port before any later access. -/
def abandonLook (s : State) : State :=
  let events := endedOrphan s.work
  let s := if s.faultsWritten then countUnterminated s else s
  (s.setWork (abandonWork s.work)).mapEc fun c => { c with eventsDue := c.eventsDue ||| events }

/-- R113, R144: a write of the retirement in course has failed, which calls for a halt with RECORD_WRITE. -/
def State.retirementFailed (s : State) : Bool :=
  match s.work with
  | some { job := .retire _ failed, .. } => failed
  | _ => false

/-- R144, R161: while a group is in flight, and until its boundary has been passed, the halt is held. A halt called for
before, also by a failed write of the retirement still in course, keeps its reason. -/
def holdStatusHalt (last : Nat) (s : State) : State :=
  let reason := if s.retirementFailed then .recordWrite else .statusWrite
  s.mapEc fun c => { c with heldHalt := c.heldHalt.or (some (reason, last)), statusFailed := true }

/-- R100, R109, R161: outside a group, an access of the look has failed and has called for a halt that has not been
entered yet: the one whose end is still to be acted on, or an earlier fault write of an unterminated group. -/
def State.haltCalled (s : State) : Bool :=
  (match s.work with
    | some w => w.ended && !w.ok
    | none => false) ||
  match s.chain.unterminated with
  | some u => u.failed.isSome
  | none => false

/-- R144: the last main-chain record of the group in flight or at its boundary; `statusFail` judges the occasion by it
as it stands when the write fails (assumption log 40). -/
def State.groupLast (s : State) : Option Nat :=
  if s.chain.flight.inFlight then some s.chain.group.lastMain else s.ec.boundaryLast

/-- R144: a status write has failed. In HALTED the engine stays so, and DESIGN CHOICE: its entry's own status write,
when it is still to come, is made (assumption log 32). DESIGN CHOICE: the occasion is judged when the write fails, not
when it began (assumption log 40). When a failed access of the look has called for a halt before, that halt stands
with its reason and comes when its rule enters it (R161; DEDUCED: assumption log 46). -/
def statusFail (w : StatusWrite) (s : State) : State :=
  if s.ec.engine = .halted then s
  else
    match s.groupLast with
    | some last =>
      let s := holdStatusHalt last s
      if w.after = .boundary then boundaryStart s else s
    | none =>
      if s.haltCalled then s.mapEc fun c => { c with statusFailed := true }
      else haltUnreported .statusWrite w.cursorAtStart (abandonLook s)

/-- R143, R144, R147: a status write has ended or failed: its events are set, the engine goes on or halts, and
what was held is judged. DESIGN CHOICE: what the engine itself waits to do comes first, a further status write that
already waits included, through which what is held stays held (assumption log 28). -/
def statusEnded (w : StatusWrite) (ok : Bool) (s : State) : State :=
  let s := s.mapEc fun c => { c with job := none }
  let s := s.setEvents (w.onEnd ||| eventWhen ok w.onSuccess)
  let s := if ok then continueAfter w.after s else statusFail w s
  kick (drainHeld (kick s))

end Sys2Proof.Machine
end

