-- ==== Sys2Proof/Machine/Port.lean ====
section
/-! DEFINITION. Chapter 9: the Memory Port: the checks of an access, its attempts and delays, its end, and
what the requesting block does with the report of one access of a longer sequence. -/

namespace Sys2Proof.Machine

/-! ### Checks and start (R171, R172, R169) -/

/-- R171: the alignment of a kind of access. -/
def AccessKind.alignment : AccessKind → Nat
  | .configRead => 64
  | .statusCopyWrite => 4
  | .statusBodyWrite => 4
  | .recordRead => 64
  | .recordCompletionWrite => 4
  | .recordStateWrite => 4
  | .boardHeaderRead => 8
  | .boardSlotRead => 8
  | .directoryRead => 8
  | .profileHeaderRead => 64
  | .profileNodeRead => 32
  | .poolTableRead => 4
  | .poolHeaderRead => 32
  | .slotEntriesRead => 16
  | .slotWrite => 4
  | .poolWordWrite => 4
  | .sourceRowRead => 1
  | .outputRowWrite => 1
  | .derivedRowWrite => 1

/-- R172: the check made before the first attempt. -/
def accessOk (r : Request) (window : Nat) : Bool :=
  decide (r.offset % r.kind.alignment = 0 ∧ r.offset + r.length ≤ window)

/-- R169, R173: an attempt is issued; `attempts` counts it. -/
def issueAttempt (a : Access) (s : State) : State :=
  s.mapPort fun p =>
    { p with inFlight := some { a with phase := .attempt, attempts := a.attempts + 1 }
             attemptStart := s.reg.time }

/-- R169: an access that passed the checks begins, under the retry settings in force: those of the copy while its mark
is set, and else a retry count of 0. DESIGN CHOICE: the retry delay setting, which R169 then leaves unused, is 0 while
the mark is clear (assumption log 48). -/
def startAccess (r : Request) (s : State) : State :=
  let s := s.mapPort fun p =>
    { p with retryCount := if s.ec.cfgValid then s.ec.cfg.retryCount else 0
             retryDelay := if s.ec.cfgValid then s.ec.cfg.retryDelay else 0 }
  issueAttempt { req := r, address := s.busAddress r.offset, attempts := 0, phase := .attempt } s

/-! ### Reports to the Engine Controller (R143, R157) -/

/-- R143: the report of one access of a status write: the next access, or the write's end. -/
def statusReport (w : StatusWrite) (stage : StatusStage) (body : List Byte) (ok : Bool) (s : State) : State :=
  let stop := s.mapEc fun c =>
    { c with job := some { job := .status w stage body, ended := true, ok := ok } }
  let go (next : StatusStage) : State :=
    (s.mapEc fun c => { c with job := some { job := .status w next body } }).submit
      (statusReq next s.ec.writeCount body)
  if !ok then stop
  else
    match stage with
    | .leading => go .body
    | .body => go .trailing
    | .trailing => stop

/-- A report to the Engine Controller. -/
def ecReport (ok : Bool) (data : List Byte) (s : State) : State :=
  match s.ec.job with
  | some { job := .config why, .. } =>
    s.mapEc fun c => { c with job := some { job := .config why, ended := true, ok := ok, data := data } }
  | some { job := .status w stage body, .. } => statusReport w stage body ok s
  | none => s

/-! ### Reports to the block that carries the look or the group -/

/-- R37, R40: the load makes no further access once an ABORT is pending. -/
def loadGoesOn (job : Job) (next : State → State) (s : State) : State :=
  if s.ec.abortReq then s.endJob job false [] else next s

/-- R28: a directory entry has been read. -/
def directoryReport (victim : CacheSlot) (lens n : Nat) (data : List Byte) (s : State) : State :=
  let job := Job.load victim lens (.directory n)
  loadGoesOn job (s := s) fun s =>
    if field data 0 4 = lens then
      let offset := field data 4 4
      if profilePlaceOk offset s.window then
        s.doJob (.load victim lens (.header offset)) (resolverReadReq .profileHeaderRead offset 64)
      else s.endJob job false []
    else if n + 1 < s.ec.cfg.dirLength then
      s.doJob (.load victim lens (.directory (n + 1))) (directoryReq s.ec.cfg (n + 1))
    else s.endJob job false []

/-- R37 step 3: the read of node `i` of the record at `offset`. -/
def readNode (victim : CacheSlot) (lens offset i count : Nat) (s : State) : State :=
  s.doJob (.load victim lens (.node offset i count))
    (resolverReadReq .profileNodeRead (offset + 64 + 32 * i) 32)

/-- R31: a profile header has been read. -/
def headerReport (victim : CacheSlot) (lens offset : Nat) (data : List Byte) (s : State) : State :=
  let job := Job.load victim lens (.header offset)
  loadGoesOn job (s := s) fun s =>
    if headerOk data lens offset s.window then
      readNode victim lens offset 0 (headerNz data * headerNf data)
        (s.mapCache fun c => c.set victim { c.get victim with copy := some (headerProfile data) })
    else s.endJob job false []

/-- R30: a node enters the copy. -/
def CacheEntry.addNode (e : CacheEntry) (n : Coeffs) : CacheEntry :=
  { e with copy := e.copy.map fun p => { p with nodes := p.nodes ++ [n] } }

/-- R37 step 3: a node has been read. -/
def nodeReport (victim : CacheSlot) (lens offset i count : Nat) (data : List Byte) (s : State) : State :=
  let job := Job.load victim lens (.node offset i count)
  let s := s.mapCache fun c => c.set victim ((c.get victim).addNode (nodeFields data))
  if i + 1 < count then loadGoesOn job (readNode victim lens offset (i + 1) count) s
  else s.endJob job true []

/-- R28, R31, R38: an access of a load has been reported. -/
def loadReport (victim : CacheSlot) (lens : Nat) (stage : LoadStage) (ok : Bool) (data : List Byte)
    (s : State) : State :=
  if !ok then s.endJob (.load victim lens stage) false []
  else
    match stage with
    | .directory n => directoryReport victim lens n data s
    | .header offset => headerReport victim lens offset data s
    | .node offset i count => nodeReport victim lens offset i count data s

/-- R50: the read of board slot `n`. -/
def boardSlotReq (s : State) (n : Nat) : Request :=
  lensReadReq .boardSlotRead (s.ec.cfg.boardOffset + boardSlotOffset n) 24

/-- R122: the pool table entry has been read. -/
def poolTableReport (k : Nat) (data : List Byte) (s : State) : State :=
  let desc := field data 0 4
  if descPlaceOk desc s.window then s.doJob (.poolHeader k desc) (poolReadReq .poolHeaderRead desc 32)
  else s.endJob (.poolTable k) false []

/-- R122: the descriptor's header has been read. -/
def poolHeaderReport (k desc : Nat) (data : List Byte) (s : State) : State :=
  let p := poolHeaderView desc data
  if poolHeaderOk p s.window then
    s.doJob (.poolSlots k p) (poolReadReq .slotEntriesRead (desc + 32) (16 * p.slotCount))
  else s.endJob (.poolHeader k desc) false []

/-- R72, R74: a source row enters the buffer; the next row is read, or the reads have ended. -/
def rowsReport (row : Nat) (data : List Byte) (s : State) : State :=
  match s.tile.serving with
  | none => s.endJob (.rows row) true []
  | some v =>
    let s := s.mapTile fun t => { t with buffer := t.buffer.putRow row (sourceTexels data v.box.width) }
    if row + 1 < v.box.height then readBoxRow v (row + 1) s else s.endJob (.rows row) true []

/-- R129: a RAWCOPY row has been read and is written. -/
def rawReadReport (k row : Nat) (data : List Byte) (s : State) : State :=
  match s.heldFor k with
  | none => s.endJob (.rawRead k row) false []
  | some h =>
    let d := rawWriteRow h (decide (s.frame.fields.scan = 2)) row data
    s.doJob (.rawWrite k row) (rowWriteReq .derivedRowWrite d.offset d.bytes)

/-- R131: the FILLED write has succeeded and the last-filled index is written. -/
def releaseIndexReq (h : HeldSlot) : Request :=
  poolWriteReq .poolWordWrite (h.desc + 0x08) (leBytes 4 h.slot)

/-- R146: a write of FAULTED. -/
def Request.writesFaulted (r : Request) : Bool :=
  decide (r.kind = .recordStateWrite) && decide (r.data = some (leBytes 4 RecordState.faulted.code))

/-- R113: a retirement write has been reported; the rest are attempted whether or not it failed. -/
def retireReport (r : Request) (todo : List Request) (failed ok : Bool) (s : State) : State :=
  let s := s.mapFlight fun f => { f with faultWritten := f.faultWritten || (ok && r.writesFaulted) }
  match todo with
  | next :: rest => s.doJob (.retire rest (failed || !ok)) next
  | [] => s.endJob (.retire [] (failed || !ok)) ok []

/-- The end of an access that a halt left running in the Port (R144). An orphan that it wrote FAULTED still sets
RECORD_FAULT, with the next status write (R146, R147). -/
def abandonedReport (startWrite : Option RecordKind) (ok : Bool) (s : State) : State :=
  let s := (s.setWork none).mapEc fun c =>
    { c with eventsDue := c.eventsDue ||| eventWhen ok (orphanEvent startWrite) }
  if s.ec.engine = .parked then
    if s.lookMustEnd then endLook false s
    else if s.ec.wakePending && !s.statusInFlight then
      beginLook (s.mapEc fun c => { c with wakePending := false })
    else s
  else s

/-- A report to the block that carries the look or the group in flight: the next access of its sequence, or
the end that its step of the table acts on. -/
def workReport (r : Request) (ok : Bool) (data : List Byte) (s : State) : State :=
  match s.work with
  | none => s
  | some w =>
    match w.job with
    | .recordRead why off => s.endJob (.recordRead why off) ok data
    | .recordWrite why off => s.endJob (.recordWrite why off) ok []
    | .boardHeader =>
      if ok then s.doJob (.boardNewest (newestIndex data)) (boardSlotReq s (newestIndex data))
      else s.endJob .boardHeader false []
    | .boardNewest n =>
      if ok then s.doJob (.boardPrevious data) (boardSlotReq s (slotBefore n))
      else s.endJob (.boardNewest n) false []
    | .boardPrevious newest => s.endJob (.boardPrevious newest) ok (newest ++ data)
    | .load victim lens stage => loadReport victim lens stage ok data s
    | .poolTable k => if ok then poolTableReport k data s else s.endJob (.poolTable k) false []
    | .poolHeader k desc =>
      if ok then poolHeaderReport k desc data s else s.endJob (.poolHeader k desc) false []
    | .poolSlots k p => s.endJob (.poolSlots k p) ok data
    | .slotBusy h => s.endJob (.slotBusy h) ok []
    | .dropCount k => s.endJob (.dropCount k) ok []
    | .slotEmpty k => s.endJob (.slotEmpty k) ok []
    | .releaseFilled h =>
      if ok then s.doJob (.releaseIndex h) (releaseIndexReq h) else s.endJob (.releaseFilled h) false []
    | .releaseIndex h => s.endJob (.releaseIndex h) ok []
    | .rows row => if ok then rowsReport row data s else s.endJob (.rows row) false []
    | .outRow => s.endJob .outRow ok []
    | .derivedRow k => s.endJob (.derivedRow k) ok []
    | .rawRead k row => if ok then rawReadReport k row data s else s.endJob (.rawRead k row) false []
    | .rawWrite k row => s.endJob (.rawWrite k row) ok []
    | .retire todo failed => retireReport r todo failed ok s
    | .abandoned k => abandonedReport k ok s

/-- R174: the report of an access to its requester. -/
def report (r : Request) (ok : Bool) (data : List Byte) (s : State) : State :=
  if r.block = .engineController then ecReport ok data s else workReport r ok data s

/-! ### The request list (R170, R172) -/

/-- Takes requests from the head of the list until one begins or the list is empty. A refused access is
reported at once, and its requester may hand over its next one; `fuel` bounds that: see `pumpFuel`. -/
def pump : Nat → State → State
  | 0, s => s
  | fuel + 1, s =>
    match s.port.inFlight, s.port.requests with
    | none, r :: rest =>
      let s := s.mapPort fun p => { p with requests := rest }
      if accessOk r s.window then startAccess r s else pump fuel (report r false [] s)
    | _, _ => s

/-- The only requester that goes on after a failure is the retirement, which has a list of writes to make
(R113), or a look that begins after an abandoned access. -/
def pumpFuel (s : State) : Nat :=
  s.port.requests.length + 2 +
    match s.work with
    | some { job := .retire todo _, .. } => todo.length
    | _ => 0

/-- R170: requests handed over in a step begin in it while the Port is free. -/
def settle (s : State) : State := pump (pumpFuel s) s

/-- The next state of a step: the Port has taken up what it can. -/
def finish (s : State) : Host.Outcome State Fault Refusal := .next (settle s)

/-! ### Attempts (R173, R174) -/

/-- R174: the access ends and its requester is told. -/
def endAccess (a : Access) (ok : Bool) (data : List Byte) (s : State) : State :=
  report a.req ok data (s.mapPort fun p => { p with inFlight := none })

/-- The writes of which a rule says what memory holds when they have failed, namely what it held before: the
copies of a status write (R144), the writes of a retirement (R113, R134), the state write of a group-start
handling (R109), the EMPTY write of a slot (R128, R130) and the two writes of a release (R131). -/
def State.keepsOnFailure (s : State) (r : Request) : Bool :=
  if r.block = .engineController then decide (r.kind = .statusCopyWrite)
  else
    match s.work with
    | some w =>
      match w.job with
      | .retire _ _ => true
      | .slotEmpty _ => true
      | .releaseFilled _ => true
      | .releaseIndex _ => true
      | job => job.startWrite.isSome
    | none => false

/-- R173: what the attempt leaves in memory with which an access is exhausted: nothing where a rule says so (assumption
log 31), else any part of its bytes. -/
def landFailed (a : Access) (s : State) : State := if s.keepsOnFailure a.req then s else landPart a s

/-- R173, R174: an attempt has failed: a delay, the next attempt at once when the delay is 0, or exhaustion. An attempt
that is repeated may have placed any part of its bytes, whatever it writes. -/
def attemptFailed (a : Access) (s : State) : State :=
  if a.attempts ≤ s.port.retryCount then
    let s := (landPart a s).mapPort fun p =>
      { p with inFlight := some { a with phase := .delay }, delayStart := s.reg.time }
    if s.port.retryDelay = 0 then issueAttempt a s else s
  else endAccess a false [] (landFailed a s)

/-- R173: an attempt has succeeded: a write has placed all its bytes, a read has returned all of them. DESIGN CHOICE:
the bytes of a write reach memory all at this step, where R175 fixes no order among them (assumption log 42). -/
def attemptSucceeded (a : Access) (s : State) : State :=
  match a.req.data with
  | some bytes => endAccess a true [] (s.setDram (memWrite s.dram a.address bytes))
  | none => endAccess a true (memRead s.dram a.address a.req.length) s

/-- The attempt that is on the bus. -/
def State.attempt (s : State) : Option Access :=
  s.port.inFlight.filter fun a => decide (a.phase = .attempt)

/-- The access that waits to repeat an attempt. -/
def State.delayed (s : State) : Option Access :=
  s.port.inFlight.filter fun a => decide (a.phase = .delay)

end Sys2Proof.Machine
end

