-- ==== Sys2Proof/Machine/BusEvents.lean ====
section
/-! DEFINITION. The rows of the table that the memory bus and the Port's own clock bring (R173, R174), and the
ends of the Engine Controller's accesses. -/

namespace Sys2Proof.Machine

/-- R173: an attempt without an answer has reached its limit. -/
def answerOverdue (s : State) : Bool :=
  decide (Config.answerLimit ≤ (s.reg.time - s.port.attemptStart).toNat)

/-- MEMORY_ATTEMPT_ANSWER (R173). What other masters wrote lands first (assumption log 2). An answer to no attempt,
to an attempt that has been ended or cut off (R177), or to one that has reached its limit is disregarded. -/
def execMemoryAttemptAnswer (answer : BusAnswer) (others : List Host.Cell) (s : State) :
    Host.Outcome State Fault Refusal :=
  let s := s.setDram (memLand s.dram others)
  match s.attempt with
  | some a =>
    if answerOverdue s then .next s
    else
      match answer with
      | .succeeded => finish (attemptSucceeded a s)
      | .failed => finish (attemptFailed a s)
      | .late => .next s
  | none => .next s

/-- MEMORY_ATTEMPT_TIMEOUT (R173). -/
def execMemoryAttemptTimeout (s : State) : Host.Outcome State Fault Refusal :=
  match s.attempt with
  | some a => if answerOverdue s then finish (attemptFailed a s) else .next s
  | none => .next s

/-- R174: the retry delay has elapsed. -/
def delayElapsed (s : State) : Bool :=
  decide (s.port.retryDelay ≤ (s.reg.time - s.port.delayStart).toNat)

/-- RETRY_DELAY_EXPIRY (R174): the next attempt is issued. -/
def execRetryDelayExpiry (s : State) : Host.Outcome State Fault Refusal :=
  match s.delayed with
  | some a => if delayElapsed s then .next (issueAttempt a s) else .next s
  | none => .next s

/-- CONFIG_READ_DONE (R157). -/
def execConfigReadDone (s : State) : Host.Outcome State Fault Refusal :=
  match s.ec.job with
  | some { job := .config why, ended := true, ok := ok, data := data } =>
    finish (configEnded why ok data s)
  | _ => .next s

/-- STATUS_WRITE_DONE (R143). -/
def execStatusWriteDone (s : State) : Host.Outcome State Fault Refusal :=
  match s.ec.job with
  | some { job := .status w _ _, ended := true, ok := ok, .. } => finish (statusEnded w ok s)
  | _ => .next s

end Sys2Proof.Machine
end

