-- ==== Sys2Proof/Machine/ChainEvents.lean ====
section
/-! DEFINITION. The rows of the table that end an access to a chain record. -/

namespace Sys2Proof.Machine

/-- The next link of a record as read. -/
def linkOf (b : List Byte) : Nat := (recordHead b).link

/-- CURSOR_RECORD_READ_DONE (R93). -/
def execCursorRecordReadDone (s : State) : Host.Outcome State Fault Refusal :=
  match s.work with
  | some { job := .recordRead .cursor _, ended := true, ok := ok, data := data, .. } =>
    let s := s.setWork none
    finish (if ok then cursorRead data s else chainHalt .chainRead s.ec.cursor s)
  | _ => .next s

/-- CURSOR_LINK_READ_DONE (R94). -/
def execCursorLinkReadDone (s : State) : Host.Outcome State Fault Refusal :=
  match s.work with
  | some { job := .recordRead .cursorLink _, ended := true, ok := ok, data := data, .. } =>
    let s := s.setWork none
    finish (if ok then cursorLinkRead (linkOf data) s else chainHalt .chainRead s.ec.cursor s)
  | _ => .next s

/-- ADVANCE_READ_DONE (R95). -/
def execAdvanceReadDone (s : State) : Host.Outcome State Fault Refusal :=
  match s.work with
  | some { job := .recordRead .advance off, ended := true, ok := ok, data := data, .. } =>
    let s := s.setWork none
    finish (if ok then advanceRead off (linkOf data) s
      else chainHalt .chainRead off (setCursor off true s))
  | _ => .next s

/-- LOOK_AHEAD_RECORD_READ_DONE (R98). -/
def execLookAheadRecordReadDone (s : State) : Host.Outcome State Fault Refusal :=
  match s.work with
  | some { job := .recordRead .lookAhead off, ended := true, ok := ok, data := data, .. } =>
    let s := s.setWork none
    finish (if ok then lookAheadRead off data (countRead off s) else chainHalt .chainRead off s)
  | _ => .next s

/-- SUBCHAIN_RECORD_READ_DONE (R104). -/
def execSubchainRecordReadDone (s : State) : Host.Outcome State Fault Refusal :=
  match s.work with
  | some { job := .recordRead .subchain off, ended := true, ok := ok, data := data, .. } =>
    let s := s.setWork none
    finish (if ok then subchainRead off data (countRead off s) else chainHalt .chainRead off s)
  | _ => .next s

/-- CALL_RECORD_REREAD_DONE (R105). -/
def execCallRecordRereadDone (s : State) : Host.Outcome State Fault Refusal :=
  match s.work with
  | some { job := .recordRead .callReread off, ended := true, ok := ok, data := data, .. } =>
    let s := s.setWork none
    finish (if ok then callReread off (linkOf data) (countRead off s) else chainHalt .chainRead off s)
  | _ => .next s

/-- R110, R109, R100: what a write outside retirement leads to. -/
def recordWritten (why : WriteWhy) (off : Nat) (ok : Bool) (s : State) : State :=
  match why with
  | .taken => takenEnded ok s
  | .groupStart completion kind => groupStartWritten completion kind off ok s
  | .unterminated => unterminatedWritten off ok s

/-- CHAIN_RECORD_WRITE_DONE (R171). -/
def execChainRecordWriteDone (s : State) : Host.Outcome State Fault Refusal :=
  match s.work with
  | some { job := .recordWrite why off, ended := true, ok := ok, .. } =>
    finish (recordWritten why off ok (s.setWork none))
  | _ => .next s

/-- RETIREMENT_WRITES_DONE (R114). -/
def execRetirementWritesDone (s : State) : Host.Outcome State Fault Refusal :=
  match s.work with
  | some { job := .retire _ failed, ended := true, .. } =>
    finish (retirementEnded failed (s.setWork none))
  | _ => .next s

end Sys2Proof.Machine
end

