-- ==== Sys2Proof/Machine/FrameEvents.lean ====
section
/-! DEFINITION. The rows of the table that end a piece of work on the frame of the group in flight. -/

namespace Sys2Proof.Machine

/-- The last job of a board read, ended. -/
def Job.isBoard : Job → Bool
  | .boardHeader => true
  | .boardNewest _ => true
  | .boardPrevious _ => true
  | _ => false

/-- BOARD_READ_DONE (R50). -/
def execBoardReadDone (s : State) : Host.Outcome State Fault Refusal :=
  match s.work with
  | some w =>
    if w.ended && w.job.isBoard then finish (boardEnded w.ok w.data w.endedAt (s.setWork none)) else .next s
  | none => .next s

/-- PROFILE_LOAD_DONE (R37). -/
def execProfileLoadDone (s : State) : Host.Outcome State Fault Refusal :=
  match s.work with
  | some { job := .load victim _ _, ended := true, ok := ok, .. } =>
    finish (loadEnded victim ok (s.setWork none))
  | _ => .next s

/-- R122: the pool of entry `k` as its reads left it: the view when all succeeded and every check passed. -/
def poolRead (w : Work) : Option (Nat × Option PoolView) :=
  match w.job with
  | .poolTable k => some (k, none)
  | .poolHeader k _ => some (k, none)
  | .poolSlots k p => some (k, if w.ok then some { p with slots := slotEntries p.slotCount w.data } else none)
  | _ => none

/-- POOL_READ_DONE (R122). -/
def execPoolReadDone (s : State) : Host.Outcome State Fault Refusal :=
  match s.work.filter Work.ended |>.bind poolRead with
  | some (k, some p) => finish (judgePool k p (s.setWork none))
  | some (k, none) => finish (judgeOn k (.faulted .poolBad) (s.setWork none))
  | none => .next s

/-- SLOT_BUSY_WRITE_DONE (R124). -/
def execSlotBusyWriteDone (s : State) : Host.Outcome State Fault Refusal :=
  match s.work with
  | some { job := .slotBusy h, ended := true, ok := ok, .. } => finish (slotBusyEnded h ok (s.setWork none))
  | _ => .next s

/-- DROP_COUNT_WRITE_DONE (R124). -/
def execDropCountWriteDone (s : State) : Host.Outcome State Fault Refusal :=
  match s.work with
  | some { job := .dropCount k, ended := true, ok := ok, .. } => finish (dropCountEnded k ok (s.setWork none))
  | _ => .next s

/-- TABLE_BUILD_DONE (R2). -/
def execTableBuildDone (s : State) : Host.Outcome State Fault Refusal :=
  if s.chain.flight.inFlight && s.chain.flight.building then finish (buildEnded s) else .next s

/-- R75, R76, R82: the rows of the sub-tile being served are in the buffer, or a read failed. -/
def rowsEnded (ok : Bool) (s : State) : State :=
  if !ok then faultFrame .sourceRead s
  else
    match s.tile.serving with
    | none => s
    | some v =>
      let s := sampleSubTile v s
      if abortBetween s then faultFrame .aborted s else judgeTile s

/-- SUBTILE_ROWS_READ_DONE (R76). -/
def execSubtileRowsReadDone (s : State) : Host.Outcome State Fault Refusal :=
  match s.work with
  | some { job := .rows _, ended := true, ok := ok, .. } => finish (rowsEnded ok (s.setWork none))
  | _ => .next s

/-- OUTPUT_ROW_WRITE_DONE (R79, R81). -/
def execOutputRowWriteDone (s : State) : Host.Outcome State Fault Refusal :=
  match s.work with
  | some { job := .outRow, ended := true, ok := ok, .. } =>
    let s := s.setWork none
    finish (if ok then nextOutRow s else faultFrame .outputWrite s)
  | _ => .next s

/-- R128: a derived write of entry `k` has failed: the entry makes no further writes and its slot is
returned. DESIGN CHOICE: the accumulator of a PREVIEW that stops running within a tile stays until the next tile
begins (assumption log 44). -/
def derivedWriteFailed (k : Nat) (s : State) : State :=
  let s := setResult k (.faulted .write) <| s.mapWriter fun w =>
    { w with derivedRows := w.derivedRows.filter fun r => r.entry ≠ k }
  match s.heldFor k with
  | some h => returnSlot h s
  | none => s

/-- DERIVED_ROW_WRITE_DONE (R127, R128). -/
def execDerivedRowWriteDone (s : State) : Host.Outcome State Fault Refusal :=
  match s.work with
  | some { job := .derivedRow k, ended := true, ok := ok, .. } =>
    let s := s.setWork none
    finish (if ok then nextDerivedRow s else derivedWriteFailed k s)
  | _ => .next s

/-- R129: a RAWCOPY row has been written: the next row of the entry, or the next entry. -/
def rawRowWritten (k row : Nat) (s : State) : State :=
  match s.heldFor k with
  | none => s
  | some h => if row + 1 < h.height then rawRow h (row + 1) s else rawFrom (k + 1) s

/-- RAWCOPY_ROW_DONE (R129). -/
def execRawcopyRowDone (s : State) : Host.Outcome State Fault Refusal :=
  match s.work with
  | some { job := .rawRead _ _, ended := true, .. } => finish (faultFrame .sourceRead (s.setWork none))
  | some { job := .rawWrite k row, ended := true, ok := ok, .. } =>
    let s := s.setWork none
    finish (if ok then rawRowWritten k row s else derivedWriteFailed k s)
  | _ => .next s

/-- R128, R130: the EMPTY write of entry `k`'s slot has ended. After a frame fault the next slot is returned;
otherwise the pass, or the RAWCOPY phase, goes on. -/
def slotEmptyEnded (k : Nat) (ok : Bool) (s : State) : State :=
  let s := dropHeld k (if ok then s else setResult k (.faulted .poolBad) s)
  if s.chain.flight.fault.isSome then returnNext s
  else if (s.entryFields k).kind = 3 then rawFrom (k + 1) s
  else nextDerivedRow s

/-- SLOT_EMPTY_WRITE_DONE (R130). -/
def execSlotEmptyWriteDone (s : State) : Host.Outcome State Fault Refusal :=
  match s.work with
  | some { job := .slotEmpty k, ended := true, ok := ok, .. } => finish (slotEmptyEnded k ok (s.setWork none))
  | _ => .next s

/-- R131: the writes of a release have ended: FILLED, or POOL_BAD when the first of them failed. -/
def slotReleased (h : HeldSlot) (r : EntryResult) (s : State) : State :=
  releaseNext (dropHeld h.entry (setResult h.entry r s))

/-- SLOT_RELEASE_DONE (R131). -/
def execSlotReleaseDone (s : State) : Host.Outcome State Fault Refusal :=
  match s.work with
  | some { job := .releaseFilled h, ended := true, .. } =>
    finish (slotReleased h (.faulted .poolBad) (s.setWork none))
  | some { job := .releaseIndex h, ended := true, .. } =>
    finish (slotReleased h (.filled h.slot) (s.setWork none))
  | _ => .next s

end Sys2Proof.Machine
end

