-- ==== Sys2Proof/Machine/LinesTime.lean ====
section
/-! DEFINITION. The rows of the table that the lines, the clock and the reset input bring. An event whose
condition does not hold has not occurred and changes nothing (assumption log 7). -/

namespace Sys2Proof.Machine

/-- POWER_ON_RESET (R165). -/
def execPowerOnReset (s : State) : Host.Outcome State Fault Refusal := .next (resetState s)

/-- R182, R92, R178: a reset ends with the frame-ready line at `level`. -/
def endReset (level : Bool) (s : State) : State :=
  drainHeld (s.mapReg fun r => { r with inReset := false, time := 0, frameReadySeen := level })

/-- RESET_END (R182). -/
def execResetEnd (level : Bool) (s : State) : Host.Outcome State Fault Refusal :=
  if s.reg.inReset then finish (endReset level s) else .next s

/-- FRAME_READY_EDGE (R92): the line rises from low to high. -/
def execFrameReadyEdge (s : State) : Host.Outcome State Fault Refusal :=
  if !s.reg.inReset && !s.reg.frameReadySeen then
    finish (wake (s.mapReg fun r => { r with frameReadySeen := true }))
  else .next s

/-- FRAME_READY_FALLING_EDGE (R92). -/
def execFrameReadyFallingEdge (s : State) : Host.Outcome State Fault Refusal :=
  if !s.reg.inReset then .next (s.mapReg fun r => { r with frameReadySeen := false }) else .next s

/-- R163: the armed timer has reached its interval. -/
def timerRunOut (s : State) : Bool :=
  match s.ec.timer with
  | some t => decide (t.interval * 1000 ≤ (s.reg.time - t.armedAt).toNat)
  | none => false

/-- RESCAN_TIMER_EXPIRY (R163): the timer is disarmed and gives a wake. -/
def execRescanTimerExpiry (s : State) : Host.Outcome State Fault Refusal :=
  if timerRunOut s then finish (wake (s.mapEc fun c => { c with timer := none })) else .next s

/-- TIME_TICK (R182): the counter runs in every engine state, and stands at 0 during a reset. -/
def execTimeTick (s : State) : Host.Outcome State Fault Refusal :=
  if s.reg.inReset then .next s else .next (s.mapReg fun r => { r with time := r.time + 1 })

end Sys2Proof.Machine
end

