-- ==== Sys2Proof/Machine/RegisterAccess.lean ====
section
/-! DEFINITION. The rows of the table that are register accesses. -/

namespace Sys2Proof.Machine

/-- START (R152). -/
def execStart (s : State) : Host.Outcome State Fault Refusal := finish (takeAccess .start s)

/-- STOP (R153). -/
def execStop (s : State) : Host.Outcome State Fault Refusal := finish (takeAccess .stop s)

/-- ABORT (R154). -/
def execAbort (s : State) : Host.Outcome State Fault Refusal := finish (takeAccess .abort s)

/-- RESUME (R155). -/
def execResume (s : State) : Host.Outcome State Fault Refusal := finish (takeAccess .resume s)

/-- RESCAN (R156). -/
def execRescan (s : State) : Host.Outcome State Fault Refusal := finish (takeAccess .rescan s)

/-- RELOAD (R159, R160). -/
def execReload (s : State) : Host.Outcome State Fault Refusal := finish (takeAccess .reload s)

/-- RESET (R166): taken at once, even during a status write; during a reset it waits (R178). -/
def execReset (s : State) : Host.Outcome State Fault Refusal := finish (takeAccess .reset s)

/-- COMMAND_UNKNOWN (R180, R151). -/
def execCommandUnknown (v : Word) (s : State) : Host.Outcome State Fault Refusal :=
  finish (takeAccess (.commandUnknown v) s)

/-- WIN_BASE_WRITE (R164, R183). -/
def execWinBaseWrite (v : Word) (s : State) : Host.Outcome State Fault Refusal :=
  finish (takeAccess (.winBaseWrite v) s)

/-- WIN_SIZE_WRITE (R164, R183). -/
def execWinSizeWrite (v : Word) (s : State) : Host.Outcome State Fault Refusal :=
  finish (takeAccess (.winSizeWrite v) s)

/-- EVENTS_READ (R145): served at once, whatever access is in flight (R178). -/
def execEventsRead (s : State) : Host.Outcome State Fault Refusal := finish (takeAccess .eventsRead s)

/-- LINE_ENABLE_WRITE (R148): takes effect at once. -/
def execLineEnableWrite (v : Word) (s : State) : Host.Outcome State Fault Refusal :=
  finish (takeAccess (.lineEnableWrite v) s)

/-- REGISTER_WRITE_NO_EFFECT (R178). -/
def execRegisterWriteNoEffect (a : NoEffectAccess) (s : State) : Host.Outcome State Fault Refusal :=
  finish (takeAccess (.registerWriteNoEffect a) s)

end Sys2Proof.Machine
end

