-- ==== Sys2Proof/Machine/Dispatch.lean ====
section
/-! DEFINITION. The meaning of each command and event of spec/opcode_table.json, one arm each. -/

namespace Sys2Proof.Machine

def exec (i : Instr) (s : State) : Host.Outcome State Fault Refusal :=
  match i with
  | .start => Sys2Proof.Machine.execStart s
  | .stop => Sys2Proof.Machine.execStop s
  | .abort => Sys2Proof.Machine.execAbort s
  | .resume => Sys2Proof.Machine.execResume s
  | .rescan => Sys2Proof.Machine.execRescan s
  | .reload => Sys2Proof.Machine.execReload s
  | .reset => Sys2Proof.Machine.execReset s
  | .commandUnknown v => Sys2Proof.Machine.execCommandUnknown v s
  | .winBaseWrite v => Sys2Proof.Machine.execWinBaseWrite v s
  | .winSizeWrite v => Sys2Proof.Machine.execWinSizeWrite v s
  | .eventsRead => Sys2Proof.Machine.execEventsRead s
  | .lineEnableWrite v => Sys2Proof.Machine.execLineEnableWrite v s
  | .registerWriteNoEffect a => Sys2Proof.Machine.execRegisterWriteNoEffect a s
  | .powerOnReset => Sys2Proof.Machine.execPowerOnReset s
  | .frameReadyEdge => Sys2Proof.Machine.execFrameReadyEdge s
  | .rescanTimerExpiry => Sys2Proof.Machine.execRescanTimerExpiry s
  | .memoryAttemptAnswer answer others => Sys2Proof.Machine.execMemoryAttemptAnswer answer others s
  | .memoryAttemptTimeout => Sys2Proof.Machine.execMemoryAttemptTimeout s
  | .retryDelayExpiry => Sys2Proof.Machine.execRetryDelayExpiry s
  | .configReadDone => Sys2Proof.Machine.execConfigReadDone s
  | .statusWriteDone => Sys2Proof.Machine.execStatusWriteDone s
  | .cursorRecordReadDone => Sys2Proof.Machine.execCursorRecordReadDone s
  | .cursorLinkReadDone => Sys2Proof.Machine.execCursorLinkReadDone s
  | .advanceReadDone => Sys2Proof.Machine.execAdvanceReadDone s
  | .lookAheadRecordReadDone => Sys2Proof.Machine.execLookAheadRecordReadDone s
  | .subchainRecordReadDone => Sys2Proof.Machine.execSubchainRecordReadDone s
  | .boardReadDone => Sys2Proof.Machine.execBoardReadDone s
  | .profileLoadDone => Sys2Proof.Machine.execProfileLoadDone s
  | .poolReadDone => Sys2Proof.Machine.execPoolReadDone s
  | .slotBusyWriteDone => Sys2Proof.Machine.execSlotBusyWriteDone s
  | .tableBuildDone => Sys2Proof.Machine.execTableBuildDone s
  | .subtileRowsReadDone => Sys2Proof.Machine.execSubtileRowsReadDone s
  | .outputRowWriteDone => Sys2Proof.Machine.execOutputRowWriteDone s
  | .derivedRowWriteDone => Sys2Proof.Machine.execDerivedRowWriteDone s
  | .rawcopyRowDone => Sys2Proof.Machine.execRawcopyRowDone s
  | .slotReleaseDone => Sys2Proof.Machine.execSlotReleaseDone s
  | .retirementWritesDone => Sys2Proof.Machine.execRetirementWritesDone s
  | .frameReadyFallingEdge => Sys2Proof.Machine.execFrameReadyFallingEdge s
  | .resetEnd level => Sys2Proof.Machine.execResetEnd level s
  | .timeTick => Sys2Proof.Machine.execTimeTick s
  | .chainRecordWriteDone => Sys2Proof.Machine.execChainRecordWriteDone s
  | .callRecordRereadDone => Sys2Proof.Machine.execCallRecordRereadDone s
  | .slotEmptyWriteDone => Sys2Proof.Machine.execSlotEmptyWriteDone s
  | .dropCountWriteDone => Sys2Proof.Machine.execDropCountWriteDone s

end Sys2Proof.Machine
end

