-- ==== Sys2Proof/Machine/Registers.lean ====
section
/-! DEFINITION. What the eight registers read as (10.9, R179 to R183). A read of a register other than EVENTS
has no effect, so these are functions of the state; EVENTS_READ is a command. -/

namespace Sys2Proof.Machine

/-- R181: the engine state in bits 0 to 7, the halt reason in bits 8 to 15. -/
def stateRegister (s : State) : Word := BitVec.ofNat 32 (s.ec.engine.code + 256 * s.ec.haltReason.code)

/-- What a 32-bit read at an offset of the register space returns (R178). -/
def readRegister (s : State) (offset : Nat) : Word :=
  match offset with
  | 0x00 => Config.ident
  | 0x04 => s.reg.winBase
  | 0x08 => s.reg.winSize
  | 0x0C => 0
  | 0x10 => stateRegister s
  | 0x14 => s.reg.events.setWidth 32
  | 0x18 => s.reg.lineEnable.setWidth 32
  | 0x1C => s.reg.time
  | _ => 0

end Sys2Proof.Machine
end

