-- ==== Sys2Proof/Safety.lean ====
section
/-! DEFINITION. What counts as a sound state and as a settled one, in the terms the statements use. -/

namespace Sys2Proof.Machine

/-! ### Parts of soundness -/

/-- R6, R7: a table has 129 entries, each in 32768..131071. -/
def tableOk (t : List Int) : Bool :=
  decide (t.length = 129) && t.all fun v => decide (32768 ≤ v) && decide (v ≤ 131071)

/-- R1, R6, R7, R9: the three tables, and a centre that is never negative. -/
def tablesOk (t : Tables) : Bool :=
  tableOk t.red && tableOk t.green && tableOk t.blue && decide (0 ≤ t.cx16) && decide (0 ≤ t.cy16)

/-- R51: the settled identifier, zoom and focus are present together or absent together. -/
def settledTogether (l : LensUnit) : Bool :=
  decide (l.settledLens.isSome = l.settledZoom.isSome) && decide (l.settledLens.isSome = l.settledFocus.isSome)

/-- R158: what the clamps of a clean read leave. -/
def copyClamped (c : ConfigCopy) : Bool :=
  decide (c.staleLimit ≤ c.holdLimit) && decide (c.zoomTol ≤ 4095) && decide (c.focusTol ≤ 4095) &&
    decide (c.retryCount ≤ 7)

/-- R169, R174: the attempts of the access in flight; one in DELAY has an attempt left. -/
def accessBounded (retryCount : Nat) (a : Access) : Bool :=
  decide (1 ≤ a.attempts) && decide (a.attempts ≤ retryCount + 1) &&
    (decide (a.phase = .attempt) || decide (a.attempts ≤ retryCount))

/-- R169, R174: at most 1 + retry count attempts, and at most 8. -/
def portBounded (p : Port) : Bool :=
  decide (p.retryCount ≤ 7) && p.inFlight.all (accessBounded p.retryCount)

/-- What no command and no event breaks, whatever the state. -/
structure State.Sound (s : State) : Prop where
  /-- The canonical form of memory. -/
  memory : memWf s.dram = true
  /-- R23, R24: the dither generator is never 0. -/
  dither : s.writer.dither ≠ 0
  /-- R6, R7. -/
  tables : tablesOk s.tables = true
  /-- R105. -/
  stack : s.chain.returnStack.length ≤ Config.stackDepth
  /-- R97, R101. -/
  entries : s.chain.group.entries.length ≤ Config.maxEntries
  /-- R51. -/
  lens : settledTogether s.lens = true
  /-- R138. -/
  pace : s.pace.consecutive ≤ 255
  /-- R164. -/
  window : s.reg.winSize ≤ Config.maxWinSize
  /-- R158. -/
  copy : copyClamped s.ec.cfg = true
  /-- R169, R174. -/
  port : portBounded s.port = true

/-! ### What a statement assumes of a state -/

/-- R170: no request waits while the Port is free. -/
abbrev State.PortSettled (s : State) : Prop := s.port.inFlight = none → s.port.requests = []

/-- R170: none of the Engine Controller's tasks waits while it has no access in progress. -/
abbrev State.ControllerSettled (s : State) : Prop := s.ec.job = none → s.ec.queue = []

/-- R173: the attempt on the bus, if there is one, has not reached its limit. -/
abbrev State.OnTime (s : State) : Prop := (s.reg.time - s.port.attemptStart).toNat < 2048

/-- Nothing waits for a server that is free. -/
abbrev State.Settled (s : State) : Prop := s.PortSettled ∧ s.ControllerSettled

/-- What waits for the end of a status write: a wake, and the accesses that R143 and R167 name. -/
def Held.waits : Held → Bool
  | .access c => waitsForStatus c
  | .wake => true

/-- R143, R167, R178: outside a reset, whatever is held waits for a status write that is in progress. -/
abbrev State.HeldWait (s : State) : Prop :=
  s.reg.inReset = false → s.reg.held.all Held.waits = true ∧ (s.reg.held ≠ [] → s.statusInFlight = true)

/-- No reset and no status write is in progress, so a command is judged at once (R143, R178). -/
abbrev State.Open (s : State) : Prop := s.reg.inReset = false ∧ s.statusInFlight = false

/-- The Engine Controller has nothing in progress and the window is not empty, so that a status write or a
configuration read it asks for begins at once. -/
abbrev State.ControllerFree (s : State) : Prop :=
  s.ec.job = none ∧ s.ec.queue = [] ∧ s.reg.winSize ≠ 0 ∧ s.PortSettled

/-- R150: the engine holds no work: the controller is free and no look or group is in progress. -/
abbrev State.Idle (s : State) : Prop := s.reg.inReset = false ∧ s.ControllerFree ∧ s.work = none

/-- The rows of the table that are register accesses. -/
def isAccess : Instr → Bool
  | .start => true
  | .stop => true
  | .abort => true
  | .resume => true
  | .rescan => true
  | .reload => true
  | .reset => true
  | .commandUnknown _ => true
  | .winBaseWrite _ => true
  | .winSizeWrite _ => true
  | .eventsRead => true
  | .lineEnableWrite _ => true
  | .registerWriteNoEffect _ => true
  | _ => false

/-- The rows that are register accesses of which none asks the Memory Port for anything. -/
def asksNothing : Instr → Bool
  | .commandUnknown _ => true
  | .winBaseWrite _ => true
  | .winSizeWrite _ => true
  | .eventsRead => true
  | .lineEnableWrite _ => true
  | .registerWriteNoEffect _ => true
  | _ => false

/-- The outcome of commands taken one after another, each on the state the one before it left. -/
def runInOrder : List Instr → State → Host.Outcome State Fault Refusal
  | [], s => .next s
  | c :: rest, s =>
    match exec c s with
    | .next t => runInOrder rest t
    | .fault f => .fault f
    | .refused r => .refused r

/-- The rows that begin or end a reset. -/
def isReset : Instr → Bool
  | .reset => true
  | .powerOnReset => true
  | .resetEnd _ => true
  | _ => false

/-- The rows that end an attempt on the memory bus (R173). -/
def endsAttempt : Instr → Bool
  | .memoryAttemptAnswer _ _ => true
  | .memoryAttemptTimeout => true
  | _ => false

/-! ### The next states that statements name -/

/-- R170: a request that passes its checks has been handed over while no other request waited at a free
Port: a busy Port lists it, a free Port has begun it. -/
def State.handedOver (r : Request) (s : State) : State :=
  if s.port.inFlight.isSome then s.submit r else startAccess r s

/-- R143: a status write has begun: the write count has advanced and the leading copy is handed over, with
the block taken as it stands. That it begins at the hand-over is the model's choice (assumption log 33). -/
def State.reporting (w : StatusWrite) (s : State) : State :=
  let w := { w with onEnd := w.onEnd ||| s.ec.eventsDue, cursorAtStart := s.ec.cursor }
  State.handedOver (statusReq .leading (s.ec.writeCount + 1) (statusBody s))
    { s with ec := { s.ec with writeCount := s.ec.writeCount + 1, eventsDue := 0, cursorDue := false
                               job := some { job := .status w .leading (statusBody s) } } }

/-- R157: a configuration read has begun. -/
def State.readingConfig (why : ConfigWhy) (s : State) : State :=
  State.handedOver configReadReq { s with ec := { s.ec with job := some { job := .config why } } }

/-- The work of the look or of the group has gone on with one access. -/
def State.doing (j : Job) (r : Request) (s : State) : State :=
  State.handedOver r { s with work := some { job := j } }

/-- The work of the look or of the group has ended one of its accesses and waits for the step that acts on
it. -/
def State.ended (j : Job) (ok : Bool) (data : List Byte) (s : State) : State :=
  { s with work := some { job := j, ended := true, ok := ok, data := data, endedAt := s.reg.time } }

/-- R97, R105: a look or a group has ended: nothing is under assembly and the return stack is empty. -/
def State.lookEnded (s : State) : State :=
  { s with work := none, chain := { s.chain with group := {}, returnStack := [], unterminated := none } }

/-- R150: STOPPED has been entered from a state with no group in flight. -/
def State.stopped (s : State) : State :=
  let s := s.lookEnded
  { s with chain := { s.chain with override := {} }
           ec := { s.ec.quiet with engine := .stopped, haltReason := .noHalt, haltRecord := 0 } }

/-- R161: HALTED has been entered with a reason and a halt record. -/
def State.halted (reason : HaltReason) (record : Nat) (s : State) : State :=
  let s := s.lookEnded
  { s with chain := { s.chain with override := {} }
           ec := { s.ec.quiet with engine := .halted, haltReason := reason, haltRecord := record } }

/-- R161: a halt that has been called for is entered, with the status write that sets HALT; no such write is made, and
HALT is set at once, when a status write has failed since (R144). -/
def State.haltedBy (reason : HaltReason) (record : Nat) (s : State) : State :=
  if s.ec.statusFailed then
    State.halted reason record { s with reg := { s.reg with events := s.reg.events ||| evHalt } }
  else State.reporting { onEnd := evHalt } (s.halted reason record)

/-- R151: a command has been refused. -/
def State.refused (s : State) : State :=
  { s with reg := { s.reg with events := s.reg.events ||| evCmdRefused } }

/-- R163: the rescan timer as an entry into PARKED under an interval leaves it. -/
def State.timerFor (interval : Nat) (s : State) : Option Timer :=
  if interval = 0 then none else some { armedAt := s.reg.time, interval := interval }

/-- R139, R140: the frame has been measured against the budget, and relief is judged. -/
def State.measured (s : State) : State :=
  let duration := s.reg.time - s.pace.takeTime
  let clean := decide (s.chain.flight.fault = none)
  let late := clean && decide (s.ec.cfg.frameBudget ≠ 0 ∧ s.ec.cfg.frameBudget < duration.toNat)
  let run := if late then min (s.pace.consecutive + 1) 255 else if clean then 0 else s.pace.consecutive
  { s with
    chain := { s.chain with flight := { s.chain.flight with duration := duration, overrun := late } }
    pace := { s.pace with
      overruns := if late then s.pace.overruns + 1 else s.pace.overruns
      consecutive := run
      relief := decide (s.ec.cfg.reliefThreshold ≠ 0 ∧ s.ec.cfg.reliefThreshold ≤ run) } }

/-- R113: the retirement of a measured group has begun: the FRAME's completion write is handed over, and still to
make are the completion writes of the main-chain records, their state writes, and the FRAME's state write last. That
the FRAME's completion write is the first is the model's inference (assumption log 21). -/
def State.retiring (t : State) : State :=
  let main := t.chain.group.mainList
  t.doing (.retire (main.map (mainCompletion t) ++ main.map (fun m => stateWriteReq m.offset (retiredState t m)) ++
      [stateWriteReq t.frame.offset (if t.chain.flight.fault = none then .done else .faulted)]) false)
    (completionReq t.frame.offset (frameCompletion t))

/-- R92: the read that begins a look at the cursor. -/
def State.lookBegun (s : State) : State :=
  s.doing (.recordRead (if s.ec.linkWait then .cursorLink else .cursor) s.ec.cursor) (recordReadReq s.ec.cursor)

/-- R93, R95, R99, R163: a look that found no ready work has parked at `off`, with the flag `lw`: from WORKING with a
status write and the PARKED event, else with a status write when the cursor or the flag has moved since the last one
(how they share one is the model's inference, assumption log 9). With a wake pending the next look has begun (R92). -/
def State.parkedAt (off : Nat) (lw : Bool) (s : State) : State :=
  let moved := decide (s.ec.cursor ≠ off) || decide (s.ec.linkWait ≠ lw) || s.ec.cursorDue
  let parked : State := { s.lookEnded with ec := { s.ec with
    engine := .parked, cursor := off, linkWait := lw, wakePending := false
    timer := s.timerFor s.ec.cfg.rescanInterval } }
  let reported : State :=
    if s.ec.engine = .working then State.reporting { onSuccess := evParked } parked
    else if moved then State.reporting {} parked else parked
  if s.ec.wakePending then reported.lookBegun else reported

/-- R96, R153, R154, R159, R160: a STOP, an ABORT or a RELOAD remembered during the look has ended it, with no take: a
RELOAD that waits has its configuration read, behind a status write when a cursor move is still to be reported;
without one, and when an ABORT has ended the look, STOPPED has been entered with its status write. Which step of the
look acts on the command, and that a RELOAD goes before a STOP or an ABORT taken in PARKED, are the model's inferences
(assumption logs 10 and 25). -/
def State.lookEndedByCommand (s : State) : State :=
  if s.ec.reloadReq = true ∧ s.ec.endedByAbort = false then
    let u := s.lookEnded
    let v : State := { u with ec := { u.ec with reloadReq := false, lookAfterRead := true } }
    if s.ec.cursorDue then
      let r := State.reporting {} v
      { r with ec := { r.ec with queue := [.config .reload] } }
    else v.readingConfig .reload
  else State.reporting { onSuccess := evStopped } s.stopped

/-- R96: a look that would go on with `t` does so unless a command remembered ends it first. -/
def State.unlessEnded (s t : State) : State := if s.lookMustEnd then s.lookEndedByCommand else t

/-- R93, R95, R96, R99: the look has come to no ready work at `off`, with the flag `lw`: it parks there, or a command
remembered ends it there. -/
def State.ParksOrEnds (off : Nat) (lw : Bool) (s t : State) : Prop :=
  (s.lookMustEnd = false → (s.ec.wakePending = true → accessOk (recordReadReq off) s.window = true) →
    t = s.parkedAt off lw) ∧
  (s.lookMustEnd = true → t = State.lookEndedByCommand { s with ec := { s.ec with
    cursor := off, linkWait := lw
    cursorDue := s.ec.cursorDue || decide (s.ec.cursor ≠ off) || decide (s.ec.linkWait ≠ lw) } })

/-- R107: each field that an OVERRIDE record marks present replaces the held one; the others stay. -/
def overlaid (held record : Override) : Override where
  lens := match record.lens with | some v => some v | none => held.lens
  zoom := match record.zoom with | some v => some v | none => held.zoom
  focus := match record.focus with | some v => some v | none => held.focus
  strength := match record.strength with | some v => some v | none => held.strength

/-- R98, R110, R163: the group under assembly is complete and taken: the engine is WORKING, the timer disarmed, the
FRAME's TAKEN write handed over and those of the main-chain list still to make. From PARKED the status write goes
first (assumption log 8). -/
def State.takeBegun (s : State) : State :=
  let taken : State := { s with
    ec := { s.ec with engine := .working, timer := none, wakePending := false }
    chain := { s.chain with flight :=
      { inFlight := true, takenTodo := s.chain.group.mainList.map MainRecord.offset } } }
  State.doing (.recordWrite .taken s.frame.offset) (stateWriteReq s.frame.offset .taken)
    (if s.ec.engine = .parked then State.reporting {} taken else taken)

/-- R143, R170: a status write asked for while another one, `first`, still waited for the controller's turn: that
one has begun and this one waits behind it. -/
def State.reportingAfter (first : Option StatusWrite) (w : StatusWrite) (s : State) : State :=
  match first with
  | none => s.reporting w
  | some f =>
    let r := State.reporting f { s with ec := { s.ec with queue := [], eventsDue := 0 } }
    { r with ec := { r.ec with queue := [.status { w with onEnd := w.onEnd ||| s.ec.eventsDue }] } }

/-- R173, R174: the write `a` of `bytes` is exhausted by the attempt on the bus, when it is answered with an error or
not at all: the requester goes on with `next`. Memory outside the bytes is as it was, but for what other masters wrote,
and all of it where a rule says that a failed write leaves what memory held (assumption log 31). -/
def State.LosesWrite (a : Access) (bytes : List Byte) (others : List Host.Cell) (next : State → State) (s : State) :
    Prop :=
  s.port.retryCount < a.attempts → memWf s.dram = true → ∃ m n,
    let t := next { s with dram := m, freeCount := n, port := { s.port with inFlight := none } }
    (s.OnTime → exec (.memoryAttemptAnswer .failed others) s = .next t) ∧
    (¬s.OnTime → others = [] → exec .memoryAttemptTimeout s = .next t) ∧
    (∀ x, x < a.address ∨ a.address + bytes.length ≤ x → memGet m x = memGet (memLand s.dram others) x) ∧
    (s.keepsOnFailure a.req = true → m = memLand s.dram others)

/-! ### How a frame goes on

Each of these says of a next state `t` what the work on the frame in flight has become, from a state `u` in which a
piece of it has ended. Where an access follows, it is named, and `t` is given for every access that passes the checks
of R172. -/

/-- R113, R139: the frame is measured and its group goes to retirement. -/
def State.Retires (u t : State) : Prop :=
  accessOk (completionReq u.frame.offset (frameCompletion u.measured)) u.window = true → t = u.measured.retiring

/-- Entry `k` has the result `r`. -/
def State.resulted (k : Nat) (r : EntryResult) (u : State) : State :=
  { u with chain := { u.chain with group := { u.chain.group with
      entries := u.chain.group.entries.modify k fun e => { e with result := some r } } } }

/-- R75, R81, R82, R111, R130: the frame is faulted: no row is left to write, an ABORT discards the pending override
(R108), and the first held slot is returned EMPTY with its entry faulted, or the group retires when none is held. That
the first slot of the list goes first, and that its entry alone takes the code then, is the model's choice (assumption
log 37); so is that the preview accumulators and the waiting sub-tiles stay as they are (assumption logs 44 and 45). -/
def State.FaultsWith (code : FaultCode) (u t : State) : Prop :=
  let v : State := { u with
    chain := { u.chain with flight := { u.chain.flight with fault := some code }
                            override := if code = .aborted then {} else u.chain.override }
    writer := { u.writer with outRows := [], derivedRows := [] } }
  (u.pools.heldSlots = [] → v.Retires t) ∧
  ∀ h rest, u.pools.heldSlots = h :: rest →
    let r := poolWriteReq .slotWrite h.stateOffset (leBytes 4 0)
    accessOk r u.window = true → t = State.doing (.slotEmpty h.entry) r (v.resulted h.entry (.faulted code))

/-- R131: the first held slot is released FILLED, or the group retires when none is held. -/
def State.Releases (u t : State) : Prop :=
  (u.pools.heldSlots = [] → u.Retires t) ∧
  ∀ h rest, u.pools.heldSlots = h :: rest →
    let r := poolWriteReq .slotWrite h.stateOffset (filledBytes h u.frame.fields.frameNumber)
    accessOk r u.window = true → t = u.doing (.releaseFilled h) r

/-- R129, R130, R131: the RAWCOPY phase goes on from entry `k`: the first row of the next held RAWCOPY entry is read,
or an ABORT is taken before it; with none left the held slots are released. -/
def State.CopiesFrom (k : Nat) (u t : State) : Prop :=
  let raw (h : HeldSlot) : Prop := k ≤ h.entry ∧ (u.entryFields h.entry).kind = 3
  ((∀ h, h ∈ u.pools.heldSlots → ¬raw h) → u.Releases t) ∧
  ∀ before h after, u.pools.heldSlots = before ++ h :: after → (∀ x, x ∈ before → ¬raw x) → raw h →
    (u.ec.abortReq = true → u.FaultsWith .aborted t) ∧
    (u.ec.abortReq = false →
      let f := u.frame.fields
      let d := u.entryFields h.entry
      let r := sourceReadReq .outputWriter (f.srcOffset + d.ry * f.srcPitch + 6 * d.rx) (h.width * 6)
      accessOk r u.window = true → t = u.doing (.rawRead h.entry 0) r)

/-- R70, R71: the parts that replace a sub-tile whose box overflows on an axis on which it can be split, in raster
order; none when it is served. -/
def splitInto (r : Rect) (b : Box) : List Rect :=
  let halves (start extent : Nat) (split : Bool) : List (Nat × Nat) :=
    if split then [(start, (extent + 1) / 2), (start + (extent + 1) / 2, extent - (extent + 1) / 2)]
    else [(start, extent)]
  let inX := decide (96 < b.width ∧ 8 < r.width)
  let inY := decide (64 < b.height ∧ 8 < r.height)
  if inX || inY then
    (halves r.top r.height inY).flatMap fun y =>
      (halves r.left r.width inX).map fun x => { left := x.1, top := y.1, width := x.2, height := y.2 }
  else []

/-- R73, R76: a sub-tile has been sampled and the counts have advanced. -/
def State.sampled (v : Serving) (u : State) : State :=
  let part := rectSlice u.tileInHand v.rect u.tile.positions
  { u with tile := { u.tile with
      samples := putSamples u.tileInHand v.rect u.tile.samples
        (List.map (samplePixel v u.tile.buffer u.frame.fields)) u.tile.positions
      overspan := u.tile.overspan + part.countP (overspanMoved v)
      overrange := u.tile.overrange +
        (part.map (samplePixel v u.tile.buffer u.frame.fields)).countP Sample.overMark
      serving := none } }

/-- R78 to R80: the rows that the tile in hand gives the primary output. -/
def State.tileRows (u : State) : List RowWrite :=
  outputRows u.frame.fields u.tileInHand (quantizeTile u.frame.fields u.writer.dither u.tile.samples).2

/-- R78, R125 to R127: the tile has been quantized; `rest` are the output rows still to write, and the rows of the
derived parts follow them. -/
def State.quantized (rest : List RowWrite) (u : State) : State :=
  let accums := tileAccums u u.tileInHand u.tile.samples
  { u with writer := { u.writer with
      dither := (quantizeTile u.frame.fields u.writer.dither u.tile.samples).1
      accums := accums, outRows := rest
      derivedRows := tileDerivedRows u u.tileInHand u.tile.samples accums } }

/-- R70 to R73, R78, R82: the sub-tiles of the tile in hand are judged from the head of their list on, until one has
its first source row read, an ABORT is taken between two, or none is left and the tile is quantized and its first
row written. -/
inductive SubTilesGoOn : State → State → Prop where
  /-- R78, R79: no sub-tile is left. -/
  | written {u t : State} (r : RowWrite) (rest : List RowWrite) : u.tile.subTiles = [] → u.tileRows = r :: rest →
      (accessOk (rowWriteReq .outputRowWrite r.offset r.bytes) u.window = true →
        t = State.doing .outRow (rowWriteReq .outputRowWrite r.offset r.bytes) (u.quantized rest)) →
      SubTilesGoOn u t
  /-- R70, R71: the head is split and its parts take its place. -/
  | split {u t : State} (r : Rect) (rest : List Rect) : u.tile.subTiles = r :: rest →
      splitInto r (footprint (rectSlice u.tileInHand r u.tile.positions)) ≠ [] →
      SubTilesGoOn { u with tile := { u.tile with
        subTiles := splitInto r (footprint (rectSlice u.tileInHand r u.tile.positions)) ++ rest } } t →
      SubTilesGoOn u t
  /-- R72, R76: the head's box is empty: it is sampled without a read, and the next is judged. -/
  | filled {u t : State} (r : Rect) (rest : List Rect) : u.tile.subTiles = r :: rest →
      (footprint (rectSlice u.tileInHand r u.tile.positions)).width = 0 → u.ec.abortReq = false ∨ rest = [] →
      SubTilesGoOn (State.sampled
        { rect := r, box := footprint (rectSlice u.tileInHand r u.tile.positions), overspan := false }
        { u with tile := { u.tile with subTiles := rest } }) t →
      SubTilesGoOn u t
  /-- R82: an ABORT is taken after the sampling of a sub-tile that needed no read. -/
  | aborted {u t : State} (r : Rect) (rest : List Rect) : u.tile.subTiles = r :: rest →
      (footprint (rectSlice u.tileInHand r u.tile.positions)).width = 0 → u.ec.abortReq = true → rest ≠ [] →
      State.FaultsWith .aborted (State.sampled
        { rect := r, box := footprint (rectSlice u.tileInHand r u.tile.positions), overspan := false }
        { u with tile := { u.tile with subTiles := rest } }) t →
      SubTilesGoOn u t
  /-- R72 to R74: the head is served, under overspan when its box does not fit: the first row of the box, cut to
  96 × 64, is read. That the box and the indication are set here is the model's choice (assumption logs 23 and 36). -/
  | served {u t : State} (r : Rect) (rest : List Rect) (b : Box) (v : Serving) : u.tile.subTiles = r :: rest →
      b = footprint (rectSlice u.tileInHand r u.tile.positions) → splitInto r b = [] → b.width ≠ 0 →
      v = { rect := r, box := { b with width := min b.width 96, height := min b.height 64 }
            overspan := decide (96 < b.width ∨ 64 < b.height) } →
      (let f := u.frame.fields
       let q := sourceReadReq .tilePassUnit (f.srcOffset + b.y * f.srcPitch + 6 * b.x) (6 * min b.width 96)
       accessOk q u.window = true → t = State.doing (.rows 0) q { u with tile := { u.tile with
         subTiles := rest, serving := some v, buffer := { u.tile.buffer with box := v.box }
         overspanInd := u.tile.overspanInd || v.overspan } }) →
      SubTilesGoOn u t

/-- R65, R68, R121: the tile in hand has been begun: its positions and out-of-frame pixels are computed, and the whole
tile is its one sub-tile. The blank sample store, and the positions shown for fill-marked pixels, are the model's choice
(assumption logs 35 and 39). -/
def State.tileBegun (u : State) : State :=
  let f := u.frame.fields
  let px := u.tileInHand.pixels
  { u with
    tile := { u.tile with
      positions := px.map fun p => pixelPos u.tables f u.ec.cfg.rn p.1 p.2
      outOfFrame := u.tile.outOfFrame + px.countP fun p => pixelOut u.tables f u.ec.cfg.rn p.1 p.2
      subTiles := [u.tileInHand]
      samples := List.replicate (u.tileInHand.width * u.tileInHand.height) {} }
    writer := { u.writer with accums := [] } }

/-- R68, R82: the tile in hand is begun, or an ABORT is taken before it (before its positions are computed: the
model's inference, assumption log 15). -/
def State.TileBegins (u t : State) : Prop :=
  (u.ec.abortReq = true → u.FaultsWith .aborted t) ∧
  (u.ec.abortReq = false → 0 < u.tileInHand.height → SubTilesGoOn u.tileBegun t)

/-- R66: the pass begins at the first tile. -/
def State.PassBegins (u t : State) : Prop :=
  State.TileBegins { u with tile := { u.tile with row := 0, col := 0 } } t

/-- R67, R82, R86: the tile in hand has been written in full: the next one in its row is begun, or the first of the
next row, or, past the abort point after the last, the RAWCOPY phase follows. That the tile position moves on before
the abort point of the next tile is the model's choice (assumption log 47). -/
def State.TileEnds (u t : State) : Prop :=
  let f := u.frame.fields
  (64 * (u.tile.col + 1) < f.outW →
    State.TileBegins { u with tile := { u.tile with col := u.tile.col + 1 } } t) ∧
  (f.outW ≤ 64 * (u.tile.col + 1) →
    (32 * (u.tile.row + 1) < f.outH →
      State.TileBegins { u with tile := { u.tile with row := u.tile.row + 1, col := 0 } } t) ∧
    (f.outH ≤ 32 * (u.tile.row + 1) →
      (u.ec.abortReq = true → u.FaultsWith .aborted t) ∧ (u.ec.abortReq = false → u.CopiesFrom 0 t)))

/-- R116 to R119, R122: the result that an entry's judging gives it without its pool: FORMAT for bad fields,
SKIPPED_CONDITION by the mask and the sense, SKIPPED_RELIEF for an entry that yields, POOL_BAD for a pool index not
below the pool count, and none for an entry that needs its pool. -/
def State.judgedWithoutPool (u : State) (d : DerivedFields) : Option EntryResult :=
  let f := u.frame.fields
  let flags := u.chain.flight.used.flags
  let w := if d.kind = 3 then f.srcW else f.outW
  let h := if d.kind = 3 then f.srcH else f.outH
  let empty := decide (d.rw = 0 ∨ d.rh = 0 ∨ w ≤ d.rx ∨ h ≤ d.ry)
  let bad := !decide (d.kind = 1 ∨ d.kind = 2 ∨ d.kind = 3) || !decide (d.sense = 1 ∨ d.sense = 2) ||
    (decide (d.kind = 1) && !decide (d.factor = 2 ∨ d.factor = 4 ∨ d.factor = 8)) ||
    (decide (d.kind = 2 ∨ d.kind = 3) && empty)
  let met := (d.mask.testBit 0 && flags.stale) || (d.mask.testBit 1 && flags.hold) ||
    (d.mask.testBit 2 && flags.moving) || (d.mask.testBit 3 && flags.lensNew) ||
    (d.mask.testBit 4 && flags.unknownLens) || (d.mask.testBit 5 && flags.outsideGrid) ||
    (d.mask.testBit 6 && flags.override)
  if bad then some (.faulted .format)
  else if met != decide (d.sense = 1) then some .skippedCondition
  else if d.yields && u.pace.reliefForTake then some .skippedRelief
  else if u.ec.cfg.poolCount ≤ d.pool then some (.faulted .poolBad)
  else none

/-- R116: an entry carries CLIPPED when its rectangle was cut and is not empty. -/
def State.cutMark (u : State) (d : DerivedFields) : Bool :=
  let f := u.frame.fields
  let w := if d.kind = 3 then f.srcW else f.outW
  let h := if d.kind = 3 then f.srcH else f.outH
  decide (d.kind = 2 ∨ d.kind = 3) && !decide (d.rw = 0 ∨ d.rh = 0 ∨ w ≤ d.rx ∨ h ≤ d.ry) &&
    decide (w < d.rx + d.rw ∨ h < d.ry + d.rh)

/-- R116 to R119, R122: the derived entries are judged from entry `k` on, one after the other, until one needs its
pool, whose table entry is read, or until all are judged: then the pass begins, unless the tables are still being
built. -/
def State.JudgesFrom (k : Nat) (u t : State) : Prop :=
  let es := u.chain.group.entries
  let settled (e : DerivedEntry) : DerivedEntry :=
    { e with result := u.judgedWithoutPool e.fields, clipped := u.cutMark e.fields }
  let left (judging : Bool) (entries : List DerivedEntry) : State := { u with
    work := none
    chain := { u.chain with group := { u.chain.group with entries := entries }
                            flight := { u.chain.flight with judging := judging } } }
  ∀ n, (∀ e, e ∈ (es.drop k).take n → (u.judgedWithoutPool e.fields).isSome = true) →
    (es.length ≤ k + n →
      let done := left false (es.take k ++ (es.drop k).map settled)
      (u.chain.flight.building = true → t = done) ∧ (u.chain.flight.building = false → done.PassBegins t)) ∧
    (∀ e rest, es.drop (k + n) = e :: rest → u.judgedWithoutPool e.fields = none →
      let r := poolReadReq .poolTableRead (u.ec.cfg.poolTable + 4 * e.fields.pool) 4
      accessOk r u.window = true → t = State.doing (.poolTable (k + n)) r (left u.chain.flight.judging
        (es.take k ++ ((es.drop k).take n).map settled ++ { e with clipped := u.cutMark e.fields } :: rest)))

/-- R42, R4, R2, R117: the Resolver has delivered `r`: the build begins with the strength the frame is made with, and
the derived entries are judged. -/
def State.Delivers (r : Resolved) (u t : State) : Prop :=
  let flight := u.chain.flight
  State.JudgesFrom 0 { u with chain := { u.chain with flight := { flight with
    used := r.used, coeffs := r.coeffs
    strength := if r.used.flags.unknownLens then 0
      else min (flight.override.strength.getD u.frame.fields.strength) 256
    judged := true, judging := true, building := true } } } t

/-- R63, R34 to R40: the lens decision `d` is handed on, the unit keeps what it settled and its events are set; then
the frame's lens is looked up. Under UNKNOWN_LENS there is no lookup; a hit delivers from its copy, or under
UNKNOWN_LENS from an INVALID entry, and notes the last served; a miss takes an ABORT, or begins a load with the
directory, which ends at once when the directory is empty. -/
def State.LensDecided (d : Decision) (u t : State) : Prop :=
  let f := d.frame
  let v : State := { u with
    lens := d.unit
    reg := { u.reg with events := u.reg.events ||| d.events }
    chain := { u.chain with flight := { u.chain.flight with lens := f } } }
  (f.flags.unknownLens = true → v.Delivers (resolveUnknown f) t) ∧
  (f.flags.unknownLens = false → ∀ lens, f.lens = some lens →
    (∀ slot, u.cache.find lens = some slot →
      let hit : State := { v with cache := { u.cache with lastServed := some slot } }
      (∀ p, (u.cache.get slot).state = .ready → (u.cache.get slot).copy = some p →
        hit.Delivers (resolveFrom p f u.chain.flight.override) t) ∧
      ((u.cache.get slot).state = .invalid → hit.Delivers (resolveUnknown f) t)) ∧
    (u.cache.find lens = none →
      (u.ec.abortReq = true → v.FaultsWith .aborted t) ∧
      (u.ec.abortReq = false →
        let load : State := { v with
          cache := u.cache.set u.cache.victim { state := .loading, lens := some lens, copy := some {} } }
        let job := Job.load u.cache.victim lens (.directory 0)
        (u.ec.cfg.dirLength = 0 → t = State.ended job false [] load) ∧
        (u.ec.cfg.dirLength ≠ 0 →
          let first := resolverReadReq .directoryRead u.ec.cfg.dirOffset 8
          accessOk first u.window = true → t = State.doing job first load))))

end Sys2Proof.Machine
end

