-- ==== Sys2Proof/Certificates/Slice0/Obligations.lean ====
section
/-! DEFINITION. The statements for the provers. Each docstring names the rules of spec/ it rests on. -/

open Sys2Proof Sys2Proof.Machine

/-! ### The queue, reset and the whole machine -/

/-- A step takes the command at the front of the queue and runs it on the state with the queue's rest; with no
command waiting the block idles (the model's choice, assumption log 13). -/
def Obligations.StepRunsTheFrontCommand : Prop :=
  ∀ (c : Instr) (rest : List Instr) (s : State),
    step { s with pending := c :: rest } = exec c { s with pending := rest } ∧
    step { s with pending := [] } = .next { s with pending := [] }

/-- The engine stops on no command and on no event: halts, frame faults and refused commands are states
(R106, R113, R151). Of an event named in a state in which it cannot have occurred this holds by the model's choice
(assumption log 7). -/
def Obligations.NoCommandStopsTheEngine : Prop :=
  ∀ (c : Instr) (s : State), ∃ t, exec c s = .next t

/-- The state after reset meets every invariant stated below. -/
def Obligations.ResetStateIsSound : Prop :=
  State.reset.Sound ∧ State.reset.Settled ∧ State.reset.HeldWait

/-- Whatever command or event comes, in any sound state: memory keeps its canonical form, the dither generator
is never 0 (R23), every table entry lies in 32768..131071 (R6, R7), the return stack holds at most 4 offsets
(R105), a group at most 4 derived entries (R101), the settled values are present together or absent together
(R51), the consecutive count is at most 255 (R138), WIN_SIZE at most 1,048,576 (R164), the copy is clamped
(R158), and an access makes at most 1 + retry count attempts, which is at most 8 (R174). -/
def Obligations.EveryStepKeepsSoundness : Prop :=
  ∀ s t : State, s.Sound → step s = .next t → t.Sound

/-- No request ever waits while the Memory Port is free, and no status write or configuration read that was asked
for while the Engine Controller has no access in progress (R143, R157, R170). -/
def Obligations.EveryStepKeepsTheServersBusy : Prop :=
  ∀ s t : State, step s = .next t →
    (s.PortSettled → t.PortSettled) ∧ (s.ControllerSettled → t.ControllerSettled)

/-- Outside a reset, whatever register access or wake is held waits for a status write that is in progress: none
is held without end (R143, R167, R178). -/
def Obligations.EveryStepKeepsWhatIsHeldWaiting : Prop :=
  ∀ s t : State, s.HeldWait → step s = .next t → t.HeldWait

/-- Memory changes only when an attempt on the bus ends or a reset cuts one off: every other command and event
leaves every byte as it was (R173, R177). This rests on two choices of the model: the bytes of a write in flight all
land in the step that ends its attempt, where R175 lets a reader find some of them before (assumption log 42), and what
other masters wrote arrives with a bus answer (assumption log 2). -/
def Obligations.MemoryChangesOnlyAtTheBus : Prop :=
  ∀ (c : Instr) (s t : State), s.HeldWait → endsAttempt c = false → isReset c = false →
    exec c s = .next t → ∀ a, memGet t.dram a = memGet s.dram a

/-- No event bit is lost: only a read of EVENTS and the resets clear one (R145). -/
def Obligations.EventsStayUntilReadOrReset : Prop :=
  ∀ (c : Instr) (s t : State), s.HeldWait → c ≠ .eventsRead → isReset c = false →
    exec c s = .next t → s.reg.events ||| t.reg.events = t.reg.events

/-- Each register of the Register Interface changes only by its own commands and by the resets: LINE_ENABLE by
its write, WIN_BASE and WIN_SIZE by their writes, which a status write may have held (R167), TIME by the clock,
the frame-ready level by its edges (R92, R148, R164, R182). -/
def Obligations.RegistersChangeOnlyByTheirCommands : Prop :=
  ∀ (c : Instr) (s t : State), s.HeldWait → isReset c = false → exec c s = .next t →
    ((∀ v, c ≠ .lineEnableWrite v) → t.reg.lineEnable = s.reg.lineEnable) ∧
    ((∀ v, c ≠ .winBaseWrite v) → c ≠ .statusWriteDone → t.reg.winBase = s.reg.winBase) ∧
    ((∀ v, c ≠ .winSizeWrite v) → c ≠ .statusWriteDone → t.reg.winSize = s.reg.winSize) ∧
    (c ≠ .timeTick → t.reg.time = s.reg.time) ∧
    (c ≠ .frameReadyEdge → c ≠ .frameReadyFallingEdge → t.reg.frameReadySeen = s.reg.frameReadySeen)

/-- POWER_ON_RESET, and RESET taken outside a reset, put every block in its reset state, end all work, and keep
register accesses that wait; memory keeps every byte but those of a write attempt the reset cut off (R165, R166,
R177). That held register accesses survive the reset and held wakes do not is the model's inference from R167 and
R178 (assumption log 18). -/
def Obligations.ResetsClearTheBlock : Prop :=
  ∀ s : State, memWf s.dram = true →
    ∃ t, exec .powerOnReset s = .next t ∧ (s.reg.inReset = false → exec .reset s = .next t) ∧
      t = { State.reset with
            reg := { inReset := true, held := s.reg.held.filter Held.isAccess }
            dram := t.dram, freeCount := t.freeCount, pending := s.pending } ∧
      ∀ a, (∀ x bytes, s.port.inFlight = some x → x.phase = .attempt → x.req.data = some bytes →
          a < x.address ∨ x.address + bytes.length ≤ a) →
        memGet t.dram a = memGet s.dram a

/-! ### Commands -/

/-- START in STOPPED or HALTED with a window: STARTING, with everything cleared that a start must begin without (the
controller's own marks are spelled out first), and a status write after which the configuration is read (R152). That
the read waits for the end of that write is the model's inference (assumption log 9), and that the write begins when
it is handed over is its choice (assumption log 33). -/
def Obligations.StartBegins : Prop :=
  (∀ c : Controller, c.quiet = { c with
    reloadReq := false, abortReq := false, timer := none, wakePending := false, heldHalt := none
    boundaryLast := none, stopAsked := false, endedByAbort := false, statusFailed := false
    lookAfterRead := false, cursorDue := false }) ∧
  ∀ s : State, s.Idle → s.ec.engine = .stopped ∨ s.ec.engine = .halted →
    exec .start s = .next (State.reporting { after := .readConfig false }
      { s with
        ec := { s.ec.quiet with
                engine := .starting, haltReason := .noHalt, haltRecord := 0, cursor := 0, linkWait := false
                cfgValid := false, groupsTaken := 0, groupsRetired := 0, framesDone := 0, framesFaulted := 0
                derivedFilled := 0, derivedDropped := 0, derivedSkipped := 0, lastFrameNumber := 0 }
        chain := {}
        lens := {}
        cache := {}
        pools := {}
        pace := { s.pace with overruns := 0, consecutive := 0, relief := false, reliefForTake := false } })

/-- STOP: from PARKED and HALTED the engine enters STOPPED with its status write; in PARKED during a look or a
RELOAD's configuration read the STOP is remembered until that work has run to its end; from WORKING it moves to
STOPPING with its status write, and from STARTING too, where the write waits for the configuration read that is in
progress, as it does in WORKING for the read of a RELOAD (R153, R150, R170). That a status write begins, and takes
the block, when it is handed over to a Port that may be busy is the model's choice (assumption log 33). -/
def Obligations.StopStops : Prop :=
  ∀ s : State, s.reg.inReset = false →
    (s.ControllerFree →
      (s.work = none → s.ec.engine = .parked ∨ s.ec.engine = .halted →
        exec .stop s = .next (State.reporting { onSuccess := evStopped } s.stopped)) ∧
      (s.ec.engine = .working →
        exec .stop s = .next (State.reporting {} { s with ec := { s.ec with engine := .stopping } }))) ∧
    (s.PortSettled → s.statusInFlight = false → s.ec.engine = .parked →
      s.work.isSome = true ∨ s.configBusy = true →
      exec .stop s = .next { s with ec := { s.ec with stopAsked := true } }) ∧
    (∀ why done ok data, s.PortSettled → s.ec.engine = .starting ∨ s.ec.engine = .working →
      s.ec.job = some { job := .config why, ended := done, ok := ok, data := data } →
      exec .stop s = .next { s with ec := { s.ec with
        engine := .stopping, queue := s.ec.queue ++ [.status { onEnd := s.ec.eventsDue }]
        eventsDue := 0, cursorDue := false } })

/-- ABORT: STOPPED from PARKED, at once or, during a look or a RELOAD's configuration read, when that work has run to
its end; with a group in flight the abort request and STOPPING; in WORKING and STOPPING with none the look in
progress, or the configuration read of a START or RESUME, is marked as ended by the ABORT; in STARTING the work of the
START or RESUME is ended when the configuration read in progress has run to its end (R154). At a group boundary the
RELOAD's configuration read goes on, in WORKING with the status write of the move to STOPPING behind it, and the
boundary then stops the engine (R154, R160). In WORKING with no group in flight and outside a boundary a RELOAD's
configuration read runs to its end, with the status write of the move to STOPPING behind it (R154). The mark is how
the model remembers the ABORT (assumption log 10), and that a status write begins when it is handed over to a Port
that may be busy is its choice (assumption log 33). That the pending override stays until the ABORT is taken at an
abort point (R108) is its inference (assumption log 29), and so is that an ABORT in PARKED leaves a RELOAD that waits
still to be carried out (assumption log 25). -/
def Obligations.AbortEndsTheWork : Prop :=
  ∀ s : State, s.Open → s.PortSettled →
    (s.ControllerFree →
      (s.ec.engine = .parked → s.work = none →
        exec .abort s = .next (State.reporting { onSuccess := evStopped } s.stopped)) ∧
      (s.ec.engine = .working → s.chain.flight.inFlight = true →
        exec .abort s = .next (State.reporting {}
          { s with ec := { s.ec with abortReq := true, engine := .stopping } })) ∧
      (s.ec.engine = .working → s.chain.flight.inFlight = false →
        exec .abort s = .next (State.reporting {}
          { s with ec := { s.ec with
              endedByAbort := s.ec.endedByAbort || (s.ec.boundaryLast.isNone && s.work.isSome)
              engine := .stopping } }))) ∧
    (s.ec.engine = .parked → s.work.isSome = true ∨ s.configBusy = true →
      exec .abort s = .next { s with ec := { s.ec with stopAsked := true } }) ∧
    (s.ec.engine = .stopping → s.chain.flight.inFlight = true →
      exec .abort s = .next { s with ec := { s.ec with abortReq := true } }) ∧
    (s.ec.engine = .stopping → s.chain.flight.inFlight = false → s.ec.boundaryLast = none →
      (s.work.isSome = true → exec .abort s = .next { s with ec := { s.ec with endedByAbort := true } }) ∧
      (∀ why done ok data, s.work = none →
        s.ec.job = some { job := .config why, ended := done, ok := ok, data := data } →
        (why = .start ∨ why = .resume →
          exec .abort s = .next { s with ec := { s.ec with endedByAbort := true } }) ∧
        (why = .reload → exec .abort s = .next s))) ∧
    (∀ done ok data, s.ec.engine = .working → s.chain.flight.inFlight = false → s.ec.boundaryLast = none →
      s.work = none → s.ec.job = some { job := .config .reload, ended := done, ok := ok, data := data } →
      exec .abort s = .next { s with ec := { s.ec with
        engine := .stopping, queue := s.ec.queue ++ [.status { onEnd := s.ec.eventsDue }]
        eventsDue := 0, cursorDue := false } }) ∧
    (∀ done ok data, s.chain.flight.inFlight = false → s.ec.boundaryLast.isSome = true →
      s.ec.job = some { job := .config .boundary, ended := done, ok := ok, data := data } →
      (s.ec.engine = .stopping → exec .abort s = .next s) ∧
      (s.ec.engine = .working → exec .abort s = .next { s with ec := { s.ec with
        engine := .stopping, queue := s.ec.queue ++ [.status { onEnd := s.ec.eventsDue }]
        eventsDue := 0, cursorDue := false } })) ∧
    (s.ec.engine = .starting → exec .abort s = .next { s with ec := { s.ec with endedByAbort := true } })

/-- RESUME in HALTED with a window: the halt is cleared; PARKED with the timer armed when the copy is valid, else
STARTING with a configuration read to follow (R155). That the look or the read waits for the end of the status write
is the model's inference (assumption log 9), and that the write begins when it is handed over is its choice
(assumption log 33). -/
def Obligations.ResumeLeavesTheHalt : Prop :=
  ∀ s : State, s.reg.inReset = false → s.ControllerFree → s.ec.engine = .halted →
    (s.ec.cfgValid = true →
      exec .resume s = .next (State.reporting { after := .look }
        { s with ec := { s.ec with haltReason := .noHalt, haltRecord := 0, engine := .parked
                                   timer := s.timerFor s.ec.cfg.rescanInterval } })) ∧
    (s.ec.cfgValid = false →
      exec .resume s = .next (State.reporting { after := .readConfig true }
        { s with ec := { s.ec with haltReason := .noHalt, haltRecord := 0, engine := .starting } }))

/-- RESCAN in PARKED begins a look at the cursor, or is remembered when a look or a RELOAD's configuration read is in
progress; in STARTING, WORKING and STOPPING it has no effect (R156, R92, R159). -/
def Obligations.RescanLooksAtTheCursor : Prop :=
  ∀ s : State, s.Open → s.PortSettled →
    (s.ControllerFree → s.ec.engine = .parked → s.work = none →
      accessOk (recordReadReq s.ec.cursor) s.window = true → exec .rescan s = .next s.lookBegun) ∧
    (s.ec.engine = .parked → s.work.isSome = true ∨ s.configBusy = true →
      exec .rescan s = .next { s with ec := { s.ec with wakePending := true } }) ∧
    (s.ec.engine = .starting ∨ s.ec.engine = .working ∨ s.ec.engine = .stopping →
      exec .rescan s = .next s)

/-- RELOAD in PARKED with no look in progress begins the configuration read; with a look or a RELOAD's read in
progress, and in WORKING and STOPPING, it waits (R159, R160). A configuration read counts as in progress from the step
that asks for it to the step that acts on its end, as spelled out first. -/
def Obligations.ReloadReadsTheConfiguration : Prop :=
  (∀ s : State, s.configBusy = true ↔
    (∃ why done ok data, s.ec.job = some { job := .config why, ended := done, ok := ok, data := data }) ∨
      ∃ why, EcTask.config why ∈ s.ec.queue) ∧
  ∀ s : State, s.Open → s.PortSettled →
    (s.ControllerFree → s.ec.engine = .parked → s.work = none →
      exec .reload s = .next (s.readingConfig .reload)) ∧
    (s.ec.engine = .parked ∧ (s.work.isSome = true ∨ s.configBusy = true) ∨ s.ec.engine = .working ∨
        s.ec.engine = .stopping →
      exec .reload s = .next { s with ec := { s.ec with reloadReq := true } })

/-- Every command and window write that its state refuses, and every COMMAND value that is none of the seven,
changes nothing but the CMD_REFUSED event (R151 to R156, R159, R164, R180). -/
def Obligations.RefusedCommandsOnlySetCmdRefused : Prop :=
  ∀ (v : Word) (s : State), s.Open → s.PortSettled →
    exec (.commandUnknown v) s = .next s.refused ∧
    ((s.ec.engine ≠ .stopped ∧ s.ec.engine ≠ .halted) ∨ s.reg.winSize = 0 →
      exec .start s = .next s.refused) ∧
    (s.ec.engine = .stopped ∨ s.ec.engine = .stopping ∨ (s.ec.engine = .halted ∧ s.reg.winSize = 0) →
      exec .stop s = .next s.refused) ∧
    (s.ec.engine = .stopped ∨ s.ec.engine = .halted → exec .abort s = .next s.refused) ∧
    (s.ec.engine ≠ .halted ∨ s.reg.winSize = 0 → exec .resume s = .next s.refused) ∧
    (s.ec.engine = .stopped ∨ s.ec.engine = .halted → exec .rescan s = .next s.refused) ∧
    (s.ec.engine = .stopped ∨ s.ec.engine = .starting ∨ s.ec.engine = .halted →
      exec .reload s = .next s.refused) ∧
    (s.ec.engine ≠ .stopped ∧ s.ec.engine ≠ .halted →
      exec (.winBaseWrite v) s = .next s.refused ∧ exec (.winSizeWrite v) s = .next s.refused)

/-- During a status write the commands other than RESET and the window writes are held, and during a reset every
register access is; nothing else changes (R143, R167, R178). What counts as a status write in progress, and which
accesses it holds, are spelled out. -/
def Obligations.HeldAccessesChangeNothingElse : Prop :=
  ∀ (c : Instr) (s : State),
    (s.statusInFlight = true ↔ ∃ w st body done ok data,
      s.ec.job = some { job := .status w st body, ended := done, ok := ok, data := data }) ∧
    (waitsForStatus c = true ↔ c = .start ∨ c = .stop ∨ c = .abort ∨ c = .resume ∨ c = .rescan ∨ c = .reload ∨
      ∃ v, c = .commandUnknown v ∨ c = .winBaseWrite v ∨ c = .winSizeWrite v) ∧
    (s.PortSettled →
    (s.reg.inReset = false ∧ s.statusInFlight = true ∧ waitsForStatus c = true) ∨
      (s.reg.inReset = true ∧ isAccess c = true) →
    exec c s = .next { s with reg := { s.reg with held := s.reg.held ++ [.access c] } })

/-! ### Registers, lines and time -/

/-- WIN_BASE_WRITE and WIN_SIZE_WRITE in STOPPED and HALTED: WIN_BASE takes all 32 bits, WIN_SIZE at most
1,048,576, and in HALTED the copy is no longer valid (R164, R183). That a write in HALTED is accepted at once also
while an access of the halted look is still in the Port is the model's choice (assumption log 43). -/
def Obligations.WindowWritesTakeEffect : Prop :=
  ∀ (v : Word) (s : State), s.Open → s.PortSettled →
    (s.ec.engine = .stopped →
      exec (.winBaseWrite v) s = .next { s with reg := { s.reg with winBase := v } } ∧
      exec (.winSizeWrite v) s = .next { s with reg := { s.reg with
        winSize := if v.toNat ≤ 1048576 then v else 1048576 } }) ∧
    (s.ec.engine = .halted →
      exec (.winBaseWrite v) s = .next { s with reg := { s.reg with winBase := v }
                                                ec := { s.ec with cfgValid := false } } ∧
      exec (.winSizeWrite v) s = .next { s with
        reg := { s.reg with winSize := if v.toNat ≤ 1048576 then v else 1048576 }
        ec := { s.ec with cfgValid := false } })

/-- EVENTS_READ returns the set as it stands and clears it; LINE_ENABLE_WRITE takes effect at once and keeps no bit
that stands for no event, also while a status write holds a window write or a command (that a write of LINE_ENABLE does
not wait behind what is held is the model's inference, assumption log 19); the accesses without effect change no state
of the engine, and a misfit read returns 0. The interrupt line is asserted exactly when some event is both set and
enabled (R145, R148, R178). STATE shows the engine state in bits 0 to 7 and the halt reason in bits 8 to 15, in every
state of the block, and the other registers read as they stand (R178 to R183, 10.1). -/
def Obligations.EventAndEnableAccesses : Prop :=
  ∀ (v : Word) (a : NoEffectAccess) (s : State),
    (s.reg.inReset = false → s.PortSettled →
      exec .eventsRead s = .next { s with reg := { s.reg with
        readData := s.reg.events.setWidth 32, events := 0 } } ∧
      exec (.lineEnableWrite v) s = .next { s with reg := { s.reg with lineEnable := v.setWidth 10 } } ∧
      readRegister { s with reg := { s.reg with lineEnable := v.setWidth 10 } } 0x18 = v &&& 0x3FF ∧
      exec (.registerWriteNoEffect a) s = .next { s with reg := { s.reg with
        readData := match a with | .misfitRead _ _ => 0 | _ => s.reg.readData } }) ∧
    (lineAsserted s = true ↔
      ∃ i : Nat, i < 10 ∧ s.reg.events.getLsbD i = true ∧ s.reg.lineEnable.getLsbD i = true) ∧
    (readRegister s 0x10).toNat / 65536 = 0 ∧
    (readRegister s 0x10).toNat % 256 = (match s.ec.engine with
      | .stopped => 0 | .starting => 1 | .parked => 2 | .working => 3 | .stopping => 4 | .halted => 5) ∧
    (readRegister s 0x10).toNat / 256 % 256 = (match s.ec.haltReason with
      | .noHalt => 0 | .linkBad => 1 | .callBad => 2 | .stackFull => 3 | .stackEmpty => 4 | .subchainState => 5
      | .subchainFrame => 6 | .unterminated => 7 | .badKind => 8 | .chainRead => 9 | .recordWrite => 10
      | .statusWrite => 11 | .config => 12) ∧
    [evGroupDone, evRecordFault, evHalt, evStopped, evParked, evLensChange, evLensStale, evOverrun, evPoolDrop,
      evCmdRefused] = [1, 2, 4, 8, 16, 32, 64, 128, 256, 512] ∧
    readRegister s 0x04 = s.reg.winBase ∧ readRegister s 0x08 = s.reg.winSize ∧ readRegister s 0x0C = 0 ∧
    readRegister s 0x14 = s.reg.events.setWidth 32 ∧ readRegister s 0x1C = s.reg.time

/-- R179: IDENT in every state, and its two halves. -/
def Obligations.IdentNeverChanges : Prop :=
  ∀ s : State, readRegister s 0x00 = 0x47260001 ∧ (readRegister s 0x00).toNat / 65536 = 0x4726 ∧
    (readRegister s 0x00).toNat % 65536 = 0x0001

/-- RESET_END sets TIME to 0, notes the frame-ready level, and then judges the register accesses held during the
reset, each against the state the one before it left: any accesses of the rows that ask the Memory Port for
nothing, and after them one access of any row, such as a START that a held WIN_SIZE_WRITE makes acceptable.
TIME_TICK counts and wraps; FRAME_READY_FALLING_EDGE is noted. During a reset the clock and the line have no effect,
and outside one RESET_END has none (R182, R92, R167, R178; assumption logs 7 and 27). -/
def Obligations.ResetEndClockAndFallingEdge : Prop :=
  ∀ (level : Bool) (s : State),
    (s.reg.inReset = true →
      (∀ (cs : List Instr) (last : Option Instr), s.PortSettled → (∀ c, c ∈ cs → asksNothing c = true) →
        (∀ c, last = some c → isAccess c = true) → s.reg.held = (cs ++ last.toList).map Held.access →
        exec (.resetEnd level) s = runInOrder (cs ++ last.toList)
          { s with reg := { s.reg with inReset := false, time := 0, frameReadySeen := level, held := [] } }) ∧
      exec .timeTick s = .next s ∧ exec .frameReadyFallingEdge s = .next s) ∧
    (s.reg.inReset = false →
      exec (.resetEnd level) s = .next s ∧
      exec .timeTick s = .next { s with reg := { s.reg with time := s.reg.time + 1 } } ∧
      exec .frameReadyFallingEdge s = .next { s with reg := { s.reg with frameReadySeen := false } })

/-- FRAME_READY_EDGE is a wake: in PARKED it begins a look, or is remembered when a look or a RELOAD's configuration
read is in progress; during a status write it is held; in the other states it only notes the level (R92, R143, R159). -/
def Obligations.FrameReadyEdgeWakes : Prop :=
  ∀ s : State, s.reg.inReset = false → s.reg.frameReadySeen = false → s.PortSettled →
    let u := { s with reg := { s.reg with frameReadySeen := true } }
    (s.Idle → s.ec.engine = .parked → accessOk (recordReadReq s.ec.cursor) s.window = true →
      exec .frameReadyEdge s = .next u.lookBegun) ∧
    (s.statusInFlight = false → s.ec.engine = .parked → s.work.isSome = true ∨ s.configBusy = true →
      exec .frameReadyEdge s = .next { u with ec := { u.ec with wakePending := true } }) ∧
    (s.statusInFlight = true →
      exec .frameReadyEdge s = .next { u with reg := { u.reg with held := u.reg.held ++ [.wake] } }) ∧
    (s.statusInFlight = false → s.ec.engine ≠ .parked → exec .frameReadyEdge s = .next u)

/-- RESCAN_TIMER_EXPIRY disarms the timer and is a wake, once TIME has reached the interval times 1000 µs from the
arming: it begins a look, or is remembered when a look or a RELOAD's configuration read is in progress, or is held
during a status write (R163, R92, R143, R159). That the event changes nothing before, and how late it may come, is the
model's reading (assumption logs 7 and 12). -/
def Obligations.RescanTimerWakes : Prop :=
  ∀ (tm : Timer) (s : State), s.ec.timer = some tm →
    (tm.interval * 1000 ≤ (s.reg.time - tm.armedAt).toNat → s.Idle → s.ec.engine = .parked →
      accessOk (recordReadReq s.ec.cursor) s.window = true →
      exec .rescanTimerExpiry s = .next ({ s with ec := { s.ec with timer := none } } : State).lookBegun) ∧
    (tm.interval * 1000 ≤ (s.reg.time - tm.armedAt).toNat → s.PortSettled → s.statusInFlight = false →
      s.ec.engine = .parked → s.work.isSome = true ∨ s.configBusy = true →
      exec .rescanTimerExpiry s = .next { s with ec := { s.ec with timer := none, wakePending := true } }) ∧
    (tm.interval * 1000 ≤ (s.reg.time - tm.armedAt).toNat → s.PortSettled → s.statusInFlight = true →
      exec .rescanTimerExpiry s = .next { s with
        ec := { s.ec with timer := none }, reg := { s.reg with held := s.reg.held ++ [.wake] } }) ∧
    ((s.reg.time - tm.armedAt).toNat < tm.interval * 1000 → exec .rescanTimerExpiry s = .next s)

/-! ### The memory bus -/

/-- An attempt that fails, by the bus's answer or because 2048 µs have passed, with attempts left: the access goes to
its delay, or is repeated at once when the delay is 0. A read leaves memory as it was, but for what other masters
wrote; so does a write outside its bytes, and each of its bytes is the one it writes or the one memory held. An access
of 4 bytes at a multiple of 4 has been placed whole or not at all (R173, R174, R175). How an access begins, and with
which retry settings it runs, is spelled out (R167, R169, R170); that the delay setting is 0 while the
configuration-valid mark is clear is the model's choice (assumption log 48). Which of the two a byte is is
left free (assumption log 3). -/
def Obligations.FailedAttemptIsRepeated : Prop :=
  (∀ (r : Request) (s : State),
    (s.port.inFlight = none → State.handedOver r s = { s with port := { s.port with
      retryCount := if s.ec.cfgValid then s.ec.cfg.retryCount else 0
      retryDelay := if s.ec.cfgValid then s.ec.cfg.retryDelay else 0
      inFlight := some { req := r, address := s.reg.winBase.toNat * 4096 + r.offset, attempts := 1
                         phase := .attempt }
      attemptStart := s.reg.time } }) ∧
    (s.port.inFlight.isSome = true →
      State.handedOver r s = { s with port := { s.port with requests := s.port.requests ++ [r] } })) ∧
  ∀ (a : Access) (others : List Host.Cell) (s : State), s.port.inFlight = some a → a.phase = .attempt →
    a.attempts ≤ s.port.retryCount → memWf s.dram = true →
    ∃ m n,
      let repeated : State := { s with
        dram := m, freeCount := n
        port := { s.port with
          inFlight := some (if s.port.retryDelay = 0 then { a with attempts := a.attempts + 1 }
                            else { a with phase := .delay })
          delayStart := s.reg.time
          attemptStart := if s.port.retryDelay = 0 then s.reg.time else s.port.attemptStart } }
      (s.OnTime → exec (.memoryAttemptAnswer .failed others) s = .next repeated) ∧
      (¬s.OnTime → others = [] → exec .memoryAttemptTimeout s = .next repeated) ∧
      (∀ x, (∀ bytes, a.req.data = some bytes → x < a.address ∨ a.address + bytes.length ≤ x) →
        memGet m x = memGet (memLand s.dram others) x) ∧
      (∀ bytes, a.req.data = some bytes → ∀ x, a.address ≤ x → x < a.address + bytes.length →
        memGet m x = bytes.getD (x - a.address) 0 ∨ memGet m x = memGet (memLand s.dram others) x) ∧
      (∀ bytes, a.req.data = some bytes → a.req.length = 4 → a.req.offset % 4 = 0 →
        m = memWrite (memLand s.dram others) a.address bytes ∨ m = memLand s.dram others) ∧
      (a.req.data = none → m = memLand s.dram others)

/-- RETRY_DELAY_EXPIRY issues the next attempt of the same access when the delay has elapsed, and not before. An
attempt is not overdue before 2048 µs. An answer to an attempt that has been ended or cut off, one that comes when
2048 µs have passed, and one with no attempt on the bus are disregarded: no more changes than what other masters
wrote (R173, R174, R177; assumption logs 2 and 7). -/
def Obligations.DelayEndsInTheNextAttempt : Prop :=
  ∀ (answer : BusAnswer) (others : List Host.Cell) (a : Access) (s : State),
    (s.port.inFlight = some a → a.phase = .delay →
      (s.port.retryDelay ≤ (s.reg.time - s.port.delayStart).toNat →
        exec .retryDelayExpiry s = .next { s with port := { s.port with
          inFlight := some { a with phase := .attempt, attempts := a.attempts + 1 }
          attemptStart := s.reg.time } }) ∧
      ((s.reg.time - s.port.delayStart).toNat < s.port.retryDelay → exec .retryDelayExpiry s = .next s)) ∧
    (s.OnTime → exec .memoryAttemptTimeout s = .next s) ∧
    (answer = .late ∨ ¬s.OnTime ∨ (∀ b, s.port.inFlight = some b → b.phase = .delay) →
      exec (.memoryAttemptAnswer answer others) s = .next { s with dram := memLand s.dram others }) ∧
    (s.port.inFlight = none →
      exec .memoryAttemptTimeout s = .next s ∧ exec .retryDelayExpiry s = .next s)

/-- A write whose attempt succeeds places exactly its bytes, at its bus address and the addresses that follow; every
other byte reads as before, but for what other masters wrote (R173, R167). The bus address of an access is the
window's base plus its offset (R164, R167), and what a read returns is spelled out; that a byte nothing has written
reads as 0 is the model's choice (assumption log 1). -/
def Obligations.SuccessfulWriteStoresItsBytes : Prop :=
  (∀ (r : Request) (s : State), s.port.inFlight = none → ∃ a, (State.handedOver r s).port.inFlight = some a ∧
    a.req = r ∧ a.address = s.reg.winBase.toNat * 4096 + r.offset ∧ a.attempts = 1 ∧ a.phase = .attempt) ∧
  (∀ (m : List Host.Cell) (cells : List Host.Cell) (x y : Nat) (b : Byte), memWf m = true →
    memRead m x y = (List.range y).map (fun i => memGet m (x + i)) ∧
    memGet m x = (match m.find? fun c => c.1 == x with | some c => c.2 | none => 0) ∧
    memLand m [] = m ∧ memLand m ((y, b) :: cells) = memLand (memLand m [(y, b)]) cells ∧
    memGet (memLand m [(y, b)]) x = if x = y then b else memGet m x) ∧
  ∀ (a : Access) (bytes : List Byte) (others : List Host.Cell) (s : State), s.port.inFlight = some a →
    a.phase = .attempt → s.OnTime → a.req.data = some bytes → memWf s.dram = true →
    ∃ t, exec (.memoryAttemptAnswer .succeeded others) s = .next t ∧
      ∀ x, memGet t.dram x =
        if a.address ≤ x ∧ x < a.address + bytes.length then bytes.getD (x - a.address) 0
        else memGet (memLand s.dram others) x

/-- A chain record's read or write that succeeds is reported with the bytes memory holds, and one whose attempts are
exhausted, by an answer of error or because 2048 µs have passed, is reported as failed; the Port is free, and nothing
else changes but memory. The attempt with which a write is exhausted leaves memory outside its bytes as it was, but for
what other masters wrote (R173, R174, R90), and all of it where a rule says that a failure leaves what memory held
(that what earlier attempts of the same access placed is left there is the model's, assumption log 31). A write of a
retirement is followed by the next, whether or not it failed, and the group notes a failure, and a FAULTED that was
written (R113, R146; that only a FAULTED write that succeeded counts is the model's inference, assumption log 26). An
access that its alignment, which is spelled out for each kind, or the window refuses is reported as failed at once, with
no attempt made: the look's read at such a cursor, and the last write of a retirement (R171, R172). The requests of the
blocks are spelled out (R170, R171, 10.2). -/
def Obligations.ChainAccessesAreReported : Prop :=
  (∀ (r : Request) (s : State),
    let alignment : Nat := match r.kind with
      | .configRead => 64 | .statusCopyWrite => 4 | .statusBodyWrite => 4 | .recordRead => 64
      | .recordCompletionWrite => 4 | .recordStateWrite => 4 | .boardHeaderRead => 8 | .boardSlotRead => 8
      | .directoryRead => 8 | .profileHeaderRead => 64 | .profileNodeRead => 32 | .poolTableRead => 4
      | .poolHeaderRead => 32 | .slotEntriesRead => 16 | .slotWrite => 4 | .poolWordWrite => 4
      | .sourceRowRead => 1 | .outputRowWrite => 1 | .derivedRowWrite => 1
    s.window = s.reg.winSize.toNat * 4096 ∧
    (accessOk r s.window = true ↔ r.offset % alignment = 0 ∧ r.offset + r.length ≤ s.window) ∧
    (s.keepsOnFailure r = true ↔
      r.block = .engineController ∧ r.kind = .statusCopyWrite ∨
      r.block ≠ .engineController ∧ ∃ w, s.work = some w ∧
        ((∃ todo failed, w.job = .retire todo failed) ∨ (∃ k, w.job = .slotEmpty k) ∨
          (∃ h, w.job = .releaseFilled h ∨ w.job = .releaseIndex h) ∨
          (∃ kind off, w.job = .recordWrite (.groupStart false kind) off) ∨ ∃ kind, w.job = .abandoned (some kind)))) ∧
  (∀ (off len : Nat) (x : RecordState) (bytes : List Byte) (kind : AccessKind) (block : Block),
    let code : Byte := match x with
      | .opened => 0 | .ready => 1 | .taken => 2 | .done => 3 | .skipped => 4 | .faulted => 5 | .standing => 6
    let read (block : Block) : Request :=
      { block := block, kind := kind, offset := off, length := len, data := none }
    let write (block : Block) : Request :=
      { block := block, kind := kind, offset := off, length := bytes.length, data := some bytes }
    recordReadReq off = { block := .chainReader, kind := .recordRead, offset := off, length := 128, data := none } ∧
    stateWriteReq off x = { block := .chainReader, kind := .recordStateWrite, offset := off, length := 4
                            data := some [code, 0, 0, 0] } ∧
    completionReq off bytes = { block := .chainReader, kind := .recordCompletionWrite, offset := off + 12
                                length := bytes.length, data := some bytes } ∧
    lensReadReq kind off len = read .lensStateUnit ∧ resolverReadReq kind off len = read .resolver ∧
    poolReadReq kind off len = read .poolManager ∧ poolWriteReq kind off bytes = write .poolManager ∧
    rowWriteReq kind off bytes = write .outputWriter ∧
    sourceReadReq block off len = { block := block, kind := .sourceRowRead, offset := off, length := len
                                    data := none }) ∧
  (∀ s : State, s.Idle → s.ec.engine = .parked → s.port.inFlight = none →
    accessOk (recordReadReq s.ec.cursor) s.window = false →
    exec .rescan s = .next (State.ended
      (.recordRead (if s.ec.linkWait then .cursorLink else .cursor) s.ec.cursor) false [] s)) ∧
  ∀ (a : Access) (others : List Host.Cell) (why : ReadWhy) (wr : WriteWhy) (off : Nat) (bytes : List Byte)
    (todo : List Request) (failed : Bool) (s : State), s.port.inFlight = some a → a.phase = .attempt →
    a.req.block = .chainReader → s.port.requests = [] →
    let u (m : List Host.Cell) : State := { s with dram := m, port := { s.port with inFlight := none } }
    (s.work = some { job := .recordRead why off } → a.req.data = none →
      let lost (m : List Host.Cell) : State := State.ended (.recordRead why off) false [] (u m)
      (s.OnTime →
        exec (.memoryAttemptAnswer .succeeded others) s = .next (State.ended (.recordRead why off) true
          (memRead (memLand s.dram others) a.address a.req.length) (u (memLand s.dram others)))) ∧
      (s.port.retryCount < a.attempts →
        (s.OnTime → exec (.memoryAttemptAnswer .failed others) s = .next (lost (memLand s.dram others))) ∧
        (¬s.OnTime → exec .memoryAttemptTimeout s = .next (lost s.dram)))) ∧
    (s.work = some { job := .recordWrite wr off } → a.req.data = some bytes →
      (s.OnTime → exec (.memoryAttemptAnswer .succeeded others) s = .next
        (State.ended (.recordWrite wr off) true [] (u (memWrite (memLand s.dram others) a.address bytes)))) ∧
      (s.port.retryCount < a.attempts → memWf s.dram = true →
        ∃ m n,
          let lost : State := State.ended (.recordWrite wr off) false [] { u m with freeCount := n }
          (s.OnTime → exec (.memoryAttemptAnswer .failed others) s = .next lost) ∧
          (¬s.OnTime → others = [] → exec .memoryAttemptTimeout s = .next lost) ∧
          (∀ x, x < a.address ∨ a.address + bytes.length ≤ x →
            memGet m x = memGet (memLand s.dram others) x) ∧
          (s.keepsOnFailure a.req = true → m = memLand s.dram others))) ∧
    (s.work = some { job := .retire todo failed } → a.req.data = some bytes →
      let faulted := decide (a.req.kind = .recordStateWrite ∧ bytes = [5, 0, 0, 0])
      let after (ok : Bool) (m : List Host.Cell) : State := { u m with chain := { s.chain with
        flight := { s.chain.flight with faultWritten := s.chain.flight.faultWritten || (ok && faulted) } } }
      let on (ok : Bool) (m : List Host.Cell) (t : State) : Prop :=
        (todo = [] → t = State.ended (.retire [] (failed || !ok)) ok [] (after ok m)) ∧
        (∀ r rest, todo = r :: rest → accessOk r s.window = true →
          t = State.doing (.retire rest (failed || !ok)) r (after ok m)) ∧
        (∀ r, todo = [r] → accessOk r s.window = false →
          t = State.ended (.retire [] true) false [] (after ok m))
      (s.OnTime → ∃ t, exec (.memoryAttemptAnswer .succeeded others) s = .next t ∧
        on true (memWrite (memLand s.dram others) a.address bytes) t) ∧
      (s.port.retryCount < a.attempts →
        (s.OnTime → ∃ t, exec (.memoryAttemptAnswer .failed others) s = .next t ∧
          on false (memLand s.dram others) t) ∧
        (¬s.OnTime → ∃ t, exec .memoryAttemptTimeout s = .next t ∧ on false s.dram t)))

/-- The three accesses of a status write: after the leading copy the body, after the body the trailing copy, and then
its end; the copies carry one count and the body is the block as it stood when the write began (R143). The places of
the three, and of the configuration read, are spelled out (R157, R168, 10.4), and so are the 248 bytes of the body
(R141, 10.4, 10.1). The configuration read's answer in time reports the bytes of the block, as memory holds them
(R157). A write or read whose attempts are exhausted ends the status write or the read as failed, at an error in time
or at the timeout (R144, R173, R174); that the attempt with which a write is exhausted places none of its bytes where
a rule says that memory keeps what it held, and that what earlier attempts placed stays, is the model's inference
(assumption log 31), and which bytes it places elsewhere is left open (log 3). -/
def Obligations.StatusWriteMakesThreeAccesses : Prop :=
  (∀ (n : Nat) (count : Word) (body : List Byte) (flag : Bool),
    let write (kind : AccessKind) (offset : Nat) (bytes : List Byte) : Request :=
      { block := .engineController, kind := kind, offset := offset, length := bytes.length, data := some bytes }
    leBytes 0 n = [] ∧ (∀ width, leBytes (width + 1) n = BitVec.ofNat 8 n :: leBytes width (n / 256)) ∧
    zeroBytes n = List.replicate n 0 ∧ flagByte flag = [if flag then 1 else 0] ∧
    statusReq .leading count body = write .statusCopyWrite 256 (leBytes 4 count.toNat) ∧
    statusReq .body count body = write .statusBodyWrite 260 body ∧
    statusReq .trailing count body = write .statusCopyWrite 508 (leBytes 4 count.toNat) ∧
    configReadReq = { block := .engineController, kind := .configRead, offset := 0, length := 256, data := none }) ∧
  (∀ t : State,
    let entryCode (e : CacheEntry) : Nat := match e.state with
      | .empty => 0 | .loading => 1 | .ready => 2 | .invalid => 3
    let l := t.lens
    statusBody t =
      leBytes 1 (match t.ec.engine with
        | .stopped => 0 | .starting => 1 | .parked => 2 | .working => 3 | .stopping => 4 | .halted => 5) ++
      leBytes 1 (if t.ec.linkWait then 1 else 0) ++
      leBytes 1 (match t.ec.haltReason with
        | .noHalt => 0 | .linkBad => 1 | .callBad => 2 | .stackFull => 3 | .stackEmpty => 4 | .subchainState => 5
        | .subchainFrame => 6 | .unterminated => 7 | .badKind => 8 | .chainRead => 9 | .recordWrite => 10
        | .statusWrite => 11 | .config => 12) ++
      leBytes 1 (if t.pace.relief then 1 else 0) ++ leBytes 4 t.ec.cursor ++ leBytes 4 t.ec.haltRecord ++
      leBytes 4 t.ec.groupsTaken.toNat ++ leBytes 4 t.ec.groupsRetired.toNat ++
      leBytes 4 t.ec.framesDone.toNat ++ leBytes 4 t.ec.framesFaulted.toNat ++
      leBytes 4 t.ec.derivedFilled.toNat ++ leBytes 4 t.ec.derivedDropped.toNat ++
      leBytes 4 t.ec.derivedSkipped.toNat ++ leBytes 4 t.pace.overruns.toNat ++ leBytes 1 t.pace.consecutive ++
      leBytes 1 ((if l.settledLens = none then 0 else 1) + (if l.settledZoom = none then 0 else 2) +
        (if l.settledFocus = none then 0 else 4)) ++
      leBytes 2 (l.settledZoom.getD 0) ++ leBytes 4 (l.settledLens.getD 0) ++ leBytes 2 (l.settledFocus.getD 0) ++
      leBytes 1 (entryCode t.cache.e0) ++ leBytes 1 (entryCode t.cache.e1) ++
      leBytes 4 (t.cache.e0.lens.getD 0) ++ leBytes 4 (t.cache.e1.lens.getD 0) ++ leBytes 4 l.lastSeq.toNat ++
      leBytes 4 t.ec.lastFrameNumber.toNat ++ zeroBytes 176 ∧
    (statusBody t).length = 248) ∧
  (∀ (a : Access) (bytes body : List Byte) (others : List Host.Cell) (w : StatusWrite) (st : StatusStage)
    (s : State), s.port.inFlight = some a → a.phase = .attempt → s.OnTime → a.req.block = .engineController →
    a.req.data = some bytes → s.port.requests = [] → s.reg.winSize ≠ 0 → body.length = 248 →
    s.ec.job = some { job := .status w st body } →
    let u : State := { s with dram := memWrite (memLand s.dram others) a.address bytes
                              port := { s.port with inFlight := none } }
    exec (.memoryAttemptAnswer .succeeded others) s = .next (match st with
      | .leading => State.handedOver (statusReq .body s.ec.writeCount body)
          { u with ec := { u.ec with job := some { job := .status w .body body } } }
      | .body => State.handedOver (statusReq .trailing s.ec.writeCount body)
          { u with ec := { u.ec with job := some { job := .status w .trailing body } } }
      | .trailing => { u with ec := { u.ec with
          job := some { job := .status w .trailing body, ended := true, ok := true } } })) ∧
  ∀ (a : Access) (bytes body : List Byte) (others : List Host.Cell) (w : StatusWrite) (st : StatusStage)
    (why : ConfigWhy) (s : State), s.port.inFlight = some a → a.phase = .attempt →
    a.req.block = .engineController → s.port.requests = [] →
    let ended (job : EcJob) (ok : Bool) (data : List Byte) (v : State) : State :=
      { v with ec := { v.ec with job := some { job := job, ended := true, ok := ok, data := data } } }
    let u (m : List Host.Cell) : State := { s with dram := m, port := { s.port with inFlight := none } }
    let landed := memLand s.dram others
    (s.ec.job = some { job := .status w st body } → a.req.data = some bytes →
      s.LosesWrite a bytes others (ended (.status w st body) false [])) ∧
    (s.ec.job = some { job := .config why } → a.req.data = none →
      (s.OnTime → exec (.memoryAttemptAnswer .succeeded others) s =
        .next (ended (.config why) true (memRead landed a.address a.req.length) (u landed))) ∧
      (s.port.retryCount < a.attempts →
        (s.OnTime → exec (.memoryAttemptAnswer .failed others) s = .next (ended (.config why) false [] (u landed))) ∧
        (¬s.OnTime → exec .memoryAttemptTimeout s = .next (ended (.config why) false [] (u s.dram)))))

/-! ### The Engine Controller's ends -/

/-- CONFIG_READ_DONE of a START or RESUME. After a clean read the copy is replaced with its clamps and relief is
judged; the cursor is at the chain head for a START and for a RESUME whose cursor is 0, and else kept; the engine is
PARKED with its timer armed. A field that fails a check, or a read that failed, halts the engine with CONFIG and the
field's offset. Under an ABORT the read is abandoned: the engine is STOPPED, the copy and its mark as they were. Under
a STOP the read is applied and the engine is STOPPED (R152 to R155, R157, R158, R140, R163). A status write that the
STOP asked for goes first, and the one of this step waits behind it. Whether
under a STOP a RESUME keeps a cursor that is not 0, or sets it to the chain head, is left open, since R153 asks the one
and R155 and R158 the other (assumption log 38): the statement says that one of the two happens. That the look waits
for the end of the status write is the model's inference (assumption log 9). -/
def Obligations.StartReadParksAtTheHead : Prop :=
  ∀ (resume ok : Bool) (data : List Byte) (before : Option StatusWrite) (s : State),
    s.ec.job = some { job := .config (if resume then .resume else .start), ended := true, ok := ok, data := data } →
    s.ec.queue = before.toList.map .status → s.reg.winSize ≠ 0 → s.PortSettled →
    let c := configFields data
    let away : Prop := resume = true ∧ s.ec.cursor ≠ 0
    let copied (toHead : Bool) : State := { s with
      ec := { s.ec with
              job := none, cfg := clampConfig c, cfgValid := true
              cursor := if toHead then c.chainHead else s.ec.cursor, linkWait := !toHead && s.ec.linkWait }
      pace := { s.pace with relief := decide (c.reliefThreshold ≠ 0 ∧ c.reliefThreshold ≤ s.pace.consecutive) } }
    let reports (w : StatusWrite) (v : State) : State := State.reportingAfter before w v
    (s.ec.endedByAbort = false →
      (ok = true → configFault c s.window = none →
        (s.ec.engine = .starting →
          let parks (v : State) : Prop := exec .configReadDone s = .next (reports { after := .look }
            { v with ec := { v.ec with engine := .parked, timer := s.timerFor c.rescanInterval } })
          (¬away → parks (copied true)) ∧ (away → parks (copied false))) ∧
        (s.ec.engine = .stopping → s.ec.reloadReq = false → s.work = none →
          let stops (v : State) : Prop :=
            exec .configReadDone s = .next (reports { onSuccess := evStopped } v.stopped)
          (¬away → stops (copied true)) ∧ (away → stops (copied true) ∨ stops (copied false)))) ∧
      (∀ f, ok = true ∧ configFault c s.window = some f ∨ ok = false ∧ f = 0 → s.work = none →
        exec .configReadDone s = .next (reports { onEnd := evHalt } (State.halted .config f
          { s with ec := { s.ec with job := none, cfgValid := false } })))) ∧
    (s.ec.endedByAbort = true → s.work = none →
      exec .configReadDone s = .next (reports { onSuccess := evStopped }
        ({ s with ec := { s.ec with job := none } } : State).stopped))

/-- CONFIG_READ_DONE of a RELOAD outside a group boundary: both cache entries are emptied, and after a clean read the
copy is replaced with its clamps and relief is judged, while the cursor and the chain stay. Then, in this order: a
RELOAD that waits has its own read; a STOP remembered in PARKED, and STOPPING, end in STOPPED; a look that the RELOAD
ended, a wake that waits, and WORKING go on with a look at the cursor; else nothing more happens. A field that fails a
check, or a read that failed, halts the engine with CONFIG (R159, R160, R41, R157, R153, R92). A status write that
waits goes first. That the cache is emptied at this step is the model's inference (assumption log 16), and so is the
second read (assumption log 24). That the look it goes on with uses up a wake that waits is its choice (assumption log
49). -/
def Obligations.ReloadReplacesTheCopy : Prop :=
  ∀ (ok : Bool) (data : List Byte) (before : Option StatusWrite) (s : State),
    s.ec.job = some { job := .config .reload, ended := true, ok := ok, data := data } →
    s.ec.queue = before.toList.map .status → s.PortSettled →
    let c := configFields data
    let copied : State := { s with
      ec := { s.ec with job := none, cfg := clampConfig c, cfgValid := true }
      cache := {}
      pace := { s.pace with relief := decide (c.reliefThreshold ≠ 0 ∧ c.reliefThreshold ≤ s.pace.consecutive) } }
    let again : State := { copied with ec := { copied.ec with reloadReq := false } }
    let goesOn : Prop := s.ec.lookAfterRead = true ∨ s.ec.wakePending = true ∨ s.ec.engine = .working
    (ok = true → configFault c s.window = none →
      (s.ec.reloadReq = true → s.reg.winSize ≠ 0 →
        (before = none → exec .configReadDone s = .next (again.readingConfig .reload)) ∧
        (∀ first, before = some first →
          let r := State.reporting first { again with ec := { again.ec with queue := [], eventsDue := 0 } }
          exec .configReadDone s = .next { r with ec := { r.ec with
            queue := [.config .reload], eventsDue := s.ec.eventsDue, cursorDue := s.ec.cursorDue } })) ∧
      (s.ec.reloadReq = false →
        (s.ec.stopAsked = true ∨ s.ec.engine = .stopping → s.reg.winSize ≠ 0 → s.work = none →
          exec .configReadDone s = .next (copied.stopped.reportingAfter before { onSuccess := evStopped })) ∧
        (s.ec.stopAsked = false → s.ec.engine ≠ .stopping → before = none →
          (goesOn → s.work = none → accessOk (recordReadReq s.ec.cursor) s.window = true →
            exec .configReadDone s = .next (State.lookBegun
              { copied with ec := { copied.ec with lookAfterRead := false, wakePending := false } })) ∧
          (¬goesOn → exec .configReadDone s = .next copied)))) ∧
    (∀ f, ok = true ∧ configFault c s.window = some f ∨ ok = false ∧ f = 0 →
      s.reg.winSize ≠ 0 → s.work = none →
      exec .configReadDone s = .next (State.reportingAfter before { onEnd := evHalt } (State.halted .config f
        { s with cache := {}, ec := { s.ec with job := none, cfgValid := false } })))

/-- R157, R158: the checks in their order, each with the offset of the field that a failure of it names; a block passes
exactly when every one of the fifteen does; and what a clean read's clamps leave. The layouts of what the engine reads
there and in chain records, every field little-endian at its offset (Conventions; 10.2, 10.3): the configuration block,
the common part of a record, and the fields of a FRAME, DERIVED, OVERRIDE and CALL. -/
def Obligations.ConfigurationChecks : Prop :=
  (∀ (c : ConfigCopy) (window : Nat),
    clampConfig c = { c with holdLimit := max c.holdLimit c.staleLimit, zoomTol := min c.zoomTol 4095
                             focusTol := min c.focusTol 4095, retryCount := min c.retryCount 7 } ∧
    (configFault c window = none ↔
    (1 ≤ c.rn ∧ c.rn ≤ 8192) ∧ c.opticalX ≤ 131072 ∧ c.opticalY ≤ 98304 ∧
    (c.chainHead ≠ 0 ∧ c.chainHead % 64 = 0 ∧ c.chainHead + 128 ≤ window) ∧
    (c.boardOffset ≠ 0 ∧ c.boardOffset % 64 = 0 ∧ c.boardOffset + 256 ≤ window) ∧ c.dirLength ≤ 64 ∧
    (c.dirOffset % 8 = 0 ∧ (c.dirLength ≠ 0 → c.dirOffset ≠ 0) ∧ c.dirOffset + 8 * c.dirLength ≤ window) ∧
    c.poolCount ≤ 8 ∧
    (c.poolCount ≠ 0 → c.poolTable ≠ 0 ∧ c.poolTable % 4 = 0 ∧ c.poolTable + 4 * c.poolCount ≤ window) ∧
    1 ≤ c.staleLimit ∧ 1 ≤ c.holdLimit ∧ (c.settleMode = 1 ∨ c.settleMode = 2) ∧ c.frameBudget ≤ 1000000 ∧
    c.reliefThreshold ≤ 15 ∧ c.retryDelay ≤ 1023) ∧
    configFault c window =
      if c.rn < 1 ∨ 8192 < c.rn then some 0x08
      else if 131072 < c.opticalX then some 0x0C
      else if 98304 < c.opticalY then some 0x10
      else if c.chainHead = 0 ∨ c.chainHead % 64 ≠ 0 ∨ window < c.chainHead + 128 then some 0x04
      else if c.boardOffset = 0 ∨ c.boardOffset % 64 ≠ 0 ∨ window < c.boardOffset + 256 then some 0x14
      else if 64 < c.dirLength then some 0x1C
      else if c.dirOffset % 8 ≠ 0 ∨ c.dirLength ≠ 0 ∧ c.dirOffset = 0 ∨ window < c.dirOffset + 8 * c.dirLength
        then some 0x18
      else if 8 < c.poolCount then some 0x1E
      else if c.poolCount ≠ 0 ∧ (c.poolTable = 0 ∨ c.poolTable % 4 ≠ 0 ∨ window < c.poolTable + 4 * c.poolCount)
        then some 0x20
      else if c.staleLimit < 1 then some 0x24
      else if c.holdLimit < 1 then some 0x26
      else if c.settleMode ≠ 1 ∧ c.settleMode ≠ 2 then some 0x0A
      else if 1000000 < c.frameBudget then some 0x2C
      else if 15 < c.reliefThreshold then some 0x0B
      else if 1023 < c.retryDelay then some 0x30
      else none) ∧
  (∀ (b : List Byte) (offset width : Nat), field b offset 0 = 0 ∧
    field b offset (width + 1) = (b.getD offset 0).toNat + 256 * field b (offset + 1) width) ∧
  ∀ b : List Byte,
    let at_ (offset width : Nat) : Nat := field b offset width
    let present (bit offset width : Nat) : Option Nat :=
      if at_ 0x10 1 / 2 ^ bit % 2 = 1 then some (at_ offset width) else none
    let head := recordHead b
    configFields b =
      { rescanInterval := at_ 0x00 2, chainHead := at_ 0x04 4, rn := at_ 0x08 2, settleMode := at_ 0x0A 1
        reliefThreshold := at_ 0x0B 1, opticalX := at_ 0x0C 4, opticalY := at_ 0x10 4, boardOffset := at_ 0x14 4
        dirOffset := at_ 0x18 4, dirLength := at_ 0x1C 2, poolCount := at_ 0x1E 1, retryCount := at_ 0x1F 1
        poolTable := at_ 0x20 4, staleLimit := at_ 0x24 2, holdLimit := at_ 0x26 2, zoomTol := at_ 0x28 2
        focusTol := at_ 0x2A 2, frameBudget := at_ 0x2C 4, retryDelay := at_ 0x30 2 } ∧
    head.state = (match at_ 0x00 4 with
      | 0 => some .opened | 1 => some .ready | 2 => some .taken | 3 => some .done | 4 => some .skipped
      | 5 => some .faulted | 6 => some .standing | _ => none) ∧
    head.kind = (match at_ 0x04 1 with
      | 1 => some .frame | 2 => some .derived | 3 => some .call | 4 => some .ret | 5 => some .override
      | _ => none) ∧
    (head.endFlag = true ↔ at_ 0x05 1 % 2 = 1) ∧ (head.notify = true ↔ at_ 0x05 1 / 2 % 2 = 1) ∧
    head.link = at_ 0x08 4 ∧
    frameFields b =
      { frameNumber := at_ 0x50 4, srcOffset := at_ 0x54 4, srcPitch := at_ 0x58 4, srcW := at_ 0x5C 2
        srcH := at_ 0x5E 2, outOffset := at_ 0x60 4, outPitch := at_ 0x64 4, outW := at_ 0x68 2, outH := at_ 0x6A 2
        depth := at_ 0x6C 1, edge := at_ 0x6D 1, scan := at_ 0x6E 1, dither := at_ 0x6F 1, strength := at_ 0x70 2
        seedPresent := decide (at_ 0x72 1 ≠ 0), seed := at_ 0x74 4, fillR := at_ 0x78 2, fillG := at_ 0x7A 2
        fillB := at_ 0x7C 2 } ∧
    derivedFields b =
      { kind := at_ 0x10 1, pool := at_ 0x11 1, mask := at_ 0x12 1, sense := at_ 0x13 1
        yields := decide (at_ 0x14 1 ≠ 0), factor := at_ 0x15 1, rx := at_ 0x18 2, ry := at_ 0x1A 2
        rw := at_ 0x1C 2, rh := at_ 0x1E 2 } ∧
    overrideFields b = { lens := present 0 0x14 4, zoom := present 1 0x18 2, focus := present 2 0x1A 2
                         strength := present 3 0x1C 2 } ∧
    callTarget b = at_ 0x10 4

/-- STATUS_WRITE_DONE: its events are set and the engine goes on as the write was asked for, and then what was held is
judged in the order it came: a held STOP in PARKED stops the engine and leaves the rest held behind its own status
write, and a held wake begins a look. A write that failed outside a group halts the engine with STATUS_WRITE and
without another status write; with a group in flight the halt is held, with RECORD_WRITE when a write of the
retirement in course has failed before; in HALTED the engine stays so, with its reason and record (assumption log 32
for a write of its entry that is still to come); and where a failed access of the look has called for a halt before,
that halt stands and is entered, without a status write, when its rule enters it (R143, R144, R147, R161, R167). That
the occasion is the one in which the write fails is the model's choice (assumption log 40), and which fault counts as
the first its inference (assumption log 46). That the configuration read or the look begins at the write's end is the
model's inference (assumption log 9), and that what the engine goes on with comes before what was held is its choice
(assumption log 28). An unterminated group of which every fault write has been handed over when that halt is entered
is faulted all the same: it is counted, and its RECORD_FAULT waits for the next status write (R142, R146, R147; that a
write left in the Port runs on is the model's inference, assumption log 17). -/
def Obligations.StatusWriteEnds : Prop :=
  ∀ (w : StatusWrite) (st : StatusStage) (body : List Byte) (ok : Bool) (s : State),
    s.ec.job = some { job := .status w st body, ended := true, ok := ok } → s.ec.queue = [] →
    s.reg.winSize ≠ 0 → s.PortSettled →
    let u (e : BitVec 10) (held : List Held) : State :=
      { s with reg := { s.reg with events := s.reg.events ||| e, held := held }, ec := { s.ec with job := none } }
    (s.reg.held = [] →
      (ok = true → w.after = .nothing → exec .statusWriteDone s = .next (u (w.onEnd ||| w.onSuccess) [])) ∧
      (ok = true → ∀ resume, w.after = .readConfig resume → exec .statusWriteDone s =
        .next ((u (w.onEnd ||| w.onSuccess) []).readingConfig (if resume then .resume else .start))) ∧
      (ok = true → w.after = .look → s.work = none → accessOk (recordReadReq s.ec.cursor) s.window = true →
        exec .statusWriteDone s = .next (u (w.onEnd ||| w.onSuccess) []).lookBegun) ∧
      (ok = false → s.ec.engine = .halted → exec .statusWriteDone s = .next (u w.onEnd [])) ∧
      (ok = false → s.ec.engine ≠ .halted → s.chain.flight.inFlight = false → s.ec.boundaryLast = none →
        s.work = none → s.chain.unterminated = none → exec .statusWriteDone s =
        .next (State.halted .statusWrite w.cursorAtStart (u (w.onEnd ||| evHalt) []))) ∧
      (∀ off second done good data at_, ok = false → s.ec.engine ≠ .halted →
        s.chain.flight.inFlight = false → s.ec.boundaryLast = none →
        s.work = some { job := .recordWrite .unterminated off, ended := done, ok := good, data := data
                        endedAt := at_ } → (done = true → good = true) →
        s.chain.unterminated = some { todo := [], second := second, failed := none } →
        let v := u (w.onEnd ||| evHalt) []
        exec .statusWriteDone s = .next { State.halted .statusWrite w.cursorAtStart { v with
            ec := { v.ec with framesFaulted := s.ec.framesFaulted + 1
                              lastFrameNumber := BitVec.ofNat 32 s.frame.fields.frameNumber
                              eventsDue := s.ec.eventsDue ||| evRecordFault } } with
          work := if done then none else some { job := .abandoned none } }) ∧
      (ok = false → s.ec.engine ≠ .halted → s.chain.flight.inFlight = false → s.ec.boundaryLast = none →
        (∃ v, s.work = some v ∧ v.ended = true ∧ v.ok = false) ∨
          (∃ v, s.chain.unterminated = some v ∧ v.failed.isSome = true) →
        exec .statusWriteDone s =
          .next { u w.onEnd [] with ec := { s.ec with job := none, statusFailed := true } }) ∧
      (ok = false → s.ec.engine ≠ .halted → s.chain.flight.inFlight = true → w.after ≠ .boundary →
        ∀ reason : HaltReason,
        (let recordFailed : Prop := ∃ v todo, s.work = some v ∧ v.job = .retire todo true
         recordFailed ∧ reason = .recordWrite ∨ ¬recordFailed ∧ reason = .statusWrite) →
        exec .statusWriteDone s = .next { u w.onEnd [] with ec := { s.ec with
          job := none, statusFailed := true
          heldHalt := s.ec.heldHalt.or (some (reason, match s.chain.group.mainList.getLast? with
            | some m => m.offset
            | none => s.frame.offset)) } })) ∧
    (s.reg.inReset = false → ok = true → w.after = .nothing → s.ec.engine = .parked → s.work = none →
      (∀ rest, s.reg.held = .access .stop :: rest → rest.all Held.waits = true →
        exec .statusWriteDone s = .next (State.reporting { onSuccess := evStopped }
          (u (w.onEnd ||| w.onSuccess) rest).stopped)) ∧
      (s.reg.held = [.wake] → accessOk (recordReadReq s.ec.cursor) s.window = true →
        exec .statusWriteDone s = .next (u (w.onEnd ||| w.onSuccess) []).lookBegun))

/-- STATUS_WRITE_DONE of a retirement: the group boundary is passed, in the order of R160. A held RELOAD has its
configuration read first, also when that status write has failed, whose halt is then held. A halt called for during
the group is entered, without a status write when one has failed, be it the retirement's own; else a CONFIG fault of
that read halts the engine; else a STOP or an ABORT stops it at the last main-chain record with the link-wait flag
set; else it advances past that record (R160, R95, R114, R144, R161). That the boundary waits for the retirement's
status write is the model's inference (assumption log 9); so are that the cache is emptied at the end of the
boundary's read (assumption log 16), and that the reload request is cleared when that read begins, so that a RELOAD
taken during it has a read of its own (assumption log 24). -/
def Obligations.GroupBoundaryAdvancesOrStops : Prop :=
  (∀ (w : StatusWrite) (st : StatusStage) (body : List Byte) (last : Nat) (ok : Bool) (s : State),
    s.ec.job = some { job := .status w st body, ended := true, ok := ok } → s.ec.queue = [] →
    s.reg.held = [] → s.reg.winSize ≠ 0 → s.PortSettled → s.work = none → w.after = .boundary →
    s.ec.boundaryLast = some last →
    let u : State := { s with
      reg := { s.reg with events := s.reg.events ||| (w.onEnd ||| if ok then w.onSuccess else 0) }
      ec := { s.ec with job := none } }
    let atLast : State := { u with ec := { u.ec with cursor := last, linkWait := true } }
    let unreported (reason : HaltReason) (record : Nat) : State := State.halted reason record { atLast with
      reg := { atLast.reg with events := atLast.reg.events ||| evHalt } }
    (ok = true →
      (s.ec.reloadReq = true → exec .statusWriteDone s =
        .next (({ u with ec := { u.ec with reloadReq := false } } : State).readingConfig .boundary)) ∧
      (∀ reason record, s.ec.reloadReq = false → s.ec.heldHalt = some (reason, record) →
        (s.ec.statusFailed = false → exec .statusWriteDone s =
          .next (State.reporting { onEnd := evHalt } (atLast.halted reason record))) ∧
        (s.ec.statusFailed = true → exec .statusWriteDone s = .next (unreported reason record))) ∧
      (s.ec.reloadReq = false → s.ec.heldHalt = none →
        (s.ec.engine ≠ .stopping → s.ec.abortReq = false →
          accessOk (recordReadReq last) s.window = true →
          exec .statusWriteDone s = .next (State.doing (.recordRead .advance last) (recordReadReq last)
            ({ u with ec := { u.ec with boundaryLast := none } } : State).lookEnded)) ∧
        (s.ec.engine = .stopping ∨ s.ec.abortReq = true →
          exec .statusWriteDone s = .next (State.reporting { onSuccess := evStopped } atLast.stopped)))) ∧
    (ok = false → s.ec.engine ≠ .halted → s.chain.flight.inFlight = false →
      (s.ec.reloadReq = false → exec .statusWriteDone s = .next (match s.ec.heldHalt with
        | some (reason, record) => unreported reason record
        | none => unreported .statusWrite last)) ∧
      (s.ec.reloadReq = true → exec .statusWriteDone s = .next (State.readingConfig .boundary { u with ec := { u.ec with
        reloadReq := false, statusFailed := true
        heldHalt := s.ec.heldHalt.or (some (.statusWrite, last)) } })))) ∧
  ∀ (ok : Bool) (data : List Byte) (last : Nat) (s : State),
    s.ec.job = some { job := .config .boundary, ended := true, ok := ok, data := data } → s.ec.queue = [] →
    s.reg.winSize ≠ 0 → s.PortSettled → s.work = none → s.ec.boundaryLast = some last →
    let c := configFields data
    let copied : State := { s with
      cache := {}
      ec := { s.ec with job := none, cfg := clampConfig c, cfgValid := true }
      pace := { s.pace with relief := decide (c.reliefThreshold ≠ 0 ∧ c.reliefThreshold ≤ s.pace.consecutive) } }
    let invalid (v : State) : State :=
      { v with ec := { v.ec with cfgValid := false, cursor := last, linkWait := true } }
    let faulted : State := invalid { s with cache := {}, ec := { s.ec with job := none } }
    let held (v : State) (t : State) : Prop := ∀ reason record, s.ec.heldHalt = some (reason, record) →
      (s.ec.statusFailed = false → t = State.reporting { onEnd := evHalt } (v.halted reason record)) ∧
      (s.ec.statusFailed = true → t = State.halted reason record
        { v with reg := { v.reg with events := v.reg.events ||| evHalt } })
    (∀ f, ok = true ∧ configFault c s.window = some f ∨ ok = false ∧ f = 0 →
      (s.ec.heldHalt = none → exec .configReadDone s =
        .next (State.reporting { onEnd := evHalt } (faulted.halted .config f))) ∧
      (s.ec.heldHalt.isSome = true → ∃ t, exec .configReadDone s = .next t ∧ held faulted t)) ∧
    (ok = true → configFault c s.window = none →
      (s.ec.reloadReq = true → exec .configReadDone s =
        .next (({ copied with ec := { copied.ec with reloadReq := false } } : State).readingConfig .boundary)) ∧
      (s.ec.reloadReq = false → s.ec.heldHalt.isSome = true →
        ∃ t, exec .configReadDone s = .next t ∧ held (invalid copied) t) ∧
      (s.ec.reloadReq = false → s.ec.heldHalt = none →
        (s.ec.engine = .stopping ∨ s.ec.abortReq = true → exec .configReadDone s =
          .next (State.reporting { onSuccess := evStopped } ({ copied with
            ec := { copied.ec with cursor := last, linkWait := true } } : State).stopped)) ∧
        (s.ec.engine ≠ .stopping → s.ec.abortReq = false → accessOk (recordReadReq last) s.window = true →
          exec .configReadDone s = .next (State.doing (.recordRead .advance last) (recordReadReq last)
            ({ copied with ec := { copied.ec with boundaryLast := none } } : State).lookEnded))))

/-! ### The chain -/

/-- A look at the cursor that finds no ready record parks: CURSOR_RECORD_READ_DONE with a record that is not
READY, CURSOR_LINK_READ_DONE with a null link. In PARKED nothing but the timer and the look's end is left; from
WORKING the engine parks with a status write and the PARKED event, and a cursor move still to be reported has one too.
With a wake pending the mark is cleared and a new look begins at once (R92, R93, R94, R163, R150). With a STOP, an ABORT
or a RELOAD remembered, which is spelled out, the look ends there instead: STOPPED is entered with its status write, or
the RELOAD's configuration read begins (R96, R153, R154, R159, R160; assumption logs 10 and 25). How the cursor move
and the park share the status write, and that the new look begins beside it, are the model's inferences (assumption
log 9). -/
def Obligations.LooksThatFindNothingPark : Prop :=
  ∀ (data : List Byte) (at_ : Word) (off : Nat) (s : State),
    (s.lookMustEnd = true ↔ s.ec.stopAsked = true ∨ s.ec.reloadReq = true ∨ s.ec.engine = .stopping) ∧
    (s.ControllerFree →
      (s.work = some { job := .recordRead .cursor off, ended := true, ok := true, data := data, endedAt := at_ } →
        (recordHead data).state ≠ some .ready →
        ∃ t, exec .cursorRecordReadDone s = .next t ∧ s.ParksOrEnds s.ec.cursor s.ec.linkWait t) ∧
      (s.work = some { job := .recordRead .cursorLink off, ended := true, ok := true, data := data
                       endedAt := at_ } →
        (recordHead data).link = 0 →
        ∃ t, exec .cursorLinkReadDone s = .next t ∧ s.ParksOrEnds s.ec.cursor s.ec.linkWait t))

/-- What a look does with a READY record at the cursor that is no FRAME, and the halts of a look with their halt
records. An OVERRIDE is merged into the pending override, and it, an orphan DERIVED and an orphan CALL have their
completion write handed over (R109, 10.2), before the status write of a cursor move still to be reported (assumption
logs 8 and 9), unless a STOP, an ABORT or a RELOAD remembered ends the look first, with the record left as it is (R96,
R153, R154, R159, R160). The merge is spelled out (R107). A read that failed, a record of unknown kind, a RETURN, a
link that is no legal offset, and a write of the handling that failed halt the engine (R90, R93, R94, R106, R109,
R161). A halt is entered without its status write when one has failed since it was called for (R144, R161; which of
two failures is the first is the model's inference, assumption log 46). That an access which ends in a halt halts also
with a STOP, ABORT or RELOAD remembered is the model's inference (assumption log 10), and so is that a waiting RELOAD
is then lost, with the configuration-valid mark as it was (log 25). -/
def Obligations.LooksHaltWithTheirRecord : Prop :=
  (∀ held record : Override, held.merge record = overlaid held record) ∧
  ∀ (ok : Bool) (data : List Byte) (at_ : Word) (off : Nat) (s : State), s.ControllerFree →
    let h := recordHead data
    let halted (r : HaltReason) : State := s.haltedBy r s.ec.cursor
    (s.work = some { job := .recordRead .cursor off, ended := true, ok := ok, data := data, endedAt := at_ } →
      (ok = false → exec .cursorRecordReadDone s = .next (halted .chainRead)) ∧
      (ok = true → h.state = some .ready → h.kind = none →
        exec .cursorRecordReadDone s = .next (halted .badKind)) ∧
      (ok = true → h.state = some .ready → h.kind = some .ret →
        exec .cursorRecordReadDone s = .next (halted .stackEmpty)) ∧
      (ok = true → h.state = some .ready → s.lookMustEnd = true →
        h.kind = some .override ∨ h.kind = some .derived ∨ h.kind = some .call →
        exec .cursorRecordReadDone s = .next s.lookEndedByCommand) ∧
      (ok = true → h.state = some .ready → s.lookMustEnd = false →
        ∀ (kind : RecordKind) (section_ : List Byte), h.kind = some kind →
        (kind = .override ∧ section_ = [0, 0, 0, 0] ∨ kind = .derived ∧ section_ = [3, 5, 0, 0] ∨
          kind = .call ∧ section_ = [3, 0, 0, 0]) →
        accessOk (completionReq s.ec.cursor section_) s.window = true →
        let t : State := State.doing (.recordWrite (.groupStart true kind) s.ec.cursor)
          (completionReq s.ec.cursor section_) { s with chain := { s.chain with
            override := if kind = .override then overlaid s.chain.override (overrideFields data)
                        else s.chain.override } }
        exec .cursorRecordReadDone s = .next (if s.ec.cursorDue then State.reporting {} t else t))) ∧
    (s.work = some { job := .recordRead .cursorLink off, ended := true, ok := ok, data := data
                     endedAt := at_ } →
      (ok = false → exec .cursorLinkReadDone s = .next (halted .chainRead)) ∧
      (ok = true → h.link ≠ 0 → offsetOk h.link s.window = false →
        exec .cursorLinkReadDone s = .next (halted .linkBad))) ∧
    (∀ completion kind,
      s.work = some { job := .recordWrite (.groupStart completion kind) off, ended := true, ok := ok
                      data := data, endedAt := at_ } →
      ok = false →
      exec .chainRecordWriteDone s = .next (s.haltedBy .recordWrite off))

/-- CURSOR_RECORD_READ_DONE with a READY FRAME: the group is begun with it. With END the group is taken: the engine is
WORKING, the timer disarmed, the FRAME's TAKEN write handed to the Port, and memory as it was. Without END its link is
read as the look-ahead's next record, or a null link parks at the FRAME, or a link that is no legal offset halts with
LINK_BAD (R93, R98, R99, R102, R106, R110, R163). With a STOP, an ABORT or a RELOAD remembered there is no take and no
further read: the engine enters STOPPED with its status write, or the RELOAD's configuration read begins (R96, R153,
R154, R159, R160; assumption logs 10 and 25); that the FRAME's link is not examined then, so that a bad one gives no
LINK_BAD, is the model's choice (assumption log 50). A cursor move still to be reported is reported by the take's own
status write from PARKED, and else by one that goes to the Port behind the access (R143; assumption logs 8 and 9). A
halt is entered without its status write when one has failed since it was called for (R144, R161; which of two failures
is the first is the model's inference, assumption log 46). -/
def Obligations.ReadyFrameWithEndIsTaken : Prop :=
  ∀ (data : List Byte) (at_ : Word) (off : Nat) (s : State), s.ControllerFree →
    s.work = some { job := .recordRead .cursor off, ended := true, ok := true, data := data, endedAt := at_ } →
    let h := recordHead data
    h.state = some .ready → h.kind = some .frame →
    let begun : State := { s with chain := { s.chain with
      returnStack := []
      group := { frame := some { offset := s.ec.cursor, endFlag := h.endFlag, notify := h.notify
                                 fields := frameFields data }
                 readCount := 1, lastRead := s.ec.cursor } } }
    let answers (t : State) : Prop := exec .cursorRecordReadDone s = .next t
    let reported (t : State) : State := if s.ec.cursorDue then State.reporting {} t else t
    (s.lookMustEnd = true → answers s.lookEndedByCommand) ∧
    (s.lookMustEnd = false →
      (h.endFlag = true → accessOk (stateWriteReq s.ec.cursor .taken) s.window = true →
        (s.ec.engine = .parked → answers begun.takeBegun) ∧
        (s.ec.engine ≠ .parked → answers (reported begun.takeBegun))) ∧
      (h.endFlag = false →
        (h.link = 0 → (s.ec.wakePending = true → accessOk (recordReadReq s.ec.cursor) s.window = true) →
          answers (s.parkedAt s.ec.cursor false)) ∧
        (h.link ≠ 0 → offsetOk h.link s.window = false →
          answers (s.haltedBy .linkBad s.ec.cursor)) ∧
        (h.link ≠ 0 → offsetOk h.link s.window = true →
          answers (reported (begun.doing (.recordRead .lookAhead h.link) (recordReadReq h.link))))))

/-- A link that leads on: CURSOR_LINK_READ_DONE moves the cursor to it, ADVANCE_READ_DONE does so past a finished
record, and the same look reads the record there (R94, R95), unless a STOP, an ABORT or a RELOAD remembered ends the
look there: then the engine enters STOPPED with its status write, or the RELOAD's configuration read begins behind the
status write of the move (R96, R143, R153, R154, R159, R160). CHAIN_RECORD_WRITE_DONE of a record handled at group
start: after its completion write the state write, DONE for an OVERRIDE and FAULTED for an orphan, and after that the
read to advance past it, with RECORD_FAULT for an orphan (R109, R146); that the event waits for the next status write
however late, and that a command that ends the look lets this read be made, are the model's inferences (assumption
logs 26 and 10). After each fault write of an unterminated group comes the next, and after the last one the frame is
counted, the cursor moves to the second FRAME, also when that is the group's own, and the status write begins with
which RECORD_FAULT is set, or the engine halts there with RECORD_WRITE when one of the writes failed (R100, R102,
R142, R143, R147). That the look goes on when that write has ended, and that a command that ends the look lets no
further fault write be made, are the model's inferences (assumption logs 9 and 11). A halt is entered without its
status write when one has failed since it was called for (R144, R161; which of two failures is the first is the
model's inference, assumption log 46). That the end of an unterminated group one of whose writes failed halts also
with such a command remembered, and that a waiting RELOAD is then lost, are its inferences too (assumption logs 10, 11
and 25). That the look which goes on at the second FRAME reads that record afresh is the model's choice (assumption
log 30). -/
def Obligations.LinksMoveTheCursorOn : Prop :=
  ∀ (data : List Byte) (at_ : Word) (off : Nat) (s : State), s.PortSettled →
    (let link := (recordHead data).link
      let moved := decide (s.ec.cursor ≠ link) || s.ec.linkWait
      let u : State := { s.lookEnded with
        ec := { s.ec with cursor := link, linkWait := false, cursorDue := s.ec.cursorDue || moved } }
      link ≠ 0 → offsetOk link s.window = true → (s.lookMustEnd = true → s.ControllerFree) →
      (s.work = some { job := .recordRead .cursorLink off, ended := true, ok := true, data := data
                       endedAt := at_ } →
        exec .cursorLinkReadDone s = .next (u.unlessEnded u.lookBegun)) ∧
      (s.work = some { job := .recordRead .advance off, ended := true, ok := true, data := data
                       endedAt := at_ } →
        exec .advanceReadDone s = .next (u.unlessEnded u.lookBegun))) ∧
    (∀ kind, kind = .override ∨ kind = .derived ∨ kind = .call →
      let st : RecordState := if kind = .override then .done else .faulted
      (s.work = some { job := .recordWrite (.groupStart true kind) off, ended := true, ok := true, data := data
                       endedAt := at_ } →
        accessOk (stateWriteReq off st) s.window = true →
        exec .chainRecordWriteDone s =
          .next (State.doing (.recordWrite (.groupStart false kind) off) (stateWriteReq off st) s)) ∧
      (s.work = some { job := .recordWrite (.groupStart false kind) off, ended := true, ok := true, data := data
                       endedAt := at_ } →
        accessOk (recordReadReq off) s.window = true →
        exec .chainRecordWriteDone s = .next (State.doing (.recordRead .advance off) (recordReadReq off)
          { s.lookEnded with ec := { s.ec with
              eventsDue := s.ec.eventsDue ||| if kind = .override then 0 else evRecordFault } }))) ∧
    (∀ ok todo second failed, s.ControllerFree →
      s.work = some { job := .recordWrite .unterminated off, ended := true, ok := ok, data := data
                      endedAt := at_ } →
      s.chain.unterminated = some { todo := todo, second := second, failed := failed } →
      let first : Option Nat := match failed with
        | some record => some record
        | none => if ok then none else some off
      let u : State := { s with ec := { s.ec with
        framesFaulted := s.ec.framesFaulted + 1
        lastFrameNumber := BitVec.ofNat 32 s.frame.fields.frameNumber
        eventsDue := s.ec.eventsDue ||| evRecordFault
        cursor := second, linkWait := false } }
      (∀ record r rest, todo = (record, r) :: rest → s.lookMustEnd = false → accessOk r s.window = true →
        exec .chainRecordWriteDone s = .next (State.doing (.recordWrite .unterminated record) r
          { s with chain := { s.chain with
              unterminated := some { todo := rest, second := second, failed := first } } })) ∧
      (todo ≠ [] → s.lookMustEnd = true → first = none →
        exec .chainRecordWriteDone s = .next s.lookEndedByCommand) ∧
      (todo = [] → first = none →
        (s.lookMustEnd = false →
          exec .chainRecordWriteDone s = .next (State.reporting { after := .look } u.lookEnded)) ∧
        (s.lookMustEnd = true → exec .chainRecordWriteDone s =
          .next (State.lookEndedByCommand { u with ec := { u.ec with cursorDue := true } }))) ∧
      (∀ record, todo = [] ∨ s.lookMustEnd = true → first = some record →
        exec .chainRecordWriteDone s = .next (u.haltedBy .recordWrite record)))

/-- ADVANCE_READ_DONE with no link to follow: the engine parks at the record with the link-wait flag set, from WORKING
with the PARKED event and from PARKED, with its status write when the cursor or the flag has moved, and a wake that is
pending begins the next look there; with a STOP, an ABORT or a RELOAD remembered the look ends there instead, with the
status write of STOPPED, or with that of the move and the RELOAD's configuration read behind it (R96, R153, R154, R159,
R160); a link that is no legal offset, and a read that failed, halt the engine there with
the flag set (R92, R95, R106, R163; assumption log 9). A halt is entered without its status write when one has failed
since it was called for (R144, R161; which of two failures is the first is the model's inference, assumption log 46).
That an access which ends in a halt halts also with a STOP, ABORT or RELOAD remembered is the model's inference
(assumption log 10), and so is that a waiting RELOAD is then lost, with the configuration-valid mark as it was (log
25). -/
def Obligations.AdvanceParksOrHaltsAtTheRecord : Prop :=
  ∀ (ok : Bool) (data : List Byte) (at_ : Word) (off : Nat) (s : State), s.ControllerFree →
    s.work = some { job := .recordRead .advance off, ended := true, ok := ok, data := data, endedAt := at_ } →
    let u : State := { s with ec := { s.ec with cursor := off, linkWait := true } }
    (ok = true → (recordHead data).link = 0 →
      ∃ t, exec .advanceReadDone s = .next t ∧ s.ParksOrEnds off true t) ∧
    (ok = true → (recordHead data).link ≠ 0 → offsetOk (recordHead data).link s.window = false →
      exec .advanceReadDone s = .next (u.haltedBy .linkBad off)) ∧
    (ok = false →
      exec .advanceReadDone s = .next (u.haltedBy .chainRead off))

/-- LOOK_AHEAD_RECORD_READ_DONE. A READY DERIVED joins the main-chain list and, among the first four, the derived
entries; a READY OVERRIDE joins the list and is staged. With END the group is complete and is taken: the engine is
WORKING and the first TAKEN write is handed over. Without END the link is followed, unless 64 records have been read;
a null link, and a record that is not READY, leave the group incomplete, and the engine parks at its FRAME. A READY
CALL joins the list, its offset is pushed and its target is read as a sub-chain record, or the engine halts with
CALL_BAD or STACK_FULL. A second READY FRAME makes the group unterminated: its fault writes begin, the completion
sections in the order of the main-chain list and the FRAME's after them, and then the state words in that order (R134
has the FRAME's section before any of them; the two passes are the model's inference, assumption log 21). A read that
failed, a link that is no legal offset, a record of unknown kind and a RETURN halt the engine (R90, R98 to R103, R106,
R107, R110, R134, R136, R137, R163). With a STOP, an ABORT or a RELOAD remembered, where the record read calls for no
halt, the look ends instead of going on, with no take, no further read and no write: the engine enters STOPPED with
its status write, or the RELOAD's configuration read begins (R96, R153, R154, R159, R160; assumption logs 10 and 25).
That the TAKEN write waits behind the status write, and how a park reports a cursor move, are the model's (assumption
logs 8 and 9). A halt is entered without its status write when one has failed since it was called for (R144, R161;
which of two failures is the first is the model's inference, assumption log 46). -/
def Obligations.LookAheadGathersDerivedRecords : Prop :=
  ∀ (ok : Bool) (data : List Byte) (at_ : Word) (off : Nat) (s : State), s.ControllerFree →
    s.work = some { job := .recordRead .lookAhead off, ended := true, ok := ok, data := data, endedAt := at_ } →
    let answers (t : State) : Prop := exec .lookAheadRecordReadDone s = .next t
    let halted (r : HaltReason) : State := s.haltedBy r off
    let h := recordHead data
    let g := s.chain.group
    let counted : Group := { g with readCount := g.readCount + 1, lastRead := off }
    let incomplete : Prop := ∃ t, answers t ∧ s.ParksOrEnds s.ec.cursor false t
    (ok = false → answers (halted .chainRead)) ∧
    (ok = true → h.state ≠ some .ready → incomplete) ∧
    (ok = true → h.state = some .ready →
      (h.kind = none → answers (halted .badKind)) ∧
      (h.kind = some .ret → answers (halted .stackEmpty)) ∧
      (h.kind = some .frame →
        let writes : List (Nat × Request) :=
          g.mainList.map (fun m =>
            (m.offset, completionReq m.offset (if m.kind = .derived then [1, 5, 0, 0] else [1, 0, 0, 0]))) ++
          [(s.frame.offset, completionReq s.frame.offset ([1, 1] ++ zeroBytes 66))] ++
          g.mainList.map (fun m => (m.offset, stateWriteReq m.offset .faulted)) ++
          [(s.frame.offset, stateWriteReq s.frame.offset .faulted)]
        ∀ record r rest, writes = (record, r) :: rest → (s.lookMustEnd = false → accessOk r s.window = true) →
          answers (s.unlessEnded (State.doing (.recordWrite .unterminated record) r { s with chain := { s.chain with
            group := counted, unterminated := some { todo := rest, second := off } } }))) ∧
      (∀ kind, h.kind = some kind → kind = .derived ∨ kind = .override →
        let joins := decide (kind = .derived ∧ g.entries.length < 4)
        let joined : Group := { counted with
          mainList := g.mainList ++ [{ offset := off, kind := kind, endFlag := h.endFlag, notify := h.notify
                                       entry := if joins then some g.entries.length else none }]
          entries := if joins then
              g.entries ++ [{ offset := off, fields := derivedFields data, mainChain := true }]
            else g.entries
          staged := if kind = .override then overlaid g.staged (overrideFields data) else g.staged }
        let u : State := { s with chain := { s.chain with group := joined } }
        (h.endFlag = true → ∀ fr, g.frame = some fr →
          (s.lookMustEnd = false → accessOk (stateWriteReq fr.offset .taken) s.window = true) →
          answers (s.unlessEnded u.takeBegun)) ∧
        (h.endFlag = false →
          (h.link = 0 → incomplete) ∧
          (h.link ≠ 0 → offsetOk h.link s.window = false → answers (halted .linkBad)) ∧
          (h.link ≠ 0 → offsetOk h.link s.window = true →
            (g.readCount + 1 < 64 →
              answers (s.unlessEnded (u.doing (.recordRead .lookAhead h.link) (recordReadReq h.link)))) ∧
            (64 ≤ g.readCount + 1 → answers (s.unlessEnded (halted .unterminated)))))) ∧
      (h.kind = some .call →
        let target := callTarget data
        (target = 0 ∨ offsetOk target s.window = false → answers (halted .callBad)) ∧
        (target ≠ 0 → offsetOk target s.window = true →
          (4 ≤ s.chain.returnStack.length → answers (halted .stackFull)) ∧
          (s.chain.returnStack.length < 4 → 64 ≤ g.readCount + 1 →
            answers (s.unlessEnded (halted .unterminated))) ∧
          (s.chain.returnStack.length < 4 → g.readCount + 1 < 64 →
            answers (s.unlessEnded (State.doing (.recordRead .subchain target) (recordReadReq target)
              { s with chain := { s.chain with
                  returnStack := s.chain.returnStack ++ [off]
                  group := { counted with mainList := g.mainList ++
                    [{ offset := off, kind := .call, endFlag := h.endFlag, notify := h.notify }] } } }))))))

/-- SUBCHAIN_RECORD_READ_DONE: a read that failed, a record that is not STANDING, one of unknown kind and a FRAME halt
the engine; a STANDING DERIVED joins the entries while they are fewer than four, a STANDING OVERRIDE is merged, and
the link of either is followed, or halts the engine with UNTERMINATED when it is null and LINK_BAD when it is no legal
offset; a STANDING CALL is pushed and its target read, or halts with CALL_BAD or STACK_FULL; a STANDING RETURN pops
the newest CALL, whose link is read afresh, unless the stack is then empty and that CALL carries END: then the group
is complete and is taken. A read that would be the 65th halts with UNTERMINATED (R90, R101 to R107, R110). With a
STOP, an ABORT or a RELOAD remembered, where the record read calls for no halt, the look ends instead of going on,
with no take, no further read and no write: the engine enters STOPPED with its status write, or the RELOAD's
configuration read begins (R96, R153, R154, R159, R160; assumption logs 10 and 25). A halt is entered without its
status write when one has failed since it was called for (R144, R161; which of two failures is the first is the
model's inference, assumption log 46). That the TAKEN write of a take from PARKED waits behind the status write is the
model's choice (assumption log 8). -/
def Obligations.SubchainRecords : Prop :=
  ∀ (ok : Bool) (data : List Byte) (at_ : Word) (off call : Nat) (s : State), s.ControllerFree →
    s.work = some { job := .recordRead .subchain off, ended := true, ok := ok, data := data, endedAt := at_ } →
    let answers (t : State) : Prop := exec .subchainRecordReadDone s = .next t
    let halted (r : HaltReason) : State := s.haltedBy r off
    let h := recordHead data
    let g := s.chain.group
    let counted : Group := { g with readCount := g.readCount + 1, lastRead := off }
    let follows (joined : Group) : Prop :=
      (h.link = 0 → answers (halted .unterminated)) ∧
      (h.link ≠ 0 → offsetOk h.link s.window = false → answers (halted .linkBad)) ∧
      (h.link ≠ 0 → offsetOk h.link s.window = true →
        (64 ≤ g.readCount + 1 → answers (s.unlessEnded (halted .unterminated))) ∧
        (g.readCount + 1 < 64 → answers (s.unlessEnded (State.doing (.recordRead .subchain h.link)
          (recordReadReq h.link) { s with chain := { s.chain with group := joined } }))))
    (ok = false → answers (halted .chainRead)) ∧
    (ok = true → h.state ≠ some .standing → answers (halted .subchainState)) ∧
    (ok = true → h.state = some .standing →
      (h.kind = none → answers (halted .badKind)) ∧
      (h.kind = some .frame → answers (halted .subchainFrame)) ∧
      (h.kind = some .derived → follows { counted with
        entries := if g.entries.length < 4 then
            g.entries ++ [{ offset := off, fields := derivedFields data, mainChain := false }]
          else g.entries }) ∧
      (h.kind = some .override → follows { counted with staged := overlaid g.staged (overrideFields data) }) ∧
      (h.kind = some .call →
        let target := callTarget data
        (target = 0 ∨ offsetOk target s.window = false → answers (halted .callBad)) ∧
        (target ≠ 0 → offsetOk target s.window = true →
          (4 ≤ s.chain.returnStack.length → answers (halted .stackFull)) ∧
          (s.chain.returnStack.length < 4 → 64 ≤ g.readCount + 1 →
            answers (s.unlessEnded (halted .unterminated))) ∧
          (s.chain.returnStack.length < 4 → g.readCount + 1 < 64 →
            answers (s.unlessEnded (State.doing (.recordRead .subchain target) (recordReadReq target)
              { s with chain := { s.chain with
                  group := counted, returnStack := s.chain.returnStack ++ [off] } }))))) ∧
      (h.kind = some .ret → s.chain.returnStack.getLast? = some call →
        let endsGroup : Prop := s.chain.returnStack = [call] ∧ ∃ m, g.mainList.getLast? = some m ∧ m.endFlag = true
        let returned : State := { s with chain := { s.chain with
          group := counted, returnStack := s.chain.returnStack.dropLast } }
        (¬endsGroup →
          (64 ≤ g.readCount + 1 → answers (s.unlessEnded (halted .unterminated))) ∧
          (g.readCount + 1 < 64 → (s.lookMustEnd = false → accessOk (recordReadReq call) s.window = true) →
            answers (s.unlessEnded (returned.doing (.recordRead .callReread call) (recordReadReq call))))) ∧
        (endsGroup → (s.lookMustEnd = false → accessOk (stateWriteReq s.frame.offset .taken) s.window = true) →
          answers (s.unlessEnded returned.takeBegun))))

/-- CALL_RECORD_REREAD_DONE follows the CALL's link in the chain it lies in; a null link in the main chain leaves the
group incomplete, and one in a sub-chain halts the engine; a read that failed, a link that is no legal offset, and a
read that would be the 65th halt it too (R90, R98, R99, R102, R104, R105; assumption log 9 for the park). With a STOP,
an ABORT or a RELOAD remembered, where the record read calls for no halt, the look ends instead of going on, with no
take, no further read and no write: the engine enters STOPPED with its status write, or the RELOAD's configuration
read begins (R96, R153, R154, R159, R160; assumption logs 10 and 25). A halt is entered without its status write when
one has failed since it was called for (R144, R161; which of two failures is the first is the model's inference,
assumption log 46). -/
def Obligations.ReturnedCallsGoOn : Prop :=
  ∀ (ok : Bool) (data : List Byte) (at_ : Word) (off : Nat) (s : State), s.ControllerFree →
    s.work = some { job := .recordRead .callReread off, ended := true, ok := ok, data := data, endedAt := at_ } →
    let answers (t : State) : Prop := exec .callRecordRereadDone s = .next t
    let halted (r : HaltReason) : State := s.haltedBy r off
    let link := (recordHead data).link
    let inSub := decide (s.chain.returnStack ≠ [])
    let u : State := { s with chain := { s.chain with group := { s.chain.group with
      readCount := s.chain.group.readCount + 1, lastRead := off } } }
    (ok = false → answers (halted .chainRead)) ∧
    (ok = true → link ≠ 0 → offsetOk link s.window = false → answers (halted .linkBad)) ∧
    (ok = true → link ≠ 0 → offsetOk link s.window = true →
      (64 ≤ s.chain.group.readCount + 1 → answers (s.unlessEnded (halted .unterminated))) ∧
      (s.chain.group.readCount + 1 < 64 → answers (s.unlessEnded (u.doing
        (.recordRead (if inSub then .subchain else .lookAhead) link) (recordReadReq link))))) ∧
    (ok = true → link = 0 → inSub = true → answers (halted .unterminated)) ∧
    (ok = true → link = 0 → inSub = false → ∃ t, answers t ∧ s.ParksOrEnds s.ec.cursor false t)

/-- CHAIN_RECORD_WRITE_DONE of a TAKEN write: the next of them follows, and after the last one the take is recorded and
the frame is validated. A frame that passes has its seed loaded, and the lens sample board is read; under an override
that supplies all three the board is not read, and its lens, zoom and focus are the decision, of which the unit keeps
nothing but the previous-stale mark, and the lens is looked up. A frame that fails a check, and one of which a TAKEN
write failed, is faulted with FORMAT, WINDOW or RECORD_WRITE and goes to retirement. What R111 checks is spelled out,
the FORMAT checks before the WINDOW checks (R24, R50, R56, R60, R62, R63, R108, R110, R111, R113, R139). That a
retirement begins with the FRAME's completion write is the model's inference (assumption log 21). That a fault returns
the first held slot first, with its entry alone taking the code then, is the model's choice (assumption log 37). So are
the abort point before the positions (log 15), the pass waiting for the table build and the judging (log 22), and what
the stores and the box hold as a tile and a serving begin (logs 23, 35, 36 and 39). -/
def Obligations.ValidFrameReadsTheBoard : Prop :=
  (∀ (f : FrameFields) (window : Nat),
    let sized (w h : Nat) : Prop := 64 ≤ w ∧ w ≤ 8192 ∧ 64 ≤ h ∧ h ≤ 6144
    let placed (offset : Nat) : Prop := offset ≠ 0 ∧ offset % 64 = 0
    let formatted : Prop :=
      sized f.srcW f.srcH ∧ sized f.outW f.outH ∧ (f.depth = 8 ∨ f.depth = 10 ∨ f.depth = 12) ∧
      (f.srcPitch % 64 = 0 ∧ f.srcW * 6 ≤ f.srcPitch) ∧
      (f.outPitch % 64 = 0 ∧ f.outW * (if f.depth = 8 then 3 else if f.depth = 10 then 4 else 6) ≤ f.outPitch) ∧
      placed f.srcOffset ∧ placed f.outOffset ∧ (f.edge = 1 ∨ f.edge = 2) ∧ (f.scan = 1 ∨ f.scan = 2) ∧
      (f.dither = 1 ∨ f.dither = 2)
    let inside : Prop := f.srcOffset + f.srcPitch * f.srcH ≤ window ∧ f.outOffset + f.outPitch * f.outH ≤ window
    (validateFrame f window = some .format ↔ ¬formatted) ∧
    (validateFrame f window = some .window ↔ formatted ∧ ¬inside) ∧
    (validateFrame f window = none ↔ formatted ∧ inside)) ∧
  ∀ (ok : Bool) (at_ : Word) (off : Nat) (data : List Byte) (fr : FrameRecord) (s : State), s.PortSettled →
    s.work = some { job := .recordWrite .taken off, ended := true, ok := ok, data := data, endedAt := at_ } →
    s.chain.group.frame = some fr →
    let flight := s.chain.flight
    let recorded : State := { s with
      ec := { s.ec with groupsTaken := s.ec.groupsTaken + 1 }
      pace := { s.pace with takeTime := s.reg.time, reliefForTake := s.pace.relief }
      tile := { s.tile with outOfFrame := 0, overspan := 0, overrange := 0, overspanInd := false }
      chain := { s.chain with
        flight := { flight with override := s.chain.override }
        override := s.chain.group.staged
        group := { s.chain.group with staged := {} } } }
    (∀ next rest, ok = true → flight.takenTodo = next :: rest → accessOk (stateWriteReq next .taken) s.window = true →
      exec .chainRecordWriteDone s = .next (State.doing (.recordWrite .taken next) (stateWriteReq next .taken)
        { s with chain := { s.chain with flight := { flight with takenTodo := rest } } })) ∧
    (ok = true → flight.takenTodo = [] → validateFrame fr.fields s.window = none →
      let accepted : State := { recorded with
        writer := { s.writer with
          dither := if fr.fields.seedPresent then
              (if BitVec.ofNat 32 fr.fields.seed = 0 then 0x1D872B41 else BitVec.ofNat 32 fr.fields.seed)
            else s.writer.dither }
        chain := { recorded.chain with group := { recorded.chain.group with
          frame := some { fr with fields := { fr.fields with
            strength := min fr.fields.strength 256, fillR := min fr.fields.fillR 4095
            fillG := min fr.fields.fillG 4095, fillB := min fr.fields.fillB 4095 } } } } }
      (s.chain.override.lens = none ∨ s.chain.override.zoom = none ∨ s.chain.override.focus = none →
        accessOk (lensReadReq .boardHeaderRead s.ec.cfg.boardOffset 8) s.window = true →
        exec .chainRecordWriteDone s = .next (accepted.doing .boardHeader
          (lensReadReq .boardHeaderRead s.ec.cfg.boardOffset 8))) ∧
      (∀ lens zoom focus, s.chain.override.lens = some lens → s.chain.override.zoom = some zoom →
        s.chain.override.focus = some focus →
        ∃ t, exec .chainRecordWriteDone s = .next t ∧ accepted.LensDecided
          { unit := { s.lens with prevStale := false }
            frame := { lens := some lens, zoom := some zoom, focus := some (min focus 4095)
                       flags := { override := true, unknownLens := decide (lens = 0) } }
            events := 0 } t)) ∧
    (∀ code, ok = true ∧ flight.takenTodo = [] ∧ validateFrame fr.fields s.window = some code ∨
        ok = false ∧ code = .recordWrite →
      ∃ t, exec .chainRecordWriteDone s = .next t ∧ recorded.FaultsWith code t)

/-- RETIREMENT_WRITES_DONE: the counts advance, the group under assembly is emptied, a failed write is held as a
halt, and the status write begins after which the boundary is passed, and at whose end the events are set: GROUP_DONE
(bit 0) when the FRAME or a record of the main-chain list carries NOTIFY, RECORD_FAULT (bit 1) when a FAULTED was
written, OVERRUN (bit 7) for a frame over the budget (R114, R142, R146, R144, R117). That the boundary comes after that
write, and that only a FAULTED write that succeeded counts, are the model's inferences (assumption logs 9 and 26). -/
def Obligations.RetirementAdvancesTheCounts : Prop :=
  ∀ (failed ok : Bool) (at_ : Word) (data : List Byte) (todo : List Request) (s : State), s.ControllerFree →
    s.work = some { job := .retire todo failed, ended := true, ok := ok, data := data, endedAt := at_ } →
    let flight := s.chain.flight
    let notify := s.frame.notify || s.chain.group.mainList.any fun m => m.notify
    let results := if flight.judged then s.chain.group.entries else []
    let count (p : EntryResult → Bool) : Word := BitVec.ofNat 32 (results.countP fun e => e.result.any p)
    let last : Nat := match s.chain.group.mainList.getLast? with
      | some m => m.offset
      | none => s.frame.offset
    exec .retirementWritesDone s = .next (State.reporting
      { onEnd := (if notify then 1 else 0) ||| (if flight.faultWritten then 2 else 0) |||
          (if flight.overrun then 128 else 0)
        after := .boundary }
      { s with
        work := none
        chain := { s.chain with group := {}, flight := {} }
        ec := { s.ec with
          groupsRetired := s.ec.groupsRetired + 1
          framesDone := s.ec.framesDone + (if flight.fault = none then 1 else 0)
          framesFaulted := s.ec.framesFaulted + (if flight.fault = none then 0 else 1)
          derivedFilled := s.ec.derivedFilled + count fun r => match r with | .filled _ => true | _ => false
          derivedDropped := s.ec.derivedDropped + count fun r => decide (r = .dropped)
          derivedSkipped := s.ec.derivedSkipped +
            count fun r => decide (r = .skippedCondition ∨ r = .skippedRelief)
          lastFrameNumber := BitVec.ofNat 32 s.frame.fields.frameNumber
          boundaryLast := some last
          heldHalt := s.ec.heldHalt.or (if failed then some (.recordWrite, last) else none) } })

/-! ### The frame -/

/-- BOARD_READ_DONE, after the last of the board's reads or the first that failed, where the reads then end with the
board's other slots unread (assumption log 14): the lens decision is handed on, the unit keeps what it settled, and its
events are set. The lens is then looked up: under UNKNOWN_LENS there is no lookup; a READY or INVALID entry that holds
it serves the frame; a lens that is not held begins its load with the directory, where the victim holds nothing but its
identifier, unless an ABORT is taken there, and an empty directory ends the load at once (R34 to R40, R50, R53 to R63).
MEMORY_ATTEMPT_ANSWER: the header's newest-slot index, modulo 8, names slot N, which is read; then the slot before it,
or slot 7 before slot 0, is read; and with that the reads have ended, with the two slots read (R48, R50, 10.5). The
fields of a slot are spelled out, a focus above 4095 taken as 4095 (R49, 10.5). That a fault returns the first held
slot first, with its entry alone taking the code then, is the model's choice (assumption log 37), and that a retirement
begins with the FRAME's completion write its inference (log 21). So are the abort point before the positions (log 15),
the pass waiting for the table build and the judging (log 22), and what the stores and the box hold as a tile and a
serving begin (logs 23, 35, 36 and 39).  -/
def Obligations.BoardReadDecidesAndLoads : Prop :=
  (∀ (ok : Bool) (data : List Byte) (at_ : Word) (j : Job) (s : State), s.PortSettled →
    (j = .boardHeader ∨ (∃ n, j = .boardNewest n) ∨ ∃ newest, j = .boardPrevious newest) →
    s.work = some { job := j, ended := true, ok := ok, data := data, endedAt := at_ } →
    ∃ t, exec .boardReadDone s = .next t ∧
      s.LensDecided (decideFromBoard s.ec.cfg at_ s.lens (boardSlots ok data) s.chain.flight.override) t) ∧
  (∀ n p : List Byte, n.length = 24 → boardSlots false n = none ∧
    let slot (b : List Byte) : LensSample :=
      { seq := field b 0 4, stamp := BitVec.ofNat 32 (field b 4 4), lens := field b 8 4, zoom := field b 12 2
        focus := if field b 14 2 ≤ 4095 then field b 14 2 else 4095, valid := decide (field b 16 4 ≠ 0) }
    boardSlots true (n ++ p) = some (slot n, slot p)) ∧
  ∀ (n : Nat) (newest : List Byte) (a : Access) (others : List Host.Cell) (s : State),
    s.port.inFlight = some a → a.phase = .attempt → a.req.block = .lensStateUnit → a.req.data = none →
    s.port.requests = [] →
    let m := memLand s.dram others
    let b := memRead m a.address a.req.length
    let u (m : List Host.Cell) : State := { s with dram := m, port := { s.port with inFlight := none } }
    let slotRead (k : Nat) : Request := lensReadReq .boardSlotRead (s.ec.cfg.boardOffset + (8 + 24 * k)) 24
    let answers (t : State) : Prop := exec (.memoryAttemptAnswer .succeeded others) s = .next t
    (s.OnTime →
      (∀ k, s.work = some { job := .boardHeader } → k = (b.getD 0 0).toNat % 8 →
        accessOk (slotRead k) s.window = true → answers ((u m).doing (.boardNewest k) (slotRead k))) ∧
      (∀ k, s.work = some { job := .boardNewest n } → (n = 0 ∧ k = 7 ∨ n = k + 1) →
        accessOk (slotRead k) s.window = true → answers ((u m).doing (.boardPrevious b) (slotRead k))) ∧
      (s.work = some { job := .boardPrevious newest } →
        answers (State.ended (.boardPrevious newest) true (newest ++ b) (u m)))) ∧
    (∀ j, j = .boardHeader ∨ j = .boardNewest n ∨ j = .boardPrevious newest → s.work = some { job := j } →
      s.port.retryCount < a.attempts →
      (s.OnTime → ∃ data, exec (.memoryAttemptAnswer .failed others) s = .next (State.ended j false data (u m))) ∧
      (¬s.OnTime → ∃ data, exec .memoryAttemptTimeout s = .next (State.ended j false data (u s.dram))))

/-- R49, R53 to R59: what the board decides. A slot is usable when it is valid and its stamp is not in the future. Of
slot N when it is usable, and else of slot P, the age chooses FRESH, STALE or HOLD; a lens other than the settled one
settles at once with LENS_NEW, and otherwise the settle mode decides between settling and MOVING: under DIRECT the
sample settles; under FILTERED it settles when both slots are usable, slot P is of the same lens, of the number before,
and within both tolerances, and else the frame is MOVING and the settled values stand. Of zooms further apart than 4095
under two tolerances of 4095, where R58 and R59 disagree, the statement says that one of the two happens (assumption
log 34). R50, R54: a board read that failed, and two slots that are not usable, leave the unit as it was; the frame
takes its settled values, under HOLD when there are any. R56, R57, R60 to R62: what the override supplies replaces the
board's values; a frame without an identifier, or with 0, is UNKNOWN_LENS, and one with a lens but no zoom or no focus
is HOLD; LENS_CHANGE (bit 5) reports a new lens, LENS_STALE (bit 6) the rise of STALE.  -/
def Obligations.BoardDecisionByAge : Prop :=
  (∀ (now : Word) (x : LensSample), usable now x = true ↔ x.valid = true ∧ (now - x.stamp).toNat ≤ 2147483648) ∧
  (∀ (cfg : ConfigCopy) (now : Word) (u : LensUnit) (n p : LensSample),
    usable now n = true ∨ usable now p = true →
    let x : LensSample := if usable now n then n else p
    let b := boardStep cfg now u (some (n, p))
    let age := (now - x.stamp).toNat
    b.unit.lastSeq = BitVec.ofNat 32 x.seq ∧
    b.frame.lens = b.unit.settledLens ∧ b.frame.zoom = b.unit.settledZoom ∧
    b.frame.focus = b.unit.settledFocus ∧
    (b.frame.flags.stale = true ↔ cfg.staleLimit * 1000 < age) ∧
    (max cfg.staleLimit cfg.holdLimit * 1000 < age →
      b.unit = { u with lastSeq := BitVec.ofNat 32 x.seq } ∧
      b.frame.flags = { stale := true, hold := u.settledLens.isSome }) ∧
    (age ≤ cfg.holdLimit * 1000 → u.settledLens ≠ some x.lens →
      b.unit.settledLens = some x.lens ∧ b.unit.settledZoom = some x.zoom ∧
      b.unit.settledFocus = some x.focus ∧ b.frame.flags.lensNew = true) ∧
    (age ≤ cfg.holdLimit * 1000 → u.settledLens = some x.lens →
      let pair : Prop := usable now n = true ∧ usable now p = true ∧ p.lens = n.lens ∧
        (p.seq + 1) % 4294967296 = n.seq ∧ n.focus ≤ p.focus + cfg.focusTol ∧ p.focus ≤ n.focus + cfg.focusTol
      let near : Prop := n.zoom ≤ p.zoom + cfg.zoomTol ∧ p.zoom ≤ n.zoom + cfg.zoomTol
      let widest : Prop := cfg.zoomTol = 4095 ∧ cfg.focusTol = 4095
      let settles : Prop := b.unit.settledZoom = some x.zoom ∧ b.unit.settledFocus = some x.focus ∧
        b.frame.flags.moving = false ∧ b.frame.flags.lensNew = false
      let moves : Prop := b.unit = { u with lastSeq := BitVec.ofNat 32 x.seq } ∧
        b.frame.flags.moving = true ∧ b.frame.flags.lensNew = false
      (cfg.settleMode = 2 ∨ (pair ∧ near) → settles) ∧
      (cfg.settleMode = 1 → ¬pair ∨ (¬near ∧ ¬widest) → moves) ∧
      (cfg.settleMode = 1 → pair → ¬near → widest → settles ∨ moves))) ∧
  (∀ (cfg : ConfigCopy) (now : Word) (u : LensUnit) (slots : Option (LensSample × LensSample)),
    (∀ n p, slots = some (n, p) → usable now n = false ∧ usable now p = false) →
    boardStep cfg now u slots =
      { unit := u
        frame := { lens := u.settledLens, zoom := u.settledZoom, focus := u.settledFocus
                   flags := { hold := u.settledLens.isSome } } }) ∧
  ∀ (cfg : ConfigCopy) (now : Word) (u : LensUnit) (slots : Option (LensSample × LensSample)) (o : Override),
    let b := boardStep cfg now u slots
    let d := decideFromBoard cfg now u slots o
    let unknown := decide (d.frame.lens = none ∨ d.frame.lens = some 0)
    d.unit = { b.unit with prevStale := b.frame.flags.stale } ∧
    d.frame.lens = (match o.lens with | some v => some v | none => b.frame.lens) ∧
    d.frame.zoom = (match o.zoom with | some v => some v | none => b.frame.zoom) ∧
    d.frame.focus = (match o.focus with | some v => some (min v 4095) | none => b.frame.focus) ∧
    d.frame.flags = { b.frame.flags with
      override := b.frame.flags.override || decide (o.lens ≠ none ∨ o.zoom ≠ none ∨ o.focus ≠ none)
      unknownLens := b.frame.flags.unknownLens || unknown
      hold := b.frame.flags.hold || (!unknown && decide (d.frame.zoom = none ∨ d.frame.focus = none)) } ∧
    (∀ i, d.events.getLsbD i = true ↔
      i = 5 ∧ b.frame.flags.lensNew = true ∨ i = 6 ∧ b.frame.flags.stale = true ∧ u.prevStale = false)

/-- PROFILE_LOAD_DONE: a load that ended READY leaves the entry READY with its copy, one that failed leaves it INVALID
with none, the last-served mark names the entry, and the frame is resolved: from the copy, or with a set of zeros and
UNKNOWN_LENS. The table build begins, and the derived entries are judged in order, until one needs its pool, whose
table entry is read, or until the last is judged. An ABORT taken at the load's end empties the entry and faults the
frame with ABORTED (R4, R37, R38, R40, R42, R46, R47, R115 to R119, R122). MEMORY_ATTEMPT_ANSWER: a directory entry
that holds the lens has its profile's header read, or ends the load when the offset fails check 1 or 2; another has the
next entry read, and ends the load when it is the last (R28). A header that passes checks 3 to 8 begins the copy and has
the first node read, and one that fails ends the load (R31). Each node read joins the copy with its fields, zoom-major,
and the next is read, until the last has been, with which the load ends READY (R29, R30, R37). A pending ABORT lets no
further read be made, and a read whose attempts are exhausted ends the load (R38, R40). Those checks and the layouts
are spelled out (10.6). That a fault returns the first held slot first, with its entry alone taking the code then, is
the model's choice (assumption log 37), and that a retirement begins with the FRAME's completion write its inference
(log 21). So are the abort point before the positions (log 15), the pass waiting for the table build and the judging
(log 22), and what the stores and the box hold as a tile and a serving begin (logs 23, 35, 36 and 39). -/
def Obligations.LoadEndsReadyOrInvalid : Prop :=
  (∀ (victim : CacheSlot) (lens : Nat) (stage : LoadStage) (p : Profile) (ok : Bool) (data : List Byte)
    (at_ : Word) (s : State), s.PortSettled →
    s.work = some { job := .load victim lens stage, ended := true, ok := ok, data := data, endedAt := at_ } →
    s.cache.get victim = { state := .loading, lens := some lens, copy := some p } →
    let flight := s.chain.flight
    ∃ t, exec .profileLoadDone s = .next t ∧
      (s.ec.abortReq = true →
        State.FaultsWith .aborted { s with cache := s.cache.set victim {} } t) ∧
      (s.ec.abortReq = false →
        State.Delivers (if ok then resolveFrom p flight.lens flight.override else resolveUnknown flight.lens)
          { s with cache := { s.cache.set victim
              (if ok then { state := .ready, lens := some lens, copy := some p }
                else { state := .invalid, lens := some lens, copy := none }) with
              lastServed := some victim } } t)) ∧
  ∀ (victim : CacheSlot) (lens n offset i count : Nat) (p : Profile) (a : Access) (others : List Host.Cell)
    (s : State), s.port.inFlight = some a → a.phase = .attempt → a.req.block = .resolver → a.req.data = none →
    s.port.requests = [] → s.cache.get victim = { state := .loading, lens := some lens, copy := some p } →
    let m := memLand s.dram others
    let b := memRead m a.address a.req.length
    let u (m : List Host.Cell) : State := { s with dram := m, port := { s.port with inFlight := none } }
    let copying (q : Profile) : State := { u m with
      cache := s.cache.set victim { state := .loading, lens := some lens, copy := some q } }
    let answers (t : State) : Prop := exec (.memoryAttemptAnswer .succeeded others) s = .next t
    let entry := Job.load victim lens (.directory n)
    let header := Job.load victim lens (.header offset)
    let node := Job.load victim lens (.node offset i count)
    let entryRead (k : Nat) : Request := resolverReadReq .directoryRead (s.ec.cfg.dirOffset + 8 * k) 8
    let headerRead (off : Nat) : Request := resolverReadReq .profileHeaderRead off 64
    let nodeRead (k : Nat) : Request := resolverReadReq .profileNodeRead (offset + 64 + 32 * k) 32
    let nz := field b 4 1
    let nf := field b 5 1
    let zoom (k : Nat) : Nat := field b (0x08 + 2 * k) 2
    let focus (k : Nat) : Nat := field b (0x28 + 2 * k) 2
    let accepted : Prop := field b 0 4 = lens ∧ (1 ≤ nz ∧ nz ≤ 16 ∧ 1 ≤ nf ∧ nf ≤ 8) ∧
      (∀ k, k + 1 < nz → zoom k < zoom (k + 1)) ∧
      ((∀ k, k + 1 < nf → focus k < focus (k + 1)) ∧ ∀ k, k < nf → focus k ≤ 4095) ∧
      (field b 6 1 < nz ∧ field b 7 1 < nf) ∧ offset + 64 + 32 * nz * nf ≤ s.window
    let wide (k : Nat) : Int :=
      let v := field b k 4 % 16777216
      if v < 8388608 then v else (v : Int) - 16777216
    let half (k : Nat) : Int :=
      let v := field b k 2
      if v < 32768 then v else (v : Int) - 65536
    let grown : Profile := { p with nodes := p.nodes ++
      [{ k1 := wide 0, k2 := wide 4, k3 := wide 8, ar := half 12, br := half 14, ab := half 16, bb := half 18
         sx := half 20, sy := half 22 }] }
    (s.OnTime → s.ec.abortReq = false →
      (s.work = some { job := entry } →
        let found := field b 4 4
        let placed : Prop := found ≠ 0 ∧ found % 64 = 0 ∧ found + 64 ≤ s.window
        (field b 0 4 = lens → placed →
          answers ((u m).doing (.load victim lens (.header found)) (headerRead found))) ∧
        (field b 0 4 ≠ lens → n + 1 < s.ec.cfg.dirLength → accessOk (entryRead (n + 1)) s.window = true →
          answers ((u m).doing (.load victim lens (.directory (n + 1))) (entryRead (n + 1)))) ∧
        (field b 0 4 = lens ∧ ¬placed ∨ field b 0 4 ≠ lens ∧ s.ec.cfg.dirLength ≤ n + 1 →
          answers (State.ended entry false [] (u m)))) ∧
      (s.work = some { job := header } → offset % 64 = 0 →
        (accepted → answers (State.doing (.load victim lens (.node offset 0 (nz * nf))) (nodeRead 0)
          (copying { zooms := (List.range nz).map zoom, foci := (List.range nf).map focus
                     restZoom := field b 6 1, restFocus := field b 7 1, nodes := [] }))) ∧
        (¬accepted → answers (State.ended header false [] (u m)))) ∧
      (s.work = some { job := node } → i + 1 < count → accessOk (nodeRead (i + 1)) s.window = true →
        answers (State.doing (.load victim lens (.node offset (i + 1) count)) (nodeRead (i + 1))
          (copying grown)))) ∧
    (s.OnTime → s.work = some { job := node } → count ≤ i + 1 →
      answers (State.ended node true [] (copying grown))) ∧
    (s.OnTime → s.ec.abortReq = true →
      (∀ j, j = entry ∨ j = header → s.work = some { job := j } → answers (State.ended j false [] (u m))) ∧
      (s.work = some { job := node } → i + 1 < count → answers (State.ended node false [] (copying grown)))) ∧
    (∀ j, j = entry ∨ j = header ∨ j = node → s.work = some { job := j } → s.port.retryCount < a.attempts →
      (s.OnTime → exec (.memoryAttemptAnswer .failed others) s = .next (State.ended j false [] (u m))) ∧
      (¬s.OnTime → exec .memoryAttemptTimeout s = .next (State.ended j false [] (u s.dram))))

/-- R35: a lookup finds an entry exactly when one in state READY or INVALID holds the lens, and never one that is
LOADING or EMPTY; R36: the victim of a miss is the entry that did not serve the last lookup, and E0 when none has
served one. -/
def Obligations.LookupFindsTheHolder : Prop :=
  ∀ (c : Cache) (lens : Nat),
    ((c.find lens).isSome = true ↔
      ∃ slot, ((c.get slot).state = .ready ∨ (c.get slot).state = .invalid) ∧ (c.get slot).lens = some lens) ∧
    (∀ slot, c.find lens = some slot → (c.get slot).lens = some lens ∧
      ((c.get slot).state = .ready ∨ (c.get slot).state = .invalid)) ∧
    c.lastServed ≠ some c.victim ∧ (c.lastServed = none → c.victim = .e0)

/-- POOL_READ_DONE: with the reads good and the image within the slot size, the first EMPTY slot after the last filled
one that no held slot names is made BUSY when its offset is fit; with none the pool's drop count is written one
higher. An image larger than the slot size gives the entry TOO_LARGE, a chosen slot whose offset is unfit gives it
POOL_BAD, and so does a read of the pool that failed, or a table entry or header that fails a check, at which the
reads end; the judging then goes on with the next entry. MEMORY_ATTEMPT_ANSWER: the pool's three reads follow each
other while the checks, spelled out, pass (R122 to R124); a read whose attempts are exhausted, by an error in time or
by the timeout, ends them as failed (R173, R174). The image's size and pitch, and the slot entries and the held slot
as they are made from what was read, are spelled out (R116, R123, 10.7). That a fault returns the first held slot
first, with its entry alone taking the code then, is the model's choice (assumption log 37), and that a retirement
begins with the FRAME's completion write its inference (log 21). So are the abort point before the positions (log 15),
the pass waiting for the table build and the judging (log 22), and what the stores and the box hold as a tile and a
serving begin (logs 23, 35, 36 and 39). -/
def Obligations.PoolGivesASlotOrCountsADrop : Prop :=
  (∀ (k desc : Nat) (p : PoolView) (ok : Bool) (data : List Byte) (at_ : Word) (s : State), s.PortSettled →
    let settles (r : EntryResult) : Prop :=
      ∃ t, exec .poolReadDone s = .next t ∧ (s.resulted k r).JudgesFrom (k + 1) t
    (s.work = some { job := .poolSlots k p, ended := true, ok := true, data := data, endedAt := at_ } →
      let place (i : Nat) : Nat := field data (16 * i) 4
      let q : PoolView := { p with
        slots := (List.range p.slotCount).map fun i => (place i, field data (16 * i + 4) 4) }
      let d := s.entryFields k
      let f := s.frame.fields
      let cut (at_ len extent : Nat) : Nat := if d.kind = 1 then extent / d.factor else min (at_ + len) extent - at_
      let width := cut d.rx d.rw (if d.kind = 3 then f.srcW else f.outW)
      let height := cut d.ry d.rh (if d.kind = 3 then f.srcH else f.outH)
      let pitch := (width * (if p.depth = 8 then 3 else if p.depth = 10 then 4 else 6) + 63) / 64 * 64
      (∀ e, s.chain.group.entries[k]? = some e → d = e.fields) ∧
      (∀ fr, s.chain.group.frame = some fr → f = fr.fields) ∧
      (p.slotSize < pitch * height → settles (.faulted .tooLarge)) ∧
      (pitch * height ≤ p.slotSize →
        (∀ i, chooseSlot s.pools.heldSlots d.pool q = some i →
          let h : HeldSlot := { entry := k, pool := d.pool, slot := i, offset := place i, depth := p.depth
                                width := width, height := height, pitch := pitch, desc := p.desc }
          let fit : Prop := place i ≠ 0 ∧ place i % 64 = 0 ∧ place i + pitch * height ≤ s.window
          (fit → accessOk (poolWriteReq .slotWrite (p.desc + 32 + 16 * i + 4) (leBytes 4 1)) s.window = true →
            exec .poolReadDone s = .next (s.doing (.slotBusy h)
              (poolWriteReq .slotWrite (p.desc + 32 + 16 * i + 4) (leBytes 4 1)))) ∧
          (¬fit → settles (.faulted .poolBad))) ∧
        (chooseSlot s.pools.heldSlots d.pool q = none →
          accessOk (poolWriteReq .poolWordWrite (p.desc + 0x0C) (leBytes 4 (p.dropCount + 1))) s.window = true →
          exec .poolReadDone s = .next (s.doing (.dropCount k)
            (poolWriteReq .poolWordWrite (p.desc + 0x0C) (leBytes 4 (p.dropCount + 1))))))) ∧
    (s.work = some { job := .poolTable k, ended := true, ok := ok, data := data, endedAt := at_ } ∨
        s.work = some { job := .poolHeader k desc, ended := true, ok := ok, data := data, endedAt := at_ } ∨
        s.work = some { job := .poolSlots k p, ended := true, ok := false, data := data, endedAt := at_ } →
      settles (.faulted .poolBad))) ∧
  ∀ (k desc : Nat) (p : PoolView) (a : Access) (others : List Host.Cell) (s : State), s.port.inFlight = some a →
    a.phase = .attempt → a.req.block = .poolManager → a.req.data = none → s.port.requests = [] →
    let m := memLand s.dram others
    let b := memRead m a.address a.req.length
    let freed (m : List Host.Cell) : State := { s with dram := m, port := { s.port with inFlight := none } }
    let u := freed m
    let found := field b 0 4
    let placed : Prop := found ≠ 0 ∧ found % 64 = 0 ∧ found + 32 ≤ s.window
    let count := field b 0 1
    let headed : Prop := 1 ≤ count ∧ count ≤ 16 ∧ (field b 1 1 = 8 ∨ field b 1 1 = 10 ∨ field b 1 1 = 12) ∧
      desc + 32 + 16 * count ≤ s.window
    let answers (t : State) : Prop := exec (.memoryAttemptAnswer .succeeded others) s = .next t
    (s.OnTime →
      (s.work = some { job := .poolTable k } →
        (placed → answers (u.doing (.poolHeader k found) (poolReadReq .poolHeaderRead found 32))) ∧
        (¬placed → answers (State.ended (.poolTable k) false [] u))) ∧
      (s.work = some { job := .poolHeader k desc } → desc % 64 = 0 →
        (headed → answers (u.doing
          (.poolSlots k { desc := desc, slotCount := count, depth := field b 1 1, slotSize := field b 4 4
                          lastFilled := field b 8 4, dropCount := field b 12 4, slots := [] })
          (poolReadReq .slotEntriesRead (desc + 32) (16 * count)))) ∧
        (¬headed → answers (State.ended (.poolHeader k desc) false [] u))) ∧
      (s.work = some { job := .poolSlots k p } → answers (State.ended (.poolSlots k p) true b u))) ∧
    (∀ j, j = .poolTable k ∨ j = .poolHeader k desc ∨ j = .poolSlots k p → s.work = some { job := j } →
      s.port.retryCount < a.attempts →
      (s.OnTime → exec (.memoryAttemptAnswer .failed others) s = .next (State.ended j false [] u)) ∧
      (¬s.OnTime → exec .memoryAttemptTimeout s = .next (State.ended j false [] (freed s.dram))))

/-- R122, R124: the search begins one after the last-filled index, taken as slot count - 1 when it is at or above the
slot count, wraps, and tries each slot once; it chooses the first slot that is EMPTY in memory and that no held slot
names for this pool, and chooses none exactly when there is no such slot. -/
def Obligations.ChosenSlotIsTheFirstFree : Prop :=
  ∀ (held : List HeldSlot) (pool : Nat) (p : PoolView),
    let free (i : Nat) : Prop := (p.slots[i]?).map Prod.snd = some 0 ∧ ∀ h, h ∈ held → h.pool = pool → h.slot ≠ i
    let last := if p.slotCount ≤ p.lastFilled then p.slotCount - 1 else p.lastFilled
    (∀ j, j < p.slotCount → (searchOrder p)[j]? = some ((last + 1 + j) % p.slotCount)) ∧
    (searchOrder p).length = p.slotCount ∧ (searchOrder p).Nodup ∧
    (chooseSlot held pool p = none ↔ ∀ i, i < p.slotCount → ¬free i) ∧
    (∀ i, chooseSlot held pool p = some i →
      i < p.slotCount ∧ free i ∧
      ∃ before after, searchOrder p = before ++ i :: after ∧ ∀ j, j ∈ before → ¬free j)

/-- SLOT_BUSY_WRITE_DONE and DROP_COUNT_WRITE_DONE, of any entry: the slot joins the held-slot list, or the entry is
POOL_BAD; the entry is DROPPED with POOL_DROP, or POOL_BAD; and the judging goes on with the next entry. After a
group's last entry the judging has ended: nothing more happens while the tables are being built, and else the pass
begins (R117, R124, R66). That a fault returns the first held slot first, with its entry alone taking the code then, is
the model's choice (assumption log 37), and that a retirement begins with the FRAME's completion write its inference
(log 21). So are the abort point before the positions (log 15), the pass waiting for the table build and the judging
(log 22), and what the stores and the box hold as a tile and a serving begin (logs 23, 35, 36 and 39). -/
def Obligations.LastEntryIsJudged : Prop :=
  ∀ (h : HeldSlot) (k : Nat) (ok : Bool) (data : List Byte) (at_ : Word) (s : State), s.PortSettled →
    (s.work = some { job := .slotBusy h, ended := true, ok := ok, data := data, endedAt := at_ } →
      ∃ t, exec .slotBusyWriteDone s = .next t ∧
        (ok = true →
          State.JudgesFrom (h.entry + 1) { s with pools := { heldSlots := s.pools.heldSlots ++ [h] } } t) ∧
        (ok = false → (s.resulted h.entry (.faulted .poolBad)).JudgesFrom (h.entry + 1) t)) ∧
    (s.work = some { job := .dropCount k, ended := true, ok := ok, data := data, endedAt := at_ } →
      ∃ t, exec .dropCountWriteDone s = .next t ∧
        (ok = true → State.JudgesFrom (k + 1)
          (State.resulted k .dropped { s with reg := { s.reg with events := s.reg.events ||| evPoolDrop } }) t) ∧
        (ok = false → (s.resulted k (.faulted .poolBad)).JudgesFrom (k + 1) t))

/-- TABLE_BUILD_DONE: the tables and the centre are those of the frame's coefficient set and strength, spelled out
index by index; while an entry is still being judged nothing else changes; else the pass begins at the first tile,
whose positions are computed and whose out-of-frame pixels are counted, or an ABORT is taken there (R2 to R9, R66, R68,
R82, R117; that the abort point comes before the positions is assumption log 15). At strength 0 every entry is 65536
(R8). `rndDiv` is the manual's rnd: the nearest integer, halves away from zero (Conventions). That a fault returns the
first held slot first, with its entry alone taking the code then, is the model's choice (assumption log 37), and that a
retirement begins with the FRAME's completion write its inference (log 21). So are what the stores and the box hold as
a tile and a serving begin (logs 23, 35, 36 and 39), and the pass waiting for the judging (log 22). -/
def Obligations.BuildReplacesTheTables : Prop :=
  (∀ n d : Int, 0 < d →
    let q := rndDiv n d
    2 * (n - q * d) ≤ d ∧ 2 * (q * d - n) ≤ d ∧ (2 * (n - q * d) = d → n < 0) ∧ (2 * (q * d - n) = d → 0 < n)) ∧
  ∀ s : State, s.PortSettled → s.chain.flight.inFlight = true → s.chain.flight.building = true →
    let f := s.frame.fields
    let c := s.chain.flight.coeffs
    let strength : Int := s.chain.flight.strength
    let held (v : Int) : Int := max 32768 (min 131071 v)
    let raw (i : Int) : Int := 65536 + rndDiv (c.k1 * i * 4096 + c.k2 * i ^ 2 * 64 + c.k3 * i ^ 3) 4194304
    let green (i : Int) : Int := held (65536 + rndDiv ((raw i - 65536) * strength) 256)
    let tint (a b i : Int) : Int :=
      held (green i + rndDiv (green i * (a * 64 + b * i) * strength) 68719476736)
    let centre (optical : Nat) (shift : Int) (extent : Nat) : Int :=
      max 0 (min (16 * (extent : Int)) ((optical : Int) + max (-1024) (min 1024 shift)))
    let entries (g : Int → Int) : List Int := (List.range 129).map fun i => g i
    let tb : Tables :=
      { green := entries green, red := entries (tint c.ar c.br), blue := entries (tint c.ab c.bb)
        cx16 := centre s.ec.cfg.opticalX c.sx f.srcW, cy16 := centre s.ec.cfg.opticalY c.sy f.srcH }
    let built : State := { s with
      tables := tb, chain := { s.chain with flight := { s.chain.flight with building := false } } }
    (s.chain.flight.strength = 0 → tb.green = List.replicate 129 65536 ∧ tb.red = List.replicate 129 65536 ∧
      tb.blue = List.replicate 129 65536) ∧
    (s.chain.flight.judging = true → exec .tableBuildDone s = .next built) ∧
    (s.chain.flight.judging = false → ∃ t, exec .tableBuildDone s = .next t ∧ built.PassBegins t ∧
      t.tables = tb ∧ t.dram = s.dram ∧ t.lens = s.lens ∧ t.reg = s.reg ∧ t.tile.row = 0 ∧ t.tile.col = 0 ∧
      (s.ec.abortReq = false →
        let px := (tileRect f 0 0).pixels
        t.tile.positions = px.map (fun p => pixelPos tb f s.ec.cfg.rn p.1 p.2) ∧
        t.tile.outOfFrame = s.tile.outOfFrame + px.countP (fun p => pixelOut tb f s.ec.cfg.rn p.1 p.2)) ∧
      (s.ec.abortReq = true → t.chain.flight.fault = some .aborted ∧
        t.tile.positions = s.tile.positions ∧ t.tile.outOfFrame = s.tile.outOfFrame))

/-- SUBTILE_ROWS_READ_DONE: the sub-tile's pixels are sampled and the counts advance. After the last sub-tile of a
tile the tile is quantized, its derived parts are made, and its first row is handed to the Port; after any other the
next one is judged: split, served with its first row read, or sampled at once when its box is empty; an ABORT is taken
between two. A read that failed faults the frame with SOURCE_READ (R70 to R76, R78, R79, R82). MEMORY_ATTEMPT_ANSWER:
each row read enters the buffer, every container at most 4095 with its overrange mark, and the next row of the box is
read (R72, R74). The tile's pixels, the part of its stores that a sub-tile takes, and the box of a part, the smallest
that holds what its positions touch, are spelled out (R67, R69, R76). A row read whose attempts are exhausted, by an
error in time or by the timeout, ends the reads as failed (R75, R173, R174). The sampling of a pixel is spelled out:
the fill values of a filled pixel, with no overrange mark (R16, R76), and of any other, at each colour's position,
held to the box under overspan (R73), the weighted sum of the four neighbours in the buffer and the or of their
overrange marks (R18, R19, R75, R76). The quantized values are spelled out: under ROUND, and under DITHER each from
the generator's next output, red, green and blue of each pixel in turn (R21 to R23, R25). That a fault returns the
first held slot first, with its entry alone taking the code then, is the model's choice (assumption log 37), and that
a retirement begins with the FRAME's completion write its inference (log 21). So are the box and the overspan
indication as a serving begins (logs 23 and 36), and the waiting sub-tiles that a pass which ends leaves in its list
(log 45). -/
def Obligations.SampledTileIsWritten : Prop :=
  (∀ px : List PixelPos,
    let kept : List Pos := px.flatMap fun p => if p.fill then [] else [p.r, p.g, p.b]
    let left (q : Pos) : Nat := (q.xs / 16).toNat
    let top (q : Pos) : Nat := (q.ys / 16).toNat
    let right (q : Pos) : Nat := if q.xs % 16 = 0 then left q else left q + 1
    let bottom (q : Pos) : Nat := if q.ys % 16 = 0 then top q else top q + 1
    let b := footprint px
    (kept = [] → b = {}) ∧
    (kept ≠ [] →
      (∀ q, q ∈ kept → b.x ≤ left q ∧ right q < b.x + b.width ∧ b.y ≤ top q ∧ bottom q < b.y + b.height) ∧
      (∃ q, q ∈ kept ∧ left q = b.x) ∧ (∃ q, q ∈ kept ∧ right q + 1 = b.x + b.width) ∧
      (∃ q, q ∈ kept ∧ top q = b.y) ∧ ∃ q, q ∈ kept ∧ bottom q + 1 = b.y + b.height)) ∧
  (∀ (s : State) (part : Rect) (positions : List PixelPos) (store : List Sample) (sample : PixelPos → Sample),
    let f := s.frame.fields
    let tile := s.tileInHand
    tile = { left := 64 * s.tile.col, top := 32 * s.tile.row, width := min 64 (f.outW - 64 * s.tile.col)
             height := min 32 (f.outH - 32 * s.tile.row) } ∧
    (∀ x y, x < tile.width → y < tile.height →
      tile.pixels[y * tile.width + x]? = some (tile.left + x, tile.top + y)) ∧
    tile.pixels.length = tile.width * tile.height ∧
    (positions.length = tile.width * tile.height → store.length = tile.width * tile.height →
      tile.left ≤ part.left → part.left + part.width ≤ tile.left + tile.width →
      tile.top ≤ part.top → part.top + part.height ≤ tile.top + tile.height →
      (rectSlice tile part positions).length = part.width * part.height ∧
      (∀ x y, x < part.width → y < part.height → (rectSlice tile part positions)[y * part.width + x]? =
        positions[(part.top - tile.top + y) * tile.width + (part.left - tile.left + x)]?) ∧
      (∀ x y, x < tile.width → y < tile.height →
        let i := y * tile.width + x
        (putSamples tile part store (List.map sample) positions)[i]? =
          if part.left ≤ tile.left + x ∧ tile.left + x < part.left + part.width ∧
              part.top ≤ tile.top + y ∧ tile.top + y < part.top + part.height
          then (positions[i]?).map sample else store[i]?))) ∧
  (∀ (f : FrameFields) (x : Word) (px : List Sample),
    let next (y : Word) : Word :=
      let y := y ^^^ (y <<< 13)
      let y := y ^^^ (y >>> 17)
      y ^^^ (y <<< 5)
    let low (v n : Nat) : Nat :=
      if f.depth = 8 then min ((v + n % 16) / 16) 255 else min ((v + n % 4) / 4) 1023
    let rounded (v : Nat) : Nat :=
      if f.depth = 12 then v else if f.depth = 8 then min ((v + 8) / 16) 255 else min ((v + 2) / 4) 1023
    let q := quantizeTile f x px
    (f.depth = 8 ∨ f.depth = 10 ∨ f.depth = 12 →
      (f.dither ≠ 2 ∨ f.depth = 12 → q = (x, px.map fun p => (rounded p.r, rounded p.g, rounded p.b))) ∧
      (f.dither = 2 → f.depth ≠ 12 →
        q.1 = next^[3 * px.length] x ∧ q.2.length = px.length ∧
        ∀ i p, px[i]? = some p → q.2[i]? = some (low p.r (next^[3 * i + 1] x).toNat,
          low p.g (next^[3 * i + 2] x).toNat, low p.b (next^[3 * i + 3] x).toNat)))) ∧
  (∀ (v : Serving) (buf : FootprintBuffer) (f : FrameFields) (p : PixelPos),
    let held (low last c : Int) : Int := if c < low then low else if last < c then last else c
    let moved (q : Pos) : Pos :=
      if v.overspan then { xs := held (16 * v.box.x) (16 * (v.box.x + 95)) q.xs
                           ys := held (16 * v.box.y) (16 * (v.box.y + 63)) q.ys }
      else q
    let texel (x y : Nat) : Texel := buf.texels.getD (96 * (y - buf.box.y) + (x - buf.box.x)) {}
    let sampled (value : Texel → Nat) (mark : Texel → Bool) (q : Pos) : Nat × Bool :=
      let x0 := (q.xs / 16).toNat
      let y0 := (q.ys / 16).toNat
      let fx := (q.xs % 16).toNat
      let fy := (q.ys % 16).toNat
      let x1 := if fx = 0 then x0 else x0 + 1
      let y1 := if fy = 0 then y0 else y0 + 1
      (((16 - fx) * (16 - fy) * value (texel x0 y0) + fx * (16 - fy) * value (texel x1 y0) +
        (16 - fx) * fy * value (texel x0 y1) + fx * fy * value (texel x1 y1) + 128) / 256,
        mark (texel x0 y0) || mark (texel x1 y0) || mark (texel x0 y1) || mark (texel x1 y1))
    let r := sampled Texel.r Texel.rOver (moved p.r)
    let g := sampled Texel.g Texel.gOver (moved p.g)
    let b := sampled Texel.b Texel.bOver (moved p.b)
    (p.fill = true → overspanMoved v p = false ∧
      samplePixel v buf f p = { r := f.fillR, g := f.fillG, b := f.fillB, overMark := false }) ∧
    (p.fill = false →
      (overspanMoved v p = true ↔ moved p.r ≠ p.r ∨ moved p.g ≠ p.g ∨ moved p.b ≠ p.b) ∧
      samplePixel v buf f p = { r := r.1, g := g.1, b := b.1, overMark := r.2 || g.2 || b.2 })) ∧
  (∀ (row : Nat) (v : Serving) (ok : Bool) (data : List Byte) (at_ : Word) (s : State), s.PortSettled →
    s.work = some { job := .rows row, ended := true, ok := ok, data := data, endedAt := at_ } →
    (ok = true → s.tile.serving = some v →
      let u : State := s.sampled v
      ∃ t, exec .subtileRowsReadDone s = .next t ∧
        (s.tile.subTiles = [] → ∀ r rest, u.tileRows = r :: rest →
          accessOk (rowWriteReq .outputRowWrite r.offset r.bytes) s.window = true →
          t = State.doing .outRow (rowWriteReq .outputRowWrite r.offset r.bytes) (u.quantized rest)) ∧
        (s.tile.subTiles ≠ [] →
          (s.ec.abortReq = true → u.FaultsWith .aborted t) ∧
          (s.ec.abortReq = false → 0 < s.tileInHand.height → SubTilesGoOn { u with work := none } t))) ∧
    (ok = false → ∃ t, exec .subtileRowsReadDone s = .next t ∧ s.FaultsWith .sourceRead t)) ∧
  ∀ (row : Nat) (v : Serving) (a : Access) (others : List Host.Cell) (s : State), s.port.inFlight = some a →
    a.phase = .attempt → a.req.block = .tilePassUnit → a.req.data = none → s.port.requests = [] →
    s.work = some { job := .rows row } →
    let m := memLand s.dram others
    let b := memRead m a.address a.req.length
    let texels := (List.range v.box.width).map fun q =>
      ({ r := min (field b (6 * q) 2) 4095, g := min (field b (6 * q + 2) 2) 4095, b := min (field b (6 * q + 4) 2) 4095
         rOver := decide (4095 < field b (6 * q) 2), gOver := decide (4095 < field b (6 * q + 2) 2)
         bOver := decide (4095 < field b (6 * q + 4) 2) } : Texel)
    let u : State := { s with
      dram := m, port := { s.port with inFlight := none }
      tile := { s.tile with buffer := { s.tile.buffer with
        texels := s.tile.buffer.texels.take (96 * row) ++ texels ++
          s.tile.buffer.texels.drop (96 * row + texels.length) } } }
    let f := s.frame.fields
    let r := sourceReadReq .tilePassUnit (f.srcOffset + (v.box.y + (row + 1)) * f.srcPitch + 6 * v.box.x)
      (6 * v.box.width)
    let lost (m : List Host.Cell) : State :=
      State.ended (.rows row) false [] { s with dram := m, port := { s.port with inFlight := none } }
    (s.OnTime → s.tile.serving = some v →
      (row + 1 < v.box.height → accessOk r s.window = true →
        exec (.memoryAttemptAnswer .succeeded others) s = .next (u.doing (.rows (row + 1)) r)) ∧
      (v.box.height ≤ row + 1 →
        exec (.memoryAttemptAnswer .succeeded others) s = .next (State.ended (.rows row) true [] u))) ∧
    (s.port.retryCount < a.attempts →
      (s.OnTime → exec (.memoryAttemptAnswer .failed others) s = .next (lost m)) ∧
      (¬s.OnTime → exec .memoryAttemptTimeout s = .next (lost s.dram)))

/-- OUTPUT_ROW_WRITE_DONE and DERIVED_ROW_WRITE_DONE: the next row of the tile goes to the Port, the primary output's
first and then the derived parts in their order (R79, R127). After the last of them the tile is done: the next tile is
begun, or the first of the next row of tiles, and after the last tile, past the abort point, the RAWCOPY phase follows,
or the held slots are released when no RAWCOPY entry is running (R67, R82, R86, R129, R131). An output row write that
failed faults the frame with OUTPUT_WRITE (R81). That a fault returns the first held slot first, with its entry alone
taking the code then, is the model's choice (assumption log 37), and that a retirement begins with the FRAME's
completion write its inference (log 21). So are what the stores and the box hold as a tile and a serving begin (logs
23, 35, 36 and 39), and the abort point before the positions (log 15). An OUTPUT_WRITE fault leaves the preview
accumulators of the tile in hand as they are, which is the model's choice (log 44), and so is the tile position that
the unit holds when an ABORT is taken before a later tile (log 47). What a tile's rows are is spelled out: where the
rows of the primary output go and in which order their pixels stand, under FORWARD and REVERSE and by depth (R79, R80,
10.8); the sums that a PREVIEW gathers over each of its blocks inside the tile, and its pixels, the rounded means
(R125); a CROP's part of the tile (R126); the rounding to the pool's depth, and the placement in the slot (R26, R127).
-/
def Obligations.TileRowsFollowInOrder : Prop :=
  (∀ (s : State) (tile : Rect) (q : List (Nat × Nat × Nat)) (samples : List Sample),
    let f := s.frame.fields
    let bpp (depth : Nat) : Nat := if depth = 8 then 3 else if depth = 10 then 4 else 6
    let pixel (depth : Nat) (p : Nat × Nat × Nat) : List Byte :=
      if depth = 8 then leBytes 1 p.1 ++ leBytes 1 p.2.1 ++ leBytes 1 p.2.2
      else if depth = 10 then leBytes 4 (p.1 + p.2.1 * 1024 + p.2.2 * 1048576)
      else leBytes 2 p.1 ++ leBytes 2 p.2.1 ++ leBytes 2 p.2.2
    let row (depth : Nat) (px : List (Nat × Nat × Nat)) : List Byte :=
      (if f.scan = 2 then px.reverse else px).flatMap (pixel depth)
    let rounded (depth v : Nat) : Nat :=
      if depth = 12 then v else if depth = 8 then min ((v + 8) / 16) 255 else min ((v + 2) / 4) 1023
    let part (h : HeldSlot) (b left : Nat) (px : List (Nat × Nat × Nat)) : DerivedRow :=
      { entry := h.entry
        offset := if f.scan = 2 then h.offset + (h.height - 1 - b) * h.pitch +
            (h.width - 1 - (left + px.length - 1)) * bpp h.depth
          else h.offset + b * h.pitch + left * bpp h.depth
        bytes := row h.depth (px.map fun p => (rounded h.depth p.1, rounded h.depth p.2.1, rounded h.depth p.2.2)) }
    let run (x y len : Nat) : List Sample :=
      (samples.drop ((y - tile.top) * tile.width + (x - tile.left))).take len
    let across (n : Nat) : Nat := (tile.left + tile.width) / n - tile.left / n
    let down (n : Nat) : Nat := (tile.top + tile.height) / n - tile.top / n
    let sum (get : Sample → Nat) (n i j : Nat) : Nat :=
      ((List.range n).map fun b => ((run (tile.left + n * i) (tile.top + n * j + b) n).map get).sum).sum
    let mean (get : Sample → Nat) (n i j : Nat) : Nat := (sum get n i j + n * n / 2) / (n * n)
    let image (h : HeldSlot) : DerivedFields := s.entryFields h.entry
    outputRows f tile q = ((List.range tile.height).map fun j =>
      { offset := if f.scan = 2 then f.outOffset + (f.outH - 1 - (tile.top + j)) * f.outPitch +
            (f.outW - 1 - (tile.left + tile.width - 1)) * bpp f.depth
          else f.outOffset + (tile.top + j) * f.outPitch + tile.left * bpp f.depth
        bytes := row f.depth ((q.drop (j * tile.width)).take tile.width) }) ∧
    tileAccums s tile samples = ((s.pools.heldSlots.filter fun h => decide ((image h).kind = 1)).map fun h =>
      let n := (image h).factor
      { entry := h.entry, sums := (List.range (down n)).flatMap fun j => (List.range (across n)).map fun i =>
          (sum Sample.r n i j, sum Sample.g n i j, sum Sample.b n i j) }) ∧
    ((∀ h, h ∈ s.pools.heldSlots → h.depth = 8 ∨ h.depth = 10 ∨ h.depth = 12) →
      tileDerivedRows s tile samples (tileAccums s tile samples) = s.pools.heldSlots.flatMap fun h =>
        let d := image h
        let n := d.factor
        let left := max d.rx tile.left
        let right := min (d.rx + h.width) (tile.left + tile.width)
        let top := max d.ry tile.top
        let bottom := min (d.ry + h.height) (tile.top + tile.height)
        if d.kind = 1 then
          if across n = 0 then []
          else (List.range (down n)).map fun j => part h (tile.top / n + j) (tile.left / n)
            ((List.range (across n)).map fun i => (mean Sample.r n i j, mean Sample.g n i j, mean Sample.b n i j))
        else if d.kind = 2 ∧ left < right then
          (List.range (bottom - top)).map fun j => part h (top + j - d.ry) (left - d.rx)
            ((run left (top + j) (right - left)).map fun p => (p.r, p.g, p.b))
        else [])) ∧
  ∀ (k : Nat) (d : DerivedRow) (ds : List DerivedRow) (data : List Byte) (at_ : Word) (s : State),
    s.PortSettled →
    (s.work = some { job := .outRow, ended := true, ok := true, data := data, endedAt := at_ } →
      (∀ (r : RowWrite) (rs : List RowWrite), s.writer.outRows = r :: rs →
        accessOk (rowWriteReq .outputRowWrite r.offset r.bytes) s.window = true →
        exec .outputRowWriteDone s = .next (State.doing .outRow (rowWriteReq .outputRowWrite r.offset r.bytes)
          { s with writer := { s.writer with outRows := rs } })) ∧
      (s.writer.outRows = [] → s.writer.derivedRows = [] →
        ∃ t, exec .outputRowWriteDone s = .next t ∧ State.TileEnds { s with work := none } t)) ∧
    (s.work = some { job := .outRow, ended := true, ok := false, data := data, endedAt := at_ } →
      ∃ t, exec .outputRowWriteDone s = .next t ∧ s.FaultsWith .outputWrite t) ∧
    (s.work = some { job := .derivedRow k, ended := true, ok := true, data := data, endedAt := at_ } →
      s.writer.derivedRows = [] →
      ∃ t, exec .derivedRowWriteDone s = .next t ∧ State.TileEnds { s with work := none } t) ∧
    (accessOk (rowWriteReq .derivedRowWrite d.offset d.bytes) s.window = true →
      s.writer.derivedRows = d :: ds →
      let t := State.doing (.derivedRow d.entry) (rowWriteReq .derivedRowWrite d.offset d.bytes)
        { s with writer := { s.writer with derivedRows := ds } }
      (s.work = some { job := .outRow, ended := true, ok := true, data := data, endedAt := at_ } →
        s.writer.outRows = [] → exec .outputRowWriteDone s = .next t) ∧
      (s.work = some { job := .derivedRow k, ended := true, ok := true, data := data, endedAt := at_ } →
        exec .derivedRowWriteDone s = .next t))

/-- RAWCOPY_ROW_DONE and DERIVED_ROW_WRITE_DONE with a write that failed: the entry alone is faulted with WRITE and its
slot is written EMPTY. SLOT_EMPTY_WRITE_DONE: the slot leaves the held-slot list, the entry becomes POOL_BAD when that
write failed, and the frame goes on with the tile's next derived row, or the end of the tile, or, for a RAWCOPY, with
the next RAWCOPY entry. RAWCOPY_ROW_DONE with a row written reads the next row of the entry, past the abort point, or
after the last goes on with the next RAWCOPY entry, or with the release when none is left; with a read that failed the
frame is faulted with SOURCE_READ (R67, R82, R127 to R131). MEMORY_ATTEMPT_ANSWER of the Output Writer: a row written
in time is reported as written, one whose attempts are exhausted as failed (R173, R174; what such an attempt places,
assumption logs 3 and 31); a RAWCOPY's source row read in time is brought to the pool's depth by rounding and written
at its place in the slot, mirrored under REVERSE (R26, R127, R129, 10.8), and one whose attempts are exhausted ends as
failed. That a fault returns the first held slot first, with its entry alone taking the code then, is the model's
choice (assumption log 37), and that a retirement begins with the FRAME's completion write its inference (log 21). That
a failed derived write leaves the accumulators as they are is its choice (log 44). So are what the stores and the box
hold as a tile and a serving begin (logs 23, 35, 36 and 39), and the abort point before the positions (log 15). The
tile position that the unit holds when an ABORT is taken before a later tile is the model's choice as well (log 47). -/
def Obligations.DerivedWritesAndTheirFailures : Prop :=
  (∀ (k row : Nat) (h : HeldSlot) (data : List Byte) (at_ : Word) (s : State), s.PortSettled →
    s.heldFor k = some h → h.entry = k →
    let faulted : State := { s with
      chain := { s.chain with group := { s.chain.group with
        entries := s.chain.group.entries.modify k fun e => { e with result := some (.faulted .write) } } }
      writer := { s.writer with derivedRows := s.writer.derivedRows.filter fun r => r.entry ≠ k } }
    let back := faulted.doing (.slotEmpty k) (poolWriteReq .slotWrite h.stateOffset (leBytes 4 0))
    (accessOk (poolWriteReq .slotWrite h.stateOffset (leBytes 4 0)) s.window = true →
      (s.work = some { job := .rawWrite k row, ended := true, ok := false, data := data, endedAt := at_ } →
        exec .rawcopyRowDone s = .next back) ∧
      (s.work = some { job := .derivedRow k, ended := true, ok := false, data := data, endedAt := at_ } →
        exec .derivedRowWriteDone s = .next back)) ∧
    (s.work = some { job := .rawWrite k row, ended := true, ok := true, data := data, endedAt := at_ } →
      let f := s.frame.fields
      let d := s.entryFields k
      let r := sourceReadReq .outputWriter (f.srcOffset + (d.ry + (row + 1)) * f.srcPitch + 6 * d.rx)
        (h.width * 6)
      (row + 1 < h.height → s.ec.abortReq = false → accessOk r s.window = true →
        exec .rawcopyRowDone s = .next (s.doing (.rawRead k (row + 1)) r)) ∧
      (row + 1 < h.height → s.ec.abortReq = true →
        ∃ t, exec .rawcopyRowDone s = .next t ∧ s.FaultsWith .aborted t) ∧
      (h.height ≤ row + 1 → ∃ t, exec .rawcopyRowDone s = .next t ∧ s.CopiesFrom (k + 1) t)) ∧
    (∀ ok, s.work = some { job := .rawRead k row, ended := true, ok := ok, data := data, endedAt := at_ } →
      ok = false → ∃ t, exec .rawcopyRowDone s = .next t ∧ s.FaultsWith .sourceRead t) ∧
    (∀ ok, s.work = some { job := .slotEmpty k, ended := true, ok := ok, data := data, endedAt := at_ } →
      s.chain.flight.fault = none →
      let returned : State := { s with
        pools := { heldSlots := s.pools.heldSlots.filter fun x => x.entry ≠ k }
        chain := { s.chain with group := { s.chain.group with
          entries := if ok then s.chain.group.entries
            else s.chain.group.entries.modify k fun e => { e with result := some (.faulted .poolBad) } } } }
      ((s.entryFields k).kind ≠ 3 →
        (∀ (r : DerivedRow) (rs : List DerivedRow), s.writer.derivedRows = r :: rs →
          accessOk (rowWriteReq .derivedRowWrite r.offset r.bytes) s.window = true →
          exec .slotEmptyWriteDone s = .next (State.doing (.derivedRow r.entry)
            (rowWriteReq .derivedRowWrite r.offset r.bytes)
            { returned with writer := { s.writer with derivedRows := rs } })) ∧
        (s.writer.derivedRows = [] →
          ∃ t, exec .slotEmptyWriteDone s = .next t ∧ State.TileEnds { returned with work := none } t)) ∧
      ((s.entryFields k).kind = 3 → ∃ t, exec .slotEmptyWriteDone s = .next t ∧ returned.CopiesFrom (k + 1) t))) ∧
  ∀ (k row : Nat) (h : HeldSlot) (a : Access) (others : List Host.Cell) (s : State), s.port.inFlight = some a →
    a.phase = .attempt → a.req.block = .outputWriter → s.port.requests = [] →
    let u (m : List Host.Cell) : State := { s with dram := m, port := { s.port with inFlight := none } }
    let answers (t : State) : Prop := exec (.memoryAttemptAnswer .succeeded others) s = .next t
    (∀ bytes j, a.req.data = some bytes → j = .outRow ∨ j = .derivedRow k ∨ j = .rawWrite k row →
      s.work = some { job := j } →
      (s.OnTime → answers (State.ended j true [] (u (memWrite (memLand s.dram others) a.address bytes)))) ∧
      s.LosesWrite a bytes others (State.ended j false [])) ∧
    (a.req.data = none → s.work = some { job := .rawRead k row } →
      (s.OnTime → s.heldFor k = some h → h.depth = 8 ∨ h.depth = 10 ∨ h.depth = 12 →
        let m := memLand s.dram others
        let b := memRead m a.address a.req.length
        let reverse := decide (s.frame.fields.scan = 2)
        let component (i : Nat) : Nat :=
          let v := min (field b (2 * i) 2) 4095
          if h.depth = 12 then v else if h.depth = 8 then min ((v + 8) / 16) 255 else min ((v + 2) / 4) 1023
        let pixel (q : Nat) : List Byte :=
          let r := component (3 * q)
          let g := component (3 * q + 1)
          let b := component (3 * q + 2)
          if h.depth = 8 then leBytes 1 r ++ leBytes 1 g ++ leBytes 1 b
          else if h.depth = 10 then leBytes 4 (r + g * 1024 + b * 1048576)
          else leBytes 2 r ++ leBytes 2 g ++ leBytes 2 b
        let columns := if reverse then (List.range h.width).reverse else List.range h.width
        let write := rowWriteReq .derivedRowWrite
          (h.offset + (if reverse then h.height - 1 - row else row) * h.pitch) (columns.flatMap pixel)
        accessOk write s.window = true → answers ((u m).doing (.rawWrite k row) write)) ∧
      (s.port.retryCount < a.attempts →
        let lost (m : List Host.Cell) : State := State.ended (.rawRead k row) false [] (u m)
        (s.OnTime →
          exec (.memoryAttemptAnswer .failed others) s = .next (lost (memLand s.dram others))) ∧
        (¬s.OnTime → exec .memoryAttemptTimeout s = .next (lost s.dram))))

/-- SLOT_EMPTY_WRITE_DONE and SLOT_RELEASE_DONE: the slot leaves the held-slot list, also when its write has failed,
which an EMPTY or FILLED write that failed leaves its entry POOL_BAD for and an index write does not (R128, R130,
R131), and the next one in the list is returned, after a frame fault with the frame's code, or released FILLED (R130,
R131); that the slots are returned in the list's order, each entry taking its code as its own return begins, is the
model's choice (assumption log 37). After the last slot the frame is measured and its retirement begins: the FRAME's
completion write, those of the main-chain records, then the state words with the FRAME's last (R113, R139, R140; that
the FRAME's completion write is the first is the model's inference, assumption log 21). The FRAME's completion section
and what each main-chain record is retired with are spelled out (R113, R133 to R137, 10.2). MEMORY_ATTEMPT_ANSWER of
the Pool Manager's writes: the BUSY, EMPTY, drop-count and last-filled index writes are reported as written when they
succeed in time; after the FILLED write the last-filled index is written, at the descriptor's offset 0x08 (R124, R128,
R131); and each is reported as failed when its attempts are exhausted (R173, R174; what such an attempt places,
assumption logs 3 and 31). The slot entry's place and the bytes of FILLED are spelled out (10.7). -/
def Obligations.HeldSlotsAreGivenBackInOrder : Prop :=
  (∀ (h g : HeldSlot) (rest : List HeldSlot) (ok : Bool) (data : List Byte) (at_ : Word) (s : State),
    s.PortSettled → s.pools.heldSlots = h :: g :: rest → g.entry ≠ h.entry → (∀ x, x ∈ rest → x.entry ≠ h.entry) →
    let set (k : Nat) (r : EntryResult) (es : List DerivedEntry) :=
      es.modify k fun e => { e with result := some r }
    let on (es : List DerivedEntry) : State := { s with
      pools := { heldSlots := g :: rest }
      chain := { s.chain with group := { s.chain.group with entries := es } } }
    let entries := s.chain.group.entries
    let empty := poolWriteReq .slotWrite g.stateOffset (leBytes 4 0)
    let filled := poolWriteReq .slotWrite g.stateOffset (filledBytes g s.frame.fields.frameNumber)
    (∀ code, s.chain.flight.fault = some code →
      s.work = some { job := .slotEmpty h.entry, ended := true, ok := ok, data := data, endedAt := at_ } →
      accessOk empty s.window = true →
      exec .slotEmptyWriteDone s = .next (State.doing (.slotEmpty g.entry) empty (on
        (set g.entry (.faulted code) (if ok then entries else set h.entry (.faulted .poolBad) entries))))) ∧
    (s.work = some { job := .releaseIndex h, ended := true, ok := ok, data := data, endedAt := at_ } →
      accessOk filled s.window = true →
      exec .slotReleaseDone s = .next (State.doing (.releaseFilled g) filled
        (on (set h.entry (.filled h.slot) entries)))) ∧
    (s.work = some { job := .releaseFilled h, ended := true, ok := false, data := data, endedAt := at_ } →
      accessOk filled s.window = true →
      exec .slotReleaseDone s = .next (State.doing (.releaseFilled g) filled
        (on (set h.entry (.faulted .poolBad) entries))))) ∧
  (∀ (h : HeldSlot) (ok : Bool) (data : List Byte) (at_ : Word) (s : State), s.PortSettled →
    s.pools.heldSlots = [h] →
    let last (r : Option EntryResult) : State := State.measured { s with
      pools := { heldSlots := [] }
      chain := { s.chain with group := { s.chain.group with
        entries := match r with
          | some r => s.chain.group.entries.modify h.entry fun e => { e with result := some r }
          | none => s.chain.group.entries } } }
    let legal (t : State) : Prop := accessOk (completionReq t.frame.offset (frameCompletion t)) s.window = true
    (s.chain.flight.fault ≠ none →
      s.work = some { job := .slotEmpty h.entry, ended := true, ok := ok, data := data, endedAt := at_ } →
      let t := last (if ok then none else some (.faulted .poolBad))
      legal t → exec .slotEmptyWriteDone s = .next t.retiring) ∧
    (s.work = some { job := .releaseIndex h, ended := true, ok := ok, data := data, endedAt := at_ } →
      let t := last (some (.filled h.slot))
      legal t → exec .slotReleaseDone s = .next t.retiring) ∧
    (s.work = some { job := .releaseFilled h, ended := true, ok := false, data := data, endedAt := at_ } →
      let t := last (some (.faulted .poolBad))
      legal t → exec .slotReleaseDone s = .next t.retiring)) ∧
  (∀ (h : HeldSlot) (number : Nat), h.stateOffset = h.desc + 32 + 16 * h.slot + 4 ∧
    filledBytes h number = leBytes 4 2 ++ leBytes 4 number ++ leBytes 2 h.width ++ leBytes 2 h.height) ∧
  (∀ (h : HeldSlot) (k : Nat) (bytes : List Byte) (a : Access) (others : List Host.Cell) (s : State),
    s.port.inFlight = some a → a.phase = .attempt → a.req.block = .poolManager → a.req.data = some bytes →
    s.port.requests = [] →
    let u : State := { s with dram := memWrite (memLand s.dram others) a.address bytes
                              port := { s.port with inFlight := none } }
    let answers (t : State) : Prop := exec (.memoryAttemptAnswer .succeeded others) s = .next t
    (∀ j, j = .slotBusy h ∨ j = .dropCount k ∨ j = .slotEmpty k ∨ j = .releaseIndex h → s.work = some { job := j } →
      (s.OnTime → answers (State.ended j true [] u)) ∧ s.LosesWrite a bytes others (State.ended j false [])) ∧
    (s.work = some { job := .releaseFilled h } →
      (s.OnTime →
        let index := poolWriteReq .poolWordWrite (h.desc + 0x08) (leBytes 4 h.slot)
        accessOk index s.window = true → answers (u.doing (.releaseIndex h) index)) ∧
      s.LosesWrite a bytes others (State.ended (.releaseFilled h) false []))) ∧
  ∀ (t : State) (m : MainRecord),
    let f := t.chain.flight
    let warnings := (if t.tile.outOfFrame = 0 then 0 else 1) + (if t.tile.overspanInd then 2 else 0) +
      (if t.tile.overrange = 0 then 0 else 4)
    let results := if f.judged then t.chain.group.entries else []
    let code (c : FaultCode) : Nat := match c with
      | .groupUnterminated => 1 | .groupFull => 2 | .orphan => 3 | .format => 4 | .window => 5 | .recordWrite => 6
      | .aborted => 7 | .sourceRead => 8 | .outputWrite => 9 | .poolBad => 10 | .tooLarge => 11 | .write => 12
    let used := f.used.flags
    let flags := (if used.stale then 1 else 0) + (if used.hold then 2 else 0) + (if used.moving then 4 else 0) +
      (if used.lensNew then 8 else 0) + (if used.unknownLens then 16 else 0) + (if used.outsideGrid then 32 else 0) +
      (if used.override then 64 else 0)
    let resultBytes (e : DerivedEntry) : List Byte :=
      leBytes 4 e.offset ++ leBytes 1 e.fields.pool ++
      (match e.result with
        | some (.filled slot) => leBytes 1 1 ++ leBytes 1 slot
        | some .dropped => leBytes 1 2 ++ leBytes 1 0
        | some .skippedCondition => leBytes 1 3 ++ leBytes 1 0
        | some .skippedRelief => leBytes 1 4 ++ leBytes 1 0
        | some (.faulted c) => leBytes 1 5 ++ leBytes 1 (code c)
        | none => leBytes 1 0 ++ leBytes 1 0) ++
      flagByte e.clipped
    let retires (section_ : List Byte) (st : RecordState) : Prop :=
      mainCompletion t m = completionReq m.offset section_ ∧ retiredState t m = st
    frameCompletion t =
      leBytes 1 (match f.fault with | some c => code c | none => 0) ++
      leBytes 1 (match f.fault with | some c => code c | none => if warnings = 0 then 0x80 else 0x81) ++
      leBytes 1 warnings ++ leBytes 1 flags ++ leBytes 1 results.length ++ flagByte f.overrun ++
      leBytes 2 f.used.zoom ++ leBytes 4 f.used.lens ++ leBytes 2 f.used.focus ++ zeroBytes 2 ++
      leBytes 4 t.pace.takeTime.toNat ++ leBytes 4 f.duration.toNat ++ leBytes 4 t.tile.outOfFrame ++
      leBytes 4 t.tile.overspan ++ leBytes 4 t.tile.overrange ++
      ((results.flatMap resultBytes) ++ zeroBytes 32).take 32 ∧
    (m.kind ≠ .derived → retires [0, 0, 0, 0] .done) ∧
    (m.kind = .derived →
      (m.entry = none → retires [2, 5, 0, 0] .faulted) ∧
      (∀ k, m.entry = some k →
        (f.judged = false → retires [0, 6, 0, 0] .skipped) ∧
        (f.judged = true → ∀ e, t.chain.group.entries[k]? = some e →
          (∀ slot, e.result = some (.filled slot) → retires ([0, 1] ++ leBytes 1 slot ++ [0]) .done) ∧
          (e.result = some .dropped → retires [0, 2, 0, 0] .skipped) ∧
          (e.result = some .skippedCondition → retires [0, 3, 0, 0] .skipped) ∧
          (e.result = some .skippedRelief → retires [0, 4, 0, 0] .skipped) ∧
          (∀ c, e.result = some (.faulted c) → retires (leBytes 1 (code c) ++ [5, 0, 0]) .faulted))))

/-! ### The arithmetic of the correction -/

/-- R10, R11: the offset of a pixel's centre, and its normalized squared radius u: the floor of the quotient, held to
131071, so that idx lies in 0..127 and frac in 0..1023. R13: the position of each colour, from its own table and the
centre, less 8, rounded once. R14 to R16: a pixel is out of frame when one of its three positions lies outside the
source; under CLAMP each position is held to the source's edges; under FILL a pixel that is out of frame has its fill
mark set, and any other keeps its positions. That the positions of a pixel with its fill mark set show as (0, 0) is the
model's choice (assumption log 39). -/
def Obligations.PixelOffsetFromTheCentre : Prop :=
  (∀ x w : Nat, centreOffset x w = 16 * (x : Int) + 8 - 8 * (w : Int) ∧
    (w % 2 = 0 → centreOffset x w ≠ 0 ∧
      (1 ≤ w → centreOffset (w / 2 - 1) w = -8 ∧ centreOffset (w / 2) w = 8)) ∧
    (w % 2 = 1 → centreOffset (w / 2) w = 0)) ∧
  (∀ (dx dy : Int) (rn : Nat), 1 ≤ rn →
    let u := radiusU dx dy rn
    let scaled := (dx ^ 2 + dy ^ 2) * 65536
    let unit := 256 * (rn : Int) ^ 2
    u ≤ 131071 ∧ (u : Int) * unit ≤ scaled ∧ (u < 131071 → scaled < ((u : Int) + 1) * unit) ∧
    u / 1024 ≤ 127 ∧ (dx ^ 2 + dy ^ 2 = unit → u = 65536 ∧ u / 1024 = 64)) ∧
  ∀ (t : Tables) (f : FrameFields) (rn x y : Nat),
    let dx := centreOffset x f.outW
    let dy := centreOffset y f.outH
    let position (table : List Int) : Pos :=
      let s := magnification table (radiusU dx dy rn)
      { xs := t.cx16 + rndDiv (dx * s) 65536 - 8, ys := t.cy16 + rndDiv (dy * s) 65536 - 8 }
    let red := position t.red
    let green := position t.green
    let blue := position t.blue
    let right : Int := 16 * ((f.srcW : Int) - 1)
    let bottom : Int := 16 * ((f.srcH : Int) - 1)
    let inside (p : Pos) : Prop := 0 ≤ p.xs ∧ p.xs ≤ right ∧ 0 ≤ p.ys ∧ p.ys ≤ bottom
    let held (v last : Int) : Int := if v < 0 then 0 else if last < v then last else v
    let clamped (p : Pos) : Pos := { xs := held p.xs right, ys := held p.ys bottom }
    let out : Prop := ¬(inside red ∧ inside green ∧ inside blue)
    let stored := pixelPos t f rn x y
    rawPositions t f rn x y = (red, green, blue) ∧
    (pixelOut t f rn x y = true ↔ out) ∧
    (f.edge = 1 → stored = { fill := false, r := clamped red, g := clamped green, b := clamped blue }) ∧
    (f.edge = 2 → ¬out → stored = { fill := false, r := red, g := green, b := blue }) ∧
    (f.edge = 2 → out → stored = { fill := true, r := ⟨0, 0⟩, g := ⟨0, 0⟩, b := ⟨0, 0⟩ })

/-- R12: the interpolation, its rounded step, and its range when the table's entries are in theirs; the three colours
of a pixel share one u, which is R11's of the pixel's two offsets and the normalization radius, and so its index and
fraction, and differ only in the table read, from which each position follows (R13). -/
def Obligations.MagnificationLiesBetweenItsEntries : Prop :=
  (∀ (t : Tables) (f : FrameFields) (rn x y : Nat),
    let dx := centreOffset x f.outW
    let dy := centreOffset y f.outH
    let u := radiusU dx dy rn
    let position (table : List Int) : Pos :=
      let s := magnification table u
      { xs := t.cx16 + rndDiv (dx * s) 65536 - 8, ys := t.cy16 + rndDiv (dy * s) 65536 - 8 }
    u ≤ 131071 ∧ rawPositions t f rn x y = (position t.red, position t.green, position t.blue)) ∧
  ∀ (table : List Int) (u : Nat), table.length = 129 → u ≤ 131071 →
    let lower := table.getD (u / 1024) 65536
    let upper := table.getD (u / 1024 + 1) 65536
    let s := magnification table u
    s = lower + rndDiv ((upper - lower) * ((u - 1024 * (u / 1024) : Nat) : Int)) 1024 ∧
    min lower upper ≤ s ∧ s ≤ max lower upper ∧
    (tableOk table = true → 32768 ≤ s ∧ s ≤ 131071)

/-- R19: the bilinear value, its range, and the cases the rule names. -/
def Obligations.BilinearSample : Prop :=
  ∀ fx fy p00 p10 p01 p11 : Nat, fx ≤ 15 → fy ≤ 15 → p00 ≤ 4095 → p10 ≤ 4095 → p01 ≤ 4095 → p11 ≤ 4095 →
    bilinear fx fy p00 p10 p01 p11 =
      ((16 - fx) * (16 - fy) * p00 + fx * (16 - fy) * p10 + (16 - fx) * fy * p01 + fx * fy * p11 + 128) / 256 ∧
    (16 - fx) * (16 - fy) + fx * (16 - fy) + (16 - fx) * fy + fx * fy = 256 ∧
    bilinear fx fy p00 p10 p01 p11 ≤ 4095 ∧
    bilinear 0 0 p00 p10 p01 p11 = p00 ∧
    bilinear 8 0 p00 p00 p01 p11 = p00 ∧ bilinear 0 8 p00 p10 p00 p11 = p00 ∧
    bilinear 8 0 p00 (p00 + 1) p01 p11 = p00 + 1 ∧ bilinear 8 0 (p00 + 1) p00 p01 p11 = p00 + 1 ∧
    bilinear 0 8 p00 p10 (p00 + 1) p11 = p00 + 1 ∧ bilinear 0 8 (p00 + 1) p10 p00 p11 = p00 + 1 ∧
    bilinear 8 0 2000 2001 p01 p11 = 2001

/-- R43: on strictly ascending stops the bracket of a value is the first stop at or below it, the last stop at or above
it, and between them the largest stop not above the value, the next one, and the floor of the weight, which is at most
4095. R44: only a value outside the stops of an axis of more than one is outside the grid. R45: a blend is the first
input plus the rounded step, the nearest integer with halves away from zero, which lies between the inputs for every
interpolation weight; each of the nine fields is blended along focus in the two zoom rows, and then along zoom. R42,
R46, R47: a frame resolved from a copy is interpolated at its own zoom and focus, or under HOLD at the rest node's stop
and code but for an axis that the override supplies, and reports what it was interpolated at; one under UNKNOWN_LENS has
a set of zeros. Under HOLD without an override the rest node's fields come out unchanged and OUTSIDE_GRID is not
flagged. -/
def Obligations.InterpolationStaysBetweenItsNodes : Prop :=
  (∀ (stops : List Nat) (v : Nat), stops ≠ [] → ascending stops = true →
    let n := stops.length
    let stop (i : Nat) : Nat := stops.getD i 0
    (v ≤ stop 0 → bracket stops v = (0, 0, 0)) ∧
    (stop 0 < v → stop (n - 1) ≤ v → bracket stops v = (n - 1, n - 1, 0)) ∧
    (stop 0 < v → v < stop (n - 1) → ∃ i, i + 1 < n ∧ stop i ≤ v ∧ v < stop (i + 1) ∧
      bracket stops v = (i, i + 1, (v - stop i) * 4096 / (stop (i + 1) - stop i))) ∧
    (bracket stops v).2.2 ≤ 4095 ∧
    (outsideAxis stops v = true ↔ n ≠ 1 ∧ (v < stop 0 ∨ stop (n - 1) < v))) ∧
  (∀ (a b : Int) (w : Nat),
    let product := (b - a) * w
    let step := blend a b w - a
    2 * (product - step * 4096) ≤ 4096 ∧ 2 * (step * 4096 - product) ≤ 4096 ∧
    (2 * (product - step * 4096) = 4096 → product < 0) ∧ (2 * (step * 4096 - product) = 4096 → 0 < product) ∧
    (w ≤ 4095 → min a b ≤ blend a b w ∧ blend a b w ≤ max a b) ∧ blend a a w = a ∧ blend a b 0 = a) ∧
  (∀ (p : Profile) (zoom focus : Nat) (get : Coeffs → Int),
    get ∈ [Coeffs.k1, Coeffs.k2, Coeffs.k3, Coeffs.ar, Coeffs.br, Coeffs.ab, Coeffs.bb, Coeffs.sx, Coeffs.sy] →
    let z := bracket p.zooms zoom
    let f := bracket p.foci focus
    let node (i j : Nat) : Int := get (p.nodes.getD (i * p.foci.length + j) {})
    let row (i : Nat) : Int := node i f.1 + rndDiv ((node i f.2.1 - node i f.1) * f.2.2) 4096
    get (interpolate p zoom focus) = row z.1 + rndDiv ((row z.2.1 - row z.1) * z.2.2) 4096) ∧
  ∀ (p : Profile) (f : LensFrame) (o : Override),
    let zoom : Nat := match f.flags.hold, o.zoom with
      | true, some v => v
      | true, none => p.zooms.getD p.restZoom 0
      | false, _ => f.zoom.getD 0
    let focus : Nat := match f.flags.hold, o.focus with
      | true, some v => min v 4095
      | true, none => p.foci.getD p.restFocus 0
      | false, _ => f.focus.getD 0
    resolveFrom p f o =
      { coeffs := interpolate p zoom focus
        used := { lens := f.lens.getD 0, zoom := zoom, focus := focus
                  flags := { f.flags with
                    outsideGrid := outsideAxis p.zooms zoom || outsideAxis p.foci focus } } } ∧
    resolveUnknown f =
      { coeffs := { k1 := 0, k2 := 0, k3 := 0, ar := 0, br := 0, ab := 0, bb := 0, sx := 0, sy := 0 }
        used := { lens := f.lens.getD 0, zoom := f.zoom.getD 0, focus := f.focus.getD 0
                  flags := { f.flags with unknownLens := true } } } ∧
    (f.flags.hold = true → o.zoom = none → o.focus = none → ascending p.zooms = true → ascending p.foci = true →
      p.restZoom < p.zooms.length → p.restFocus < p.foci.length →
      (resolveFrom p f o).coeffs = p.nodes.getD (p.restZoom * p.foci.length + p.restFocus) {} ∧
      (resolveFrom p f o).used.flags.outsideGrid = false)
end

