-- ==== Sys2Proof/Laws/State.lean ====
section
/-! SUPPORT. One lemma per field per update of State, true by definition, so that no later proof unfolds a
record update. -/

namespace Sys2Proof.Machine.State

variable (s : State)

/-! ### mapReg -/

section
variable (f : RegisterInterface → RegisterInterface)
@[simp] theorem mapReg_reg : (s.mapReg f).reg = f s.reg := rfl
@[simp] theorem mapReg_ec : (s.mapReg f).ec = s.ec := rfl
@[simp] theorem mapReg_chain : (s.mapReg f).chain = s.chain := rfl
@[simp] theorem mapReg_lens : (s.mapReg f).lens = s.lens := rfl
@[simp] theorem mapReg_cache : (s.mapReg f).cache = s.cache := rfl
@[simp] theorem mapReg_tables : (s.mapReg f).tables = s.tables := rfl
@[simp] theorem mapReg_tile : (s.mapReg f).tile = s.tile := rfl
@[simp] theorem mapReg_writer : (s.mapReg f).writer = s.writer := rfl
@[simp] theorem mapReg_pools : (s.mapReg f).pools = s.pools := rfl
@[simp] theorem mapReg_pace : (s.mapReg f).pace = s.pace := rfl
@[simp] theorem mapReg_port : (s.mapReg f).port = s.port := rfl
@[simp] theorem mapReg_work : (s.mapReg f).work = s.work := rfl
@[simp] theorem mapReg_dram : (s.mapReg f).dram = s.dram := rfl
@[simp] theorem mapReg_freeCount : (s.mapReg f).freeCount = s.freeCount := rfl
@[simp] theorem mapReg_pending : (s.mapReg f).pending = s.pending := rfl
end

/-! ### mapEc -/

section
variable (f : Controller → Controller)
@[simp] theorem mapEc_reg : (s.mapEc f).reg = s.reg := rfl
@[simp] theorem mapEc_ec : (s.mapEc f).ec = f s.ec := rfl
@[simp] theorem mapEc_chain : (s.mapEc f).chain = s.chain := rfl
@[simp] theorem mapEc_lens : (s.mapEc f).lens = s.lens := rfl
@[simp] theorem mapEc_cache : (s.mapEc f).cache = s.cache := rfl
@[simp] theorem mapEc_tables : (s.mapEc f).tables = s.tables := rfl
@[simp] theorem mapEc_tile : (s.mapEc f).tile = s.tile := rfl
@[simp] theorem mapEc_writer : (s.mapEc f).writer = s.writer := rfl
@[simp] theorem mapEc_pools : (s.mapEc f).pools = s.pools := rfl
@[simp] theorem mapEc_pace : (s.mapEc f).pace = s.pace := rfl
@[simp] theorem mapEc_port : (s.mapEc f).port = s.port := rfl
@[simp] theorem mapEc_work : (s.mapEc f).work = s.work := rfl
@[simp] theorem mapEc_dram : (s.mapEc f).dram = s.dram := rfl
@[simp] theorem mapEc_freeCount : (s.mapEc f).freeCount = s.freeCount := rfl
@[simp] theorem mapEc_pending : (s.mapEc f).pending = s.pending := rfl
end

/-! ### mapChain -/

section
variable (f : ChainReader → ChainReader)
@[simp] theorem mapChain_reg : (s.mapChain f).reg = s.reg := rfl
@[simp] theorem mapChain_ec : (s.mapChain f).ec = s.ec := rfl
@[simp] theorem mapChain_chain : (s.mapChain f).chain = f s.chain := rfl
@[simp] theorem mapChain_lens : (s.mapChain f).lens = s.lens := rfl
@[simp] theorem mapChain_cache : (s.mapChain f).cache = s.cache := rfl
@[simp] theorem mapChain_tables : (s.mapChain f).tables = s.tables := rfl
@[simp] theorem mapChain_tile : (s.mapChain f).tile = s.tile := rfl
@[simp] theorem mapChain_writer : (s.mapChain f).writer = s.writer := rfl
@[simp] theorem mapChain_pools : (s.mapChain f).pools = s.pools := rfl
@[simp] theorem mapChain_pace : (s.mapChain f).pace = s.pace := rfl
@[simp] theorem mapChain_port : (s.mapChain f).port = s.port := rfl
@[simp] theorem mapChain_work : (s.mapChain f).work = s.work := rfl
@[simp] theorem mapChain_dram : (s.mapChain f).dram = s.dram := rfl
@[simp] theorem mapChain_freeCount : (s.mapChain f).freeCount = s.freeCount := rfl
@[simp] theorem mapChain_pending : (s.mapChain f).pending = s.pending := rfl
end

/-! ### mapLens -/

section
variable (f : LensUnit → LensUnit)
@[simp] theorem mapLens_reg : (s.mapLens f).reg = s.reg := rfl
@[simp] theorem mapLens_ec : (s.mapLens f).ec = s.ec := rfl
@[simp] theorem mapLens_chain : (s.mapLens f).chain = s.chain := rfl
@[simp] theorem mapLens_lens : (s.mapLens f).lens = f s.lens := rfl
@[simp] theorem mapLens_cache : (s.mapLens f).cache = s.cache := rfl
@[simp] theorem mapLens_tables : (s.mapLens f).tables = s.tables := rfl
@[simp] theorem mapLens_tile : (s.mapLens f).tile = s.tile := rfl
@[simp] theorem mapLens_writer : (s.mapLens f).writer = s.writer := rfl
@[simp] theorem mapLens_pools : (s.mapLens f).pools = s.pools := rfl
@[simp] theorem mapLens_pace : (s.mapLens f).pace = s.pace := rfl
@[simp] theorem mapLens_port : (s.mapLens f).port = s.port := rfl
@[simp] theorem mapLens_work : (s.mapLens f).work = s.work := rfl
@[simp] theorem mapLens_dram : (s.mapLens f).dram = s.dram := rfl
@[simp] theorem mapLens_freeCount : (s.mapLens f).freeCount = s.freeCount := rfl
@[simp] theorem mapLens_pending : (s.mapLens f).pending = s.pending := rfl
end

/-! ### mapCache -/

section
variable (f : Cache → Cache)
@[simp] theorem mapCache_reg : (s.mapCache f).reg = s.reg := rfl
@[simp] theorem mapCache_ec : (s.mapCache f).ec = s.ec := rfl
@[simp] theorem mapCache_chain : (s.mapCache f).chain = s.chain := rfl
@[simp] theorem mapCache_lens : (s.mapCache f).lens = s.lens := rfl
@[simp] theorem mapCache_cache : (s.mapCache f).cache = f s.cache := rfl
@[simp] theorem mapCache_tables : (s.mapCache f).tables = s.tables := rfl
@[simp] theorem mapCache_tile : (s.mapCache f).tile = s.tile := rfl
@[simp] theorem mapCache_writer : (s.mapCache f).writer = s.writer := rfl
@[simp] theorem mapCache_pools : (s.mapCache f).pools = s.pools := rfl
@[simp] theorem mapCache_pace : (s.mapCache f).pace = s.pace := rfl
@[simp] theorem mapCache_port : (s.mapCache f).port = s.port := rfl
@[simp] theorem mapCache_work : (s.mapCache f).work = s.work := rfl
@[simp] theorem mapCache_dram : (s.mapCache f).dram = s.dram := rfl
@[simp] theorem mapCache_freeCount : (s.mapCache f).freeCount = s.freeCount := rfl
@[simp] theorem mapCache_pending : (s.mapCache f).pending = s.pending := rfl
end

/-! ### mapTile -/

section
variable (f : TileUnit → TileUnit)
@[simp] theorem mapTile_reg : (s.mapTile f).reg = s.reg := rfl
@[simp] theorem mapTile_ec : (s.mapTile f).ec = s.ec := rfl
@[simp] theorem mapTile_chain : (s.mapTile f).chain = s.chain := rfl
@[simp] theorem mapTile_lens : (s.mapTile f).lens = s.lens := rfl
@[simp] theorem mapTile_cache : (s.mapTile f).cache = s.cache := rfl
@[simp] theorem mapTile_tables : (s.mapTile f).tables = s.tables := rfl
@[simp] theorem mapTile_tile : (s.mapTile f).tile = f s.tile := rfl
@[simp] theorem mapTile_writer : (s.mapTile f).writer = s.writer := rfl
@[simp] theorem mapTile_pools : (s.mapTile f).pools = s.pools := rfl
@[simp] theorem mapTile_pace : (s.mapTile f).pace = s.pace := rfl
@[simp] theorem mapTile_port : (s.mapTile f).port = s.port := rfl
@[simp] theorem mapTile_work : (s.mapTile f).work = s.work := rfl
@[simp] theorem mapTile_dram : (s.mapTile f).dram = s.dram := rfl
@[simp] theorem mapTile_freeCount : (s.mapTile f).freeCount = s.freeCount := rfl
@[simp] theorem mapTile_pending : (s.mapTile f).pending = s.pending := rfl
end

/-! ### mapWriter -/

section
variable (f : Writer → Writer)
@[simp] theorem mapWriter_reg : (s.mapWriter f).reg = s.reg := rfl
@[simp] theorem mapWriter_ec : (s.mapWriter f).ec = s.ec := rfl
@[simp] theorem mapWriter_chain : (s.mapWriter f).chain = s.chain := rfl
@[simp] theorem mapWriter_lens : (s.mapWriter f).lens = s.lens := rfl
@[simp] theorem mapWriter_cache : (s.mapWriter f).cache = s.cache := rfl
@[simp] theorem mapWriter_tables : (s.mapWriter f).tables = s.tables := rfl
@[simp] theorem mapWriter_tile : (s.mapWriter f).tile = s.tile := rfl
@[simp] theorem mapWriter_writer : (s.mapWriter f).writer = f s.writer := rfl
@[simp] theorem mapWriter_pools : (s.mapWriter f).pools = s.pools := rfl
@[simp] theorem mapWriter_pace : (s.mapWriter f).pace = s.pace := rfl
@[simp] theorem mapWriter_port : (s.mapWriter f).port = s.port := rfl
@[simp] theorem mapWriter_work : (s.mapWriter f).work = s.work := rfl
@[simp] theorem mapWriter_dram : (s.mapWriter f).dram = s.dram := rfl
@[simp] theorem mapWriter_freeCount : (s.mapWriter f).freeCount = s.freeCount := rfl
@[simp] theorem mapWriter_pending : (s.mapWriter f).pending = s.pending := rfl
end

/-! ### mapPools -/

section
variable (f : PoolManager → PoolManager)
@[simp] theorem mapPools_reg : (s.mapPools f).reg = s.reg := rfl
@[simp] theorem mapPools_ec : (s.mapPools f).ec = s.ec := rfl
@[simp] theorem mapPools_chain : (s.mapPools f).chain = s.chain := rfl
@[simp] theorem mapPools_lens : (s.mapPools f).lens = s.lens := rfl
@[simp] theorem mapPools_cache : (s.mapPools f).cache = s.cache := rfl
@[simp] theorem mapPools_tables : (s.mapPools f).tables = s.tables := rfl
@[simp] theorem mapPools_tile : (s.mapPools f).tile = s.tile := rfl
@[simp] theorem mapPools_writer : (s.mapPools f).writer = s.writer := rfl
@[simp] theorem mapPools_pools : (s.mapPools f).pools = f s.pools := rfl
@[simp] theorem mapPools_pace : (s.mapPools f).pace = s.pace := rfl
@[simp] theorem mapPools_port : (s.mapPools f).port = s.port := rfl
@[simp] theorem mapPools_work : (s.mapPools f).work = s.work := rfl
@[simp] theorem mapPools_dram : (s.mapPools f).dram = s.dram := rfl
@[simp] theorem mapPools_freeCount : (s.mapPools f).freeCount = s.freeCount := rfl
@[simp] theorem mapPools_pending : (s.mapPools f).pending = s.pending := rfl
end

/-! ### mapPace -/

section
variable (f : PaceMonitor → PaceMonitor)
@[simp] theorem mapPace_reg : (s.mapPace f).reg = s.reg := rfl
@[simp] theorem mapPace_ec : (s.mapPace f).ec = s.ec := rfl
@[simp] theorem mapPace_chain : (s.mapPace f).chain = s.chain := rfl
@[simp] theorem mapPace_lens : (s.mapPace f).lens = s.lens := rfl
@[simp] theorem mapPace_cache : (s.mapPace f).cache = s.cache := rfl
@[simp] theorem mapPace_tables : (s.mapPace f).tables = s.tables := rfl
@[simp] theorem mapPace_tile : (s.mapPace f).tile = s.tile := rfl
@[simp] theorem mapPace_writer : (s.mapPace f).writer = s.writer := rfl
@[simp] theorem mapPace_pools : (s.mapPace f).pools = s.pools := rfl
@[simp] theorem mapPace_pace : (s.mapPace f).pace = f s.pace := rfl
@[simp] theorem mapPace_port : (s.mapPace f).port = s.port := rfl
@[simp] theorem mapPace_work : (s.mapPace f).work = s.work := rfl
@[simp] theorem mapPace_dram : (s.mapPace f).dram = s.dram := rfl
@[simp] theorem mapPace_freeCount : (s.mapPace f).freeCount = s.freeCount := rfl
@[simp] theorem mapPace_pending : (s.mapPace f).pending = s.pending := rfl
end

/-! ### mapPort -/

section
variable (f : Port → Port)
@[simp] theorem mapPort_reg : (s.mapPort f).reg = s.reg := rfl
@[simp] theorem mapPort_ec : (s.mapPort f).ec = s.ec := rfl
@[simp] theorem mapPort_chain : (s.mapPort f).chain = s.chain := rfl
@[simp] theorem mapPort_lens : (s.mapPort f).lens = s.lens := rfl
@[simp] theorem mapPort_cache : (s.mapPort f).cache = s.cache := rfl
@[simp] theorem mapPort_tables : (s.mapPort f).tables = s.tables := rfl
@[simp] theorem mapPort_tile : (s.mapPort f).tile = s.tile := rfl
@[simp] theorem mapPort_writer : (s.mapPort f).writer = s.writer := rfl
@[simp] theorem mapPort_pools : (s.mapPort f).pools = s.pools := rfl
@[simp] theorem mapPort_pace : (s.mapPort f).pace = s.pace := rfl
@[simp] theorem mapPort_port : (s.mapPort f).port = f s.port := rfl
@[simp] theorem mapPort_work : (s.mapPort f).work = s.work := rfl
@[simp] theorem mapPort_dram : (s.mapPort f).dram = s.dram := rfl
@[simp] theorem mapPort_freeCount : (s.mapPort f).freeCount = s.freeCount := rfl
@[simp] theorem mapPort_pending : (s.mapPort f).pending = s.pending := rfl
end

/-! ### setTables -/

section
variable (t : Tables)
@[simp] theorem setTables_reg : (s.setTables t).reg = s.reg := rfl
@[simp] theorem setTables_ec : (s.setTables t).ec = s.ec := rfl
@[simp] theorem setTables_chain : (s.setTables t).chain = s.chain := rfl
@[simp] theorem setTables_lens : (s.setTables t).lens = s.lens := rfl
@[simp] theorem setTables_cache : (s.setTables t).cache = s.cache := rfl
@[simp] theorem setTables_tables : (s.setTables t).tables = t := rfl
@[simp] theorem setTables_tile : (s.setTables t).tile = s.tile := rfl
@[simp] theorem setTables_writer : (s.setTables t).writer = s.writer := rfl
@[simp] theorem setTables_pools : (s.setTables t).pools = s.pools := rfl
@[simp] theorem setTables_pace : (s.setTables t).pace = s.pace := rfl
@[simp] theorem setTables_port : (s.setTables t).port = s.port := rfl
@[simp] theorem setTables_work : (s.setTables t).work = s.work := rfl
@[simp] theorem setTables_dram : (s.setTables t).dram = s.dram := rfl
@[simp] theorem setTables_freeCount : (s.setTables t).freeCount = s.freeCount := rfl
@[simp] theorem setTables_pending : (s.setTables t).pending = s.pending := rfl
end

/-! ### setWork -/

section
variable (w : Option Work)
@[simp] theorem setWork_reg : (s.setWork w).reg = s.reg := rfl
@[simp] theorem setWork_ec : (s.setWork w).ec = s.ec := rfl
@[simp] theorem setWork_chain : (s.setWork w).chain = s.chain := rfl
@[simp] theorem setWork_lens : (s.setWork w).lens = s.lens := rfl
@[simp] theorem setWork_cache : (s.setWork w).cache = s.cache := rfl
@[simp] theorem setWork_tables : (s.setWork w).tables = s.tables := rfl
@[simp] theorem setWork_tile : (s.setWork w).tile = s.tile := rfl
@[simp] theorem setWork_writer : (s.setWork w).writer = s.writer := rfl
@[simp] theorem setWork_pools : (s.setWork w).pools = s.pools := rfl
@[simp] theorem setWork_pace : (s.setWork w).pace = s.pace := rfl
@[simp] theorem setWork_port : (s.setWork w).port = s.port := rfl
@[simp] theorem setWork_work : (s.setWork w).work = w := rfl
@[simp] theorem setWork_dram : (s.setWork w).dram = s.dram := rfl
@[simp] theorem setWork_freeCount : (s.setWork w).freeCount = s.freeCount := rfl
@[simp] theorem setWork_pending : (s.setWork w).pending = s.pending := rfl
end

/-! ### setDram -/

section
variable (m : List Host.Cell)
@[simp] theorem setDram_reg : (s.setDram m).reg = s.reg := rfl
@[simp] theorem setDram_ec : (s.setDram m).ec = s.ec := rfl
@[simp] theorem setDram_chain : (s.setDram m).chain = s.chain := rfl
@[simp] theorem setDram_lens : (s.setDram m).lens = s.lens := rfl
@[simp] theorem setDram_cache : (s.setDram m).cache = s.cache := rfl
@[simp] theorem setDram_tables : (s.setDram m).tables = s.tables := rfl
@[simp] theorem setDram_tile : (s.setDram m).tile = s.tile := rfl
@[simp] theorem setDram_writer : (s.setDram m).writer = s.writer := rfl
@[simp] theorem setDram_pools : (s.setDram m).pools = s.pools := rfl
@[simp] theorem setDram_pace : (s.setDram m).pace = s.pace := rfl
@[simp] theorem setDram_port : (s.setDram m).port = s.port := rfl
@[simp] theorem setDram_work : (s.setDram m).work = s.work := rfl
@[simp] theorem setDram_dram : (s.setDram m).dram = m := rfl
@[simp] theorem setDram_freeCount : (s.setDram m).freeCount = s.freeCount := rfl
@[simp] theorem setDram_pending : (s.setDram m).pending = s.pending := rfl
end

/-! ### mapGroup -/

section
variable (f : Group → Group)
@[simp] theorem mapGroup_reg : (s.mapGroup f).reg = s.reg := rfl
@[simp] theorem mapGroup_ec : (s.mapGroup f).ec = s.ec := rfl
@[simp] theorem mapGroup_chain : (s.mapGroup f).chain = { s.chain with group := f s.chain.group } := rfl
@[simp] theorem mapGroup_lens : (s.mapGroup f).lens = s.lens := rfl
@[simp] theorem mapGroup_cache : (s.mapGroup f).cache = s.cache := rfl
@[simp] theorem mapGroup_tables : (s.mapGroup f).tables = s.tables := rfl
@[simp] theorem mapGroup_tile : (s.mapGroup f).tile = s.tile := rfl
@[simp] theorem mapGroup_writer : (s.mapGroup f).writer = s.writer := rfl
@[simp] theorem mapGroup_pools : (s.mapGroup f).pools = s.pools := rfl
@[simp] theorem mapGroup_pace : (s.mapGroup f).pace = s.pace := rfl
@[simp] theorem mapGroup_port : (s.mapGroup f).port = s.port := rfl
@[simp] theorem mapGroup_work : (s.mapGroup f).work = s.work := rfl
@[simp] theorem mapGroup_dram : (s.mapGroup f).dram = s.dram := rfl
@[simp] theorem mapGroup_freeCount : (s.mapGroup f).freeCount = s.freeCount := rfl
@[simp] theorem mapGroup_pending : (s.mapGroup f).pending = s.pending := rfl
end

/-! ### mapFlight -/

section
variable (f : Flight → Flight)
@[simp] theorem mapFlight_reg : (s.mapFlight f).reg = s.reg := rfl
@[simp] theorem mapFlight_ec : (s.mapFlight f).ec = s.ec := rfl
@[simp] theorem mapFlight_chain : (s.mapFlight f).chain = { s.chain with flight := f s.chain.flight } := rfl
@[simp] theorem mapFlight_lens : (s.mapFlight f).lens = s.lens := rfl
@[simp] theorem mapFlight_cache : (s.mapFlight f).cache = s.cache := rfl
@[simp] theorem mapFlight_tables : (s.mapFlight f).tables = s.tables := rfl
@[simp] theorem mapFlight_tile : (s.mapFlight f).tile = s.tile := rfl
@[simp] theorem mapFlight_writer : (s.mapFlight f).writer = s.writer := rfl
@[simp] theorem mapFlight_pools : (s.mapFlight f).pools = s.pools := rfl
@[simp] theorem mapFlight_pace : (s.mapFlight f).pace = s.pace := rfl
@[simp] theorem mapFlight_port : (s.mapFlight f).port = s.port := rfl
@[simp] theorem mapFlight_work : (s.mapFlight f).work = s.work := rfl
@[simp] theorem mapFlight_dram : (s.mapFlight f).dram = s.dram := rfl
@[simp] theorem mapFlight_freeCount : (s.mapFlight f).freeCount = s.freeCount := rfl
@[simp] theorem mapFlight_pending : (s.mapFlight f).pending = s.pending := rfl
end

/-! ### setEvents -/

section
variable (e : BitVec 10)
@[simp] theorem setEvents_reg : (s.setEvents e).reg = { s.reg with events := s.reg.events ||| e } := rfl
@[simp] theorem setEvents_ec : (s.setEvents e).ec = s.ec := rfl
@[simp] theorem setEvents_chain : (s.setEvents e).chain = s.chain := rfl
@[simp] theorem setEvents_lens : (s.setEvents e).lens = s.lens := rfl
@[simp] theorem setEvents_cache : (s.setEvents e).cache = s.cache := rfl
@[simp] theorem setEvents_tables : (s.setEvents e).tables = s.tables := rfl
@[simp] theorem setEvents_tile : (s.setEvents e).tile = s.tile := rfl
@[simp] theorem setEvents_writer : (s.setEvents e).writer = s.writer := rfl
@[simp] theorem setEvents_pools : (s.setEvents e).pools = s.pools := rfl
@[simp] theorem setEvents_pace : (s.setEvents e).pace = s.pace := rfl
@[simp] theorem setEvents_port : (s.setEvents e).port = s.port := rfl
@[simp] theorem setEvents_work : (s.setEvents e).work = s.work := rfl
@[simp] theorem setEvents_dram : (s.setEvents e).dram = s.dram := rfl
@[simp] theorem setEvents_freeCount : (s.setEvents e).freeCount = s.freeCount := rfl
@[simp] theorem setEvents_pending : (s.setEvents e).pending = s.pending := rfl
end

/-! ### submit -/

section
variable (r : Request)
@[simp] theorem submit_reg : (s.submit r).reg = s.reg := rfl
@[simp] theorem submit_ec : (s.submit r).ec = s.ec := rfl
@[simp] theorem submit_chain : (s.submit r).chain = s.chain := rfl
@[simp] theorem submit_lens : (s.submit r).lens = s.lens := rfl
@[simp] theorem submit_cache : (s.submit r).cache = s.cache := rfl
@[simp] theorem submit_tables : (s.submit r).tables = s.tables := rfl
@[simp] theorem submit_tile : (s.submit r).tile = s.tile := rfl
@[simp] theorem submit_writer : (s.submit r).writer = s.writer := rfl
@[simp] theorem submit_pools : (s.submit r).pools = s.pools := rfl
@[simp] theorem submit_pace : (s.submit r).pace = s.pace := rfl
@[simp] theorem submit_port : (s.submit r).port = { s.port with requests := s.port.requests ++ [r] } := rfl
@[simp] theorem submit_work : (s.submit r).work = s.work := rfl
@[simp] theorem submit_dram : (s.submit r).dram = s.dram := rfl
@[simp] theorem submit_freeCount : (s.submit r).freeCount = s.freeCount := rfl
@[simp] theorem submit_pending : (s.submit r).pending = s.pending := rfl
end

/-! ### doJob -/

section
variable (j : Job) (r : Request)
@[simp] theorem doJob_reg : (s.doJob j r).reg = s.reg := rfl
@[simp] theorem doJob_ec : (s.doJob j r).ec = s.ec := rfl
@[simp] theorem doJob_chain : (s.doJob j r).chain = s.chain := rfl
@[simp] theorem doJob_lens : (s.doJob j r).lens = s.lens := rfl
@[simp] theorem doJob_cache : (s.doJob j r).cache = s.cache := rfl
@[simp] theorem doJob_tables : (s.doJob j r).tables = s.tables := rfl
@[simp] theorem doJob_tile : (s.doJob j r).tile = s.tile := rfl
@[simp] theorem doJob_writer : (s.doJob j r).writer = s.writer := rfl
@[simp] theorem doJob_pools : (s.doJob j r).pools = s.pools := rfl
@[simp] theorem doJob_pace : (s.doJob j r).pace = s.pace := rfl
@[simp] theorem doJob_port : (s.doJob j r).port = { s.port with requests := s.port.requests ++ [r] } := rfl
@[simp] theorem doJob_work : (s.doJob j r).work = some { job := j } := rfl
@[simp] theorem doJob_dram : (s.doJob j r).dram = s.dram := rfl
@[simp] theorem doJob_freeCount : (s.doJob j r).freeCount = s.freeCount := rfl
@[simp] theorem doJob_pending : (s.doJob j r).pending = s.pending := rfl
end

/-! ### endJob -/

section
variable (j : Job) (ok : Bool) (data : List Byte)
@[simp] theorem endJob_reg : (s.endJob j ok data).reg = s.reg := rfl
@[simp] theorem endJob_ec : (s.endJob j ok data).ec = s.ec := rfl
@[simp] theorem endJob_chain : (s.endJob j ok data).chain = s.chain := rfl
@[simp] theorem endJob_lens : (s.endJob j ok data).lens = s.lens := rfl
@[simp] theorem endJob_cache : (s.endJob j ok data).cache = s.cache := rfl
@[simp] theorem endJob_tables : (s.endJob j ok data).tables = s.tables := rfl
@[simp] theorem endJob_tile : (s.endJob j ok data).tile = s.tile := rfl
@[simp] theorem endJob_writer : (s.endJob j ok data).writer = s.writer := rfl
@[simp] theorem endJob_pools : (s.endJob j ok data).pools = s.pools := rfl
@[simp] theorem endJob_pace : (s.endJob j ok data).pace = s.pace := rfl
@[simp] theorem endJob_port : (s.endJob j ok data).port = s.port := rfl
@[simp] theorem endJob_work : (s.endJob j ok data).work =
    some { job := j, ended := true, ok := ok, data := data, endedAt := s.reg.time } := rfl
@[simp] theorem endJob_dram : (s.endJob j ok data).dram = s.dram := rfl
@[simp] theorem endJob_freeCount : (s.endJob j ok data).freeCount = s.freeCount := rfl
@[simp] theorem endJob_pending : (s.endJob j ok data).pending = s.pending := rfl
end

end Sys2Proof.Machine.State
end

