-- ==== Sys2Proof/Laws/Port.lean ====
section
/-! SUPPORT. What `settle` does: once per case of the Port. -/

namespace Sys2Proof.Machine

/-- A Port that is busy takes up nothing (R170). -/
theorem settle_busy {s : State} (h : s.port.inFlight.isSome) : settle s = s := by
  obtain ⟨a, ha⟩ := Option.isSome_iff_exists.mp h
  unfold settle pumpFuel
  generalize s.port.requests.length + 2 + _ = n
  cases n <;> simp [pump, ha]

/-- With no request waiting there is nothing to take up. -/
theorem settle_empty {s : State} (h : s.port.requests = []) : settle s = s := by
  unfold settle pumpFuel
  generalize s.port.requests.length + 2 + _ = n
  cases n with
  | zero => rfl
  | succ n => unfold pump; split <;> simp_all

theorem settle_of_portSettled {s : State} (h : s.PortSettled) : settle s = s := by
  cases hi : s.port.inFlight with
  | none => exact settle_empty (h hi)
  | some a => exact settle_busy (by simp [hi])

theorem two_le_pumpFuel (s : State) : 2 ≤ pumpFuel s := by unfold pumpFuel; omega

/-- R170, R172: a free Port begins the request at the head of the list when it passes the checks. -/
theorem settle_start {s : State} {r : Request} {rest : List Request} (hi : s.port.inFlight = none)
    (hr : s.port.requests = r :: rest) (hok : accessOk r s.window) :
    settle s = startAccess r (s.mapPort fun p => { p with requests := rest }) := by
  have hw : (s.mapPort fun p => { p with requests := rest }).window = s.window := rfl
  obtain ⟨n, hn⟩ : ∃ n, pumpFuel s = n + 1 := ⟨pumpFuel s - 1, by have := two_le_pumpFuel s; omega⟩
  simp [settle, hn, pump, hi, hr, hw, hok]

/-- What the Port does with one new request, when it had none waiting while free: it joins the list of a busy
Port, and a free Port begins it. -/
theorem settle_submit {s : State} {r : Request} (h : s.PortSettled) (hok : accessOk r s.window = true) :
    settle (s.submit r) = State.handedOver r s := by
  unfold State.handedOver
  cases hi : s.port.inFlight with
  | some a => simpa [hi] using settle_busy (s := s.submit r) (by simp [hi])
  | none =>
    have he := h hi
    have := settle_start (s := s.submit r) (r := r) (rest := []) (by simp [hi]) (by simp [he])
      (by simpa [State.window] using hok)
    rw [this]
    have hs : (s.submit r).mapPort (fun p => { p with requests := [] }) = s := by
      obtain ⟨reg, ec, chain, lens, cache, tables, tile, writer, pools, pace, port, work, dram, fc, pe⟩ := s
      obtain ⟨rc, rd, rq, fl, ds, as⟩ := port
      simp_all [State.submit, State.mapPort]
    rw [hs]; simp

/-- Only the Port differs after a new request has been taken up. -/
theorem handedOver_frame (r : Request) (s : State) : ∃ p, State.handedOver r s = { s with port := p } := by
  unfold State.handedOver
  split
  · exact ⟨_, rfl⟩
  · exact ⟨(startAccess r s).port, rfl⟩

/-- The work goes on with one access. -/
theorem settle_doJob {s : State} {j : Job} {r : Request} (h : s.PortSettled)
    (hok : accessOk r s.window = true) : settle (s.doJob j r) = s.doing j r :=
  settle_submit (s := s.setWork (some { job := j })) h hok

/-- A window that is not empty holds at least 4096 bytes. -/
theorem window_pos {s : State} (hw : s.reg.winSize ≠ 0) : 4096 ≤ s.window := by
  have : s.reg.winSize.toNat ≠ 0 := by
    intro h
    apply hw
    apply BitVec.eq_of_toNat_eq
    rw [h]
    rfl
  unfold State.window
  omega

@[simp] theorem leBytes_length (w n : Nat) : (leBytes w n).length = w := by
  induction w generalizing n with
  | zero => rfl
  | succ w ih => simp [leBytes, ih]

@[simp] theorem flagByte_length (b : Bool) : (flagByte b).length = 1 := rfl

@[simp] theorem zeroBytes_length (n : Nat) : (zeroBytes n).length = n := List.length_replicate

/-- 10.4: the body write is 248 bytes. -/
theorem statusBody_length (s : State) : (statusBody s).length = 248 := by
  unfold statusBody
  simp only [List.length_append, leBytes_length, flagByte_length, zeroBytes_length]

/-- R172: a status write or a configuration read fits every window that is not empty. -/
theorem accessOk_statusReq {stage : StatusStage} {n : Word} {s u : State} (hw : s.reg.winSize ≠ 0) :
    accessOk (statusReq stage n (statusBody u)) s.window = true := by
  have h1 := window_pos hw
  generalize s.window = w at *
  cases stage <;> simp only [accessOk, statusReq, AccessKind.alignment, statusBody_length] <;> simp <;> omega

theorem accessOk_configReadReq {s : State} (hw : s.reg.winSize ≠ 0) :
    accessOk configReadReq s.window = true := by
  have h1 := window_pos hw
  generalize s.window = w at *
  simp only [accessOk, configReadReq, AccessKind.alignment]
  simp
  omega

/-- R143: a status write begins in the step that asks for it when the controller is free. -/
theorem settle_requestStatus {s : State} {w : StatusWrite} (h : s.ControllerFree) :
    settle (requestStatus w s) = s.reporting w := by
  obtain ⟨hj, hq, hw, hp⟩ := h
  have : requestStatus w s = beginStatus { w with onEnd := w.onEnd ||| s.ec.eventsDue }
      (s.mapEc fun c => { c with queue := [], eventsDue := 0, cursorDue := false }) := by
    obtain ⟨reg, ec, chain, lens, cache, tables, tile, writer, pools, pace, port, work, dram, fc, pe⟩ := s
    simp_all [requestStatus, kick, State.mapEc]
  rw [this]
  unfold beginStatus State.reporting
  rw [settle_submit (by exact hp) (accessOk_statusReq (by exact hw))]
  rw [← hq]
  rfl

/-- R157: so does a configuration read. -/
theorem settle_requestConfig {s : State} {why : ConfigWhy} (h : s.ControllerFree) :
    settle (requestConfig why s) = s.readingConfig why := by
  obtain ⟨hj, hq, hw, hp⟩ := h
  have : requestConfig why s = beginConfigRead why (s.mapEc fun c => { c with queue := [] }) := by
    obtain ⟨reg, ec, chain, lens, cache, tables, tile, writer, pools, pace, port, work, dram, fc, pe⟩ := s
    simp_all [requestConfig, kick, State.mapEc]
  rw [this]
  unfold beginConfigRead State.readingConfig
  rw [settle_submit (by exact hp) (accessOk_configReadReq (by exact hw))]
  simp only [State.mapEc, hq]

end Sys2Proof.Machine
end

