-- ==== Sys2Proof/Laws/Access.lean ====
section
/-! SUPPORT. Register accesses: what is judged at once and what is held, once per row, and the entries that
several commands share. -/

namespace Sys2Proof.Machine

variable {s : State}

/-- R143, R178: with no reset and no status write in progress nothing waits. -/
theorem accessWaits_of_open (h : s.Open) (c : Instr) : s.accessWaits c = false := by
  simp [State.accessWaits, h.1, h.2]

/-- A controller with nothing in progress has no status write in flight. -/
theorem open_of_controllerFree (hr : s.reg.inReset = false) (hc : s.ControllerFree) : s.Open := by
  refine ⟨hr, ?_⟩
  unfold State.statusInFlight
  rw [hc.1]

/-! ### What judging a row does, once per row -/

@[simp] theorem judgeAccess_start : judgeAccess .start s = actStart s := rfl
@[simp] theorem judgeAccess_stop : judgeAccess .stop s = actStop s := rfl
@[simp] theorem judgeAccess_abort : judgeAccess .abort s = actAbort s := rfl
@[simp] theorem judgeAccess_resume : judgeAccess .resume s = actResume s := rfl
@[simp] theorem judgeAccess_rescan : judgeAccess .rescan s = actRescan s := rfl
@[simp] theorem judgeAccess_reload : judgeAccess .reload s = actReload s := rfl
@[simp] theorem judgeAccess_reset : judgeAccess .reset s = actReset s := rfl
@[simp] theorem judgeAccess_commandUnknown {v : Word} : judgeAccess (.commandUnknown v) s = actCommandUnknown s := rfl
@[simp] theorem judgeAccess_winBaseWrite {v : Word} : judgeAccess (.winBaseWrite v) s = actWinBase v s := rfl
@[simp] theorem judgeAccess_winSizeWrite {v : Word} : judgeAccess (.winSizeWrite v) s = actWinSize v s := rfl
@[simp] theorem judgeAccess_eventsRead : judgeAccess .eventsRead s = actEventsRead s := rfl
@[simp] theorem judgeAccess_lineEnableWrite {v : Word} : judgeAccess (.lineEnableWrite v) s = actLineEnable v s := rfl
@[simp] theorem judgeAccess_registerWriteNoEffect {v : NoEffectAccess} :
    judgeAccess (.registerWriteNoEffect v) s = actNoEffect v s := rfl

/-- A row that asks the Memory Port for nothing is a register access. -/
theorem isAccess_of_asksNothing {c : Instr} (h : asksNothing c = true) : isAccess c = true := by
  cases c <;> first | rfl | exact Bool.noConfusion h

/-- A register access is taken, whatever its row. -/
theorem exec_access {c : Instr} (h : isAccess c = true) : exec c s = finish (takeAccess c s) := by
  cases c <;> first | exact Bool.noConfusion h | rfl

theorem takeAccess_judged {c : Instr} (h : s.accessWaits c = false) : takeAccess c s = judgeAccess c s := by
  unfold takeAccess
  rw [h]
  rfl

theorem takeAccess_held {c : Instr} (h : s.accessWaits c = true) :
    takeAccess c s = s.mapReg fun r => { r with held := r.held ++ [.access c] } := by
  unfold takeAccess
  rw [h]
  rfl

/-- R143, R167, R178: the accesses that a status write or a reset holds. -/
theorem finish_takeAccess_held {c : Instr} (hp : s.PortSettled) (h : s.accessWaits c = true) :
    finish (takeAccess c s) = .next (s.mapReg fun r => { r with held := r.held ++ [.access c] }) := by
  unfold finish
  rw [takeAccess_held h, settle_of_portSettled (by exact hp)]

theorem exec_start_judged (h : s.Open) : exec (.start) s = finish (actStart s) :=
  congrArg finish (takeAccess_judged (accessWaits_of_open h _))

theorem exec_stop_judged (h : s.Open) : exec (.stop) s = finish (actStop s) :=
  congrArg finish (takeAccess_judged (accessWaits_of_open h _))

theorem exec_abort_judged (h : s.Open) : exec (.abort) s = finish (actAbort s) :=
  congrArg finish (takeAccess_judged (accessWaits_of_open h _))

theorem exec_resume_judged (h : s.Open) : exec (.resume) s = finish (actResume s) :=
  congrArg finish (takeAccess_judged (accessWaits_of_open h _))

theorem exec_rescan_judged (h : s.Open) : exec (.rescan) s = finish (actRescan s) :=
  congrArg finish (takeAccess_judged (accessWaits_of_open h _))

theorem exec_reload_judged (h : s.Open) : exec (.reload) s = finish (actReload s) :=
  congrArg finish (takeAccess_judged (accessWaits_of_open h _))

theorem exec_reset_judged (h : s.reg.inReset = false) :
    exec (.reset) s = finish (actReset s) :=
  congrArg finish (takeAccess_judged (by simp [State.accessWaits, h, waitsForStatus]))

theorem exec_commandUnknown_judged (v : Word) (h : s.Open) :
    exec (.commandUnknown v) s = finish (actCommandUnknown s) :=
  congrArg finish (takeAccess_judged (accessWaits_of_open h _))

theorem exec_winBaseWrite_judged (v : Word) (h : s.Open) : exec (.winBaseWrite v) s = finish (actWinBase v s) :=
  congrArg finish (takeAccess_judged (accessWaits_of_open h _))

theorem exec_winSizeWrite_judged (v : Word) (h : s.Open) : exec (.winSizeWrite v) s = finish (actWinSize v s) :=
  congrArg finish (takeAccess_judged (accessWaits_of_open h _))

theorem exec_eventsRead_judged (h : s.reg.inReset = false) :
    exec (.eventsRead) s = finish (actEventsRead s) :=
  congrArg finish (takeAccess_judged (by simp [State.accessWaits, h, waitsForStatus]))

theorem exec_lineEnableWrite_judged (v : Word) (h : s.reg.inReset = false) :
    exec (.lineEnableWrite v) s = finish (actLineEnable v s) :=
  congrArg finish (takeAccess_judged (by simp [State.accessWaits, h, waitsForStatus]))

theorem exec_registerWriteNoEffect_judged (a : NoEffectAccess) (h : s.reg.inReset = false) :
    exec (.registerWriteNoEffect a) s = finish (actNoEffect a s) :=
  congrArg finish (takeAccess_judged (by simp [State.accessWaits, h, waitsForStatus]))

/-- R150: the entry into STOPPED in the step that causes it. -/
theorem settle_enterStopped (hc : s.ControllerFree) (hw : s.work = none) :
    settle (enterStopped s) = State.reporting { onSuccess := evStopped } s.stopped := by
  unfold enterStopped
  rw [settle_requestStatus (by exact ⟨hc.1, hc.2.1, hc.2.2.1, hc.2.2.2⟩)]
  simp [State.stopped, State.lookEnded, clearAssembly, State.setWork, State.mapChain, State.mapEc, hw,
    leftWork]

/-- R161: the entry into HALTED in the step that causes it. -/
theorem settle_enterHalted {reason : HaltReason} {record : Nat} (hc : s.ControllerFree) (hw : s.work = none) :
    settle (enterHalted reason record s) = State.reporting { onEnd := evHalt } (s.halted reason record) := by
  unfold enterHalted haltWith
  rw [settle_requestStatus (by exact ⟨hc.1, hc.2.1, hc.2.2.1, hc.2.2.2⟩)]
  simp [State.halted, State.lookEnded, clearAssembly, State.setWork, State.mapChain, State.mapEc, hw,
    leftWork]

/-- R144, R161: the entry into HALTED without a status write. -/
theorem haltUnreported_eq {reason : HaltReason} {record : Nat} (hq : s.ec.queue = []) (hw : s.work = none) :
    haltUnreported reason record s =
      State.halted reason record { s with reg := { s.reg with events := s.reg.events ||| evHalt } } := by
  simp only [haltUnreported, haltWith, clearAssembly, State.setEvents, State.mapReg, State.mapEc, dropQueue,
    State.setWork, State.mapChain, hq, hw, State.halted, State.lookEnded, Controller.quiet, leftWork, List.foldl]

/-- R161: the entry into HALTED for a halt that has been called for, in the step that causes it. -/
theorem settle_enterCalledHalt {reason : HaltReason} {record : Nat} (hc : s.ControllerFree) (hw : s.work = none) :
    settle (enterCalledHalt reason record s) = s.haltedBy reason record := by
  unfold enterCalledHalt State.haltedBy
  split
  · rw [haltUnreported_eq hc.2.1 hw]
    exact settle_of_portSettled (by exact hc.2.2.2)
  · exact settle_enterHalted hc hw

/-- R92: a look begins in the step that causes it. -/
theorem settle_beginLook (hp : s.PortSettled) (hw : s.work = none)
    (hok : accessOk (recordReadReq s.ec.cursor) s.window = true) : settle (beginLook s) = s.lookBegun := by
  unfold beginLook State.lookBegun
  rw [if_neg (by simp [hw])]
  split
  · exact settle_doJob hp hok
  · exact settle_doJob hp hok

/-- R151: a refused command. -/
theorem finish_refuse (hp : s.PortSettled) : finish (refuse s) = .next s.refused := by
  unfold finish
  rw [settle_of_portSettled (by exact hp)]
  rfl

/-! ### The controller's turn, and what is held -/

/-- A controller that is busy takes no further task (R170). -/
theorem kick_of_job (h : s.ec.job.isSome = true) : kick s = s := by
  unfold kick; split <;> simp_all

theorem kick_of_empty (h : s.ec.queue = []) : kick s = s := by
  unfold kick; split <;> simp_all

/-- A controller that has taken its turn is busy or has nothing to do (R170). -/
theorem controllerSettled_kick (s : State) : (kick s).ControllerSettled := by
  unfold kick
  split
  · intro h; simp [beginStatus, State.mapEc, State.submit, State.mapPort] at h
  · intro h; simp [beginConfigRead, State.mapEc, State.submit, State.mapPort] at h
  · next h1 h2 =>
    intro hj
    match hq : s.ec.queue with
    | [] => rfl
    | .status w :: rest => exact absurd hq (h1 w rest hj)
    | .config w :: rest => exact absurd hq (h2 w rest hj)

theorem requestStatus_busy {w : StatusWrite} (hj : s.ec.job = none) (hq : s.ec.queue = []) :
    (requestStatus w s).ec.job.isSome = true := by
  simp [requestStatus, kick, State.mapEc, hj, hq, beginStatus, State.submit, State.mapPort]

theorem requestConfig_busy {w : ConfigWhy} (hj : s.ec.job = none) (hq : s.ec.queue = []) :
    (requestConfig w s).ec.job.isSome = true := by
  simp [requestConfig, kick, State.mapEc, hj, hq, beginConfigRead, State.submit, State.mapPort]

@[simp] theorem kick_reg (s : State) : (kick s).reg = s.reg := by
  unfold kick; split <;> rfl

@[simp] theorem requestStatus_reg {w : StatusWrite} : (requestStatus w s).reg = s.reg := kick_reg _

@[simp] theorem requestConfig_reg {w : ConfigWhy} : (requestConfig w s).reg = s.reg := kick_reg _

/-- With nothing held there is nothing to judge (R143). -/
theorem drainHeld_nil (h : s.reg.held = []) : drainHeld s = s := by
  unfold drainHeld
  rw [h]
  simp only [judgeAll, State.mapReg]
  rw [← h]

/-- The end of a status write with nothing held, when the controller has taken its turn. -/
theorem kick_drainHeld_kick (hk : kick s = s) (h : s.reg.held = []) : kick (drainHeld (kick s)) = s := by
  rw [hk, drainHeld_nil h, hk]

/-- R143, R167: what waits for a status write that is in progress joins the held list in its order. -/
theorem judgeAll_waits {rest : List Held} (hr : s.reg.inReset = false) (hs : s.statusInFlight = true)
    (h : rest.all Held.waits = true) :
    judgeAll rest s = { s with reg := { s.reg with held := s.reg.held ++ rest } } := by
  induction rest generalizing s with
  | nil => simp [judgeAll]
  | cons a rest ih =>
    simp only [List.all_cons, Bool.and_eq_true] at h
    have ha : judgeHeld a s = { s with reg := { s.reg with held := s.reg.held ++ [a] } } := by
      cases a with
      | access c => exact takeAccess_held (by have := h.1; simp_all [State.accessWaits, Held.waits])
      | wake => simp [judgeHeld, hr, wake, hs, State.mapReg]
    rw [judgeAll, ha, ih (s := { s with reg := { s.reg with held := s.reg.held ++ [a] } }) hr hs h.2]
    simp

/-- R143: a free controller hands the leading copy over in the step that asks for the status write. -/
theorem requestStatus_submit {w : StatusWrite} (hj : s.ec.job = none) (hq : s.ec.queue = []) :
    requestStatus w s = State.submit
      { s with ec := { s.ec with
          writeCount := s.ec.writeCount + 1, eventsDue := 0, cursorDue := false
          job := some { job := (.status
            { w with onEnd := w.onEnd ||| s.ec.eventsDue, cursorAtStart := s.ec.cursor } .leading (statusBody s)) } } }
      (statusReq .leading (s.ec.writeCount + 1) (statusBody s)) := by
  simp only [requestStatus, kick, State.mapEc, hj, hq, beginStatus, List.nil_append, State.submit, State.mapPort]
  rfl

/-- R109, R143: an access of the look and a status write asked for in one step go to the Port in that order. -/
theorem settle_requestStatus_doJob {w : StatusWrite} {j : Job} {r : Request} (hc : s.ControllerFree)
    (hok : accessOk r s.window = true) :
    settle (requestStatus w (s.doJob j r)) = State.reporting w (s.doing j r) := by
  obtain ⟨hj, hq, _, hp⟩ := hc
  have he : (s.doJob j r).ec = s.ec := rfl
  rw [requestStatus_submit (by rw [he, hj]) (by rw [he, hq])]
  cases hi : s.port.inFlight with
  | some a =>
    rw [settle_busy (by simp [State.doJob, State.submit, State.mapPort, State.setWork, hi])]
    simp only [State.reporting, State.doing, State.handedOver, State.doJob, State.submit, State.mapPort,
      State.setWork, hi, Option.isSome_some, if_true]
  | none =>
    rw [settle_start (by exact hi)
      (by simp only [State.doJob, State.submit, State.mapPort, State.setWork, hp hi]; rfl) (by exact hok)]
    simp only [State.reporting, State.doing, State.handedOver, State.doJob, State.submit, State.mapPort,
      State.setWork, hi, Option.isSome_some, if_true, startAccess, issueAttempt, hp hi, State.busAddress,
      Option.isSome_none, Bool.false_eq_true, if_false]
    rfl

/-- R110, R143: a status write asked for before an access of the look or the group goes to the Port first. -/
theorem settle_doJob_requestStatus {w : StatusWrite} {j : Job} {r : Request} (hc : s.ControllerFree) :
    settle ((requestStatus w s).doJob j r) = (State.reporting w s).doing j r := by
  obtain ⟨hj, hq, hws, hp⟩ := hc
  rw [requestStatus_submit hj hq]
  cases hi : s.port.inFlight with
  | some a =>
    rw [settle_busy (by simp [State.doJob, State.submit, State.mapPort, State.setWork, hi])]
    simp [State.reporting, State.doing, State.handedOver, State.doJob, State.submit, State.mapPort, State.setWork, hi]
  | none =>
    rw [settle_start (by exact hi)
      (by simp only [State.doJob, State.submit, State.mapPort, State.setWork, hp hi]; rfl)
      (by exact accessOk_statusReq hws)]
    simp [State.reporting, State.doing, State.handedOver, State.doJob, State.submit, State.mapPort, State.setWork, hi,
      startAccess, issueAttempt, hp hi, State.busAddress]

/-- R92, R150: a park that is reported and finds a wake pending: the status write goes first, and the new look's
read waits behind it. -/
theorem settle_beginLook_requestStatus {w : StatusWrite} (hc : s.ControllerFree) (hw : s.work = none) :
    settle (beginLook (requestStatus w s)) = (State.reporting w s).lookBegun := by
  have hr := requestStatus_submit (w := w) hc.1 hc.2.1
  have hb : beginLook (requestStatus w s) = (requestStatus w s).doJob
      (.recordRead (if s.ec.linkWait then .cursorLink else .cursor) s.ec.cursor) (recordReadReq s.ec.cursor) := by
    have hn : (requestStatus w s).work.isSome = false := by rw [hr]; simp [State.submit, State.mapPort, hw]
    unfold beginLook
    rw [hn, hr]
    cases hl : s.ec.linkWait <;> simp [State.submit, State.mapPort, readRecord, hl]
  have he : (State.reporting w s).ec.cursor = s.ec.cursor ∧ (State.reporting w s).ec.linkWait = s.ec.linkWait := by
    unfold State.reporting
    obtain ⟨p, hp⟩ := handedOver_frame (statusReq .leading (s.ec.writeCount + 1) (statusBody s)) _
    rw [hp]
    exact ⟨rfl, rfl⟩
  rw [hb, settle_doJob_requestStatus hc, State.lookBegun, he.1, he.2]

end Sys2Proof.Machine
end

