-- ==== Sys2Proof/Laws/Memory.lean ====
section
/-! SUPPORT. The canonical form is kept by every memory operation, and what a read gives after a write. -/

namespace Sys2Proof.Machine

/-- Every address of the list is above `a`. -/
def memAbove (a : Nat) (m : List Host.Cell) : Prop := ∀ c ∈ m, a < c.1

theorem memWf_cons {c : Host.Cell} {m : List Host.Cell} :
    memWf (c :: m) = true ↔ c.2 ≠ Config.unlistedByte ∧ memAbove c.1 m ∧ memWf m = true := by
  induction m generalizing c with
  | nil => simp [memWf, memAbove]
  | cons d rest ih =>
    simp only [memWf, Bool.and_eq_true, decide_eq_true_eq, memAbove, List.mem_cons, forall_eq_or_imp]
    constructor
    · rintro ⟨⟨h1, h2⟩, h3⟩
      refine ⟨h1, ⟨h2, fun e he => ?_⟩, h3⟩
      exact h2.trans ((ih.mp h3).2.1 e he)
    · rintro ⟨h1, ⟨h2, _⟩, h3⟩
      exact ⟨⟨h1, h2⟩, h3⟩

theorem memGet_above {m : List Host.Cell} {a : Nat} (h : memAbove a m) : memGet m a = Config.unlistedByte := by
  cases m with
  | nil => rfl
  | cons c rest =>
    have := h c (by simp)
    simp [memGet, this, Nat.ne_of_gt this]

theorem memAbove_memSet {m : List Host.Cell} {lo a : Nat} {b : Byte} (h : memAbove lo m) (ha : lo < a) :
    memAbove lo (memSet m a b) := by
  induction m with
  | nil => unfold memSet; split <;> simp_all [memAbove]
  | cons c rest ih =>
    have hr : memAbove lo rest := fun e he => h e (by simp [he])
    have hc : lo < c.1 := h c (by simp)
    unfold memSet
    split
    · intro e he
      rcases List.mem_cons.mp he with rfl | he
      · exact hc
      · exact ih hr e he
    · split <;> split <;> intro e he
      · exact hr e he
      · rcases List.mem_cons.mp he with rfl | he
        exacts [ha, hr e he]
      · exact h e he
      · rcases List.mem_cons.mp he with rfl | he
        exacts [ha, h e he]

/-- Writing a byte keeps the canonical form. -/
theorem memWf_memSet {m : List Host.Cell} (a : Nat) (b : Byte) (h : memWf m = true) :
    memWf (memSet m a b) = true := by
  induction m with
  | nil => unfold memSet; split <;> simp_all [memWf]
  | cons c rest ih =>
    obtain ⟨h1, h2, h3⟩ := memWf_cons.mp h
    unfold memSet
    split
    · exact memWf_cons.mpr ⟨h1, memAbove_memSet h2 (by assumption), ih h3⟩
    · split
      · split
        · exact h3
        · next hne hb => subst hne; exact memWf_cons.mpr ⟨hb, h2, h3⟩
      · split
        · exact h
        · next hlt hne hb =>
          have hac : a < c.1 := by omega
          refine memWf_cons.mpr ⟨hb, ?_, h⟩
          intro e he
          rcases List.mem_cons.mp he with rfl | he
          · exact hac
          · exact hac.trans (h2 e he)

theorem memWf_memWrite {bytes : List Byte} {m : List Host.Cell} (a : Nat) (h : memWf m = true) :
    memWf (memWrite m a bytes) = true := by
  induction bytes generalizing m a with
  | nil => exact h
  | cons b rest ih => exact ih _ (memWf_memSet a b h)

theorem memWf_memWriteSome {bytes : List Byte} {m : List Host.Cell} (p : Nat → Bool) (a i : Nat)
    (h : memWf m = true) : memWf (memWriteSome p m a i bytes) = true := by
  induction bytes generalizing m i with
  | nil => exact h
  | cons b rest ih =>
    unfold memWriteSome
    exact ih _ (by split <;> [exact memWf_memSet _ _ h; exact h])

theorem memWf_memLand {cells m : List Host.Cell} (h : memWf m = true) : memWf (memLand m cells) = true := by
  induction cells generalizing m with
  | nil => exact h
  | cons c rest ih => exact ih (memWf_memSet _ _ h)

/-! ### Read after write -/

/-- A byte reads as what was last written to it, and every other byte as before. -/
theorem memGet_memSet {m : List Host.Cell} (a : Nat) (b : Byte) (x : Nat) (h : memWf m = true) :
    memGet (memSet m a b) x = if x = a then b else memGet m x := by
  induction m with
  | nil =>
    unfold memSet
    split
    · next hb => subst hb; simp [memGet]
    · by_cases hx : x = a
      · simp [memGet, hx]
      · simp [memGet, hx, Ne.symm hx]
  | cons c rest ih =>
    obtain ⟨h1, h2, h3⟩ := memWf_cons.mp h
    have hget : ∀ y, y < c.1 → memGet rest y = Config.unlistedByte := fun y hy =>
      memGet_above fun e he => hy.trans (h2 e he)
    unfold memSet
    split
    · next hlt =>
      by_cases hx : x = a
      · subst hx
        simp [memGet, Nat.ne_of_lt hlt, Nat.lt_asymm hlt, ih h3]
      · simp only [memGet, ih h3, hx, if_false]
    · split
      · next hca =>
        subst hca
        have hc0 : memGet rest c.1 = Config.unlistedByte := memGet_above h2
        split
        · next hb =>
          by_cases hx : x = c.1
          · subst hx; simp [hc0, hb]
          · by_cases hxc : x < c.1
            · simp [memGet, hx, Ne.symm hx, hxc, hget x hxc]
            · simp [memGet, hx, Ne.symm hx, hxc]
        · by_cases hx : x = c.1
          · simp [memGet, hx]
          · simp [memGet, hx, Ne.symm hx]
      · next hlt hne =>
        have hac : a < c.1 := by omega
        split
        · next hb =>
          by_cases hx : x = a
          · subst hx
            simp [memGet, hb, hne, hac]
          · simp [hx]
        · by_cases hx : x = a
          · simp [memGet, hx]
          · by_cases hxa : x < a
            · have : x < c.1 := by omega
              have : c.1 ≠ x := by omega
              simp [memGet, Ne.symm hx, *]
            · simp [memGet, hx, Ne.symm hx, hxa]

/-- A run of bytes that has been written reads back, and every byte outside it reads as before. -/
theorem memGet_memWrite {bytes : List Byte} {m : List Host.Cell} (a x : Nat) (h : memWf m = true) :
    memGet (memWrite m a bytes) x =
      if a ≤ x ∧ x < a + bytes.length then bytes.getD (x - a) 0 else memGet m x := by
  induction bytes generalizing m a with
  | nil => simp [memWrite]
  | cons b rest ih =>
    simp only [memWrite, ih (a + 1) (memWf_memSet a b h), memGet_memSet a b x h, List.length_cons]
    by_cases hx : x = a
    · subst hx; simp
    · by_cases hin : a + 1 ≤ x ∧ x < a + 1 + rest.length
      · have h1 : a ≤ x ∧ x < a + (rest.length + 1) := by omega
        have h2 : x - a = (x - (a + 1)) + 1 := by omega
        simp [hin, h1, h2]
      · have h1 : ¬(a ≤ x ∧ x < a + (rest.length + 1)) := by omega
        rw [if_neg hin, if_neg h1, if_neg hx]

/-- A partly made write leaves the bytes it placed, and every other byte as before. -/
theorem memGet_memWriteSome {bytes : List Byte} {m : List Host.Cell} (p : Nat → Bool) (a i x : Nat)
    (h : memWf m = true) :
    memGet (memWriteSome p m a i bytes) x =
      if a + i ≤ x ∧ x < a + i + bytes.length ∧ p (x - a) = true then bytes.getD (x - (a + i)) 0
      else memGet m x := by
  induction bytes generalizing m i with
  | nil => rw [if_neg (by simp only [List.length_nil]; omega)]; rfl
  | cons b rest ih =>
    have hwf : memWf (if p i = true then memSet m (a + i) b else m) = true := by
      split
      · exact memWf_memSet _ _ h
      · exact h
    simp only [memWriteSome, ih (i + 1) hwf, List.length_cons]
    by_cases hx : x = a + i
    · subst hx
      rw [if_neg (by omega), show a + i - a = i by omega, Nat.sub_self, List.getD_cons_zero]
      split
      · rw [memGet_memSet _ _ _ h, if_pos rfl, if_pos (by simp_all)]
      · rw [if_neg (by simp_all)]
    · have hm : memGet (if p i = true then memSet m (a + i) b else m) x = memGet m x := by
        split
        · rw [memGet_memSet _ _ _ h, if_neg hx]
        · rfl
      rw [hm]
      by_cases hin : a + (i + 1) ≤ x ∧ x < a + (i + 1) + rest.length ∧ p (x - a) = true
      · rw [if_pos hin, if_pos ⟨by omega, by omega, hin.2.2⟩,
          show x - (a + i) = x - (a + (i + 1)) + 1 by omega, List.getD_cons_succ]
      · rw [if_neg hin, if_neg fun hc => hin ⟨by omega, by omega, hc.2.2⟩]

/-- A write of which every byte was placed is the whole write, and one of which none was placed is none. -/
theorem memWriteSome_const {bytes : List Byte} {m : List Host.Cell} (placed : Bool) (a i : Nat) :
    memWriteSome (fun _ => placed) m a i bytes = if placed then memWrite m (a + i) bytes else m := by
  induction bytes generalizing m i with
  | nil => cases placed <;> rfl
  | cons b rest ih =>
    simp only [memWriteSome, ih (i + 1), memWrite]
    cases placed <;> rfl

theorem memRead_length (m : List Host.Cell) (a len : Nat) : (memRead m a len).length = len := by
  simp [memRead]

/-- Reading back the run that was written gives its bytes. -/
theorem memRead_memWrite {bytes : List Byte} {m : List Host.Cell} (a : Nat) (h : memWf m = true) :
    memRead (memWrite m a bytes) a bytes.length = bytes := by
  apply List.ext_getElem
  · simp [memRead]
  · intro i h1 h2
    simp [memRead, memGet_memWrite a _ h, h2]

end Sys2Proof.Machine
end

