-- ==== Sys2Proof/Laws/Answer.lean ====
section
/-! SUPPORT. MEMORY_ATTEMPT_ANSWER and MEMORY_ATTEMPT_TIMEOUT, once for each way an access ends: the report its
requester is given, and the state it is given in. -/

namespace Sys2Proof.Machine

variable {s : State} {a : Access} {others : List Host.Cell}

/-- The state in which an access is reported: memory as `m` has it and the Port free. -/
def State.freed (m : List Host.Cell) (s : State) : State :=
  { s with dram := m, port := { s.port with inFlight := none } }

theorem exec_answered (hi : s.port.inFlight = some a) (hp : a.phase = .attempt) (ht : s.OnTime) :
    exec (.memoryAttemptAnswer .succeeded others) s =
      finish (attemptSucceeded a (s.setDram (memLand s.dram others))) ∧
    exec (.memoryAttemptAnswer .failed others) s =
      finish (attemptFailed a (s.setDram (memLand s.dram others))) := by
  have h1 : (s.setDram (memLand s.dram others)).attempt = some a := by
    simp [State.attempt, State.setDram, hi, hp]
  have h2 : answerOverdue (s.setDram (memLand s.dram others)) = false := by
    have : (s.reg.time - s.port.attemptStart).toNat < 2048 := ht
    exact decide_eq_false (Nat.not_le.mpr this)
  constructor
  · show execMemoryAttemptAnswer .succeeded others s = _
    unfold execMemoryAttemptAnswer
    simp only [h1, h2]
    rfl
  · show execMemoryAttemptAnswer .failed others s = _
    unfold execMemoryAttemptAnswer
    simp only [h1, h2]
    rfl

theorem exec_timed_out (hi : s.port.inFlight = some a) (hp : a.phase = .attempt) (ht : ¬s.OnTime) :
    exec .memoryAttemptTimeout s = finish (attemptFailed a s) := by
  show execMemoryAttemptTimeout s = _
  have h1 : s.attempt = some a := by simp [State.attempt, hi, hp]
  unfold execMemoryAttemptTimeout
  simp only [h1]
  rw [if_pos (show answerOverdue s = true from decide_eq_true (Nat.le_of_not_lt ht))]

/-- R173: a read whose attempt succeeds is reported with the bytes memory holds. -/
theorem exec_read_succeeds (hi : s.port.inFlight = some a) (hp : a.phase = .attempt) (ht : s.OnTime)
    (hd : a.req.data = none) :
    exec (.memoryAttemptAnswer .succeeded others) s = finish (report a.req true
      (memRead (memLand s.dram others) a.address a.req.length) (s.freed (memLand s.dram others))) := by
  rw [(exec_answered hi hp ht).1]
  unfold attemptSucceeded
  rw [hd]
  rfl

/-- R173: a write whose attempt succeeds is reported with its bytes in memory. -/
theorem exec_write_succeeds {bytes : List Byte} (hi : s.port.inFlight = some a) (hp : a.phase = .attempt)
    (ht : s.OnTime) (hd : a.req.data = some bytes) :
    exec (.memoryAttemptAnswer .succeeded others) s = finish (report a.req true []
      (s.freed (memWrite (memLand s.dram others) a.address bytes))) := by
  rw [(exec_answered hi hp ht).1]
  unfold attemptSucceeded
  rw [hd]
  rfl

/-- R174: a read whose attempts are exhausted is reported as failed. -/
theorem exec_read_exhausted (hi : s.port.inFlight = some a) (hp : a.phase = .attempt) (hd : a.req.data = none)
    (hx : s.port.retryCount < a.attempts) :
    (s.OnTime → exec (.memoryAttemptAnswer .failed others) s =
      finish (report a.req false [] (s.freed (memLand s.dram others)))) ∧
    (¬s.OnTime → exec .memoryAttemptTimeout s = finish (report a.req false [] (s.freed s.dram))) := by
  have hl : ∀ u, landFailed a u = u := by
    intro u
    unfold landFailed landPart
    rw [hd]
    split <;> rfl
  refine ⟨fun ht => ?_, fun ht => ?_⟩
  · rw [(exec_answered hi hp ht).2]
    unfold attemptFailed
    rw [if_neg (show ¬a.attempts ≤ (s.setDram (memLand s.dram others)).port.retryCount from Nat.not_le.mpr hx), hl]
    rfl
  · rw [exec_timed_out hi hp ht]
    unfold attemptFailed
    rw [if_neg (Nat.not_le.mpr hx), hl]
    rfl

/-- R174: a write whose attempts are exhausted is reported as failed, with what that attempt left in memory. -/
theorem exec_write_exhausted (hi : s.port.inFlight = some a) (hp : a.phase = .attempt)
    (hx : s.port.retryCount < a.attempts) :
    (s.OnTime → exec (.memoryAttemptAnswer .failed others) s =
      finish (endAccess a false [] (landFailed a (s.setDram (memLand s.dram others))))) ∧
    (¬s.OnTime → exec .memoryAttemptTimeout s = finish (endAccess a false [] (landFailed a s))) := by
  refine ⟨fun ht => ?_, fun ht => ?_⟩
  · rw [(exec_answered hi hp ht).2]
    unfold attemptFailed
    rw [if_neg (show ¬a.attempts ≤ (s.setDram (memLand s.dram others)).port.retryCount from Nat.not_le.mpr hx)]
  · rw [exec_timed_out hi hp ht]
    unfold attemptFailed
    rw [if_neg (Nat.not_le.mpr hx)]

/-- R173: the attempt with which a write is exhausted changes memory within its bytes alone, and nothing where a rule
says that a failed write leaves what memory held. -/
theorem landFailed_eq {bytes : List Byte} (hd : a.req.data = some bytes) (hw : memWf s.dram = true) :
    ∃ m n, landFailed a s = { s with dram := m, freeCount := n } ∧
      (∀ x, x < a.address ∨ a.address + bytes.length ≤ x → memGet m x = memGet s.dram x) ∧
      (s.keepsOnFailure a.req = true → m = s.dram) := by
  unfold landFailed
  cases hk : s.keepsOnFailure a.req
  · refine ⟨memWriteSome (placedByte s.freeCount a.req) s.dram a.address 0 bytes, s.freeCount + 1, ?_, ?_, ?_⟩
    · unfold landPart
      rw [hd]
      rfl
    · intro x hx
      rw [memGet_memWriteSome _ _ _ _ hw, if_neg (by omega)]
    · exact fun h => absurd h Bool.false_ne_true
  · exact ⟨s.dram, s.freeCount, rfl, fun _ _ => rfl, fun _ => rfl⟩

/-- R174: what an exhausted write leaves, from what its report leaves. -/
theorem losesWrite_of_report {bytes : List Byte} {next : State → State} (hi : s.port.inFlight = some a)
    (hp : a.phase = .attempt) (hd : a.req.data = some bytes)
    (hrep : ∀ m n, finish (report a.req false [] { s.freed m with freeCount := n }) =
      .next (next { s.freed m with freeCount := n })) : s.LosesWrite a bytes others next := by
  intro hx hw
  obtain ⟨h1, h2⟩ := exec_write_exhausted (others := others) hi hp hx
  obtain ⟨m, n, e, h3, h4⟩ := landFailed_eq (s := s.setDram (memLand s.dram others)) (a := a) hd (memWf_memLand hw)
  have go : finish (endAccess a false [] (landFailed a (s.setDram (memLand s.dram others)))) =
      .next (next { s.freed m with freeCount := n }) := by
    rw [e]
    exact hrep m n
  refine ⟨m, n, fun ht => ?_, fun ht ho => ?_, h3, h4⟩
  · rw [h1 ht]
    exact go
  · subst ho
    rw [h2 ht]
    exact go

/-- A report to a block other than the Engine Controller goes to the work at hand. -/
theorem report_work {r : Request} {ok : Bool} {data : List Byte} (h : r.block ≠ .engineController) :
    report r ok data s = workReport r ok data s := if_neg h

/-- No request waits at the Port the access has left, so an end of the work leaves nothing to begin. -/
theorem finish_freed_ended {m : List Host.Cell} {j : Job} {ok : Bool} {data : List Byte}
    (hr : s.port.requests = []) :
    finish ((s.freed m).endJob j ok data) = .next (State.ended j ok data (s.freed m)) := by
  unfold finish
  rw [settle_empty (by exact hr)]
  rfl

/-- The access after the one that has ended is the next the Port begins. -/
theorem finish_freed_doJob {u : State} {j : Job} {r : Request} (hr : u.port.requests = [])
    (hok : accessOk r u.window = true) : finish (u.doJob j r) = .next (u.doing j r) := by
  unfold finish
  rw [settle_doJob (fun _ => hr) hok]

end Sys2Proof.Machine
end

