-- ==== Sys2Proof/Laws/Judging.lean ====
section
/-! SUPPORT. The judging of the derived entries, said once: when a condition is met, and what the entries that need
no pool leave (R116 to R119). -/

namespace Sys2Proof.Machine

/-- A bit that two words of seven bits share. -/
theorem and_ne_zero_iff (a b : BitVec 7) :
    a &&& b ≠ 0 ↔ ∃ i, i < 7 ∧ a.getLsbD i = true ∧ b.getLsbD i = true := by
  constructor
  · intro h
    by_contra hn
    refine h (BitVec.eq_of_getLsbD_eq fun i hi => ?_)
    rw [BitVec.getLsbD_and]
    cases ha : a.getLsbD i <;> cases hb : b.getLsbD i <;> simp
    exact hn ⟨i, hi, ha, hb⟩
  · rintro ⟨i, _, ha, hb⟩ h
    have := congrArg (fun x => BitVec.getLsbD x i) h
    simp [ha, hb] at this

/-- R118: the mask meets the flags when one of its seven bits stands for a flag that is set. -/
theorem meets_eq (f : ResFlags) (m : Nat) : f.meets m =
    ((m.testBit 0 && f.stale) || (m.testBit 1 && f.hold) || (m.testBit 2 && f.moving) ||
      (m.testBit 3 && f.lensNew) || (m.testBit 4 && f.unknownLens) || (m.testBit 5 && f.outsideGrid) ||
      (m.testBit 6 && f.override)) := by
  have hb : ∀ i, i < 7 → (BitVec.ofNat 7 m).getLsbD i = m.testBit i := by
    intro i hi
    rw [BitVec.getLsbD_ofNat]
    simp [hi]
  have hf : ∀ i : Fin 7, (BitVec.ofNat 7 f.bits).getLsbD i.val =
      [f.stale, f.hold, f.moving, f.lensNew, f.unknownLens, f.outsideGrid, f.override].getD i.val false := by
    obtain ⟨a, b, c, d, e, g, h⟩ := f
    cases a <;> cases b <;> cases c <;> cases d <;> cases e <;> cases g <;> cases h <;> decide
  unfold ResFlags.meets
  rw [Bool.eq_iff_iff, decide_eq_true_iff, and_ne_zero_iff]
  simp only [Bool.or_eq_true, Bool.and_eq_true]
  constructor
  · rintro ⟨i, hi, h1, h2⟩
    rw [hb i hi] at h2
    have h3 := (hf ⟨i, hi⟩).symm.trans h1
    have : i = 0 ∨ i = 1 ∨ i = 2 ∨ i = 3 ∨ i = 4 ∨ i = 5 ∨ i = 6 := by omega
    rcases this with rfl | rfl | rfl | rfl | rfl | rfl | rfl <;> simp at h3 <;> simp [h2, h3]
  · have at_ : ∀ i : Fin 7, m.testBit i.val = true →
        [f.stale, f.hold, f.moving, f.lensNew, f.unknownLens, f.outsideGrid, f.override].getD i.val false = true →
        ∃ i, i < 7 ∧ (BitVec.ofNat 7 f.bits).getLsbD i = true ∧ (BitVec.ofNat 7 m).getLsbD i = true :=
      fun i h1 h2 => ⟨i, i.isLt, (hf i).trans h2, (hb i i.isLt).trans h1⟩
    rintro ((((((h | h) | h) | h) | h) | h) | h)
    exacts [at_ 0 h.1 h.2, at_ 1 h.1 h.2, at_ 2 h.1 h.2, at_ 3 h.1 h.2, at_ 4 h.1 h.2, at_ 5 h.1 h.2, at_ 6 h.1 h.2]

/-- The state with other derived entries. -/
def State.withEntries (s : State) (es : List DerivedEntry) : State := s.mapGroup fun g => { g with entries := es }

/-- An entry as a judging without its pool leaves it. -/
def State.preJudged (s : State) (e : DerivedEntry) : DerivedEntry :=
  { e with result := preJudge s e, clipped := isClipped e.fields s.frame.fields }

theorem modify_append (pre rest : List DerivedEntry) (e : DerivedEntry) (f : DerivedEntry → DerivedEntry) :
    (pre ++ e :: rest).modify pre.length f = pre ++ f e :: rest := by
  induction pre with
  | nil => rfl
  | cons a pre ih => simp [ih]

theorem markClipped_withEntries (s : State) (pre rest : List DerivedEntry) (e : DerivedEntry) :
    markClipped pre.length (s.withEntries (pre ++ e :: rest)) =
      s.withEntries (pre ++ { e with clipped := isClipped e.fields s.frame.fields } :: rest) := by
  simp only [markClipped, State.withEntries, State.mapGroup, State.mapChain, modify_append]
  rfl

theorem setResult_withEntries (s : State) (pre rest : List DerivedEntry) (e : DerivedEntry) (r : EntryResult) :
    setResult pre.length r (s.withEntries (pre ++ e :: rest)) =
      s.withEntries (pre ++ { e with result := some r } :: rest) := by
  simp only [setResult, State.withEntries, State.mapGroup, State.mapChain, modify_append]

/-- R117: entries that need no pool are judged one after the other. -/
theorem judgeEntries_run (s : State) (todo : List DerivedEntry) :
    ∀ (done rest : List DerivedEntry) (fuel : Nat), (∀ e, e ∈ todo → (preJudge s e).isSome = true) →
      judgeEntries (todo.length + fuel) done.length (s.withEntries (done ++ (todo ++ rest))) =
        judgeEntries fuel (done.length + todo.length)
          (s.withEntries (done ++ (todo.map s.preJudged ++ rest))) := by
  induction todo with
  | nil => intro done rest fuel _; simp
  | cons e todo ih =>
    intro done rest fuel h
    obtain ⟨r, hr⟩ := Option.isSome_iff_exists.mp (h e List.mem_cons_self)
    have hget : (s.withEntries (done ++ (e :: todo ++ rest))).chain.group.entries[done.length]? = some e := by
      simp [State.withEntries, State.mapGroup, State.mapChain]
    have hj : preJudge (s.withEntries (done ++ { e with clipped := isClipped e.fields s.frame.fields } ::
        (todo ++ rest))) e = some r := hr
    have he : ({ e with clipped := isClipped e.fields s.frame.fields, result := some r } : DerivedEntry) =
        s.preJudged e := by simp only [State.preJudged, hr]
    have hi := ih (done ++ [s.preJudged e]) rest fuel fun x hx => h x (List.mem_cons_of_mem _ hx)
    simp only [List.length_append, List.length_cons, List.length_nil, Nat.zero_add, List.append_assoc,
      List.cons_append, List.nil_append] at hi
    rw [show (e :: todo).length + fuel = (todo.length + fuel) + 1 by simp; omega, judgeEntries, hget]
    simp only
    rw [List.cons_append, markClipped_withEntries, hj]
    simp only
    rw [setResult_withEntries, he, hi]
    simp only [List.map_cons, List.cons_append, List.length_cons]
    congr 1
    omega

end Sys2Proof.Machine
end

