-- ==== Sys2Proof/Laws/Retire.lean ====
section
/-! SUPPORT. The start of a retirement, said once: what the measurement leaves and what goes to the Port. -/

namespace Sys2Proof.Machine

/-- R139, R140: the measurement leaves the measured state. -/
theorem measure_eq (s : State) : measure s = s.measured := by
  unfold measure State.measured reliefActive
  simp only [State.mapFlight, State.mapChain, State.mapPace]
  cases hf : s.chain.flight.fault <;> simp [Bool.decide_and]

/-- R113, R134: a FRAME's completion write is 68 bytes. -/
@[simp] theorem frameCompletion_length (s : State) : (frameCompletion s).length = 68 := by
  unfold frameCompletion resultListBytes
  simp only [List.length_append, leBytes_length, flagByte_length, zeroBytes_length, List.length_take]
  omega

/-- R113: the retirement begins with the FRAME's completion write, and has the other writes still to make. -/
theorem settle_retire {s : State} (hp : s.PortSettled)
    (hok : accessOk (completionReq s.measured.frame.offset (frameCompletion s.measured)) s.window = true) :
    settle (retire s) = s.measured.retiring := by
  unfold retire
  simp only [measure_eq, retirementWrites, List.cons_append]
  rw [settle_doJob (by exact hp) (by exact hok)]
  unfold State.retiring retiredFrameState
  cases s.measured.chain.flight.fault <;> rfl

/-- What the measured work was does not show in the retirement that begins. -/
theorem retiring_work (t : State) (w : Option Work) : ({ t with work := w } : State).retiring = t.retiring := rfl

end Sys2Proof.Machine
end

