-- ==== Sys2Proof/Laws/Frame.lean ====
section
/-! SUPPORT. What each shared operation of a frame's work leaves for the Port, said once per operation, in the terms
of Safety.lean. -/

namespace Sys2Proof.Machine

variable {u : State}

/-! ### Faults, release and the RAWCOPY phase -/

/-- R113: the retirement of a frame whose work has ended. -/
theorem retires_settle (hp : u.PortSettled) : u.Retires (settle (retire u)) := fun hok => settle_retire hp hok

/-- R130: what a frame fault leaves. -/
theorem faultsWith_settle {code : FaultCode} (hp : u.PortSettled) :
    u.FaultsWith code (settle (faultFrame code u)) := by
  refine ⟨fun he => ?_, ?_⟩
  · have : faultFrame code u = retire { u with
        chain := { u.chain with flight := { u.chain.flight with fault := some code }
                                override := if code = .aborted then {} else u.chain.override }
        writer := { u.writer with outRows := [], derivedRows := [] } } := by
      simp only [faultFrame, returnNext, State.mapFlight, State.mapChain, State.mapWriter, he]
    rw [this]
    exact retires_settle (by exact hp)
  · intro h rest hh r hok
    simp only [faultFrame, returnNext, State.mapFlight, State.mapChain, State.mapWriter, hh, returnSlot]
    exact settle_doJob (by exact hp) hok

/-- R131: what the release of the held slots begins with. -/
theorem releases_settle (hp : u.PortSettled) : u.Releases (settle (releaseNext u)) := by
  refine ⟨fun he => ?_, ?_⟩
  · unfold releaseNext
    rw [he]
    exact retires_settle hp
  · intro h rest hh r hok
    unfold releaseNext
    rw [hh]
    exact settle_doJob hp hok

/-- R129: what the RAWCOPY phase goes on with. -/
theorem copiesFrom_settle {k : Nat} (hp : u.PortSettled) : u.CopiesFrom k (settle (rawFrom k u)) := by
  have hraw : ∀ h : HeldSlot, (decide (k ≤ h.entry) && decide ((u.entryFields h.entry).kind = 3)) = true ↔
      (k ≤ h.entry ∧ (u.entryFields h.entry).kind = 3) := fun h => by simp
  refine ⟨fun hn => ?_, fun before h after hh hb hr => ?_⟩
  · have : u.pools.heldSlots.find? (fun h => decide (k ≤ h.entry) && decide ((u.entryFields h.entry).kind = 3)) =
        none := List.find?_eq_none.mpr fun h hm hc => hn h hm ((hraw h).mp hc)
    unfold rawFrom
    rw [this]
    exact releases_settle hp
  · have : u.pools.heldSlots.find? (fun h => decide (k ≤ h.entry) && decide ((u.entryFields h.entry).kind = 3)) =
        some h := by
      rw [hh, List.find?_append, List.find?_eq_none.mpr fun x hm hc => hb x hm ((hraw x).mp hc)]
      simp [hr.1, hr.2]
    unfold rawFrom
    rw [this]
    simp only [rawRow]
    refine ⟨fun ha => ?_, fun ha => ?_⟩
    · rw [if_pos ha]
      exact faultsWith_settle hp
    · rw [if_neg (by rw [ha]; exact Bool.false_ne_true)]
      intro hok
      exact settle_doJob hp hok

/-! ### Sub-tiles -/

/-- R70, R71: the model's parts are the rule's. -/
theorem splitParts_eq (r : Rect) (b : Box) : splitParts r b = splitInto r b := by
  unfold splitParts splitInto splitX splitY
  rw [← Bool.decide_and, ← Bool.decide_and]
  by_cases hx : 96 < b.width ∧ 8 < r.width <;> by_cases hy : 64 < b.height ∧ 8 < r.height <;>
    simp [Config.bufferWidth, Config.bufferHeight, Config.smallestSubTile, hx, hy, Rect.leftHalf, Rect.rightHalf,
      Rect.topHalf, Rect.bottomHalf]

/-- A sub-tile without pixels has an empty box. -/
theorem footprint_slice_empty {tile r : Rect} {ps : List PixelPos} (h : r.width * r.height = 0) :
    footprint (rectSlice tile r ps) = {} := by
  have : rectSlice tile r ps = [] := by
    unfold rectSlice
    rcases Nat.mul_eq_zero.mp h with h | h
    · simp [h]
    · simp [h]
  rw [this]
  rfl

/-- How many judgings a sub-tile and its parts take at most. -/
def judgings (r : Rect) : Nat := if r.width * r.height = 0 then 1 else 2 * (r.width * r.height) - 1

theorem judgings_pos (r : Rect) : 1 ≤ judgings r := by
  unfold judgings
  split <;> omega

theorem judgings_lt_fuel (rs : List Rect) : (rs.map judgings).sum < judgeFuel rs := by
  unfold judgeFuel
  induction rs with
  | nil => simp
  | cons r rs ih =>
    have : judgings r ≤ 2 * (r.width * r.height) + 1 := by unfold judgings; split <;> omega
    simp only [List.map_cons, List.sum_cons]
    omega

/-- R71: the parts of a split take fewer judgings than the sub-tile would. -/
theorem judgings_split {r : Rect} {b : Box} (h : splitParts r b ≠ []) (hn : r.width * r.height ≠ 0) :
    ((splitParts r b).map judgings).sum < judgings r := by
  obtain ⟨l, t, w, ht⟩ := r
  have hw : w ≠ 0 := fun e => hn (by simp [e])
  have hh : ht ≠ 0 := fun e => hn (by simp [e])
  have area : ∀ a c : Nat, a ≠ 0 → c ≠ 0 → judgings ⟨l, t, a, c⟩ = 2 * (a * c) - 1 ∧ 1 ≤ a * c := by
    intro a c ha hc
    have : a * c ≠ 0 := Nat.mul_ne_zero ha hc
    exact ⟨by simp [judgings, this], Nat.pos_of_ne_zero this⟩
  have any : ∀ (x y a c : Nat), judgings ⟨x, y, a, c⟩ = judgings ⟨l, t, a, c⟩ := fun _ _ _ _ => rfl
  have a1 := area w ht hw hh
  revert h
  unfold splitParts
  have hx : splitX ⟨l, t, w, ht⟩ b = true → 8 < w := fun h =>
    of_decide_eq_true (Bool.and_eq_true_iff.mp h).2
  have hy : splitY ⟨l, t, w, ht⟩ b = true → 8 < ht := fun h =>
    of_decide_eq_true (Bool.and_eq_true_iff.mp h).2
  cases ex : splitX ⟨l, t, w, ht⟩ b <;> cases ey : splitY ⟨l, t, w, ht⟩ b <;> intro h
  · exact absurd rfl h
  · have := hy ey
    simp only [Rect.topHalf, Rect.bottomHalf, List.map_cons, List.map_nil, List.sum_cons, List.sum_nil, any]
    have b1 := area w ((ht + 1) / 2) hw (by omega)
    have b2 := area w (ht - (ht + 1) / 2) hw (by omega)
    have e : w * ht = w * ((ht + 1) / 2) + w * (ht - (ht + 1) / 2) := by rw [← Nat.mul_add]; congr 1; omega
    omega
  · have := hx ex
    simp only [Rect.leftHalf, Rect.rightHalf, List.map_cons, List.map_nil, List.sum_cons, List.sum_nil, any]
    have b1 := area ((w + 1) / 2) ht (by omega) hh
    have b2 := area (w - (w + 1) / 2) ht (by omega) hh
    have e : w * ht = (w + 1) / 2 * ht + (w - (w + 1) / 2) * ht := by rw [← Nat.add_mul]; congr 1; omega
    omega
  · have := hx ex
    have := hy ey
    simp only [Rect.leftHalf, Rect.rightHalf, Rect.topHalf, Rect.bottomHalf, List.map_cons, List.map_nil,
      List.sum_cons, List.sum_nil, any]
    have b1 := area ((w + 1) / 2) ((ht + 1) / 2) (by omega) (by omega)
    have b2 := area (w - (w + 1) / 2) ((ht + 1) / 2) (by omega) (by omega)
    have b3 := area ((w + 1) / 2) (ht - (ht + 1) / 2) (by omega) (by omega)
    have b4 := area (w - (w + 1) / 2) (ht - (ht + 1) / 2) (by omega) (by omega)
    have e : w * ht = (w + 1) / 2 * ((ht + 1) / 2) + (w - (w + 1) / 2) * ((ht + 1) / 2) +
        ((w + 1) / 2 * (ht - (ht + 1) / 2) + (w - (w + 1) / 2) * (ht - (ht + 1) / 2)) := by
      rw [← Nat.add_mul, ← Nat.add_mul, ← Nat.mul_add]
      congr 1 <;> omega
    omega

/-- R76: the model's sampling is the rule's. -/
theorem sampleSubTile_eq (v : Serving) (u : State) : sampleSubTile v u = u.sampled v := rfl

/-- R78: the tile that has no sub-tile left. -/
theorem finishTile_eq {r : RowWrite} {rest : List RowWrite} (h : u.tileRows = r :: rest) :
    finishTile u = (u.quantized rest).doJob .outRow (rowWriteReq .outputRowWrite r.offset r.bytes) := by
  unfold State.tileRows at h
  unfold finishTile writeOutRow
  dsimp only [State.mapWriter]
  rw [h]
  rfl

theorem tileRows_ne_nil (h : 0 < u.tileInHand.height) : ∃ r rest, u.tileRows = r :: rest := by
  obtain ⟨n, hn⟩ : ∃ n, u.tileInHand.height = n + 1 := ⟨_, (Nat.succ_pred_eq_of_pos h).symm⟩
  unfold State.tileRows outputRows
  rw [hn, List.range_succ_eq_map]
  exact ⟨_, _, rfl⟩

/-- R70 to R73, R78, R82: what the judging of sub-tiles comes to. -/
theorem subTilesGoOn_settle (fuel : Nat) : ∀ u : State, u.PortSettled → 0 < u.tileInHand.height →
    (u.tile.subTiles.map judgings).sum < fuel → SubTilesGoOn u (settle (judgeSubTiles fuel u)) := by
  induction fuel with
  | zero => intro u _ _ hf; exact absurd hf (Nat.not_lt_zero _)
  | succ fuel ih =>
    intro u hp hh hf
    unfold judgeSubTiles
    cases hs : u.tile.subTiles with
    | nil =>
      obtain ⟨r, rest, hr⟩ := tileRows_ne_nil hh
      refine .written r rest hs hr fun hok => ?_
      simp only [finishTile_eq hr]
      exact settle_doJob (by exact hp) hok
    | cons r rest =>
      rw [hs] at hf
      simp only [List.map_cons, List.sum_cons] at hf
      have hpos := judgings_pos r
      have heq := splitParts_eq r (footprint (rectSlice u.tileInHand r u.tile.positions))
      generalize hsp : splitParts r (footprint (rectSlice u.tileInHand r u.tile.positions)) = parts at heq
      cases parts with
      | nil =>
        simp only [hsp]
        by_cases hb : (footprint (rectSlice u.tileInHand r u.tile.positions)).width = 0
        · rw [if_pos hb]
          by_cases ha : u.ec.abortReq = true ∧ rest ≠ []
          · have : abortBetween (sampleSubTile
                { rect := r, box := footprint (rectSlice u.tileInHand r u.tile.positions), overspan := false }
                (u.mapTile fun t => { t with subTiles := rest })) = true := by
              have : rest.isEmpty = false := by simpa using ha.2
              simp [abortBetween, sampleSubTile, State.mapTile, ha.1, this]
            rw [if_pos this]
            exact .aborted r rest hs hb ha.1 ha.2 (faultsWith_settle (by exact hp))
          · have : abortBetween (sampleSubTile
                { rect := r, box := footprint (rectSlice u.tileInHand r u.tile.positions), overspan := false }
                (u.mapTile fun t => { t with subTiles := rest })) ≠ true := by
              intro h
              obtain ⟨h1, h2⟩ := Bool.and_eq_true_iff.mp h
              exact ha ⟨h1, fun e => by subst e; exact Bool.noConfusion h2⟩
            rw [if_neg this]
            refine .filled r rest hs hb ?_
              (ih _ (by exact hp) (by exact hh) (by show (rest.map judgings).sum < fuel; omega))
            by_cases he : rest = []
            · exact .inr he
            · exact .inl (Bool.eq_false_iff.mpr fun h => ha ⟨h, he⟩)
        · rw [if_neg hb]
          refine .served r rest _ _ hs rfl heq.symm hb rfl fun hok => ?_
          have hov : (!boxFits (footprint (rectSlice u.tileInHand r u.tile.positions))) =
              decide (96 < (footprint (rectSlice u.tileInHand r u.tile.positions)).width ∨
                64 < (footprint (rectSlice u.tileInHand r u.tile.positions)).height) := by
            unfold boxFits Config.bufferWidth Config.bufferHeight
            rw [← Bool.decide_and, ← decide_not]
            exact decide_eq_decide.mpr (by omega)
          unfold serve readBoxRow
          simp only [hov]
          exact settle_doJob (by exact hp) hok
      | cons p ps =>
        simp only [hsp]
        have hne : splitParts r (footprint (rectSlice u.tileInHand r u.tile.positions)) ≠ [] := by
          rw [hsp]; exact List.cons_ne_nil _ _
        have hn : r.width * r.height ≠ 0 := fun h0 => hne (by
          rw [footprint_slice_empty h0]
          simp [splitParts, splitX, splitY, Config.bufferWidth, Config.bufferHeight])
        have hlt := judgings_split hne hn
        rw [hsp] at hlt
        refine .split r rest hs (by rw [← heq]; exact List.cons_ne_nil _ _) ?_
        rw [← heq]
        refine ih _ (by exact hp) (by exact hh) ?_
        show ((((p :: ps) ++ rest)).map judgings).sum < fuel
        rw [List.map_append, List.sum_append]
        omega

/-! ### Tiles -/

/-- R68, R82: what the start of a tile comes to. -/
theorem tileBegins_settle (hp : u.PortSettled) : u.TileBegins (settle (beginTile u)) := by
  unfold beginTile
  refine ⟨fun ha => ?_, fun ha hh => ?_⟩
  · rw [if_pos ha]
    exact faultsWith_settle hp
  · rw [if_neg (by rw [ha]; exact Bool.false_ne_true)]
    exact subTilesGoOn_settle _ _ (by exact hp) (by exact hh) (judgings_lt_fuel _)

/-- R66. -/
theorem passBegins_settle (hp : u.PortSettled) : u.PassBegins (settle (beginPass u)) :=
  tileBegins_settle (by exact hp)

/-- R67, R82, R86: what the end of a tile comes to. -/
theorem tileEnds_settle (hp : u.PortSettled) : u.TileEnds (settle (tileDone u)) := by
  unfold tileDone tileCount Config.tileWidth Config.tileHeight
  refine ⟨fun h => ?_, fun h => ⟨fun h2 => ?_, fun h2 => ⟨fun ha => ?_, fun ha => ?_⟩⟩⟩
  · rw [if_pos (by omega)]
    exact tileBegins_settle (by exact hp)
  · rw [if_neg (by omega), if_pos (by omega)]
    exact tileBegins_settle (by exact hp)
  · rw [if_neg (by omega), if_neg (by omega), if_pos ha]
    exact faultsWith_settle hp
  · rw [if_neg (by omega), if_neg (by omega), if_neg (by rw [ha]; exact Bool.false_ne_true)]
    exact copiesFrom_settle hp

/-! ### Judging, delivery and lookup -/

/-- R116: the model's extent is empty, or cut, when the rule says so. -/
theorem clippedSize_eq (u : State) (d : DerivedFields) :
    (decide ((clippedSize d u.frame.fields).1 = 0) || decide ((clippedSize d u.frame.fields).2 = 0)) =
        decide (d.rw = 0 ∨ d.rh = 0 ∨ (if d.kind = 3 then u.frame.fields.srcW else u.frame.fields.outW) ≤ d.rx ∨
          (if d.kind = 3 then u.frame.fields.srcH else u.frame.fields.outH) ≤ d.ry) ∧
      isClipped d u.frame.fields = u.cutMark d := by
  have h1 : (rectFrame d u.frame.fields).1 = if d.kind = 3 then u.frame.fields.srcW else u.frame.fields.outW := by
    unfold rectFrame; split <;> rfl
  have h2 : (rectFrame d u.frame.fields).2 = if d.kind = 3 then u.frame.fields.srcH else u.frame.fields.outH := by
    unfold rectFrame; split <;> rfl
  unfold isClipped State.cutMark
  dsimp only
  rw [← Bool.decide_or]
  have hne : clippedSize d u.frame.fields ≠ (d.rw, d.rh) ↔
      ¬((clippedSize d u.frame.fields).1 = d.rw ∧ (clippedSize d u.frame.fields).2 = d.rh) := by
    rw [ne_eq, Prod.ext_iff]
  simp only [hne]
  unfold clippedSize clipExtent
  rw [h1, h2]
  generalize (if d.kind = 3 then u.frame.fields.srcW else u.frame.fields.outW) = w
  generalize (if d.kind = 3 then u.frame.fields.srcH else u.frame.fields.outH) = h
  dsimp only
  refine ⟨decide_eq_decide.mpr (by omega), ?_⟩
  rw [Bool.and_assoc, Bool.and_assoc]
  congr 1
  rw [← decide_not, ← Bool.decide_and, ← Bool.decide_and]
  exact decide_eq_decide.mpr (by omega)

/-- R116 to R119, R122: the model's judging without a pool is the rule's. -/
theorem preJudge_eq (u : State) (e : DerivedEntry) : preJudge u e = u.judgedWithoutPool e.fields := by
  have hc : (!conditionRuns u.chain.flight.used.flags e.fields.mask e.fields.sense) =
      (u.chain.flight.used.flags.meets e.fields.mask != decide (e.fields.sense = 1)) := by
    unfold conditionRuns
    cases u.chain.flight.used.flags.meets e.fields.mask <;> by_cases h : e.fields.sense = 1 <;> simp [h]
  unfold preJudge State.judgedWithoutPool formatBad
  rw [hc, meets_eq, (clippedSize_eq u e.fields).1]

/-- R117: what the judging of the entries comes to. -/
theorem judgesFrom_settle {k : Nat} (hp : u.PortSettled) (hw : u.work = none) :
    u.JudgesFrom k (settle (judgeFrom k u)) := by
  unfold State.JudgesFrom
  intro es settled left n hall
  have hu : ∀ l, u.withEntries l = left u.chain.flight.judging l := by
    intro l
    show u.withEntries l = { u with work := none, chain := _ }
    rw [← hw]
    rfl
  have hset : u.preJudged = settled := by
    funext e
    simp only [State.preJudged, settled, preJudge_eq, (clippedSize_eq u e.fields).2]
  have he : u = u.withEntries es := rfl
  -- the run over the first n entries from k on
  obtain ⟨m, hm⟩ : ∃ m, es.length + 1 = ((es.drop k).take n).length + (m + 1) :=
    ⟨es.length - ((es.drop k).take n).length, by simp; omega⟩
  have run : k ≤ es.length → judgeFrom k u = judgeEntries (m + 1) (k + ((es.drop k).take n).length)
      (u.withEntries (es.take k ++ (((es.drop k).take n).map settled ++ (es.drop k).drop n))) := by
    intro hk
    have h := judgeEntries_run u ((es.drop k).take n) (es.take k) ((es.drop k).drop n) (m + 1)
      fun e h => by rw [preJudge_eq]; exact hall e h
    rw [List.take_append_drop, List.take_append_drop, ← he, hset] at h
    have hl : (es.take k).length = k := by simp [hk]
    rw [hl] at h
    unfold judgeFrom
    rw [show u.chain.group.entries.length + 1 = es.length + 1 from rfl, hm]
    exact h
  refine ⟨fun hle => ?_, ?_⟩
  · have hend : judgeFrom k u = judgingEnded (u.withEntries (es.take k ++ (es.drop k).map settled)) := by
      by_cases hk : k ≤ es.length
      · have hlen : ((es.drop k).take n).length = (es.drop k).length := by simp; omega
        have ht : (es.drop k).take n = es.drop k := List.take_of_length_le (by simp; omega)
        have hnil : (es.drop k).drop n = [] := List.drop_eq_nil_of_le (by rw [List.length_drop]; omega)
        rw [run hk, ht, hnil, List.append_nil]
        unfold judgeEntries
        have : (u.withEntries (es.take k ++ (es.drop k).map settled)).chain.group.entries[k + (es.drop k).length]? =
            none := by
          show (es.take k ++ (es.drop k).map settled)[k + (es.drop k).length]? = none
          exact List.getElem?_eq_none (by simp)
        rw [this]
      · have : es.take k ++ (es.drop k).map settled = es := by
          rw [List.take_of_length_le (by omega), List.drop_eq_nil_of_le (by omega)]; simp
        rw [this, ← he]
        unfold judgeFrom judgeEntries
        have : u.chain.group.entries[k]? = none := List.getElem?_eq_none (by show es.length ≤ k; omega)
        rw [this]
    have hd2 : (u.withEntries (es.take k ++ (es.drop k).map settled)).mapFlight
        (fun f => { f with judging := false }) = left false (es.take k ++ (es.drop k).map settled) := by
      rw [hu]
      rfl
    refine ⟨fun hb => ?_, fun hb => ?_⟩
    · rw [hend]
      unfold judgingEnded
      simp only [hd2]
      rw [if_pos (by exact hb), settle_of_portSettled (by exact hp)]
    · rw [hend]
      unfold judgingEnded
      simp only [hd2]
      rw [if_neg (by rw [show (left false _).chain.flight.building = _ from hb]; exact Bool.false_ne_true)]
      exact passBegins_settle (by exact hp)
  · intro e rest hd hn r hok
    have hlt : k + n < es.length := by
      by_contra h
      rw [List.drop_eq_nil_of_le (by omega)] at hd
      exact absurd hd (by simp)
    have hl : ((es.drop k).take n).length = n := by simp; omega
    have hl2 : (es.take k ++ ((es.drop k).take n).map settled).length = k + n := by simp; omega
    rw [run (by omega), hl, List.drop_drop, hd, ← List.append_assoc]
    unfold judgeEntries
    have : (u.withEntries (es.take k ++ ((es.drop k).take n).map settled ++ e :: rest)).chain.group.entries[k + n]? =
        some e := by
      show (es.take k ++ ((es.drop k).take n).map settled ++ e :: rest)[k + n]? = some e
      rw [List.getElem?_append_right (by omega), hl2]
      simp
    rw [this]
    dsimp only
    have hmk := markClipped_withEntries u (es.take k ++ ((es.drop k).take n).map settled) rest e
    rw [hl2, (clippedSize_eq u e.fields).2] at hmk
    rw [hmk]
    have hpj : preJudge (u.withEntries (es.take k ++ ((es.drop k).take n).map settled ++
        { e with clipped := u.cutMark e.fields } :: rest)) e = none := (preJudge_eq u e).trans hn
    rw [hpj]
    dsimp only
    rw [hu]
    exact settle_doJob (by exact hp) hok

/-- R42: what a delivery comes to. -/
theorem delivers_settle {r : Resolved} (hp : u.PortSettled) (hw : u.work = none) :
    u.Delivers r (settle (deliver r u)) :=
  judgesFrom_settle (by exact hp) (by exact hw)

/-- R34 to R40: what a lookup comes to. -/
theorem lookup_settle (hp : u.PortSettled) (hw : u.work = none) :
    let f := u.chain.flight.lens
    (f.flags.unknownLens = true → u.Delivers (resolveUnknown f) (settle (lookup u))) ∧
    (f.flags.unknownLens = false → ∀ lens, f.lens = some lens →
      (∀ slot, u.cache.find lens = some slot →
        State.Delivers (resolveEntry (u.cache.get slot) f u.chain.flight.override)
          { u with cache := { u.cache with lastServed := some slot } } (settle (lookup u))) ∧
      (u.cache.find lens = none →
        (u.ec.abortReq = true → u.FaultsWith .aborted (settle (lookup u))) ∧
        (u.ec.abortReq = false → lookup u = beginLoad lens u))) := by
  intro f
  refine ⟨fun h => ?_, fun h lens hl => ?_⟩
  · unfold lookup
    dsimp only
    rw [if_pos h]
    exact delivers_settle hp hw
  · unfold lookup
    dsimp only
    rw [if_neg (by rw [show u.chain.flight.lens.flags.unknownLens = false from h]; exact Bool.false_ne_true),
      show u.chain.flight.lens.lens.getD 0 = lens by rw [show u.chain.flight.lens.lens = some lens from hl]; rfl]
    refine ⟨fun slot hs => ?_, fun hs => ⟨fun ha => ?_, fun ha => ?_⟩⟩
    · rw [hs]
      exact delivers_settle (by exact hp) (by exact hw)
    · rw [hs]
      dsimp only
      rw [if_pos ha]
      exact faultsWith_settle hp
    · rw [hs]
      dsimp only
      rw [if_neg (by rw [ha]; exact Bool.false_ne_true)]

/-- R63, R34 to R40: what a lens decision comes to. -/
theorem lensDecided_settle {d : Decision} (hp : u.PortSettled) (hw : u.work = none) :
    u.LensDecided d (settle (applyDecision d u)) := by
  obtain ⟨h1, h2⟩ := lookup_settle (u := ((u.mapLens fun _ => d.unit).setEvents d.events).mapFlight
    fun f => { f with lens := d.frame }) (by exact hp) (by exact hw)
  refine ⟨h1, fun h lens hl => ?_⟩
  obtain ⟨h3, h4⟩ := h2 h lens hl
  refine ⟨fun slot hs => ⟨fun p hr hc => ?_, fun hi => ?_⟩, fun hs => ⟨(h4 hs).1, fun ha => ?_⟩⟩
  · have : resolveEntry (u.cache.get slot) d.frame u.chain.flight.override =
        resolveFrom p d.frame u.chain.flight.override := by
      unfold resolveEntry
      rw [hr, hc]
    exact this ▸ h3 slot hs
  · have : resolveEntry (u.cache.get slot) d.frame u.chain.flight.override = resolveUnknown d.frame := by
      unfold resolveEntry
      rw [hi]
    exact this ▸ h3 slot hs
  · have hb := (h4 hs).2 ha
    unfold applyDecision
    dsimp only
    rw [hb]
    unfold beginLoad
    dsimp only
    refine ⟨fun hd => ?_, fun hd hok => ?_⟩
    · rw [if_pos (by exact hd), settle_of_portSettled (by exact hp)]
      rfl
    · rw [if_neg (by exact hd)]
      exact settle_doJob (by exact hp) hok

end Sys2Proof.Machine
end

