-- ==== Sys2Proof/Laws/Good.lean ====
section
/-! SUPPORT. What the engine's own work never does, once per operation: it writes no memory, no window
register, no LINE_ENABLE and no TIME, clears no event, takes nothing from the queue, and keeps the parts of
soundness. Only the Port's attempts, the register accesses and the resets do those things. -/

namespace Sys2Proof.Machine

/-- The parts of soundness that the engine's own work could break. -/
structure State.Inner (s : State) : Prop where
  dither : s.writer.dither ≠ 0
  tables : tablesOk s.tables = true
  stack : s.chain.returnStack.length ≤ Config.stackDepth
  entries : s.chain.group.entries.length ≤ Config.maxEntries
  lens : settledTogether s.lens = true
  pace : s.pace.consecutive ≤ 255
  copy : copyClamped s.ec.cfg = true
  port : portBounded s.port = true

/-- `t` comes from `s` by the engine's own work. -/
structure Good (s t : State) : Prop where
  dram : t.dram = s.dram
  freeCount : t.freeCount = s.freeCount
  pending : t.pending = s.pending
  winBase : t.reg.winBase = s.reg.winBase
  winSize : t.reg.winSize = s.reg.winSize
  lineEnable : t.reg.lineEnable = s.reg.lineEnable
  time : t.reg.time = s.reg.time
  seen : t.reg.frameReadySeen = s.reg.frameReadySeen
  inReset : t.reg.inReset = s.reg.inReset
  events : s.reg.events ||| t.reg.events = t.reg.events
  inner : s.Inner → t.Inner

@[simp] theorem Good.refl (s : State) : Good s s := by constructor <;> simp

theorem Good.trans {s t u : State} (h : Good s t) (g : Good t u) : Good s u where
  dram := g.dram.trans h.dram
  freeCount := g.freeCount.trans h.freeCount
  pending := g.pending.trans h.pending
  winBase := g.winBase.trans h.winBase
  winSize := g.winSize.trans h.winSize
  lineEnable := g.lineEnable.trans h.lineEnable
  time := g.time.trans h.time
  seen := g.seen.trans h.seen
  inReset := g.inReset.trans h.inReset
  events := by rw [← g.events, ← BitVec.or_assoc, h.events]
  inner := fun i => g.inner (h.inner i)

/-! ### Updates -/

variable {s t : State}

theorem good_mapEc {f : Controller → Controller} (h : Good s t) (hf : (f t.ec).cfg = t.ec.cfg) :
    Good s (t.mapEc f) :=
  h.trans { Good.refl t with inner := fun i => { i with copy := by simpa [hf] using i.copy } }

theorem good_mapChain {f : ChainReader → ChainReader} (h : Good s t)
    (h1 : t.chain.returnStack.length ≤ Config.stackDepth →
      (f t.chain).returnStack.length ≤ Config.stackDepth)
    (h2 : t.chain.group.entries.length ≤ Config.maxEntries →
      (f t.chain).group.entries.length ≤ Config.maxEntries) : Good s (t.mapChain f) :=
  h.trans { Good.refl t with inner := fun i => { i with stack := h1 i.stack, entries := h2 i.entries } }

theorem good_mapGroup {f : Group → Group} (h : Good s t)
    (h2 : t.chain.group.entries.length ≤ Config.maxEntries →
      (f t.chain.group).entries.length ≤ Config.maxEntries) : Good s (t.mapGroup f) :=
  good_mapChain h (fun h => h) h2

@[simp] theorem good_mapFlight {f : Flight → Flight} (h : Good s t) : Good s (t.mapFlight f) :=
  good_mapChain h (fun h => h) (fun h => h)

theorem good_mapLens {f : LensUnit → LensUnit} (h : Good s t)
    (hf : settledTogether t.lens = true → settledTogether (f t.lens) = true) : Good s (t.mapLens f) :=
  h.trans { Good.refl t with inner := fun i => { i with lens := hf i.lens } }

@[simp] theorem good_mapCache {f : Cache → Cache} (h : Good s t) : Good s (t.mapCache f) :=
  h.trans { Good.refl t with inner := fun i => { i with } }

@[simp] theorem good_mapTile {f : TileUnit → TileUnit} (h : Good s t) : Good s (t.mapTile f) :=
  h.trans { Good.refl t with inner := fun i => { i with } }

@[simp] theorem good_mapPools {f : PoolManager → PoolManager} (h : Good s t) : Good s (t.mapPools f) :=
  h.trans { Good.refl t with inner := fun i => { i with } }

@[simp] theorem good_setWork {w : Option Work} (h : Good s t) : Good s (t.setWork w) :=
  h.trans { Good.refl t with inner := fun i => { i with } }

theorem good_mapWriter {f : Writer → Writer} (h : Good s t)
    (hf : t.writer.dither ≠ 0 → (f t.writer).dither ≠ 0) : Good s (t.mapWriter f) :=
  h.trans { Good.refl t with inner := fun i => { i with dither := hf i.dither } }

theorem good_mapPace {f : PaceMonitor → PaceMonitor} (h : Good s t)
    (hf : t.pace.consecutive ≤ 255 → (f t.pace).consecutive ≤ 255) : Good s (t.mapPace f) :=
  h.trans { Good.refl t with inner := fun i => { i with pace := hf i.pace } }

theorem good_mapPort {f : Port → Port} (h : Good s t)
    (hf : copyClamped t.ec.cfg = true → portBounded t.port = true → portBounded (f t.port) = true) :
    Good s (t.mapPort f) :=
  h.trans { Good.refl t with inner := fun i => { i with port := hf i.copy i.port } }

theorem good_setTables {x : Tables} (h : Good s t) (hx : tablesOk x = true) : Good s (t.setTables x) :=
  h.trans { Good.refl t with inner := fun i => { i with tables := hx } }

@[simp] theorem good_setEvents {e : BitVec 10} (h : Good s t) : Good s (t.setEvents e) :=
  h.trans { Good.refl t with
    events := by simp [← BitVec.or_assoc]
    inner := fun i => { i with } }

@[simp] theorem good_hold {x : Held} (h : Good s t) :
    Good s (t.mapReg fun r => { r with held := r.held ++ [x] }) :=
  h.trans { Good.refl t with inner := fun i => { i with } }

@[simp] theorem good_submit {r : Request} (h : Good s t) : Good s (t.submit r) :=
  good_mapPort h fun _ hp => by simpa [portBounded] using hp

@[simp] theorem good_doJob {j : Job} {r : Request} (h : Good s t) : Good s (t.doJob j r) :=
  good_submit (good_setWork h)

@[simp] theorem good_endJob {j : Job} {ok : Bool} {d : List Byte} (h : Good s t) : Good s (t.endJob j ok d) :=
  good_setWork h

/-! ### Status.lean -/

@[simp] theorem good_beginStatus {w : StatusWrite} (h : Good s t) : Good s (beginStatus w t) :=
  good_submit (good_mapEc (good_mapEc h rfl) rfl)

@[simp] theorem good_beginConfigRead {w : ConfigWhy} (h : Good s t) : Good s (beginConfigRead w t) :=
  good_submit (good_mapEc h rfl)

@[simp] theorem good_kick (h : Good s t) : Good s (kick t) := by
  unfold kick
  split
  · exact good_beginStatus (good_mapEc h rfl)
  · exact good_beginConfigRead (good_mapEc h rfl)
  · exact h

@[simp] theorem good_requestStatus {w : StatusWrite} (h : Good s t) : Good s (requestStatus w t) :=
  good_kick (good_mapEc h rfl)

@[simp] theorem good_requestConfig {w : ConfigWhy} (h : Good s t) : Good s (requestConfig w t) :=
  good_kick (good_mapEc h rfl)

@[simp] theorem good_armTimer (h : Good s t) : Good s (armTimer t) := good_mapEc h rfl

@[simp] theorem good_clearAssembly (h : Good s t) : Good s (clearAssembly t) :=
  good_mapChain (good_setWork h) (fun _ => by simp) (fun _ => by simp)

@[simp] theorem good_enterStopped (h : Good s t) : Good s (enterStopped t) :=
  good_requestStatus (good_mapEc (good_mapChain (good_clearAssembly h) id id) rfl)

@[simp] theorem good_haltWith {r : HaltReason} {n : Nat} (h : Good s t) : Good s (haltWith r n t) := by
  unfold haltWith
  exact good_mapEc (good_mapChain (good_clearAssembly h) id id) rfl

@[simp] theorem good_enterHalted {r : HaltReason} {n : Nat} (h : Good s t) : Good s (enterHalted r n t) :=
  good_requestStatus (good_haltWith h)

/-! ### Look.lean -/

@[simp] theorem good_readRecord {w : ReadWhy} {n : Nat} (h : Good s t) : Good s (readRecord w n t) :=
  good_doJob h

@[simp] theorem good_beginLook (h : Good s t) : Good s (beginLook t) := by
  unfold beginLook
  split
  · exact good_mapEc h rfl
  · split <;> simp [h]

@[simp] theorem good_wakeNow (h : Good s t) : Good s (wakeNow t) := by
  unfold wakeNow
  split
  · split
    · exact good_mapEc h rfl
    · simp [h]
  · exact h

@[simp] theorem good_wake (h : Good s t) : Good s (wake t) := by unfold wake; split <;> simp [h]

@[simp] theorem good_endLook {m : Bool} (h : Good s t) : Good s (endLook m t) := by
  simp only [endLook]
  split
  · refine good_requestConfig (good_mapEc ?_ rfl)
    split <;> simp [h]
  · simp [h]

@[simp] theorem good_dropQueue (h : Good s t) : Good s (dropQueue t) := good_mapEc h rfl

@[simp] theorem good_haltUnreported {r : HaltReason} {n : Nat} (h : Good s t) :
    Good s (haltUnreported r n t) := good_setEvents (good_haltWith (good_dropQueue h))

/-- R161: the entry into HALTED for a halt that has been called for. -/
@[simp] theorem good_enterCalledHalt {r : HaltReason} {n : Nat} (h : Good s t) : Good s (enterCalledHalt r n t) := by
  unfold enterCalledHalt
  split
  · exact good_haltUnreported h
  · exact good_enterHalted h

@[simp] theorem good_chainHalt {r : HaltReason} {n : Nat} (h : Good s t) : Good s (chainHalt r n t) :=
  good_enterCalledHalt h

@[simp] theorem good_setCursor {n : Nat} {b : Bool} (h : Good s t) : Good s (setCursor n b t) :=
  good_mapEc h rfl

@[simp] theorem good_park {n : Nat} {b : Bool} (h : Good s t) : Good s (park n b t) := by
  have h1 : Good s (setCursor n b (clearAssembly t)) := good_setCursor (good_clearAssembly h)
  simp only [park]
  split
  · exact good_endLook h1
  · have h2 := good_armTimer (good_mapEc (f := fun c => { c with engine := .parked, wakePending := false }) h1 rfl)
    split
    · refine good_beginLook ?_
      split
      · exact good_requestStatus h2
      · exact h2
    · split
      · exact good_requestStatus h2
      · exact h2

@[simp] theorem good_moveOn {n : Nat} (h : Good s t) : Good s (moveOn n t) := by
  have h1 : Good s (setCursor n false (clearAssembly t)) := good_setCursor (good_clearAssembly h)
  simp only [moveOn]
  split
  · exact good_endLook h1
  · exact good_beginLook (good_mapEc h1 rfl)

@[simp] theorem good_moveOnReported {n : Nat} (h : Good s t) : Good s (moveOnReported n t) := by
  have h1 : Good s (setCursor n false (clearAssembly t)) := good_setCursor (good_clearAssembly h)
  simp only [moveOnReported]
  split
  · exact good_endLook h1
  · exact good_requestStatus h1

@[simp] theorem good_reportCursor (h : Good s t) : Good s (reportCursor t) := by
  unfold reportCursor; split <;> simp [h]

@[simp] theorem good_advancePast {n : Nat} (h : Good s t) : Good s (advancePast n t) :=
  good_readRecord (good_clearAssembly h)

end Sys2Proof.Machine
end

