-- ==== Sys2Proof/Laws/Parts.lean ====
section
/-! SUPPORT. The parts of soundness, each from the operation that computes it: the dither generator, the
tables, the settled lens, the clamps. -/

namespace Sys2Proof.Machine

/-! ### The dither generator (R23, R24) -/

theorem xor_shiftLeft_ne_zero {x : Word} {k : Nat} (hk : 11 ≤ k) (h : x ≠ 0) : x ^^^ (x <<< k) ≠ 0 := by
  intro h0
  have hx : x = x <<< k := by simpa using congrArg (· ^^^ (x <<< k)) h0
  have h3 : x = x <<< (k + k + k) := by
    rw [BitVec.shiftLeft_add, BitVec.shiftLeft_add, ← hx, ← hx, ← hx]
  rw [BitVec.shiftLeft_eq_zero (by omega)] at h3
  exact h h3

theorem xor_ushiftRight_ne_zero {x : Word} {k : Nat} (hk : 11 ≤ k) (h : x ≠ 0) : x ^^^ (x >>> k) ≠ 0 := by
  intro h0
  have hx : x = x >>> k := by simpa using congrArg (· ^^^ (x >>> k)) h0
  have h3 : x = x >>> (k + k + k) := by
    rw [BitVec.shiftRight_add, BitVec.shiftRight_add, ← hx, ← hx, ← hx]
  rw [BitVec.ushiftRight_eq_zero (by omega)] at h3
  exact h h3

theorem xor_shiftLeft_five_ne_zero {x : Word} (h : x ≠ 0) : x ^^^ (x <<< 5) ≠ 0 := by
  intro h0
  have hx : x = x <<< 5 := by simpa using congrArg (· ^^^ (x <<< 5)) h0
  have h2 : x = x <<< (5 + 5) := by rw [BitVec.shiftLeft_add, ← hx, ← hx]
  have h4 : x = x <<< (10 + 10) := by rw [BitVec.shiftLeft_add]; simp only [Nat.reduceAdd] at h2; rw [← h2, ← h2]
  have h8 : x = x <<< (20 + 20) := by rw [BitVec.shiftLeft_add]; simp only [Nat.reduceAdd] at h4; rw [← h4, ← h4]
  rw [BitVec.shiftLeft_eq_zero (by omega)] at h8
  exact h h8

/-- R23: a non-zero state never steps to 0. -/
theorem ditherStep_ne_zero {x : Word} (h : x ≠ 0) : ditherStep x ≠ 0 :=
  xor_shiftLeft_five_ne_zero (xor_ushiftRight_ne_zero (by omega) (xor_shiftLeft_ne_zero (by omega) h))

theorem ditherPixels_ne_zero {depth : Nat} {samples : List Sample} {x : Word} (h : x ≠ 0) :
    (ditherPixels depth x samples).1 ≠ 0 := by
  induction samples generalizing x with
  | nil => exact h
  | cons p rest ih => exact ih (ditherStep_ne_zero (ditherStep_ne_zero (ditherStep_ne_zero h)))

theorem quantizeTile_ne_zero {f : FrameFields} {samples : List Sample} {x : Word} (h : x ≠ 0) :
    (quantizeTile f x samples).1 ≠ 0 := by
  unfold quantizeTile
  split
  · exact ditherPixels_ne_zero h
  · exact h

theorem seedState_ne_zero (seed : Nat) : seedState seed ≠ 0 := by
  unfold seedState
  split
  · decide
  · assumption

/-! ### The tables (R6, R7, R9) -/

theorem clampInt_mem {lo hi : Int} (h : lo ≤ hi) (v : Int) : lo ≤ clampInt lo hi v ∧ clampInt lo hi v ≤ hi := by
  unfold clampInt; split <;> [skip; split] <;> omega

theorem clampEntry_mem (v : Int) : 32768 ≤ clampEntry v ∧ clampEntry v ≤ 131071 :=
  clampInt_mem (by omega) v

theorem tableOk_map {f : Int → Int} (h : ∀ i, 32768 ≤ f i ∧ f i ≤ 131071) :
    tableOk (tableIndexes.map f) = true := by
  simp [tableOk, tableIndexes, h]

theorem centreCoord_nonneg {optical shift extent : Int} (h : 0 ≤ extent) : 0 ≤ centreCoord optical shift extent :=
  (clampInt_mem (by omega) _).1

/-- R6, R7, R9: every build leaves the tables and the centre in range. -/
theorem tablesOk_buildTables (c : Coeffs) (strength : Nat) (cfg : ConfigCopy) (f : FrameFields) :
    tablesOk (buildTables c strength cfg f) = true := by
  simp only [tablesOk, buildTables, Bool.and_eq_true]
  exact ⟨⟨⟨⟨tableOk_map fun i => clampEntry_mem _, tableOk_map fun i => clampEntry_mem _⟩,
    tableOk_map fun i => clampEntry_mem _⟩, decide_eq_true (centreCoord_nonneg (Int.natCast_nonneg _))⟩,
    decide_eq_true (centreCoord_nonneg (Int.natCast_nonneg _))⟩

/-! ### The settled lens (R51) -/

theorem settledTogether_settleOn (u : LensUnit) (n : LensSample) : settledTogether (settleOn u n) = true := rfl

theorem settledTogether_boardWithin {cfg : ConfigCopy} {u : LensUnit} {n : LensSample} {p : Option LensSample}
    {stale : Bool} (h : settledTogether u = true) :
    settledTogether (boardWithin cfg u n p stale).unit = true := by
  unfold boardWithin
  split
  · exact settledTogether_settleOn u n
  · split
    · exact settledTogether_settleOn u n
    · exact h

theorem settledTogether_boardStep {cfg : ConfigCopy} {now : Word} {u : LensUnit}
    {slots : Option (LensSample × LensSample)} (h : settledTogether u = true) :
    settledTogether (boardStep cfg now u slots).unit = true := by
  unfold boardStep
  split
  · exact h
  · unfold boardSome
    simp only
    split
    · exact settledTogether_boardWithin h
    · split
      · exact settledTogether_boardWithin h
      · exact h

/-- R51: a decision leaves the three present together or absent together. -/
theorem settledTogether_decideFromBoard {cfg : ConfigCopy} {now : Word} {u : LensUnit}
    {slots : Option (LensSample × LensSample)} {o : Override} (h : settledTogether u = true) :
    settledTogether (decideFromBoard cfg now u slots o).unit = true :=
  settledTogether_boardStep (cfg := cfg) (now := now) (slots := slots) h

theorem settledTogether_decideFull {u : LensUnit} {o : Override} (h : settledTogether u = true) :
    settledTogether (decideFull u o).unit = true := h

/-! ### The configuration copy (R158) -/

/-- R158: what the clamps leave. -/
theorem copyClamped_clampConfig (c : ConfigCopy) : copyClamped (clampConfig c) = true := by
  simp [copyClamped, clampConfig]

end Sys2Proof.Machine
end

