-- ==== Sys2Proof/Laws/GoodFrame.lean ====
section
/-! SUPPORT. `Good` for the work on a frame: the take, the lens decision, the judging, the pass, the release
and the retirement. -/

namespace Sys2Proof.Machine

variable {s t : State}

/-! ### Retire.lean -/

@[simp] theorem good_setResult {k : Nat} {r : EntryResult} (h : Good s t) : Good s (setResult k r t) :=
  good_mapGroup h fun h => by simpa using h

@[simp] theorem good_measure (h : Good s t) : Good s (measure t) := by
  unfold measure
  refine good_mapPace (good_mapFlight h) fun hp => ?_
  simp only [State.mapFlight_pace] at hp
  simp only
  split
  · omega
  · split <;> omega

@[simp] theorem good_retire (h : Good s t) : Good s (retire t) := by
  simp only [retire]
  split <;> simp [h]

@[simp] theorem good_dropHeld {k : Nat} (h : Good s t) : Good s (dropHeld k t) := good_mapPools h

@[simp] theorem good_returnSlot {x : HeldSlot} (h : Good s t) : Good s (returnSlot x t) := good_doJob h

@[simp] theorem good_returnNext (h : Good s t) : Good s (returnNext t) := by
  unfold returnNext; split <;> simp [h]

@[simp] theorem good_faultFrame {c : FaultCode} (h : Good s t) : Good s (faultFrame c t) :=
  good_returnNext (good_mapWriter (good_mapChain (good_mapFlight h) id id) id)

@[simp] theorem good_releaseNext (h : Good s t) : Good s (releaseNext t) := by
  unfold releaseNext; split <;> simp [h]

/-! ### Derived.lean -/

@[simp] theorem good_rawRow {x : HeldSlot} {n : Nat} (h : Good s t) : Good s (rawRow x n t) := by
  unfold rawRow; split <;> simp [h]

@[simp] theorem good_rawFrom {k : Nat} (h : Good s t) : Good s (rawFrom k t) := by
  unfold rawFrom; split <;> simp [h]

/-! ### Tile.lean -/

@[simp] theorem good_sampleSubTile {v : Serving} (h : Good s t) : Good s (sampleSubTile v t) := by
  unfold sampleSubTile; exact good_mapTile h

@[simp] theorem good_writeOutRow (h : Good s t) : Good s (writeOutRow t) := by
  unfold writeOutRow
  split
  · exact good_doJob (good_mapWriter h id)
  · exact h

@[simp] theorem good_finishTile (h : Good s t) : Good s (finishTile t) := by
  unfold finishTile
  exact good_writeOutRow (good_mapWriter h fun hd => quantizeTile_ne_zero hd)

@[simp] theorem good_readBoxRow {v : Serving} {n : Nat} (h : Good s t) : Good s (readBoxRow v n t) := good_doJob h

@[simp] theorem good_serve {r : Rect} {x : Box} (h : Good s t) : Good s (serve r x t) :=
  good_readBoxRow (good_mapTile h)

@[simp] theorem good_judgeSubTiles {fuel : Nat} (h : Good s t) : Good s (judgeSubTiles fuel t) := by
  induction fuel generalizing t with
  | zero => exact h
  | succ fuel ih =>
    unfold judgeSubTiles
    split
    · exact good_finishTile h
    · simp only
      split
      · split
        · split
          · exact good_faultFrame (good_sampleSubTile (good_mapTile h))
          · exact ih (good_sampleSubTile (good_mapTile h))
        · simp [h]
      · exact ih (good_mapTile h)

@[simp] theorem good_judgeTile (h : Good s t) : Good s (judgeTile t) := good_judgeSubTiles h

@[simp] theorem good_beginTile (h : Good s t) : Good s (beginTile t) := by
  unfold beginTile
  split
  · exact good_faultFrame h
  · exact good_judgeTile (good_mapWriter (good_mapTile h) id)

@[simp] theorem good_beginPass (h : Good s t) : Good s (beginPass t) := good_beginTile (good_mapTile h)

@[simp] theorem good_tileDone (h : Good s t) : Good s (tileDone t) := by
  simp only [tileDone]
  split
  · simp [h]
  · split
    · simp [h]
    · split <;> simp [h]

@[simp] theorem good_nextDerivedRow (h : Good s t) : Good s (nextDerivedRow t) := by
  unfold nextDerivedRow
  split
  · exact good_doJob (good_mapWriter h id)
  · exact good_tileDone h

@[simp] theorem good_nextOutRow (h : Good s t) : Good s (nextOutRow t) := by
  unfold nextOutRow; split <;> simp [h]

/-! ### Deliver.lean -/

@[simp] theorem good_markClipped {k : Nat} (h : Good s t) : Good s (markClipped k t) :=
  good_mapGroup h fun h => by simpa using h

@[simp] theorem good_judgingEnded (h : Good s t) : Good s (judgingEnded t) := by
  simp only [judgingEnded]
  split <;> simp [h]

@[simp] theorem good_judgeEntries {fuel k : Nat} (h : Good s t) : Good s (judgeEntries fuel k t) := by
  induction fuel generalizing k t with
  | zero => exact good_judgingEnded h
  | succ fuel ih =>
    unfold judgeEntries
    split
    · exact good_judgingEnded h
    · simp only
      split
      · exact ih (good_setResult (good_markClipped h))
      · exact good_doJob (good_markClipped h)

@[simp] theorem good_judgeFrom {k : Nat} (h : Good s t) : Good s (judgeFrom k t) := good_judgeEntries h

@[simp] theorem good_judgeOn {k : Nat} {r : EntryResult} (h : Good s t) : Good s (judgeOn k r t) :=
  good_judgeFrom (good_setResult h)

@[simp] theorem good_judgePool {k : Nat} {p : PoolView} (h : Good s t) : Good s (judgePool k p t) := by
  simp only [judgePool]
  split
  · exact good_judgeOn h
  · split
    · exact good_doJob h
    · split
      · exact good_doJob h
      · exact good_judgeOn h

@[simp] theorem good_slotBusyEnded {x : HeldSlot} {ok : Bool} (h : Good s t) : Good s (slotBusyEnded x ok t) := by
  unfold slotBusyEnded; split <;> simp [h]

@[simp] theorem good_dropCountEnded {k : Nat} {ok : Bool} (h : Good s t) : Good s (dropCountEnded k ok t) := by
  unfold dropCountEnded; split <;> simp [h]

@[simp] theorem good_deliver {r : Resolved} (h : Good s t) : Good s (deliver r t) :=
  good_judgeFrom (good_mapFlight h)

@[simp] theorem good_buildEnded (h : Good s t) : Good s (buildEnded t) := by
  have h1 := good_mapFlight (f := fun f => { f with building := false }) (good_setTables h
    (tablesOk_buildTables t.chain.flight.coeffs t.chain.flight.strength t.ec.cfg t.frame.fields))
  simp only [buildEnded]
  split
  · exact h1
  · exact good_beginPass h1

/-! ### Take.lean -/

@[simp] theorem good_beginLoad {n : Nat} (h : Good s t) : Good s (beginLoad n t) := by
  simp only [beginLoad]
  split <;> simp [h]

@[simp] theorem good_lookup (h : Good s t) : Good s (lookup t) := by
  simp only [lookup]
  split
  · exact good_deliver h
  · split
    · exact good_deliver (good_mapCache h)
    · split <;> simp [h]

@[simp] theorem good_loadEnded {v : CacheSlot} {ok : Bool} (h : Good s t) : Good s (loadEnded v ok t) := by
  simp only [loadEnded]
  split <;> simp [h]

theorem good_applyDecision {d : Decision} (h : Good s t)
    (hd : settledTogether t.lens = true → settledTogether d.unit = true) : Good s (applyDecision d t) :=
  good_lookup (good_mapFlight (good_setEvents (good_mapLens h hd)))

@[simp] theorem good_boardEnded {ok : Bool} {d : List Byte} {now : Word} (h : Good s t) :
    Good s (boardEnded ok d now t) :=
  good_applyDecision h settledTogether_decideFromBoard

@[simp] theorem good_frameAccepted (h : Good s t) : Good s (frameAccepted t) := by
  have hg : Good s (t.mapGroup fun g =>
      { g with frame := g.frame.map fun r => { r with fields := clampFrame r.fields } }) :=
    good_mapGroup h id
  simp only [frameAccepted]
  generalize (t.mapGroup fun g =>
      { g with frame := g.frame.map fun r => { r with fields := clampFrame r.fields } }) = u at hg ⊢
  have hw : Good s (if u.frame.fields.seedPresent then
      u.mapWriter fun w => { w with dither := seedState u.frame.fields.seed } else u) := by
    split
    · exact good_mapWriter hg fun _ => seedState_ne_zero _
    · exact hg
  generalize (if u.frame.fields.seedPresent then
      u.mapWriter fun w => { w with dither := seedState u.frame.fields.seed } else u) = v at hw ⊢
  split
  · exact good_applyDecision hw settledTogether_decideFull
  · exact good_doJob hw

@[simp] theorem good_validate (h : Good s t) : Good s (validate t) := by
  unfold validate; split <;> simp [h]

@[simp] theorem good_recordTake (h : Good s t) : Good s (recordTake t) := by
  unfold recordTake
  exact good_mapTile (good_mapEc (good_mapPace h id) rfl)

@[simp] theorem good_consumeOverride (h : Good s t) : Good s (consumeOverride t) := good_mapChain h id id

@[simp] theorem good_afterTaken {ok : Bool} (h : Good s t) : Good s (afterTaken ok t) := by
  have h1 := good_consumeOverride (good_recordTake h)
  simp only [afterTaken]
  split
  · exact good_validate h1
  · exact good_faultFrame h1

@[simp] theorem good_nextTaken (h : Good s t) : Good s (nextTaken t) := by
  unfold nextTaken; split <;> simp [h]

@[simp] theorem good_takenEnded {ok : Bool} (h : Good s t) : Good s (takenEnded ok t) := by
  unfold takenEnded; split <;> simp [h]

@[simp] theorem good_take (h : Good s t) : Good s (take t) := by
  have h1 := good_mapEc (f := fun c => { c with engine := .working, timer := none, wakePending := false }) h rfl
  simp only [take]
  refine good_nextTaken (good_mapFlight ?_)
  split <;> simp [h1]

end Sys2Proof.Machine
end

