-- ==== Sys2Proof/Laws/GoodChain.lean ====
section
/-! SUPPORT. `Good` for the chain, the commands that touch no register, the group boundary and the ends of the
Engine Controller's work. -/

namespace Sys2Proof.Machine

variable {s t : State}

/-! ### Chain.lean -/

@[simp] theorem good_nextRead {w : ReadWhy} {n : Nat} (h : Good s t) : Good s (nextRead w n t) := by
  unfold nextRead
  split
  · exact good_endLook h
  · split
    · exact good_chainHalt h
    · exact good_readRecord h

@[simp] theorem good_incomplete (h : Good s t) : Good s (incomplete t) := good_park h

@[simp] theorem good_followMain {a b : Nat} (h : Good s t) : Good s (followMain a b t) := by
  unfold followMain
  split
  · exact good_incomplete h
  · split
    · exact good_nextRead h
    · exact good_chainHalt h

@[simp] theorem good_followSub {a b : Nat} (h : Good s t) : Good s (followSub a b t) := by
  unfold followSub
  split
  · exact good_chainHalt h
  · split
    · exact good_nextRead h
    · exact good_chainHalt h

@[simp] theorem good_completeGroup (h : Good s t) : Good s (completeGroup t) := by
  unfold completeGroup
  split
  · exact good_endLook h
  · exact good_take h

@[simp] theorem good_afterMain {n : Nat} {x : RecordHead} (h : Good s t) : Good s (afterMain n x t) := by
  unfold afterMain
  split
  · exact good_completeGroup h
  · exact good_followMain h

@[simp] theorem good_countRead {n : Nat} (h : Good s t) : Good s (countRead n t) := good_mapGroup h id

@[simp] theorem good_addMain {n : Nat} {k : RecordKind} {x : RecordHead} {e : Option Nat} (h : Good s t) :
    Good s (addMain n k x e t) := good_mapGroup h id

@[simp] theorem good_joinEntry {n : Nat} {b : List Byte} {m : Bool} (h : Good s t) :
    Good s (joinEntry n b m t) := by
  unfold joinEntry
  split
  · next hp =>
    refine good_mapGroup h fun _ => ?_
    simp only [entryPlace] at hp
    split at hp
    · simpa using by omega
    · simp at hp
  · exact h

@[simp] theorem good_stageOverride {b : List Byte} (h : Good s t) : Good s (stageOverride b t) :=
  good_mapGroup h id

@[simp] theorem good_callPush {a b : Nat} (h : Good s t) : Good s (callPush a b t) := by
  unfold callPush
  split
  · exact good_chainHalt h
  · split
    · exact good_chainHalt h
    · next hs => exact good_nextRead (good_mapChain h (fun _ => by simpa using by omega) id)

@[simp] theorem good_returnPop (h : Good s t) : Good s (returnPop t) := by
  unfold returnPop
  split
  · exact h
  · have h1 := good_mapChain (f := fun c => { c with returnStack := c.returnStack.dropLast }) h
      (fun hl => by simp only [List.length_dropLast]; omega) id
    simp only
    split
    · exact good_completeGroup h1
    · exact good_nextRead h1

@[simp] theorem good_countUnterminated (h : Good s t) : Good s (countUnterminated t) := good_mapEc h rfl

@[simp] theorem good_unterminatedEnded {u : Unterminated} (h : Good s t) : Good s (unterminatedEnded u t) := by
  simp only [unterminatedEnded]
  split
  · exact good_chainHalt (good_setCursor (good_countUnterminated h))
  · exact good_moveOnReported (good_countUnterminated h)

@[simp] theorem good_nextUnterminated (h : Good s t) : Good s (nextUnterminated t) := by
  unfold nextUnterminated
  split
  · exact h
  · split
    · exact good_doJob (good_mapChain h id id)
    · exact good_unterminatedEnded h

@[simp] theorem good_beginUnterminated {n : Nat} (h : Good s t) : Good s (beginUnterminated n t) := by
  unfold beginUnterminated
  split
  · exact good_endLook h
  · exact good_nextUnterminated (good_mapChain h id id)

@[simp] theorem good_unterminatedWritten {n : Nat} {ok : Bool} (h : Good s t) :
    Good s (unterminatedWritten n ok t) := by
  unfold unterminatedWritten
  split
  · exact h
  · next u _ =>
    simp only
    generalize u.failed.or (if ok then none else some n) = x
    have h1 := good_mapChain (f := fun c => { c with unterminated := some { u with failed := x } }) h id id
    split
    · split
      · exact good_unterminatedEnded h1
      · exact good_endLook h1
    · exact good_nextUnterminated h1

@[simp] theorem good_beginGroupStart {k : RecordKind} {b : List Byte} (h : Good s t) :
    Good s (beginGroupStart k b t) := by
  unfold beginGroupStart
  refine good_doJob ?_
  split
  · exact good_mapChain h id id
  · exact h

@[simp] theorem good_groupStartWritten {c : Bool} {k : RecordKind} {n : Nat} {ok : Bool} (h : Good s t) :
    Good s (groupStartWritten c k n ok t) := by
  unfold groupStartWritten
  split
  · exact good_chainHalt h
  · split
    · exact good_doJob h
    · exact good_advancePast (good_mapEc h rfl)

@[simp] theorem good_beginGroup {b : List Byte} (h : Good s t) : Good s (beginGroup b t) := by
  unfold beginGroup
  exact good_afterMain (good_mapChain h (fun _ => by simp) (fun _ => by simp))

@[simp] theorem good_cursorRead {b : List Byte} (h : Good s t) : Good s (cursorRead b t) := by
  simp only [cursorRead]
  split
  · exact good_park h
  · split
    · exact good_chainHalt h
    · exact good_chainHalt h
    · split
      · exact good_endLook h
      · exact good_reportCursor (good_beginGroup h)
    · split
      · exact good_endLook h
      · exact good_reportCursor (good_beginGroupStart h)

@[simp] theorem good_cursorLinkRead {n : Nat} (h : Good s t) : Good s (cursorLinkRead n t) := by
  unfold cursorLinkRead
  split
  · exact good_park h
  · split
    · exact good_moveOn h
    · exact good_chainHalt h

@[simp] theorem good_advanceRead {a b : Nat} (h : Good s t) : Good s (advanceRead a b t) := by
  unfold advanceRead
  split
  · exact good_park h
  · split
    · exact good_moveOn h
    · exact good_chainHalt (good_setCursor h)

@[simp] theorem good_lookAheadRead {n : Nat} {b : List Byte} (h : Good s t) : Good s (lookAheadRead n b t) := by
  simp only [lookAheadRead]
  split
  · exact good_incomplete h
  · split
    · exact good_chainHalt h
    · exact good_chainHalt h
    · exact good_beginUnterminated h
    · exact good_afterMain (good_joinEntry (good_addMain h))
    · exact good_afterMain (good_stageOverride (good_addMain h))
    · exact good_callPush (good_addMain h)

@[simp] theorem good_subchainRead {n : Nat} {b : List Byte} (h : Good s t) : Good s (subchainRead n b t) := by
  simp only [subchainRead]
  split
  · exact good_chainHalt h
  · split
    · exact good_chainHalt h
    · exact good_chainHalt h
    · exact good_followSub (good_joinEntry h)
    · exact good_followSub (good_stageOverride h)
    · exact good_callPush h
    · exact good_returnPop h

@[simp] theorem good_callReread {a b : Nat} (h : Good s t) : Good s (callReread a b t) := by
  unfold callReread
  split
  · exact good_followMain h
  · exact good_followSub h

/-! ### Commands.lean: all but the resets, the window writes, EVENTS and LINE_ENABLE -/

@[simp] theorem good_refuse (h : Good s t) : Good s (refuse t) := good_setEvents h

@[simp] theorem good_clearForStart (h : Good s t) : Good s (clearForStart t) := by
  unfold clearForStart
  refine good_mapPace (good_mapLens (good_mapCache (good_mapPools (good_mapEc (good_mapChain (good_setWork h)
    (fun _ => by simp) (fun _ => by simp)) rfl))) fun _ => rfl) fun _ => by simp

@[simp] theorem good_actStart (h : Good s t) : Good s (actStart t) := by
  unfold actStart
  split
  · exact good_requestStatus (good_clearForStart h)
  · exact good_refuse h

@[simp] theorem good_stopParked (h : Good s t) : Good s (stopParked t) := by
  unfold stopParked
  split
  · exact good_mapEc h rfl
  · exact good_enterStopped h

@[simp] theorem good_toStopping (h : Good s t) : Good s (toStopping t) := by
  unfold toStopping
  split
  · exact h
  · exact good_requestStatus (good_mapEc h rfl)

@[simp] theorem good_actStop (h : Good s t) : Good s (actStop t) := by
  unfold actStop
  split <;> first | split <;> simp [h] | simp [h]

@[simp] theorem good_abortActive (h : Good s t) : Good s (abortActive t) := by
  unfold abortActive
  split
  · exact good_toStopping (good_mapEc h rfl)
  · exact good_toStopping (good_mapEc h rfl)

@[simp] theorem good_actAbort (h : Good s t) : Good s (actAbort t) := by
  unfold actAbort
  split
  · exact good_stopParked h
  · exact good_mapEc h rfl
  all_goals simp [h]

@[simp] theorem good_actResume (h : Good s t) : Good s (actResume t) := by
  unfold actResume
  split
  · simp only
    split
    · exact good_requestStatus (good_armTimer (good_mapEc (good_mapEc h rfl) rfl))
    · exact good_requestStatus (good_mapEc (good_mapEc h rfl) rfl)
  · exact good_refuse h

@[simp] theorem good_actRescan (h : Good s t) : Good s (actRescan t) := by
  unfold actRescan
  split <;> simp [h]

@[simp] theorem good_holdReload (h : Good s t) : Good s (holdReload t) := good_mapEc h rfl

@[simp] theorem good_actReload (h : Good s t) : Good s (actReload t) := by
  unfold actReload
  split <;> first | split <;> simp [h] | simp [h]

@[simp] theorem good_actCommandUnknown (h : Good s t) : Good s (actCommandUnknown t) := good_refuse h

@[simp] theorem good_actNoEffect {a : NoEffectAccess} (h : Good s t) : Good s (actNoEffect a t) := by
  unfold actNoEffect
  split
  · exact h.trans { Good.refl t with inner := fun i => { i with } }
  all_goals exact h

/-! ### Boundary.lean -/

@[simp] theorem good_countRetirement (h : Good s t) : Good s (countRetirement t) := by
  unfold countRetirement
  exact good_mapEc h rfl

@[simp] theorem good_retirementEnded {b : Bool} (h : Good s t) : Good s (retirementEnded b t) := by
  unfold retirementEnded
  exact good_requestStatus (good_mapChain (good_mapEc (good_countRetirement h) rfl) id (fun _ => by simp))

@[simp] theorem good_boundaryEnd {f : Option Nat} {r : Bool} (h : Good s t) : Good s (boundaryEnd f r t) := by
  unfold boundaryEnd
  split
  · exact h
  · split
    · exact good_enterCalledHalt (good_mapEc (good_setCursor h) rfl)
    · split
      · exact good_enterHalted (good_setCursor h)
      · split
        · exact good_enterStopped (good_setCursor h)
        · exact good_advancePast (good_mapEc h rfl)

@[simp] theorem good_boundaryStart (h : Good s t) : Good s (boundaryStart t) := by
  unfold boundaryStart
  split
  · exact good_requestConfig (good_mapEc h rfl)
  · exact good_boundaryEnd h

@[simp] theorem good_applyCopy {c : ConfigCopy} (h : Good s t) : Good s (applyCopy c t) :=
  good_mapPace (h.trans { Good.refl t with inner := fun i => { i with copy := copyClamped_clampConfig c } }) id

@[simp] theorem good_configHalt {n : Nat} (h : Good s t) : Good s (configHalt n t) :=
  good_enterHalted (good_mapEc h rfl)

@[simp] theorem good_parkFromStarting (h : Good s t) : Good s (parkFromStarting t) :=
  good_requestStatus (good_armTimer (good_mapEc h rfl))

@[simp] theorem good_stopFromStarting {m : Bool} (h : Good s t) : Good s (stopFromStarting m t) := by
  unfold stopFromStarting
  split
  · refine good_requestConfig (good_mapEc ?_ rfl)
    split
    · exact good_requestStatus h
    · exact h
  · exact good_enterStopped h

@[simp] theorem good_startRead {r : Bool} {c : ConfigCopy} {f : Option Nat} (h : Good s t) :
    Good s (startRead r c f t) := by
  unfold startRead
  split
  · exact good_enterStopped h
  · split
    · exact good_configHalt h
    · simp only
      have h1 := good_applyCopy (c := c) h
      generalize (!r || decide (t.ec.cursor = 0) ||
        (decide (t.ec.engine = .stopping) && Config.stopTakesChainHead)) = toHead
      have h2 : Good s (if toHead = true then
          setCursor (applyCopy c t).ec.cfg.chainHead false (applyCopy c t) else applyCopy c t) := by
        split
        · exact good_setCursor h1
        · exact h1
      generalize (if toHead = true then
          setCursor (applyCopy c t).ec.cfg.chainHead false (applyCopy c t) else applyCopy c t) = v at h2 ⊢
      split
      · exact good_stopFromStarting h2
      · exact good_parkFromStarting h2

@[simp] theorem good_reloadRead {c : ConfigCopy} {f : Option Nat} (h : Good s t) : Good s (reloadRead c f t) := by
  have h1 := good_applyCopy (c := c) (good_mapCache (f := fun _ => emptyCache) h)
  unfold reloadRead
  simp only
  split
  · exact good_configHalt (good_mapCache h)
  · split
    · exact good_requestConfig (good_mapEc h1 rfl)
    · split
      · exact good_enterStopped h1
      · split
        · exact good_beginLook (good_mapEc h1 rfl)
        · exact h1

@[simp] theorem good_boundaryRead {c : ConfigCopy} {f : Option Nat} (h : Good s t) :
    Good s (boundaryRead c f t) := by
  have h1 := good_applyCopy (c := c) (good_mapCache (f := fun _ => emptyCache) h)
  unfold boundaryRead
  simp only
  split
  · exact good_boundaryEnd (good_mapEc (good_mapCache h) rfl)
  · split
    · exact good_requestConfig (good_mapEc h1 rfl)
    · exact good_boundaryEnd h1

@[simp] theorem good_configEnded {w : ConfigWhy} {ok : Bool} {d : List Byte} (h : Good s t) :
    Good s (configEnded w ok d t) := by
  have h1 := good_mapEc (f := fun c => { c with job := none }) h rfl
  unfold configEnded
  simp only
  refine good_kick ?_
  split
  · exact good_startRead h1
  · exact good_startRead h1
  · exact good_reloadRead h1
  · exact good_boundaryRead h1

@[simp] theorem good_continueAfter {a : After} (h : Good s t) : Good s (continueAfter a t) := by
  unfold continueAfter
  split <;> simp [h]

@[simp] theorem good_abandonLook (h : Good s t) : Good s (abandonLook t) := by
  unfold abandonLook
  simp only
  split
  · exact good_mapEc (good_setWork (good_countUnterminated h)) rfl
  · exact good_mapEc (good_setWork h) rfl

@[simp] theorem good_statusFail {w : StatusWrite} (h : Good s t) : Good s (statusFail w t) := by
  unfold statusFail
  split
  · exact h
  · split
    · simp only [holdStatusHalt]
      split
      · exact good_boundaryStart (good_mapEc h rfl)
      · exact good_mapEc h rfl
    · split
      · exact good_mapEc h rfl
      · exact good_haltUnreported (good_abandonLook h)

end Sys2Proof.Machine
end

