-- ==== Sys2Proof/Laws/GoodPort.lean ====
section
/-! SUPPORT. `Good` for the Memory Port's reports, its request list and the steps that act on an end. What is
left outside `Good` is named where it stands: the attempts that write memory, the window writes, EVENTS_READ,
LINE_ENABLE, the clock and the resets. -/

namespace Sys2Proof.Machine

variable {s t : State}

/-! ### Port.lean -/

/-- R169: a first attempt is within every bound. -/
theorem good_startAccess {r : Request} (h : Good s t) : Good s (startAccess r t) := by
  unfold startAccess issueAttempt
  refine h.trans { Good.refl t with inner := fun i => { i with port := ?_ } }
  have hc := i.copy
  simp only [copyClamped, Bool.and_eq_true, decide_eq_true_eq] at hc
  simp only [State.mapPort, portBounded, Option.all_some, accessBounded]
  split
  · simp; omega
  · simp

@[simp] theorem good_statusReport {w : StatusWrite} {st : StatusStage} {b : List Byte} {ok : Bool}
    (h : Good s t) : Good s (statusReport w st b ok t) := by
  simp only [statusReport]
  split
  · exact good_mapEc h rfl
  · split
    · exact good_submit (good_mapEc h rfl)
    · exact good_submit (good_mapEc h rfl)
    · exact good_mapEc h rfl

@[simp] theorem good_ecReport {ok : Bool} {d : List Byte} (h : Good s t) : Good s (ecReport ok d t) := by
  unfold ecReport
  split
  · exact good_mapEc h rfl
  · exact good_statusReport h
  · exact h

@[simp] theorem good_readNode {v : CacheSlot} {l o i c : Nat} (h : Good s t) : Good s (readNode v l o i c t) :=
  good_doJob h

@[simp] theorem good_directoryReport {v : CacheSlot} {l n : Nat} {d : List Byte} (h : Good s t) :
    Good s (directoryReport v l n d t) := by
  simp only [directoryReport, loadGoesOn]
  split
  · exact good_endJob h
  · split
    · split
      · exact good_doJob h
      · exact good_endJob h
    · split
      · exact good_doJob h
      · exact good_endJob h

@[simp] theorem good_headerReport {v : CacheSlot} {l o : Nat} {d : List Byte} (h : Good s t) :
    Good s (headerReport v l o d t) := by
  simp only [headerReport, loadGoesOn]
  split
  · exact good_endJob h
  · split
    · exact good_readNode (good_mapCache h)
    · exact good_endJob h

@[simp] theorem good_nodeReport {v : CacheSlot} {l o i c : Nat} {d : List Byte} (h : Good s t) :
    Good s (nodeReport v l o i c d t) := by
  simp only [nodeReport, loadGoesOn]
  split
  · split
    · exact good_endJob (good_mapCache h)
    · exact good_readNode (good_mapCache h)
  · exact good_endJob (good_mapCache h)

@[simp] theorem good_loadReport {v : CacheSlot} {l : Nat} {st : LoadStage} {ok : Bool} {d : List Byte}
    (h : Good s t) : Good s (loadReport v l st ok d t) := by
  unfold loadReport
  split
  · exact good_endJob h
  · split
    · exact good_directoryReport h
    · exact good_headerReport h
    · exact good_nodeReport h

@[simp] theorem good_poolTableReport {k : Nat} {d : List Byte} (h : Good s t) :
    Good s (poolTableReport k d t) := by
  simp only [poolTableReport]
  split
  · exact good_doJob h
  · exact good_endJob h

@[simp] theorem good_poolHeaderReport {k n : Nat} {d : List Byte} (h : Good s t) :
    Good s (poolHeaderReport k n d t) := by
  simp only [poolHeaderReport]
  split
  · exact good_doJob h
  · exact good_endJob h

@[simp] theorem good_rowsReport {n : Nat} {d : List Byte} (h : Good s t) : Good s (rowsReport n d t) := by
  simp only [rowsReport]
  split
  · exact good_endJob h
  · split
    · exact good_readBoxRow (good_mapTile h)
    · exact good_endJob (good_mapTile h)

@[simp] theorem good_rawReadReport {k n : Nat} {d : List Byte} (h : Good s t) :
    Good s (rawReadReport k n d t) := by
  simp only [rawReadReport]
  split
  · exact good_endJob h
  · exact good_doJob h

@[simp] theorem good_retireReport {r : Request} {todo : List Request} {f ok : Bool} (h : Good s t) :
    Good s (retireReport r todo f ok t) := by
  simp only [retireReport]
  split
  · exact good_doJob (good_mapFlight h)
  · exact good_endJob (good_mapFlight h)

@[simp] theorem good_abandonedReport {k : Option RecordKind} {ok : Bool} (h : Good s t) :
    Good s (abandonedReport k ok t) := by
  have h1 : Good s ((t.setWork none).mapEc fun c =>
      { c with eventsDue := c.eventsDue ||| eventWhen ok (orphanEvent k) }) := good_mapEc (good_setWork h) rfl
  simp only [abandonedReport]
  split
  · split
    · exact good_endLook h1
    · split
      · exact good_beginLook (good_mapEc h1 rfl)
      · exact h1
  · exact h1

@[simp] theorem good_workReport {r : Request} {ok : Bool} {d : List Byte} (h : Good s t) :
    Good s (workReport r ok d t) := by
  unfold workReport
  split
  · exact h
  · split <;>
      first
      | exact good_endJob h
      | exact good_loadReport h
      | exact good_retireReport h
      | exact good_abandonedReport h
      | (split <;> simp [h])

@[simp] theorem good_report {r : Request} {ok : Bool} {d : List Byte} (h : Good s t) :
    Good s (report r ok d t) := by
  unfold report
  split
  · exact good_ecReport h
  · exact good_workReport h

/-- Taking requests from the list does none of what `Good` excludes (R170, R172). -/
theorem good_pump {fuel : Nat} (h : Good s t) : Good s (pump fuel t) := by
  induction fuel generalizing t with
  | zero => exact h
  | succ fuel ih =>
    unfold pump
    split
    · have h1 : ∀ rest : List Request, Good s (t.mapPort fun p => { p with requests := rest }) := fun rest =>
        good_mapPort h fun _ hp => by simpa [portBounded] using hp
      simp only
      split
      · exact good_startAccess (h1 _)
      · exact ih (good_report (h1 _))
    · exact h

@[simp] theorem good_settle (h : Good s t) : Good s (settle t) := good_pump h

/-! ### FrameEvents.lean and ChainEvents.lean -/

@[simp] theorem good_rowsEnded {ok : Bool} (h : Good s t) : Good s (rowsEnded ok t) := by
  simp only [rowsEnded]
  split
  · exact good_faultFrame h
  · split
    · exact h
    · split
      · exact good_faultFrame (good_sampleSubTile h)
      · exact good_judgeTile (good_sampleSubTile h)

@[simp] theorem good_derivedWriteFailed {k : Nat} (h : Good s t) : Good s (derivedWriteFailed k t) := by
  have h1 := good_setResult (k := k) (r := .faulted .write) (good_mapWriter (f := fun w =>
    { w with derivedRows := w.derivedRows.filter fun r => r.entry ≠ k }) h id)
  simp only [derivedWriteFailed]
  split
  · exact good_returnSlot h1
  · exact h1

@[simp] theorem good_rawRowWritten {k n : Nat} (h : Good s t) : Good s (rawRowWritten k n t) := by
  unfold rawRowWritten
  split
  · exact h
  · split
    · exact good_rawRow h
    · exact good_rawFrom h

@[simp] theorem good_slotEmptyEnded {k : Nat} {ok : Bool} (h : Good s t) : Good s (slotEmptyEnded k ok t) := by
  have h1 : Good s (dropHeld k (if ok then t else setResult k (.faulted .poolBad) t)) := by
    refine good_dropHeld ?_
    split
    · exact h
    · exact good_setResult h
  simp only [slotEmptyEnded]
  generalize dropHeld k (if ok then t else setResult k (.faulted .poolBad) t) = v at h1 ⊢
  split
  · exact good_returnNext h1
  · split
    · exact good_rawFrom h1
    · exact good_nextDerivedRow h1

@[simp] theorem good_slotReleased {x : HeldSlot} {r : EntryResult} (h : Good s t) :
    Good s (slotReleased x r t) := good_releaseNext (good_dropHeld (good_setResult h))

@[simp] theorem good_recordWritten {w : WriteWhy} {n : Nat} {ok : Bool} (h : Good s t) :
    Good s (recordWritten w n ok t) := by
  unfold recordWritten
  split <;> simp [h]

end Sys2Proof.Machine
end

