-- ==== Sys2Proof/Laws/Look.lean ====
section
/-! SUPPORT. What each shared operation of a look leaves for the Port, said once per operation. -/

namespace Sys2Proof.Machine

variable {s : State}

/-- R90, R172: a legal link can be read. -/
theorem accessOk_recordReadReq {off window : Nat} (h : offsetOk off window = true) :
    accessOk (recordReadReq off) window = true := h

/-- R106, R161: a halt of the chain. -/
theorem settle_chainHalt {reason : HaltReason} {record : Nat} (hc : s.ControllerFree) (hw : s.work = none) :
    settle (chainHalt reason record s) = s.haltedBy reason record :=
  settle_enterCalledHalt hc hw

/-- R143, R160: a RELOAD's configuration read asked for behind a status write waits for the controller's turn. -/
theorem settle_requestConfig_requestStatus {w : StatusWrite} {why : ConfigWhy} (hc : s.ControllerFree) :
    settle (requestConfig why (requestStatus w s)) =
      { State.reporting w s with ec := { (State.reporting w s).ec with queue := [.config why] } } := by
  obtain ⟨hj, hq, hws, hp⟩ := hc
  have he : requestConfig why (requestStatus w s) =
      (requestStatus w s).mapEc fun c => { c with queue := c.queue ++ [.config why] } := by
    unfold requestConfig
    exact kick_of_job (requestStatus_busy hj hq)
  rw [he, requestStatus_submit hj hq]
  cases hi : s.port.inFlight with
  | some a =>
    rw [settle_busy (by simp [State.submit, State.mapPort, hi])]
    simp [State.reporting, State.handedOver, State.submit, State.mapPort, State.mapEc, hi, hq]
  | none =>
    rw [settle_start (by exact hi) (by simp only [State.mapEc, State.submit, State.mapPort, hp hi]; rfl)
      (by exact accessOk_statusReq hws)]
    simp [State.reporting, State.handedOver, State.submit, State.mapPort, State.mapEc, hi, hq, startAccess,
      issueAttempt, hp hi, State.busAddress]

/-- R96, R153, R154, R159, R160: a look that a command ends. `moved` says that this step moved the cursor or the flag.
-/
theorem settle_endLook {moved : Bool} (hc : s.ControllerFree) (hw : s.work = none) :
    settle (endLook moved s) =
      State.lookEndedByCommand { s with ec := { s.ec with cursorDue := s.ec.cursorDue || moved } } := by
  have hcl : clearAssembly s = s.lookEnded := by
    simp only [clearAssembly, State.lookEnded, State.setWork, State.mapChain, hw, leftWork]
  unfold endLook State.lookEndedByCommand
  rw [hcl]
  dsimp only
  rw [show s.lookEnded.ec = s.ec from rfl, Bool.or_comm moved]
  generalize hd : (s.ec.cursorDue || moved) = due
  by_cases hr : s.ec.reloadReq = true ∧ s.ec.endedByAbort = false
  · rw [if_pos hr, if_pos (by simp [hr.1, hr.2])]
    cases due
    · simp only [Bool.or_eq_false_iff] at hd
      rw [if_neg Bool.false_ne_true, if_neg Bool.false_ne_true, settle_requestConfig (by exact hc), ← hd.1]
      rfl
    · rw [if_pos rfl, if_pos rfl]
      have := settle_requestConfig_requestStatus (w := {}) (why := .reload)
        (s := s.lookEnded.mapEc fun c => { c with reloadReq := false, lookAfterRead := true }) (by exact hc)
      have hx : (requestStatus {} s.lookEnded).mapEc
            (fun c => { c with reloadReq := false, lookAfterRead := true }) =
          requestStatus {} (s.lookEnded.mapEc fun c => { c with reloadReq := false, lookAfterRead := true }) := by
        rw [requestStatus_submit (by exact hc.1) (by exact hc.2.1),
          requestStatus_submit (by exact hc.1) (by exact hc.2.1)]
        rfl
      rw [hx, this]
      rfl
  · rw [if_neg hr, if_neg (by simpa using hr)]
    exact settle_enterStopped (by exact hc) rfl

/-- R96: the same when this step moved nothing. -/
theorem settle_endLook_unmoved (hc : s.ControllerFree) (hw : s.work = none) :
    settle (endLook false s) = s.lookEndedByCommand := by
  rw [settle_endLook hc hw, Bool.or_false]

/-- R96, R97: what a look that a command ends leaves does not depend on the group under assembly. -/
theorem lookEndedByCommand_lookEnded : s.lookEnded.lookEndedByCommand = s.lookEndedByCommand := rfl

/-- R102: the look-ahead reads on within its limit. -/
theorem nextRead_within {why : ReadWhy} {off : Nat} (hl : s.lookMustEnd = false)
    (hn : s.chain.group.readCount < 64) : nextRead why off s = s.doJob (.recordRead why off) (recordReadReq off) := by
  unfold nextRead
  rw [if_neg (by rw [hl]; exact Bool.false_ne_true), if_neg (by unfold Config.lookAheadLimit; omega)]
  rfl

/-- R102: the look-ahead that has read 64 records halts. -/
theorem nextRead_beyond {why : ReadWhy} {off : Nat} (hl : s.lookMustEnd = false)
    (hn : 64 ≤ s.chain.group.readCount) : nextRead why off s = chainHalt .unterminated s.chain.group.lastRead s := by
  unfold nextRead
  rw [if_neg (by rw [hl]; exact Bool.false_ne_true), if_pos (by exact hn)]

/-- R93, R95, R99: a park. -/
theorem settle_park {off : Nat} {lw : Bool} (hc : s.ControllerFree) (hw : s.work = none)
    (hl : s.lookMustEnd = false)
    (hok : s.ec.wakePending = true → accessOk (recordReadReq off) s.window = true) :
    settle (park off lw s) = s.parkedAt off lw := by
  unfold park State.parkedAt cursorMoves
  have hcl : clearAssembly s = s.lookEnded := by
    simp only [clearAssembly, State.lookEnded, State.setWork, State.mapChain, hw, leftWork]
  rw [hcl]
  dsimp only
  rw [if_neg (by
    rw [show (setCursor off lw s.lookEnded).lookMustEnd = false from hl]
    exact Bool.false_ne_true)]
  have hpk : armTimer ((setCursor off lw s.lookEnded).mapEc fun c =>
        { c with engine := .parked, wakePending := false }) =
      { s.lookEnded with ec := { s.ec with
        engine := .parked, cursor := off, linkWait := lw, wakePending := false
        timer := s.timerFor s.ec.cfg.rescanInterval } } := by
    simp only [armTimer, setCursor, State.mapEc]
    rfl
  rw [hpk, show (setCursor off lw s.lookEnded).ec.engine = s.ec.engine from rfl,
    show (setCursor off lw s.lookEnded).ec.wakePending = s.ec.wakePending from rfl]
  generalize hP : ({ s.lookEnded with ec := _ } : State) = P
  have hcp : P.ControllerFree := by subst hP; exact hc
  have hwk : P.work = none := by subst hP; rfl
  have hokp : s.ec.wakePending = true → accessOk (recordReadReq P.ec.cursor) P.window = true := by
    subst hP; exact hok
  generalize (decide (s.ec.cursor ≠ off) || decide (s.ec.linkWait ≠ lw) || s.ec.cursorDue) = moved
  by_cases hwo : s.ec.engine = .working
  · simp only [hwo, decide_true, Bool.or_true, if_true, eventWhen]
    cases hwp : s.ec.wakePending
    · exact settle_requestStatus hcp
    · exact settle_beginLook_requestStatus hcp hwk
  · simp only [hwo, decide_false, Bool.or_false, if_false, eventWhen]
    cases moved
    · cases hwp : s.ec.wakePending
      · exact settle_of_portSettled hcp.2.2.2
      · exact settle_beginLook hcp.2.2.2 hwk (hokp hwp)
    · cases hwp : s.ec.wakePending
      · exact settle_requestStatus hcp
      · exact settle_beginLook_requestStatus hcp hwk

/-- R93, R95, R96, R99: a look that comes to no ready work, whether or not a command ends it there. -/
theorem parksOrEnds_settle_park {off : Nat} {lw : Bool} (hc : s.ControllerFree) (hw : s.work = none) :
    s.ParksOrEnds off lw (settle (park off lw s)) := by
  refine ⟨fun hl hok => settle_park hc hw hl hok, fun hl => ?_⟩
  have hcl : clearAssembly s = s.lookEnded := by
    simp only [clearAssembly, State.lookEnded, State.setWork, State.mapChain, hw, leftWork]
  unfold park cursorMoves
  rw [hcl]
  dsimp only
  rw [if_pos (show (setCursor off lw s.lookEnded).lookMustEnd = true from hl), settle_endLook (by exact hc) rfl]
  have hb : ∀ d a b : Bool, (d || (a || b || d)) = (d || a || b) := by decide
  simp only [setCursor, State.mapEc, show s.lookEnded.ec = s.ec from rfl, hb]
  rfl

/-- R110: a take asks the Port for the status write, from PARKED, and then for the FRAME's TAKEN write. -/
theorem take_eq (hc : s.ControllerFree) :
    ∃ t : State, t = { s with
        ec := { s.ec with engine := .working, timer := none, wakePending := false }
        chain := { s.chain with flight :=
          { inFlight := true, takenTodo := s.chain.group.mainList.map MainRecord.offset } } } ∧
      take s = (if s.ec.engine = .parked then requestStatus {} t else t).doJob (.recordWrite .taken s.frame.offset)
        (stateWriteReq s.frame.offset .taken) := by
  refine ⟨_, rfl, ?_⟩
  unfold take
  by_cases hp : s.ec.engine = .parked
  · have hr := requestStatus_submit (w := {})
      (s := s.mapEc fun c => { c with engine := .working, timer := none, wakePending := false }) hc.1 hc.2.1
    have hr2 := requestStatus_submit (w := {}) (s := { s with
        ec := { s.ec with engine := .working, timer := none, wakePending := false }
        chain := { s.chain with flight :=
          { inFlight := true, takenTodo := s.chain.group.mainList.map MainRecord.offset } } }) hc.1 hc.2.1
    simp only [hp, decide_true, if_true]
    rw [hr, hr2]
    rfl
  · simp only [hp, decide_false, if_false, Bool.false_eq_true]
    rfl

/-- R110: the take in the step in which the group is complete. -/
theorem settle_take (hc : s.ControllerFree) (hok : accessOk (stateWriteReq s.frame.offset .taken) s.window = true) :
    settle (take s) = s.takeBegun := by
  obtain ⟨t, rfl, h⟩ := take_eq hc
  rw [h]
  unfold State.takeBegun
  by_cases hp : s.ec.engine = .parked
  · simp only [hp, if_true]
    exact settle_doJob_requestStatus (by exact hc)
  · simp only [hp, if_false]
    exact settle_doJob (by exact hc.2.2.2) hok

/-- R110, R143: the same when a cursor move of the look is still to be reported: from PARKED the take's own status
write reports it, and else one more is asked for behind the TAKEN write. -/
theorem settle_reportCursor_take (hc : s.ControllerFree)
    (hok : accessOk (stateWriteReq s.frame.offset .taken) s.window = true) :
    settle (reportCursor (take s)) =
      if s.ec.engine ≠ .parked ∧ s.ec.cursorDue = true then State.reporting {} s.takeBegun else s.takeBegun := by
  have ht := settle_take hc hok
  obtain ⟨t, rfl, h⟩ := take_eq hc
  by_cases hp : s.ec.engine = .parked
  · rw [if_neg (fun hx => hx.1 hp)]
    have : (take s).ec.cursorDue = false := by
      rw [h]
      simp only [hp, if_true]
      rw [requestStatus_submit (by exact hc.1) (by exact hc.2.1)]
      rfl
    unfold reportCursor
    rw [if_neg (by rw [this]; exact Bool.false_ne_true)]
    exact ht
  · have hd : (take s).ec.cursorDue = s.ec.cursorDue := by
      rw [h]
      simp only [hp, if_false]
      rfl
    unfold reportCursor
    rw [hd]
    cases hcd : s.ec.cursorDue
    · rw [if_neg Bool.false_ne_true, if_neg fun hx => Bool.false_ne_true hx.2]
      exact ht
    · rw [if_pos rfl, if_pos ⟨hp, rfl⟩, h]
      unfold State.takeBegun
      simp only [hp, if_false]
      exact settle_requestStatus_doJob (by exact hc) (by exact hok)

end Sys2Proof.Machine
end

