-- ==== Sys2Proof/Laws/PerInstr.lean ====
section
/-! SUPPORT. Statements about every row of the table, one lemma per constructor. -/

namespace Sys2Proof.Laws.HeldRows

open Sys2Proof.Machine

/-- What a status write holds is a register access, and no row that it holds begins or ends a reset or ends an
attempt on the bus (R143, R167). -/
def Statement (i : Instr) : Prop :=
  waitsForStatus i = true → isAccess i = true ∧ isReset i = false ∧ endsAttempt i = false

theorem start : Statement .start :=
  fun _ => ⟨rfl, rfl, rfl⟩
theorem stop : Statement .stop :=
  fun _ => ⟨rfl, rfl, rfl⟩
theorem abort : Statement .abort :=
  fun _ => ⟨rfl, rfl, rfl⟩
theorem resume : Statement .resume :=
  fun _ => ⟨rfl, rfl, rfl⟩
theorem rescan : Statement .rescan :=
  fun _ => ⟨rfl, rfl, rfl⟩
theorem reload : Statement .reload :=
  fun _ => ⟨rfl, rfl, rfl⟩
theorem reset : Statement .reset :=
  fun h => absurd h Bool.false_ne_true
theorem commandUnknown (value : Word) : Statement (.commandUnknown value) :=
  fun _ => ⟨rfl, rfl, rfl⟩
theorem winBaseWrite (value : Word) : Statement (.winBaseWrite value) :=
  fun _ => ⟨rfl, rfl, rfl⟩
theorem winSizeWrite (value : Word) : Statement (.winSizeWrite value) :=
  fun _ => ⟨rfl, rfl, rfl⟩
theorem eventsRead : Statement .eventsRead :=
  fun h => absurd h Bool.false_ne_true
theorem lineEnableWrite (value : Word) : Statement (.lineEnableWrite value) :=
  fun h => absurd h Bool.false_ne_true
theorem registerWriteNoEffect (access : NoEffectAccess) : Statement (.registerWriteNoEffect access) :=
  fun h => absurd h Bool.false_ne_true
theorem powerOnReset : Statement .powerOnReset :=
  fun h => absurd h Bool.false_ne_true
theorem frameReadyEdge : Statement .frameReadyEdge :=
  fun h => absurd h Bool.false_ne_true
theorem rescanTimerExpiry : Statement .rescanTimerExpiry :=
  fun h => absurd h Bool.false_ne_true
theorem memoryAttemptAnswer (answer : BusAnswer) (others : List Host.Cell) :
    Statement (.memoryAttemptAnswer answer others) :=
  fun h => absurd h Bool.false_ne_true
theorem memoryAttemptTimeout : Statement .memoryAttemptTimeout :=
  fun h => absurd h Bool.false_ne_true
theorem retryDelayExpiry : Statement .retryDelayExpiry :=
  fun h => absurd h Bool.false_ne_true
theorem configReadDone : Statement .configReadDone :=
  fun h => absurd h Bool.false_ne_true
theorem statusWriteDone : Statement .statusWriteDone :=
  fun h => absurd h Bool.false_ne_true
theorem cursorRecordReadDone : Statement .cursorRecordReadDone :=
  fun h => absurd h Bool.false_ne_true
theorem cursorLinkReadDone : Statement .cursorLinkReadDone :=
  fun h => absurd h Bool.false_ne_true
theorem advanceReadDone : Statement .advanceReadDone :=
  fun h => absurd h Bool.false_ne_true
theorem lookAheadRecordReadDone : Statement .lookAheadRecordReadDone :=
  fun h => absurd h Bool.false_ne_true
theorem subchainRecordReadDone : Statement .subchainRecordReadDone :=
  fun h => absurd h Bool.false_ne_true
theorem boardReadDone : Statement .boardReadDone :=
  fun h => absurd h Bool.false_ne_true
theorem profileLoadDone : Statement .profileLoadDone :=
  fun h => absurd h Bool.false_ne_true
theorem poolReadDone : Statement .poolReadDone :=
  fun h => absurd h Bool.false_ne_true
theorem slotBusyWriteDone : Statement .slotBusyWriteDone :=
  fun h => absurd h Bool.false_ne_true
theorem tableBuildDone : Statement .tableBuildDone :=
  fun h => absurd h Bool.false_ne_true
theorem subtileRowsReadDone : Statement .subtileRowsReadDone :=
  fun h => absurd h Bool.false_ne_true
theorem outputRowWriteDone : Statement .outputRowWriteDone :=
  fun h => absurd h Bool.false_ne_true
theorem derivedRowWriteDone : Statement .derivedRowWriteDone :=
  fun h => absurd h Bool.false_ne_true
theorem rawcopyRowDone : Statement .rawcopyRowDone :=
  fun h => absurd h Bool.false_ne_true
theorem slotReleaseDone : Statement .slotReleaseDone :=
  fun h => absurd h Bool.false_ne_true
theorem retirementWritesDone : Statement .retirementWritesDone :=
  fun h => absurd h Bool.false_ne_true
theorem frameReadyFallingEdge : Statement .frameReadyFallingEdge :=
  fun h => absurd h Bool.false_ne_true
theorem resetEnd (level : Bool) : Statement (.resetEnd level) :=
  fun h => absurd h Bool.false_ne_true
theorem timeTick : Statement .timeTick :=
  fun h => absurd h Bool.false_ne_true
theorem chainRecordWriteDone : Statement .chainRecordWriteDone :=
  fun h => absurd h Bool.false_ne_true
theorem callRecordRereadDone : Statement .callRecordRereadDone :=
  fun h => absurd h Bool.false_ne_true
theorem slotEmptyWriteDone : Statement .slotEmptyWriteDone :=
  fun h => absurd h Bool.false_ne_true
theorem dropCountWriteDone : Statement .dropCountWriteDone :=
  fun h => absurd h Bool.false_ne_true

end Sys2Proof.Laws.HeldRows
end

