-- ==== Sys2Proof/Laws/Settle.lean ====
section
/-! SUPPORT. After `settle` no request waits while the Port is free: the bound on its turns is large enough. -/

namespace Sys2Proof.Machine

variable {s : State}

/-- How many requests a state can still hand the Port while every one is refused: those that wait, the
retirement writes still to make (R113), and one look or entry after an abandoned access. -/
def pumpNeed (s : State) : Nat :=
  s.port.requests.length +
    match s.work with
    | some { job := .retire todo _, .. } => todo.length
    | some { job := .abandoned _, .. } => 1
    | _ => 0

/-- Asking for a task of the controller hands over at most one request, and none when it is busy. -/
structure OneRequest (s t : State) : Prop where
  requests : t.port.requests.length ≤ s.port.requests.length + (if s.ec.job.isSome then 0 else 1)
  work : t.work = s.work
  busy : t.ec.job.isSome = true

theorem oneRequest_status {w : StatusWrite} (s : State) : OneRequest s (requestStatus w s) := by
  unfold requestStatus kick
  constructor <;> split <;>
    simp_all [State.mapEc, beginStatus, beginConfigRead, State.submit, State.mapPort]
  all_goals (cases hj : s.ec.job <;> simp_all)
  all_goals (cases hq : s.ec.queue with
    | nil => simp_all
    | cons t _ => cases t <;> simp_all)

theorem oneRequest_config {w : ConfigWhy} (s : State) : OneRequest s (requestConfig w s) := by
  unfold requestConfig kick
  constructor <;> split <;>
    simp_all [State.mapEc, beginStatus, beginConfigRead, State.submit, State.mapPort]
  all_goals (cases hj : s.ec.job <;> simp_all)
  all_goals (cases hq : s.ec.queue with
    | nil => simp_all
    | cons t _ => cases t <;> simp_all)

theorem pumpNeed_le_of_free (h : s.work = none) : pumpNeed s = s.port.requests.length := by
  unfold pumpNeed; rw [h]; rfl

/-- Requests that the end of a look hands over after an abandoned access: at most one. -/
theorem endLook_need {m : Bool} (h : s.work = none) :
    pumpNeed (endLook m s) ≤ s.port.requests.length + 1 := by
  have hc : ∀ t : State, t.work = none → pumpNeed t = t.port.requests.length := fun _ h => pumpNeed_le_of_free h
  have hclear : (clearAssembly s).work = none ∧ (clearAssembly s).port = s.port := by
    simp [clearAssembly, State.setWork, State.mapChain, h, leftWork]
  simp only [endLook]
  generalize clearAssembly s = u at hclear
  split
  · split
    · have h1 := oneRequest_status (w := {}) u
      have h2 := oneRequest_config (w := .reload) ((requestStatus {} u).mapEc fun c =>
        { c with reloadReq := false, lookAfterRead := true })
      rw [hc _ (by rw [h2.work]; simpa using h1.work.trans hclear.1)]
      have h3 := h2.requests
      have h4 := h1.requests
      simp only [State.mapEc_port, State.mapEc_ec, h1.busy, if_true] at h3
      rw [hclear.2] at h4
      split at h4 <;> omega
    · have h2 := oneRequest_config (w := .reload) (u.mapEc fun c =>
        { c with reloadReq := false, lookAfterRead := true })
      rw [hc _ (by rw [h2.work]; simpa using hclear.1)]
      have h3 := h2.requests
      simp only [State.mapEc_port, hclear.2] at h3
      split at h3 <;> omega
  · unfold enterStopped
    have hu : ((clearAssembly u).mapChain fun c => { c with override := {} }).work = none ∧
        ((clearAssembly u).mapChain fun c => { c with override := {} }).port = s.port := by
      simp [clearAssembly, State.setWork, State.mapChain, hclear.1, hclear.2, leftWork]
    generalize (clearAssembly u).mapChain (fun c => { c with override := {} }) = v at hu
    have h1 := oneRequest_status (w := { onSuccess := evStopped }) (v.mapEc fun c =>
      { c.quiet with engine := .stopped, haltReason := .noHalt, haltRecord := 0 })
    rw [hc _ (by rw [h1.work]; simpa using hu.1)]
    have h3 := h1.requests
    rw [State.mapEc_port, hu.2] at h3
    refine le_trans h3 ?_
    split <;> omega

/-- The end of an abandoned access hands over at most one request. -/
theorem abandonedReport_need {k : Option RecordKind} {ok : Bool} :
    pumpNeed (abandonedReport k ok s) ≤ s.port.requests.length + 1 := by
  unfold abandonedReport
  have hw : ((s.setWork none).mapEc fun c =>
      { c with eventsDue := c.eventsDue ||| eventWhen ok (orphanEvent k) }).work = none := rfl
  have hp : ((s.setWork none).mapEc fun c =>
      { c with eventsDue := c.eventsDue ||| eventWhen ok (orphanEvent k) }).port = s.port := rfl
  generalize (s.setWork none).mapEc (fun c =>
    { c with eventsDue := c.eventsDue ||| eventWhen ok (orphanEvent k) }) = u at hw hp
  rw [← hp]
  have hu : pumpNeed u ≤ u.port.requests.length + 1 := by rw [pumpNeed_le_of_free hw]; omega
  simp only
  split
  · split
    · exact endLook_need hw
    · split
      · unfold beginLook
        rw [if_neg (by simp [hw])]
        split <;> exact le_of_eq (by
          simp [readRecord, pumpNeed, State.doJob, State.submit, State.mapPort, State.setWork])
      · exact hu
  · exact hu

/-- R172: the report of a refused access hands over at most what it takes away. -/
theorem report_need (s : State) (r : Request) : pumpNeed (report r false [] s) ≤ pumpNeed s := by
  unfold report
  split
  · unfold ecReport
    split
    · simp [pumpNeed]
    · simp [pumpNeed, statusReport]
    · exact le_refl _
  · unfold workReport
    split
    · exact le_refl _
    · next w hw =>
      have hend : ∀ j ok d, (match j with | .retire todo _ => todo.length | .abandoned _ => 1 | _ => 0) = 0 →
          pumpNeed (s.endJob j ok d) ≤ pumpNeed s := by
        intro j ok d hj
        unfold pumpNeed State.endJob
        cases j <;> simp_all
      split <;> (try simp only [Bool.false_eq_true, if_false])
      all_goals first
        | exact hend _ _ _ rfl
        | skip
      · next todo failed hj =>
        unfold retireReport
        have hn : pumpNeed s = s.port.requests.length + todo.length := by
          obtain ⟨job, _, _, _, _⟩ := w
          simp only at hj
          subst hj
          unfold pumpNeed
          rw [hw]
        split
        · next r' rest =>
          rw [hn]
          simp [pumpNeed, State.doJob, State.submit, State.mapPort, State.setWork]
          omega
        · rw [hn]
          simp [pumpNeed, State.endJob, State.setWork]
      · next hj =>
        have hn : pumpNeed s = s.port.requests.length + 1 := by
          obtain ⟨job, _, _, _, _⟩ := w
          simp only at hj
          subst hj
          unfold pumpNeed
          rw [hw]
        rw [hn]
        exact abandonedReport_need

/-- The list of requests has run dry, or the Port is busy, once a state that needs no more turns than these has
taken them. -/
theorem pump_settled {fuel : Nat} (h : pumpNeed s ≤ fuel) : (pump fuel s).PortSettled := by
  induction fuel generalizing s with
  | zero =>
    intro _
    have : s.port.requests.length = 0 := by unfold pumpNeed at h; omega
    exact List.length_eq_zero_iff.mp this
  | succ fuel ih =>
    unfold pump
    split
    · next r rest hi hr =>
      simp only
      split
      · intro hi'; simp [startAccess, issueAttempt, State.mapPort] at hi'
      · apply ih
        refine le_trans (report_need _ _) ?_
        have : pumpNeed s = pumpNeed (s.mapPort fun p => { p with requests := rest }) + 1 := by
          unfold pumpNeed
          rw [hr]
          simp only [State.mapPort, List.length_cons]
          omega
        omega
    · next hx =>
      intro hi
      match hr : s.port.requests with
      | [] => rfl
      | r :: rest => exact absurd hr (hx r rest hi)

/-- R170: what `settle` leaves. -/
theorem portSettled_settle (s : State) : (settle s).PortSettled := by
  refine pump_settled ?_
  unfold pumpNeed pumpFuel
  split <;> simp_all

end Sys2Proof.Machine
end

