-- ==== Sys2Proof/Tests/Slice0.lean ====
section
/-! SUPPORT. The model's own tests: ill-formed terms that WellFormed refuses, words that the spec spells, the
spec's worked numbers, and for each statement with hypotheses a state and operands that meet them. -/

namespace Sys2Proof.Tests

open Sys2Proof.Machine

/-! ### WellFormed: one ill-formed term per check -/

theorem test_wf_known_command_refused : (Instr.commandUnknown 3).wellFormed = false := by decide
theorem test_wf_unknown_command : (Instr.commandUnknown 8).wellFormed = true := by decide
theorem test_wf_fitting_write_refused :
    (Instr.registerWriteNoEffect (.misfitWrite 4 4 0)).wellFormed = false := by decide
theorem test_wf_short_write : (Instr.registerWriteNoEffect (.misfitWrite 4 2 0)).wellFormed = true := by decide
theorem test_wf_read_outside_refused :
    (Instr.registerWriteNoEffect (.misfitRead 33 4)).wellFormed = false := by decide
theorem test_wf_read_between : (Instr.registerWriteNoEffect (.misfitRead 30 4)).wellFormed = true := by decide
theorem test_wf_cells_not_rising :
    (Instr.memoryAttemptAnswer .succeeded [(7, 1), (7, 2)]).wellFormed = false := by decide
theorem test_wf_cell_out_of_reach :
    (Instr.memoryAttemptAnswer .succeeded [(17596481007616, 1)]).wellFormed = false := by decide

/-! ### R178, R180, 10.9: the words written to the registers -/

theorem test_command_words :
    ([1, 2, 3, 4, 5, 6, 7, 0, 8] : List Word).map commandOfValue =
      [.start, .stop, .abort, .resume, .rescan, .reload, .reset, .commandUnknown 0, .commandUnknown 8] := by
  decide
theorem test_register_writes :
    [registerWrite 0x04 5, registerWrite 0x08 5, registerWrite 0x18 5, registerWrite 0x14 5,
        registerWrite 0x1C 5, registerWrite 0x06 5, registerWrite 0x20 5] =
      [some (.winBaseWrite 5), some (.winSizeWrite 5), some (.lineEnableWrite 5),
        some (.registerWriteNoEffect (.eventsWrite 5)), some (.registerWriteNoEffect (.timeWrite 5)),
        some (.registerWriteNoEffect (.misfitWrite 6 4 5)), none] := by decide

/-! ### The spec's worked numbers -/

/-- 01, worked table build: the coefficient set. -/
def builtSet : Coeffs := { k1 := -65536, k2 := 16384, ar := 4096 }

theorem test_worked_green :
    [0, 32, 63, 64, 127, 128].map (fun i => greenEntry builtSet 256 i) =
      [65536, 63744, 62496, 62464, 61440, 61440] := by decide
theorem test_worked_red :
    [0, 32, 63, 64, 127, 128].map (fun i => tintEntry (greenEntry builtSet 256 i) 4096 0 256 i) =
      [65600, 63806, 62557, 62525, 61500, 61500] := by decide
/-- 01, worked pixel: the radius. -/
theorem test_worked_radius :
    radiusU (centreOffset 4999 6000) (centreOffset 1999 4000) 2000 = 65503 := by decide
/-- 01, worked dither: three outputs from the seed 1. -/
theorem test_worked_dither :
    let a := ditherStep (seedState 1)
    [a, ditherStep a, ditherStep (ditherStep a)] = [0x00042021, 0x04080601, 0x9DCCA8C5] := by decide
theorem test_worked_dither_values :
    [quantDither 8 1530 1, quantRound 8 1530, quantDither 10 939 1, quantRound 10 939, quantRound 8 4095,
      quantRound 10 4095] = [95, 96, 235, 235, 255, 1023] := by decide
/-- 10.8: the worked pixel as stored. -/
theorem test_worked_pixel_bytes :
    pixelBytes 10 377 513 233 = [0x79, 0x05, 0x98, 0x0E] ∧ pixelBytes 8 94 128 58 = [94, 128, 58] := by decide

/-- 02, worked interpolation: the telephoto zoom. -/
def telephoto : Profile where
  zooms := [700, 2000]
  foci := [400, 3600]
  nodes :=
    [{ k1 := -40000, k2 := 9000, ar := 1200, br := -64, ab := -1100, sx := 24, sy := -8 },
     { k1 := -30000, k2 := 9000, ar := 1180, br := -64, ab := -1080, sx := 24, sy := -8 },
     { k1 := 20000, k2 := -2000, ar := 400, ab := -300, sx := -40, sy := 8 },
     { k1 := 26000, k2 := -2000, ar := 410, ab := -310, sx := -40, sy := 8 }]

theorem test_worked_interpolation :
    interpolate telephoto 1200 1000 =
      { k1 := -15342, k2 := 4770, ar := 891, br := -39, ab := -791, sx := -1, sy := -2 } := by decide
theorem test_worked_grid_edges :
    (interpolate telephoto 2400 1000).k1 = 21125 ∧ (interpolate telephoto 1200 0).k1 = -16929 ∧
      outsideAxis telephoto.zooms 2400 = true ∧ outsideAxis telephoto.zooms 2000 = false := by decide
/-- 02, worked cache sequence: frame 42's miss takes E0, which did not serve frame 41. -/
theorem test_worked_victim :
    ({ e0 := { state := .ready, lens := some 0xA1 }, e1 := { state := .ready, lens := some 0xB7 }
       lastServed := some .e1 } : Cache).victim = .e0 := by decide
/-- 04, worked placement: the offsets under REVERSE. -/
theorem test_worked_reverse :
    [outputOffset { outW := 6000, outH := 4000, outPitch := 18048, depth := 8, scan := 2 } 0 0 63,
      outputOffset { outW := 6000, outH := 4000, outPitch := 18048, depth := 8, scan := 2 } 31 0 63] =
      [72191760, 71632272] := by decide
/-- 04, worked tile: a box 128 wide splits a tile in x. -/
theorem test_worked_split :
    splitParts ⟨1664, 800, 64, 32⟩ ⟨4328, 2000, 128, 64⟩ = [⟨1664, 800, 32, 32⟩, ⟨1696, 800, 32, 32⟩] := by
  decide
/-- 06, worked preview block and worked crop. -/
theorem test_worked_preview_and_crop :
    blockMean 2 8203 = 2051 ∧ quantRound 8 2051 = 128 ∧
      clippedSize { kind := 2, rx := 5800, ry := 3900, rw := 400, rh := 200 } { outW := 6000, outH := 4000 } =
        (200, 100) ∧ derivedPitch 200 10 = 832 := by decide
/-- R116: CLIPPED follows the rectangle alone: cut and not empty, even beside a bad condition sense. -/
theorem test_clipped_beside_format :
    let d (x sense : Nat) : DerivedFields := { kind := 2, sense := sense, rx := x, ry := 0, rw := 400, rh := 200 }
    let f : FrameFields := { outW := 6000, outH := 4000 }
    isClipped (d 5800 0) f = true ∧ formatBad (d 5800 0) f = true ∧ isClipped (d 5600 1) f = false ∧
      isClipped (d 6000 1) f = false := by decide
/-- 10.9: a STATUS_WRITE halt reads 5 and 11. -/
theorem test_state_register :
    stateRegister { State.reset with ec := { engine := .halted, haltReason := .statusWrite } } = 0x0B05 := by
  decide
/-- R173: a byte written reads back. -/
theorem test_memory : memGet (memSet [(3, 1), (9, 2)] 5 7) 5 = 7 ∧ memSet [(3, 1), (9, 2)] 3 0 = [(9, 2)] := by
  decide

/-! ### States for the witnesses: a window of 4096 bytes, whose last record lies at 3968 -/

def st (e : EngineState) : State := { State.reset with reg := { winSize := 1 }, ec := { engine := e } }

/-- A state with one of its looks' or groups' jobs ended. -/
def withJob (j : Job) (ok : Bool) (data : List Byte) (s : State) : State :=
  { s with work := some { job := j, ended := true, ok := ok, data := data } }

/-- A state with a job of the Engine Controller. -/
def withEc (w : EcWork) (s : State) : State := { s with ec := { s.ec with job := some w } }

/-- A state whose Port has an access in flight. -/
def withAccess (a : Access) (s : State) : State :=
  { s with port := { s.port with inFlight := some a, retryCount := 3, retryDelay := 5 } }

/-- A chain record: state word, kind, flags and next link. -/
def record (state kind flags link : Nat) : List Byte :=
  leBytes 4 state ++ leBytes 1 kind ++ leBytes 1 flags ++ zeroBytes 2 ++ leBytes 4 link ++ zeroBytes 116

/-- A write of four bytes at 4096 × 2 + 60, on the bus. -/
def writeAccess : Access where
  req := { block := .chainReader, kind := .recordStateWrite, offset := 60, length := 4, data := some [1, 2, 3, 4] }
  address := 8252
  attempts := 1
  phase := .attempt

/-- A read of a record at the start of the window, on the bus. -/
def readAccess : Access where
  req := recordReadReq 64
  address := 64
  attempts := 1
  phase := .attempt

/-- A request on the bus, with the attempts given made, in a window at 0. -/
def onBus (r : Request) (attempts : Nat) : Access :=
  { req := r, address := r.offset, attempts := attempts, phase := .attempt }

/-- A state whose look or group has one access, on the bus, as its work. -/
def asking (s : State) (j : Job) (r : Request) (attempts : Nat) (m : List Host.Cell) : State :=
  withAccess (onBus r attempts) { s with work := some { job := j }, dram := m }

def ended (job : EcJob) (ok : Bool) (data : List Byte) : EcWork :=
  { job := job, ended := true, ok := ok, data := data }

/-! ### Witnesses: the whole machine -/

set_option maxRecDepth 20000 in
theorem reset_sound : State.reset.Sound where
  memory := by decide
  dither := by decide
  tables := rfl
  stack := by decide
  entries := by decide
  lens := by decide
  pace := by decide
  window := by decide
  copy := by decide
  port := by decide

theorem witness_EveryStepKeepsSoundness : ∃ s t, s.Sound ∧ step s = .next t :=
  ⟨State.reset, State.reset, reset_sound, rfl⟩

theorem witness_EveryStepKeepsTheServersBusy :
    ∃ s t, step s = .next t ∧ s.PortSettled ∧ s.ControllerSettled :=
  ⟨State.reset, State.reset, rfl, by decide, by decide⟩

/-- A state in which a STOP is held behind a status write. -/
def holding : State :=
  withEc { job := .status {} .leading [] }
    { st .parked with reg := { winSize := 1, events := 1, held := [.access .stop, .wake] } }

theorem witness_EveryStepKeepsWhatIsHeldWaiting : ∃ s t, s.HeldWait ∧ step s = .next t :=
  ⟨holding, holding, by decide, rfl⟩

theorem witness_MemoryChangesOnlyAtTheBus :
    ∃ c s t, s.HeldWait ∧ endsAttempt c = false ∧ isReset c = false ∧ exec c s = .next t :=
  ⟨.timeTick, holding, _, by decide, rfl, rfl, rfl⟩

theorem witness_EventsStayUntilReadOrReset :
    ∃ c s t, s.HeldWait ∧ c ≠ .eventsRead ∧ isReset c = false ∧ exec c s = .next t :=
  ⟨.timeTick, holding, _, by decide, by decide, rfl, rfl⟩

theorem witness_RegistersChangeOnlyByTheirCommands :
    ∃ c s t, s.HeldWait ∧ isReset c = false ∧ exec c s = .next t ∧ c ≠ .statusWriteDone ∧ c ≠ .timeTick :=
  ⟨.frameReadyFallingEdge, holding, _, by decide, rfl, rfl, by decide, by decide⟩

theorem witness_ResetsClearTheBlock :
    ∃ (s : State) (a : Nat), memWf s.dram = true ∧ s.reg.inReset = false ∧
      s.port.inFlight = some writeAccess ∧ writeAccess.phase = .attempt ∧ a = writeAccess.address + 4 :=
  ⟨withAccess writeAccess { st .parked with dram := [(8256, 7)] }, 8256, by decide⟩

theorem witness_ResetEndClockAndFallingEdge :
    (∃ s : State, s.reg.inReset = true ∧ s.PortSettled ∧
      s.reg.held = ([Instr.winSizeWrite 1, .eventsRead] ++ (some Instr.start).toList).map Held.access ∧
      asksNothing (.winSizeWrite 1) = true ∧ asksNothing .eventsRead = true ∧ isAccess .start = true) ∧
      ∃ s : State, s.reg.inReset = false ∧ s.reg.time = 4294967295 :=
  ⟨⟨{ State.reset with
      reg := { inReset := true, held := [.access (.winSizeWrite 1), .access .eventsRead, .access .start] } },
    by decide⟩,
    { State.reset with reg := { time := 4294967295 } }, by decide⟩

/-- R167, R178: a window write and a START held during a reset are judged in their order when it ends, so the START
finds a window. -/
theorem test_held_accesses_in_order :
    (match exec (.resetEnd false) { State.reset with
        reg := { inReset := true, held := [.access (.winSizeWrite 1), .access .start] } } with
      | .next t => decide (t.ec.engine = .starting ∧ t.reg.winSize = 1 ∧ t.reg.events = 0)
      | _ => false) = true := by decide

/-! ### Witnesses: commands and registers -/

theorem witness_StartBegins :
    (st .stopped).Idle ∧ (st .stopped).ec.engine = .stopped ∧ (st .halted).Idle := by decide

/-- STARTING with its configuration read on the bus. -/
def reading (why : ConfigWhy) : State :=
  withEc { job := .config why } (withAccess { readAccess with req := configReadReq } (st .starting))

theorem witness_StopStops :
    (st .parked).ControllerFree ∧ (st .parked).work = none ∧ (st .halted).ControllerFree ∧
      (st .working).ControllerFree ∧ (st .parked).reg.inReset = false ∧
      (reading .start).PortSettled ∧ (reading .start).ec.engine = .starting ∧
      (reading .start).ec.job = some { job := .config .start } ∧
    (let look : State := withJob .boardHeader true [] (st .parked)
     let reload (e : EngineState) : State := withEc { job := .config .reload } (st e)
     look.PortSettled ∧ look.statusInFlight = false ∧ look.work.isSome = true ∧
      (reload .parked).statusInFlight = false ∧ (reload .parked).configBusy = true ∧
      (reload .working).PortSettled ∧ (reload .working).ec.job = some { job := .config .reload }) := by decide

/-- A state with a group in flight. -/
def inGroup (e : EngineState) : State := { st e with chain := { flight := { inFlight := true } } }

theorem witness_AbortEndsTheWork :
    (st .parked).ControllerFree ∧ (st .parked).work = none ∧ (inGroup .working).ControllerFree ∧
      (inGroup .working).Open ∧ (inGroup .stopping).Open ∧ (inGroup .stopping).PortSettled ∧
      (reading .resume).Open ∧ (reading .resume).PortSettled ∧
    (let look (e : EngineState) : State := withJob (.recordRead .advance 64) true [] (st e)
     (look .working).Open ∧ (look .working).ControllerFree ∧ (look .working).chain.flight.inFlight = false ∧
      (look .working).ec.boundaryLast = none ∧ (look .parked).Open ∧ (look .parked).work.isSome = true ∧
      (look .stopping).Open ∧ (look .stopping).PortSettled ∧ (look .stopping).work.isSome = true) ∧
    (let r (w : ConfigWhy) : State := withEc { job := .config w } (st .stopping)
     (r .start).Open ∧ (r .resume).PortSettled ∧ (r .reload).work = none ∧ (r .reload).ec.boundaryLast = none ∧
      (withEc { job := .config .reload } (st .parked)).configBusy = true) ∧
    (let b (e : EngineState) : State := withEc { job := .config .boundary }
       { st e with ec := { engine := e, boundaryLast := some 64 } }
     (b .stopping).Open ∧ (b .stopping).PortSettled ∧ (b .working).Open ∧ (b .working).PortSettled ∧
      (b .working).chain.flight.inFlight = false ∧ (b .working).ec.boundaryLast.isSome = true ∧
      (b .stopping).ec.job = some { job := .config .boundary }) := by decide

theorem witness_AbortEndsTheWork_reload :
    let r : State := withEc { job := .config .reload } (st .working)
    r.Open ∧ r.PortSettled ∧ r.chain.flight.inFlight = false ∧ r.ec.boundaryLast = none ∧ r.work = none ∧
      (withEc { job := .config .reload } (st .parked)).Open := by decide

theorem witness_ResumeLeavesTheHalt :
    (st .halted).ControllerFree ∧ (st .halted).ec.cfgValid = false ∧
      ∃ s : State, s.reg.inReset = false ∧ s.ControllerFree ∧ s.ec.engine = .halted ∧ s.ec.cfgValid = true :=
  ⟨by decide, by decide, { st .halted with ec := { engine := .halted, cfgValid := true } }, by decide⟩

/-- PARKED with the cursor at the window's last record. -/
def atLast (e : EngineState) : State := { st e with ec := { engine := e, cursor := 3968 } }

theorem witness_RescanLooksAtTheCursor :
    (atLast .parked).ControllerFree ∧ (atLast .parked).work = none ∧
      accessOk (recordReadReq (atLast .parked).ec.cursor) (atLast .parked).window = true ∧
      (withJob .boardHeader true [] (st .parked)).Open ∧
      (withJob .boardHeader true [] (st .parked)).work.isSome = true ∧ (st .stopping).PortSettled ∧
      (reading .start).Open ∧ (reading .start).PortSettled ∧ (reading .start).ec.engine = .starting ∧
    (let r : State := withEc { job := .config .reload } (st .parked)
     r.Open ∧ r.PortSettled ∧ r.work = none ∧ r.configBusy = true) := by
  decide

theorem witness_ReloadReadsTheConfiguration :
    let s : State := withEc { job := .config .reload } (st .parked)
    (st .parked).ControllerFree ∧ (st .parked).work = none ∧ (st .working).Open ∧ (st .working).PortSettled ∧
      (st .stopping).Open ∧ (withJob .boardHeader true [] (st .parked)).Open ∧
      s.Open ∧ s.PortSettled ∧ s.configBusy = true := by decide

theorem witness_RefusedCommandsOnlySetCmdRefused :
    (st .stopped).Open ∧ (st .stopped).PortSettled ∧ (st .parked).Open ∧ (st .stopping).Open ∧
      (st .starting).Open ∧ ({ st .halted with reg := {} } : State).Open ∧
      ({ st .halted with reg := {} } : State).reg.winSize = 0 := by decide

theorem witness_HeldAccessesChangeNothingElse :
    (holding.PortSettled ∧ holding.reg.inReset = false ∧ holding.statusInFlight = true ∧
      waitsForStatus (.winSizeWrite 1) = true) ∧
      ∃ s : State, s.PortSettled ∧ s.reg.inReset = true ∧ isAccess .eventsRead = true :=
  ⟨by decide, { State.reset with reg := { inReset := true } }, by decide⟩

theorem witness_WindowWritesTakeEffect :
    (st .stopped).Open ∧ (st .stopped).PortSettled ∧ (st .halted).Open ∧ (st .halted).PortSettled ∧
      (1048576 : Word).toNat ≤ 1048576 ∧ ¬(1048577 : Word).toNat ≤ 1048576 := by decide

theorem witness_EventAndEnableAccesses : holding.reg.inReset = false ∧ holding.PortSettled := by decide

theorem witness_FrameReadyEdgeWakes :
    (atLast .parked).Idle ∧ (atLast .parked).reg.frameReadySeen = false ∧
      accessOk (recordReadReq 3968) (atLast .parked).window = true ∧
      (withJob .boardHeader true [] (st .parked)).statusInFlight = false ∧
      (withJob .boardHeader true [] (st .parked)).work.isSome = true ∧
      holding.PortSettled ∧ holding.statusInFlight = true ∧
      (st .working).statusInFlight = false ∧
    (let r : State := withEc { job := .config .reload } (st .parked)
     r.PortSettled ∧ r.statusInFlight = false ∧ r.configBusy = true ∧ r.reg.frameReadySeen = false) := by decide

theorem witness_RescanTimerWakes :
    let s (now : Word) : State :=
      { st .parked with
        reg := { winSize := 1, time := now }
        ec := { engine := .parked, cursor := 64, timer := some { armedAt := 4294967000, interval := 1 } } }
    (1 * 1000 ≤ ((s 704).reg.time - 4294967000).toNat ∧ (s 704).Idle ∧
      accessOk (recordReadReq (s 704).ec.cursor) (s 704).window = true) ∧
      ((withJob .boardHeader true [] (s 704)).work.isSome = true ∧
        (withJob .boardHeader true [] (s 704)).statusInFlight = false) ∧
      ((withEc { job := .config .reload } (s 704)).configBusy = true ∧
        (withEc { job := .config .reload } (s 704)).statusInFlight = false ∧
        (withEc { job := .config .reload } (s 704)).PortSettled) ∧
      ((withEc { job := .status {} .body [] } (s 704)).statusInFlight = true ∧ (s 704).PortSettled) ∧
      ((s 703).reg.time - 4294967000).toNat < 1 * 1000 := by decide

/-! ### Witnesses: the memory bus -/

theorem witness_FailedAttemptIsRepeated :
    let s (now : Word) : State := withAccess { writeAccess with attempts := 3 }
      { st .working with reg := { time := now }, work := some { job := .retire [] false } }
    (s 0).port.inFlight = some { writeAccess with attempts := 3 } ∧ (3 : Nat) ≤ (s 0).port.retryCount ∧
      memWf (s 0).dram = true ∧ (s 2047).OnTime ∧ ¬(s 2048).OnTime ∧
      writeAccess.req.data = some [1, 2, 3, 4] ∧ writeAccess.req.length = 4 ∧ writeAccess.req.offset % 4 = 0 ∧
      readAccess.req.data = none ∧ (st .parked).port.inFlight = none := by decide

/-- R173 against R113: an attempt of a retirement write that is repeated may have placed bytes, so it draws a free
value; the attempt with which that write is exhausted places none. -/
theorem test_repeated_attempt_may_place_bytes :
    let s (attempts : Nat) : State := withAccess { writeAccess with attempts := attempts }
      { st .working with work := some { job := .retire [] false } }
    let drawn (attempts : Nat) : Option Nat :=
      match exec (.memoryAttemptAnswer .failed []) (s attempts) with
      | .next t => some t.freeCount
      | _ => none
    drawn 3 = some 1 ∧ drawn 4 = some 0 := by decide

/-- R144, R113, R128 against R173: which failed writes leave what memory held. -/
theorem test_writes_that_keep_memory :
    let s (j : Job) : State := { st .working with work := some { job := j } }
    (s (.slotEmpty 0)).keepsOnFailure writeAccess.req = true ∧
      (s (.recordWrite (.groupStart false .call) 0)).keepsOnFailure writeAccess.req = true ∧
      (s (.recordWrite (.groupStart true .call) 0)).keepsOnFailure writeAccess.req = false ∧
      (s .outRow).keepsOnFailure writeAccess.req = false ∧
      (s .outRow).keepsOnFailure (statusReq .leading 1 []) = true ∧
      (s .outRow).keepsOnFailure (statusReq .body 1 []) = false := by decide

/-- R173: an answer at the limit is disregarded, and one before it is taken. -/
theorem test_answer_at_the_limit :
    let s (now : Word) : State := withAccess writeAccess { st .working with reg := { winSize := 1, time := now } }
    let taken (now : Word) (a : BusAnswer) : Bool :=
      match exec (.memoryAttemptAnswer a []) (s now) with
      | .next t => decide (t.port.inFlight = none)
      | _ => false
    taken 2047 .succeeded = true ∧ taken 2048 .succeeded = false ∧ taken 5 .late = false := by decide

theorem witness_DelayEndsInTheNextAttempt :
    let s (now : Word) : State :=
      withAccess { writeAccess with phase := .delay } { st .working with reg := { time := now } }
    (s 5).port.inFlight = some { writeAccess with phase := .delay } ∧
      (s 5).port.retryDelay ≤ ((s 5).reg.time - (s 5).port.delayStart).toNat ∧
      ((s 4).reg.time - (s 4).port.delayStart).toNat < (s 4).port.retryDelay ∧
      (s 2047).OnTime ∧ ¬(s 2048).OnTime ∧ (st .working).port.inFlight = none ∧
      (∀ b, (s 5).port.inFlight = some b → b.phase = .delay) :=
  ⟨by decide, by decide, by decide, by decide, by decide, by decide, fun b h => by cases h; rfl⟩

theorem witness_SuccessfulWriteStoresItsBytes :
    let s : State := withAccess writeAccess (st .working)
    s.port.inFlight = some writeAccess ∧ writeAccess.phase = .attempt ∧ s.OnTime ∧
      writeAccess.req.data = some [1, 2, 3, 4] ∧ memWf s.dram = true ∧ (st .working).port.inFlight = none := by decide

theorem witness_ChainAccessesAreReported :
    let r : State := withAccess { readAccess with attempts := 4 }
      { st .parked with work := some { job := .recordRead .cursor 64 } }
    let w : State := withAccess writeAccess { st .working with work := some { job := .recordWrite .taken 0 } }
    (r.port.inFlight = some { readAccess with attempts := 4 } ∧ readAccess.phase = .attempt ∧ r.OnTime ∧
      readAccess.req.block = .chainReader ∧ r.port.requests = [] ∧ readAccess.req.data = none ∧
      r.work = some { job := .recordRead .cursor 64 } ∧ r.port.retryCount < 4) ∧
    (w.port.inFlight = some writeAccess ∧ w.OnTime ∧ writeAccess.req.block = .chainReader ∧ w.port.requests = [] ∧
      writeAccess.req.data = some [1, 2, 3, 4] ∧ w.work = some { job := .recordWrite .taken 0 }) ∧
    (let x (now : Word) (wr : WriteWhy) : State := withAccess { writeAccess with attempts := 4 }
       { st .working with reg := { time := now }, work := some { job := .recordWrite wr 0 } }
     (x 2047 .taken).OnTime ∧ ¬(x 2048 .taken).OnTime ∧ (x 0 .taken).port.retryCount < 4 ∧
      (x 0 .taken).port.inFlight = some { writeAccess with attempts := 4 } ∧ memWf (x 0 .taken).dram = true ∧
      (x 0 (.groupStart false .call)).keepsOnFailure writeAccess.req = true ∧
      ¬({ r with reg := { time := 2048 } } : State).OnTime) ∧
    (let x (now : Word) (todo : List Request) : State := withAccess { writeAccess with attempts := 4 }
       { st .working with reg := { time := now, winSize := 1 }, work := some { job := .retire todo false } }
     (x 0 []).OnTime ∧ ¬(x 2048 []).OnTime ∧ (x 0 []).port.requests = [] ∧ (x 0 []).port.retryCount < 4 ∧
      (x 0 []).work = some { job := .retire [] false } ∧
      accessOk (stateWriteReq 3968 .faulted) (x 0 [stateWriteReq 3968 .faulted]).window = true ∧
      accessOk (stateWriteReq 4096 .faulted) (x 0 [stateWriteReq 4096 .faulted]).window = false) ∧
    (let s (cursor : Nat) : State := { st .parked with ec := { engine := .parked, cursor := cursor } }
     (s 4032).Idle ∧ (s 4032).port.inFlight = none ∧ accessOk (recordReadReq 3968) (s 3968).window = true ∧
      accessOk (recordReadReq 4032) (s 4032).window = false ∧ accessOk (recordReadReq 65) (s 65).window = false) := by
  decide

set_option maxRecDepth 20000 in
theorem witness_StatusWriteMakesThreeAccesses :
    let a (st : StatusStage) : Access :=
      { req := statusReq st 1 (zeroBytes 248), address := 256, attempts := 1, phase := .attempt }
    let s (g : StatusStage) : State :=
      withAccess (a g) (withEc { job := .status {} g (zeroBytes 248) } (st .parked))
    (a .leading).req.data.isSome = true ∧ (a .leading).req.block = .engineController ∧
      (s .leading).port.requests = [] ∧ (s .leading).OnTime ∧ (s .leading).reg.winSize ≠ 0 ∧
      (zeroBytes 248).length = 248 ∧
      (s .body).ec.job = some { job := .status {} .body (zeroBytes 248) } ∧
      (s .trailing).port.inFlight = some (a .trailing) := by decide

set_option maxRecDepth 20000 in
theorem witness_StatusWriteMakesThreeAccesses_failures :
    let s (g : StatusStage) (now : Word) : State := withAccess (onBus (statusReq g 1 (zeroBytes 248)) 4)
      (withEc { job := .status {} g (zeroBytes 248) } { st .parked with reg := { winSize := 1, time := now } })
    let c (now : Word) : State := withAccess (onBus configReadReq 4)
      (withEc { job := .config .start } { st .starting with reg := { winSize := 1, time := now } })
    ((s .body 0).port.inFlight = some (onBus (statusReq .body 1 (zeroBytes 248)) 4) ∧
      (s .body 0).port.retryCount < 4 ∧ memWf (s .body 0).dram = true ∧ (s .body 2047).OnTime ∧
      ¬(s .body 2048).OnTime ∧ (s .body 0).keepsOnFailure (statusReq .leading 1 (zeroBytes 248)) = true) ∧
    ((c 0).port.inFlight = some (onBus configReadReq 4) ∧ configReadReq.block = .engineController ∧
      configReadReq.data = none ∧ (c 0).port.requests = [] ∧ (c 2047).OnTime ∧ ¬(c 2048).OnTime ∧
      (c 0).port.retryCount < 4 ∧ (c 0).ec.job = some { job := .config .start }) := by decide

/-! ### Witnesses: the Engine Controller's ends -/

/-- A configuration block that passes every check in a window of 4096 bytes. -/
def block : List Byte :=
  leBytes 2 0 ++ zeroBytes 2 ++ leBytes 4 512 ++ leBytes 2 1 ++ leBytes 1 2 ++ leBytes 1 15 ++
  leBytes 4 131072 ++ leBytes 4 98304 ++ leBytes 4 640 ++ leBytes 4 0 ++ leBytes 2 0 ++ leBytes 1 0 ++
  leBytes 1 255 ++ leBytes 4 0 ++ leBytes 2 1 ++ leBytes 2 1 ++ leBytes 2 0 ++ leBytes 2 0 ++
  leBytes 4 1000000 ++ leBytes 2 1023 ++ zeroBytes 206

set_option maxRecDepth 20000 in
theorem witness_StartReadParksAtTheHead :
    let s (ok : Bool) (d : List Byte) : State := withEc (ended (.config .start) ok d) (st .starting)
    (configFault (configFields block) (s true block).window = none ∧ (s true block).ec.queue = [] ∧
      (s true block).reg.winSize ≠ 0 ∧ (s true block).PortSettled ∧ (s true block).ec.endedByAbort = false) ∧
    configFault (configFields (zeroBytes 256)) (s true (zeroBytes 256)).window = some 8 ∧
    ((s false []).work = none ∧ (s false []).ec.queue = (none : Option StatusWrite).toList.map .status) ∧
    (let v (w : ConfigWhy) (cursor : Nat) (aborted : Bool) : State :=
       { st .stopping with ec :=
         { engine := .stopping, cursor := cursor, endedByAbort := aborted, queue := [.status {}]
           job := some (ended (.config w) true block) } }
     (v .resume 64 false).ec.job = some { job := .config (if true then .resume else .start), ended := true
                                          ok := true, data := block } ∧
      (v .start 0 false).ec.queue = (some ({} : StatusWrite)).toList.map .status ∧
      (v .start 0 false).ec.reloadReq = false ∧ (v .start 0 true).ec.endedByAbort = true ∧
      (v .resume 64 false).ec.cursor ≠ 0 ∧ (v .resume 0 false).PortSettled ∧ (v .resume 0 true).work = none) := by
  decide

set_option maxRecDepth 20000 in
theorem witness_ReloadReplacesTheCopy :
    let s (ok : Bool) (d : List Byte) : State := withEc (ended (.config .reload) ok d) (st .parked)
    let v (e : EngineState) (again stop look wake : Bool) (before : Option StatusWrite) : State :=
      { st e with ec :=
        { engine := e, reloadReq := again, stopAsked := stop, lookAfterRead := look, wakePending := wake
          cursor := 3968, queue := before.toList.map .status
          job := some (ended (.config .reload) true block) } }
    ((s true block).ec.queue = [] ∧ (s true block).PortSettled ∧ (s true block).ec.reloadReq = false ∧
      (s true block).ec.stopAsked = false ∧ (s true block).ec.engine ≠ .stopping ∧
      ¬((s true block).ec.lookAfterRead = true ∨ (s true block).ec.wakePending = true ∨
        (s true block).ec.engine = .working) ∧
      configFault (configFields block) (s true block).window = none) ∧
    configFault (configFields (zeroBytes 256)) (s true (zeroBytes 256)).window = some 8 ∧
      (s false []).work = none ∧ (s false []).reg.winSize ≠ 0 ∧
    ((v .parked true false false false none).PortSettled ∧
      (v .stopping true false false false (some {})).ec.queue = (some ({} : StatusWrite)).toList.map .status ∧
      (v .parked false true false false none).ec.stopAsked = true ∧
      (v .stopping false false false false (some {})).work = none) ∧
    ((v .parked false false true false none).ec.lookAfterRead = true ∧
      (v .parked false false false true none).ec.wakePending = true ∧
      (v .working false false false false none).ec.engine = .working ∧
      accessOk (recordReadReq (v .working false false false false none).ec.cursor)
        (v .working false false false false none).window = true) := by decide

theorem witness_StatusWriteEnds :
    let s (w : StatusWrite) (ok : Bool) : State := withEc (ended (.status w .trailing []) ok []) (atLast .parked)
    let holds (h : List Held) : State := { s {} true with reg := { winSize := 1, held := h } }
    ((s {} true).ec.queue = [] ∧ (s {} true).reg.held = [] ∧ (s {} true).reg.winSize ≠ 0 ∧
      (s {} true).PortSettled) ∧
    ((s { after := .look } true).work = none ∧
      accessOk (recordReadReq 3968) (s { after := .look } true).window = true) ∧
    ((s {} false).ec.engine ≠ .halted ∧ (s {} false).chain.flight.inFlight = false ∧
      (s {} false).ec.boundaryLast = none ∧ (s {} false).work = none ∧ (s {} false).chain.unterminated = none) ∧
    (inGroup .working).chain.flight.inFlight = true ∧
    (let h : State := withEc (ended (.status { onEnd := evHalt } .trailing []) false []) (st .halted)
     h.ec.engine = .halted ∧ h.ec.queue = [] ∧ h.reg.held = [] ∧ h.reg.winSize ≠ 0 ∧ h.PortSettled) ∧
    (let v : State := { s {} false with
        work := some { job := .recordWrite .unterminated 64 }
        chain := { unterminated := some { todo := [], second := 64 } } }
     v.ec.engine ≠ .halted ∧ v.chain.flight.inFlight = false ∧ v.ec.boundaryLast = none ∧
      v.work = some { job := .recordWrite .unterminated 64, ended := false, ok := false, data := [], endedAt := 0 } ∧
      v.PortSettled ∧ v.reg.held = []) ∧
    (let called (w : Work) (failed : Option Nat) : State := { s {} false with
        work := some w, chain := { unterminated := some { todo := [], second := 64, failed := failed } } }
     let read : Work := { job := .recordRead .lookAhead 64, ended := true, ok := false }
     let write : Work := { job := .recordWrite .unterminated 64 }
     (∃ v, (called read none).work = some v ∧ v.ended = true ∧ v.ok = false) ∧
      (∃ v, (called write (some 128)).chain.unterminated = some v ∧ v.failed.isSome = true) ∧
      (called read none).ec.engine ≠ .halted ∧ (called read none).chain.flight.inFlight = false ∧
      (called read none).ec.boundaryLast = none ∧ (called read none).PortSettled ∧ (called read none).reg.held = []) ∧
    (∃ v todo, ({ inGroup .working with work := some { job := .retire [] true } } : State).work = some v ∧
      v.job = .retire todo true) ∧
    (¬∃ v todo, ({ inGroup .working with work := none } : State).work = some v ∧ v.job = .retire todo true) ∧
    ((holds [.access .stop, .wake, .access .reload]).PortSettled ∧
      [Held.wake, .access .reload].all Held.waits = true ∧
      (holds [.wake]).ec.engine = .parked ∧ (holds [.wake]).work = none) := by
  refine ⟨by decide, by decide, by decide, by decide, by decide, by decide,
    ⟨⟨_, rfl, rfl, rfl⟩, ⟨_, rfl, rfl⟩, by decide, by decide, by decide, by decide, by decide⟩,
    ⟨_, _, rfl, rfl⟩, ?_, by decide⟩
  rintro ⟨v, todo, h, _⟩
  cases h

/-- R142, R146, R144: a group whose last fault write is in the Port when a status write fails is counted, and its
RECORD_FAULT waits for the next status write. -/
theorem test_group_fault_at_a_status_failure :
    (match exec .statusWriteDone { withEc (ended (.status {} .trailing []) false []) (st .parked) with
        work := some { job := .recordWrite .unterminated 64 }
        chain := { unterminated := some { todo := [], second := 64 } } } with
      | .next t => decide (t.ec.engine = .halted ∧ t.ec.framesFaulted = 1 ∧ t.ec.eventsDue = evRecordFault ∧
          t.work = some { job := .abandoned none })
      | _ => false) = true := by decide

/-- R161, R144: a fault write of an unterminated group has failed before a status write fails: RECORD_WRITE stands, the
rest of the fault writes are made, and HALTED is entered without a status write. -/
theorem test_first_fault_stands :
    let s : State := withEc (ended (.status {} .trailing []) false []) { st .parked with
      work := some { job := .recordWrite .unterminated 64 }
      chain := { unterminated := some { todo := [], second := 192, failed := some 128 } } }
    (match exec .statusWriteDone s with
      | .next t =>
        (match exec .chainRecordWriteDone { t with
            work := some { job := .recordWrite .unterminated 64, ended := true, ok := true } } with
          | .next v => decide (t.ec.engine = .parked ∧ t.work = s.work ∧ v.ec.engine = .halted ∧
              v.ec.haltReason = .recordWrite ∧ v.ec.haltRecord = 128 ∧ v.ec.cursor = 192 ∧ v.ec.job = none ∧
              v.reg.events = evHalt)
          | _ => false)
      | _ => false) = true := by decide

/-- R144: a retirement write has failed before a status write fails: the halt held is RECORD_WRITE. -/
theorem test_first_fault_stands_in_a_retirement :
    (match exec .statusWriteDone (withEc (ended (.status {} .trailing []) false [])
        { inGroup .working with work := some { job := .retire [] true } }) with
      | .next t => decide (t.ec.heldHalt.map Prod.fst = some .recordWrite ∧ t.ec.statusFailed = true)
      | _ => false) = true := by decide

/-- R143, R167: a held STOP is judged at the end of the status write, and what came after it waits for the write
that reports STOPPED. -/
theorem test_held_behind_a_stop :
    (match exec .statusWriteDone { withEc (ended (.status {} .trailing []) true []) (atLast .parked) with
        reg := { winSize := 1, held := [.access .stop, .wake] } } with
      | .next t => decide (t.ec.engine = .stopped ∧ t.reg.held = [.wake] ∧ t.statusInFlight = true)
      | _ => false) = true := by decide

set_option maxRecDepth 20000 in
theorem witness_GroupBoundaryAdvancesOrStops :
    let s (e : EngineState) (reload failed : Bool) (h : Option (HaltReason × Nat)) : State :=
      { st e with ec := { engine := e, boundaryLast := some 3968, reloadReq := reload, statusFailed := failed
                          heldHalt := h
                          job := some (ended (.status { after := .boundary } .trailing []) true []) } }
    let r (ok : Bool) (d : List Byte) : State :=
      { st .working with ec := { engine := .working, boundaryLast := some 3968
                                 job := some (ended (.config .boundary) ok d) } }
    ((s .working false false none).ec.queue = [] ∧ (s .working true false none).PortSettled ∧
      (s .working false true (some (.statusWrite, 3968))).work = none ∧
      (s .working false false (some (.recordWrite, 3968))).reg.held = [] ∧
      (s .working false false none).ec.abortReq = false ∧
      accessOk (recordReadReq 3968) (s .working false false none).window = true) ∧
    (s .stopping false false none).PortSettled ∧
    (let f : State := { st .working with
        ec := { engine := .working, boundaryLast := some 3968
                job := some (ended (.status { after := .boundary } .leading []) false []) } }
     f.PortSettled ∧ f.ec.queue = [] ∧ f.reg.held = [] ∧ f.chain.flight.inFlight = false ∧ f.ec.reloadReq = false ∧
      ({ f with ec := { f.ec with reloadReq := true } } : State).PortSettled ∧ f.work = none ∧
      f.ec.engine ≠ .halted) ∧
    (let v (e : EngineState) (again failed : Bool) (h : Option (HaltReason × Nat)) : State :=
        { r true block with ec := { (r true block).ec with
            engine := e, reloadReq := again, statusFailed := failed, heldHalt := h } }
     (v .stopping false false none).PortSettled ∧ (v .working true false none).work = none ∧
      (v .working false true (some (.statusWrite, 3968))).ec.heldHalt.isSome = true ∧
      (v .working false false none).ec.abortReq = false ∧
      accessOk (recordReadReq 3968) (v .working false false none).window = true) ∧
    ((r true block).PortSettled ∧ (r true block).work = none ∧ (r true block).reg.winSize ≠ 0 ∧
      configFault (configFields block) (r true block).window = none ∧ (r true block).ec.heldHalt = none) ∧
    configFault (configFields (zeroBytes 256)) (r true (zeroBytes 256)).window = some 8 := by decide

/-! ### Witnesses: the chain -/

theorem witness_LooksThatFindNothingPark :
    let s (e : EngineState) (w : ReadWhy) (d : List Byte) : State := withJob (.recordRead w 0) true d (st e)
    ((s .parked .cursor (record 0 1 0 0)).ControllerFree ∧
      (s .parked .cursor (record 0 1 0 0)).lookMustEnd = false ∧
      (recordHead (record 0 1 0 0)).state ≠ some .ready ∧ (recordHead (record 7 1 0 0)).state ≠ some .ready) ∧
    ((s .working .cursorLink (record 3 1 0 0)).ControllerFree ∧ (recordHead (record 3 1 0 0)).link = 0) ∧
    (let p : State := { s .parked .cursor (record 0 1 0 0) with
       ec := { engine := .parked, wakePending := true, cursorDue := true, cursor := 3968 } }
     p.ControllerFree ∧ p.lookMustEnd = false ∧ accessOk (recordReadReq p.ec.cursor) p.window = true) := by decide

/-- The look of a state with each command that ends one remembered: a STOP or an ABORT in PARKED, a RELOAD in PARKED
with and without a cursor move still to be reported, a STOP and an ABORT from WORKING, and an ABORT with a RELOAD. -/
def endings (s : State) : List State :=
  let u (e : EngineState) (stop reload abort due : Bool) : State := { s with ec := { s.ec with
    engine := e, stopAsked := stop, reloadReq := reload, endedByAbort := abort, cursorDue := due } }
  [u .parked true false false true, u .parked false true false true, u .parked false true false false,
    u .stopping false false false false, u .stopping false false true false, u .stopping false true true true]

/-- Every one of them meets what the statements ask of a look that a command ends. -/
def endsByCommand (s : State) : Bool :=
  (endings s).all fun u => decide (u.ControllerFree ∧ u.lookMustEnd = true ∧ u.work = s.work ∧ u.chain = s.chain)

theorem witness_LooksThatFindNothingPark_ended :
    endsByCommand (withJob (.recordRead .cursor 0) true (record 0 1 0 0) (st .parked)) = true ∧
      endsByCommand (withJob (.recordRead .cursorLink 0) true (record 3 1 0 0) (st .parked)) = true := by decide

/-- R96, R153: a STOP during the look: the READY FRAME with END is not taken, and STOPPED is entered with its status
write. R160: with a RELOAD the configuration is read. -/
theorem test_command_ends_the_look :
    let s : State := withJob (.recordRead .cursor 3968) true (record 1 1 1 0) (atLast .parked)
    (match exec .cursorRecordReadDone { s with ec := { s.ec with stopAsked := true } },
        exec .cursorRecordReadDone { s with ec := { s.ec with reloadReq := true } } with
      | .next t, .next u => decide (
          t.ec.engine = .stopped ∧ t.work = none ∧ t.statusInFlight = true ∧ t.chain.flight.inFlight = false ∧
          u.ec.engine = .parked ∧ u.work = none ∧ u.ec.job = some { job := .config .reload } ∧
          (u.port.inFlight.map fun a => (a.req.offset, a.req.length)) = some (0, 256))
      | _, _ => false) = true := by decide

/-- Assumption logs 49 and 50: the look after a RELOAD's read uses up a wake that waited, and a READY FRAME with a bad
link met with a STOP remembered gives STOPPED, where without one it gives LINK_BAD. -/
theorem test_choices_of_an_ended_look :
    let s (stop : Bool) : State := withJob (.recordRead .cursor 3968) true (record 1 1 0 65)
      { atLast .parked with ec := { engine := .parked, cursor := 3968, stopAsked := stop } }
    let r : State := withEc (ended (.config .reload) true block)
      { atLast .parked with ec := { engine := .parked, cursor := 3968, lookAfterRead := true, wakePending := true } }
    (match exec .cursorRecordReadDone (s true), exec .cursorRecordReadDone (s false), exec .configReadDone r with
      | .next t, .next u, .next v => decide (t.ec.engine = .stopped ∧ u.ec.haltReason = .linkBad ∧
          v.work = some { job := .recordRead .cursor 3968 } ∧ v.ec.wakePending = false)
      | _, _, _ => false) = true := by decide

theorem witness_LooksHaltWithTheirRecord :
    let s (w : ReadWhy) (ok : Bool) (d : List Byte) : State := withJob (.recordRead w 0) ok d (st .parked)
    (s .cursor false []).ControllerFree ∧
    ((recordHead (record 1 6 0 0)).state = some .ready ∧ (recordHead (record 1 6 0 0)).kind = none) ∧
    (recordHead (record 1 4 0 0)).kind = some .ret ∧
    ((recordHead (record 3 1 0 4032)).link ≠ 0 ∧
      offsetOk (recordHead (record 3 1 0 4032)).link (s .cursorLink true []).window = false) ∧
    (let g (kind : Nat) : State := withJob (.recordRead .cursor 3968) true (record 1 kind 0 0) (atLast .parked)
     (g 2).ControllerFree ∧ (g 2).lookMustEnd = false ∧ (recordHead (record 1 2 0 0)).kind = some .derived ∧
      (recordHead (record 1 3 0 0)).kind = some .call ∧ (recordHead (record 1 5 0 0)).kind = some .override ∧
      accessOk (completionReq 3968 [3, 5, 0, 0]) (g 2).window = true ∧
      accessOk (completionReq 3968 [0, 0, 0, 0]) (g 5).window = true) ∧
    (withJob (.recordWrite (.groupStart true .call) 3968) false [] (atLast .parked)).ControllerFree := by decide

theorem witness_LooksHaltWithTheirRecord_ended :
    endsByCommand (withJob (.recordRead .cursor 3968) true (record 1 2 0 0) (atLast .parked)) = true ∧
      (recordHead (record 1 2 0 0)).state = some .ready ∧ (recordHead (record 1 2 0 0)).kind = some .derived := by
  decide

/-- R109, 10.2: the completion writes of an OVERRIDE, an orphan DERIVED and an orphan CALL at the cursor. -/
theorem test_group_start :
    let taken (kind : Nat) (bytes : List Byte) : Bool :=
      match exec .cursorRecordReadDone
          (withJob (.recordRead .cursor 3968) true ((record 1 kind 0 0).take 16 ++ bytes ++ zeroBytes 108)
            (atLast .parked)) with
      | .next t => decide ((t.port.inFlight.map fun a => (a.req.offset, a.req.data)) =
          some (3980, some (if kind = 5 then [0, 0, 0, 0] else if kind = 2 then [3, 5, 0, 0] else [3, 0, 0, 0])))
      | _ => false
    taken 5 [0, 0, 0, 0] = true ∧ taken 2 [0, 0, 0, 0] = true ∧ taken 3 [0, 0, 0, 0] = true := by decide

theorem witness_ReadyFrameWithEndIsTaken :
    let s (e : EngineState) (d : List Byte) : State := { withJob (.recordRead .cursor 3968) true d (st e) with
      ec := { engine := e, cursor := 3968, cursorDue := true, wakePending := true } }
    (s .parked (record 1 1 1 0)).ControllerFree ∧ (s .parked []).lookMustEnd = false ∧
      (s .working (record 1 1 1 0)).ControllerFree ∧ (s .working []).lookMustEnd = false ∧
      accessOk (stateWriteReq (s .parked []).ec.cursor .taken) (s .parked []).window = true ∧
      (recordHead (record 1 1 1 0)).state = some .ready ∧ (recordHead (record 1 1 1 0)).kind = some .frame ∧
      (recordHead (record 1 1 1 0)).endFlag = true ∧
    ((recordHead (record 1 1 0 0)).state = some .ready ∧ (recordHead (record 1 1 0 0)).endFlag = false ∧
      (recordHead (record 1 1 0 0)).link = 0 ∧
      accessOk (recordReadReq (s .parked []).ec.cursor) (s .parked []).window = true ∧
      offsetOk (recordHead (record 1 1 0 65)).link (s .parked []).window = false ∧
      offsetOk (recordHead (record 1 1 0 4032)).link (s .parked []).window = false ∧
      (recordHead (record 1 1 0 3968)).link ≠ 0 ∧
      offsetOk (recordHead (record 1 1 0 3968)).link (s .parked []).window = true) := by decide

theorem witness_ReadyFrameWithEndIsTaken_ended :
    endsByCommand (withJob (.recordRead .cursor 3968) true (record 1 1 1 0) (atLast .parked)) = true := by decide

/-- R98, R143: a READY FRAME met in WORKING while a cursor move is to be reported: its TAKEN write goes to the Port and
the status write waits behind it; without END its link is read. -/
theorem test_frame_met_in_working :
    let s (flags link : Nat) : State :=
      { withJob (.recordRead .cursor 3968) true (record 1 1 flags link) (st .working) with
        ec := { engine := .working, cursor := 3968, cursorDue := true } }
    let asked (flags link : Nat) : Option (Nat × Option (List Byte) × Nat) :=
      match exec .cursorRecordReadDone (s flags link) with
      | .next t => (t.port.inFlight.map fun a => (a.req.offset, a.req.data, t.port.requests.length))
      | _ => none
    asked 1 0 = some (3968, some [2, 0, 0, 0], 1) ∧ asked 0 64 = some (64, none, 1) := by decide

theorem witness_LinksMoveTheCursorOn :
    let s (w : ReadWhy) : State := withJob (.recordRead w 0) true (record 3 1 0 3968) (st .working)
    (s .cursorLink).PortSettled ∧ (s .advance).PortSettled ∧ (s .advance).lookMustEnd = false ∧
      (recordHead (record 3 1 0 3968)).link ≠ 0 ∧
      offsetOk (recordHead (record 3 1 0 3968)).link (s .advance).window = true ∧
    (let u : State := withJob (.recordWrite .unterminated 64) true []
        { st .parked with chain := { unterminated := some { todo := [], second := 64 } } }
     u.ControllerFree ∧ u.lookMustEnd = false ∧ u.chain.unterminated = some { todo := [], second := 64 }) ∧
    (let g (completion : Bool) : State :=
        withJob (.recordWrite (.groupStart completion .derived) 3968) true [] (atLast .parked)
     (g true).PortSettled ∧ accessOk (stateWriteReq 3968 .faulted) (g true).window = true ∧
      accessOk (stateWriteReq 3968 .done) (g true).window = true ∧
      accessOk (recordReadReq 3968) (g false).window = true) ∧
    (let w : Nat × Request := (64, stateWriteReq 64 .faulted)
     let u (ok stop : Bool) (todo : List (Nat × Request)) (failed : Option Nat) : State :=
        withJob (.recordWrite .unterminated 128) ok []
          { st .parked with ec := { engine := .parked, stopAsked := stop }
                            chain := { unterminated := some { todo := todo, second := 64, failed := failed } } }
     (u true false [w] none).ControllerFree ∧ accessOk w.2 (u true false [w] none).window = true ∧
      (u false true [w] none).ControllerFree ∧ (u false true [w] none).lookMustEnd = true ∧
      (u true false [] (some 64)).ControllerFree) := by decide

theorem witness_LinksMoveTheCursorOn_ended :
    let last (todo : List (Nat × Request)) : State := withJob (.recordWrite .unterminated 128) true []
      { st .parked with chain := { unterminated := some { todo := todo, second := 64 } } }
    endsByCommand (withJob (.recordRead .cursorLink 0) true (record 3 1 0 3968) (st .parked)) = true ∧
      endsByCommand (withJob (.recordRead .advance 0) true (record 3 1 0 3968) (st .parked)) = true ∧
      endsByCommand (last [(64, stateWriteReq 64 .faulted)]) = true ∧ endsByCommand (last []) = true := by decide

/-- R100, R142, R146: a fault write that failed before a STOP faults the group: the engine halts at the second
FRAME, and the group counts. -/
theorem test_failed_fault_write_under_a_stop :
    (match exec .chainRecordWriteDone (withJob (.recordWrite .unterminated 128) false []
        { st .parked with
          ec := { engine := .parked, stopAsked := true }
          chain := { unterminated := some { todo := [(64, stateWriteReq 64 .faulted)], second := 192 } } }) with
      | .next t => decide (t.ec.engine = .halted ∧ t.ec.haltReason = .recordWrite ∧ t.ec.haltRecord = 128 ∧
          t.ec.cursor = 192 ∧ t.ec.framesFaulted = 1)
      | _ => false) = true := by decide

theorem witness_AdvanceParksOrHaltsAtTheRecord :
    let s (e : EngineState) (ok wake : Bool) (d : List Byte) : State :=
      { withJob (.recordRead .advance 3968) ok d (st e) with ec := { engine := e, wakePending := wake } }
    ((s .working true false (record 3 1 0 0)).ControllerFree ∧ (recordHead (record 3 1 0 0)).link = 0 ∧
      (s .working true false []).lookMustEnd = false) ∧
    ((s .parked true true (record 3 1 0 0)).ControllerFree ∧ (s .parked true true []).lookMustEnd = false ∧
      accessOk (recordReadReq 3968) (s .parked true true []).window = true) ∧
    offsetOk (recordHead (record 3 1 0 65)).link (s .working true false []).window = false ∧
      (s .working false false []).ControllerFree := by decide

theorem witness_AdvanceParksOrHaltsAtTheRecord_ended :
    endsByCommand (withJob (.recordRead .advance 3968) true (record 3 1 0 0) (st .parked)) = true := by decide

/-- R95, R163: an advance from PARKED with a null link parks at the record with the link-wait flag set, without the
PARKED event, and a pending wake reads its link there. -/
theorem test_advance_from_parked :
    (match exec .advanceReadDone { withJob (.recordRead .advance 3968) true (record 3 1 0 0) (st .parked) with
        ec := { engine := .parked, wakePending := true } } with
      | .next t => decide (t.ec.engine = .parked ∧ t.ec.cursor = 3968 ∧ t.ec.linkWait = true ∧
          t.ec.wakePending = false ∧ t.work = some { job := .recordRead .cursorLink 3968 } ∧
          (t.ec.job.map EcWork.job).isSome = true ∧ t.reg.events = 0)
      | _ => false) = true := by decide

/-- A group under assembly with `n` records read. -/
def assembling (n : Nat) (stack : List Nat) : State :=
  { st .parked with chain := { group := { readCount := n }, returnStack := stack } }

theorem witness_LookAheadGathersDerivedRecords :
    let s (n : Nat) : State :=
      withJob (.recordRead .lookAhead 64) true (record 1 2 0 3968) (assembling n [])
    (s 62).ControllerFree ∧ (s 62).lookMustEnd = false ∧ (recordHead (record 1 2 0 3968)).state = some .ready ∧
      (recordHead (record 1 2 0 3968)).kind = some .derived ∧ (recordHead (record 1 2 0 3968)).endFlag = false ∧
      offsetOk (recordHead (record 1 2 0 3968)).link (s 62).window = true ∧
      (s 62).chain.group.readCount + 1 < 64 ∧ 64 ≤ (s 63).chain.group.readCount + 1 ∧
      (withJob (.recordRead .lookAhead 64) false [] (assembling 63 [])).ControllerFree ∧
    (let c (target : Nat) : List Byte := (record 1 3 0 0).take 16 ++ leBytes 4 target ++ zeroBytes 108
     let v (target : Nat) (stack : List Nat) : State :=
       withJob (.recordRead .lookAhead 64) true (c target) (assembling 62 stack)
     (v 3968 [1, 2, 3]).ControllerFree ∧ (recordHead (c 3968)).state = some .ready ∧
       (recordHead (c 3968)).kind = some .call ∧ callTarget (c 3968) ≠ 0 ∧
       offsetOk (callTarget (c 3968)) (v 3968 []).window = true ∧ (v 3968 [1, 2, 3]).chain.returnStack.length < 4 ∧
       4 ≤ (v 3968 [1, 2, 3, 4]).chain.returnStack.length ∧
       64 ≤ (withJob (.recordRead .lookAhead 64) true (c 3968)
         (assembling 63 [1, 2, 3])).chain.group.readCount + 1 ∧ offsetOk (callTarget (c 65)) (v 65 []).window = false ∧
       callTarget (c 0) = 0) ∧
    (let v (e : EngineState) (d : List Byte) : State := withJob (.recordRead .lookAhead 64) true d { st e with
       ec := { engine := e, cursor := 3968, wakePending := true }
       chain := { group := {
         frame := some { offset := 3968, endFlag := false, notify := false, fields := {} }
         mainList := [{ offset := 128, kind := .derived, endFlag := false, notify := true }], readCount := 2 } } }
     (v .working []).ControllerFree ∧ (v .working []).lookMustEnd = false ∧
      accessOk (recordReadReq (v .working []).ec.cursor) (v .working []).window = true ∧
      (recordHead (record 0 1 0 64)).state ≠ some .ready ∧ (recordHead (record 1 5 0 0)).link = 0 ∧
      (recordHead (record 1 5 1 64)).kind = some .override ∧ (recordHead (record 1 5 1 64)).endFlag = true ∧
      accessOk (stateWriteReq 3968 .taken) (v .parked (record 1 5 1 64)).window = true ∧
      (recordHead (record 1 1 0 0)).kind = some .frame ∧ (v .parked []).frame.offset = 3968 ∧
      accessOk (completionReq 128 [1, 5, 0, 0]) (v .parked []).window = true ∧
      (recordHead (record 1 4 0 0)).kind = some .ret ∧ (recordHead (record 1 9 0 0)).kind = none ∧
      offsetOk (recordHead (record 1 2 0 65)).link (v .parked []).window = false) := by decide

theorem witness_LookAheadGathersDerivedRecords_ended :
    let fr : FrameRecord := { offset := 3968, endFlag := false, notify := false, fields := {} }
    let s (d : List Byte) : State := withJob (.recordRead .lookAhead 64) true d
      { st .parked with chain := { group := { frame := some fr, readCount := 63 } } }
    endsByCommand (s (record 0 1 0 0)) = true ∧ endsByCommand (s (record 1 1 0 0)) = true ∧
      endsByCommand (s (record 1 2 1 0)) = true ∧ endsByCommand (s (record 1 2 0 3968)) = true ∧
      64 ≤ (s []).chain.group.readCount + 1 ∧
      endsByCommand (s ((record 1 3 0 0).take 16 ++ leBytes 4 3968 ++ zeroBytes 108)) = true := by decide

/-- R100, R134: every completion section of an unterminated group is written before any of its state words, the FRAME's
after those of the main-chain list. -/
theorem test_unterminated_writes :
    (unterminatedWrites 3968 [{ offset := 128, kind := .derived, endFlag := false, notify := false },
        { offset := 256, kind := .override, endFlag := false, notify := false }]).map
        (fun w => (w.1, w.2.offset, w.2.data.map (List.take 4))) =
      [(128, 140, some [1, 5, 0, 0]), (256, 268, some [1, 0, 0, 0]), (3968, 3980, some [1, 1, 0, 0]),
        (128, 128, some [5, 0, 0, 0]), (256, 256, some [5, 0, 0, 0]), (3968, 3968, some [5, 0, 0, 0])] := by decide

theorem witness_SubchainRecords :
    let v (n : Nat) (stack : List Nat) (ok : Bool) (d : List Byte) : State :=
      withJob (.recordRead .subchain 64) ok d (assembling n stack)
    let s (d : List Byte) : State := v 62 [128, 3968] true d
    let c (target : Nat) : List Byte := (record 6 3 0 0).take 16 ++ leBytes 4 target ++ zeroBytes 108
    (s []).ControllerFree ∧ (s []).lookMustEnd = false ∧ (v 0 [128] false []).ControllerFree ∧
      (recordHead (record 1 5 0 0)).state ≠ some .standing ∧
      ((recordHead (record 6 9 0 0)).state = some .standing ∧ (recordHead (record 6 9 0 0)).kind = none) ∧
      ((recordHead (record 6 1 0 0)).state = some .standing ∧
        (recordHead (record 6 1 0 0)).kind = some .frame) ∧
      ((recordHead (record 6 5 0 64)).kind = some .override ∧
        offsetOk (recordHead (record 6 5 0 64)).link (s []).window = true ∧
        (s []).chain.group.readCount + 1 < 64 ∧ 64 ≤ (v 63 [128] true []).chain.group.readCount + 1) ∧
      ((recordHead (record 6 2 0 0)).link = 0 ∧ (recordHead (record 6 2 0 65)).kind = some .derived ∧
        offsetOk (recordHead (record 6 2 0 65)).link (s []).window = false) ∧
      ((recordHead (record 6 4 0 0)).kind = some .ret ∧ (s []).chain.returnStack.getLast? = some 3968 ∧
        (s []).chain.returnStack ≠ [3968] ∧ accessOk (recordReadReq 3968) (s []).window = true) ∧
      ((recordHead (c 3968)).kind = some .call ∧ callTarget (c 3968) ≠ 0 ∧ callTarget (c 0) = 0 ∧
        offsetOk (callTarget (c 65)) (s []).window = false ∧ offsetOk (callTarget (c 3968)) (s []).window = true ∧
        4 ≤ (v 62 [1, 2, 3, 4] true []).chain.returnStack.length ∧
        (v 62 [1, 2, 3] true []).chain.returnStack.length < 4) ∧
      (let m : MainRecord := { offset := 3968, kind := .call, endFlag := true, notify := false }
       let fr : FrameRecord := { offset := 1024, endFlag := false, notify := false, fields := {} }
       let e (x : EngineState) : State := withJob (.recordRead .subchain 64) true (record 6 4 0 0)
         { st x with chain := { group := { frame := some fr, mainList := [m] }, returnStack := [3968] } }
       (e .parked).ControllerFree ∧ (e .working).ControllerFree ∧ (e .working).lookMustEnd = false ∧
         (e .parked).chain.returnStack = [3968] ∧ (e .working).chain.group.mainList.getLast? = some m ∧
         m.endFlag = true ∧ accessOk (stateWriteReq (e .parked).frame.offset .taken) (e .parked).window = true) := by
  decide

theorem witness_SubchainRecords_ended :
    let s (n : Nat) (d : List Byte) : State := withJob (.recordRead .subchain 64) true d (assembling n [3968])
    endsByCommand (s 63 (record 6 5 0 64)) = true ∧ endsByCommand (s 62 (record 6 2 0 64)) = true ∧
      endsByCommand (s 62 ((record 6 3 0 0).take 16 ++ leBytes 4 3968 ++ zeroBytes 108)) = true ∧
      endsByCommand (s 62 (record 6 4 0 0)) = true ∧ (s 62 []).chain.returnStack = [3968] := by decide

theorem witness_ReturnedCallsGoOn_ended :
    let s (n : Nat) (d : List Byte) : State := withJob (.recordRead .callReread 64) true d (assembling n [])
    endsByCommand (s 62 (record 1 3 0 3968)) = true ∧ endsByCommand (s 63 (record 1 3 0 3968)) = true ∧
      endsByCommand (s 62 (record 1 3 0 0)) = true := by decide

theorem witness_ReturnedCallsGoOn :
    let s (n : Nat) (l : List Nat) (ok : Bool) (d : List Byte) : State :=
      withJob (.recordRead .callReread 64) ok d (assembling n l)
    (s 0 [] false []).ControllerFree ∧
    ((s 62 [] true (record 1 3 0 3968)).ControllerFree ∧ (recordHead (record 1 3 0 3968)).link ≠ 0 ∧
      offsetOk (recordHead (record 1 3 0 3968)).link (s 62 [] true []).window = true ∧
      offsetOk (recordHead (record 1 3 0 4032)).link (s 62 [] true []).window = false ∧
      (s 62 [] true []).chain.group.readCount + 1 < 64 ∧ 64 ≤ (s 63 [] true []).chain.group.readCount + 1) ∧
    ((s 62 [64] true (record 6 3 0 0)).chain.returnStack ≠ [] ∧ (recordHead (record 6 3 0 0)).link = 0) ∧
    ((s 62 [] true (record 1 3 0 0)).chain.returnStack = [] ∧ (s 62 [] true []).lookMustEnd = false) ∧
    (let w : State := { s 62 [] true (record 1 3 0 0) with
       ec := { engine := .working, cursor := 3968, wakePending := true } }
     w.ControllerFree ∧ w.lookMustEnd = false ∧ accessOk (recordReadReq w.ec.cursor) w.window = true) := by decide

/-- A frame of 64 × 64 pixels in and out that passes every check in a window of 1 MiB. -/
def goodFrame : FrameRecord where
  offset := 1024
  endFlag := true
  notify := false
  fields :=
    { srcOffset := 65536, srcPitch := 384, srcW := 64, srcH := 64, outOffset := 131072, outPitch := 192
      outW := 64, outH := 64, depth := 8, edge := 1, scan := 1, dither := 1, strength := 256 }

/-- The group of that frame in flight, with the board at 4096 and a directory of one entry at 8192. -/
def flying : State :=
  { State.reset with
    reg := { winSize := 256 }
    ec := { engine := .working, cfg := { rn := 64, boardOffset := 4096, dirLength := 1, dirOffset := 8192
                                         staleLimit := 1, holdLimit := 1, settleMode := 2 } }
    chain := { group := { frame := some goodFrame }, flight := { inFlight := true } } }

theorem witness_ValidFrameReadsTheBoard :
    let s (o : Override) : State := withJob (.recordWrite .taken 1024) true []
      { flying with chain := { flying.chain with override := o } }
    (s {}).PortSettled ∧ (s {}).chain.flight.takenTodo = [] ∧ (s {}).chain.group.frame = some goodFrame ∧
      validateFrame goodFrame.fields (s {}).window = none ∧ (s {}).chain.override.lens = none ∧
      accessOk (lensReadReq .boardHeaderRead (s {}).ec.cfg.boardOffset 8) (s {}).window = true ∧
      (s { lens := some 0, zoom := some 700 }).chain.override.focus = none ∧
      (s { lens := some 0, zoom := some 700, focus := some 65535 }).chain.override.focus = some 65535 ∧
    (let v (w : Word) (f : FrameFields) (todo : List Nat) (held : List HeldSlot) : State :=
       withJob (.recordWrite .taken 1024) false []
       { flying with
         reg := { winSize := w }
         pools := { heldSlots := held }
         chain := { group := { frame := some { goodFrame with fields := f } }
                    flight := { inFlight := true, takenTodo := todo } } }
     let g := goodFrame.fields
     validateFrame { g with srcW := 63 } (v 256 g [] []).window = some .format ∧
      (v 256 g [] []).pools.heldSlots = [] ∧ validateFrame g (v 16 g [] []).window = some .window ∧
      (v 256 g [2048] []).chain.flight.takenTodo = [2048] ∧
      accessOk (stateWriteReq 2048 .taken) (v 256 g [2048] []).window = true) := by decide

/-- R60, R62, R63: a full override needs no board read: with identifier 0 the frame is UNKNOWN_LENS and the build
begins, and with another one its lens is looked up and its load begins with the directory. -/
theorem test_full_override :
    let s (lens : Nat) : State := withJob (.recordWrite .taken 1024) true []
      { flying with chain := { flying.chain with override :=
          { lens := some lens, zoom := some 700, focus := some 65535 } } }
    (match exec .chainRecordWriteDone (s 0), exec .chainRecordWriteDone (s 0xA1) with
      | .next t, .next u => decide (
          t.work = none ∧ t.chain.flight.used.flags.unknownLens = true ∧ t.chain.flight.used.focus = 4095 ∧
          t.chain.flight.building = true ∧ t.chain.flight.strength = 0 ∧
          u.work = some { job := .load .e0 0xA1 (.directory 0) } ∧
          (u.port.inFlight.map fun a => (a.req.offset, a.req.length)) = some (8192, 8))
      | _, _ => false) = true := by decide

/-- What a measured state writes there, whatever it is, is legal in the windows above. -/
theorem witness_ValidFrameReadsTheBoard_completion (t : State) :
    accessOk (completionReq goodFrame.offset (frameCompletion t)) (16 * 4096) = true := by
  simp [accessOk, completionReq, AccessKind.alignment, goodFrame]

/-- R111: a frame of the smallest and of the largest sizes passes in the widest window, one pixel less or more does
not, and FORMAT comes before WINDOW. -/
theorem test_frame_sizes :
    let f (w h : Nat) : FrameFields := { goodFrame.fields with
      srcW := w, srcH := h, srcPitch := 49152, outW := w, outH := h, outPitch := 24576 }
    [f 64 64, f 8192 6144, f 8193 64, f 63 64, f 64 6145].map (fun f => validateFrame f 4294967296) =
        [none, none, some .format, some .format, some .format] ∧
      validateFrame (f 63 64) 0 = some .format ∧ validateFrame (f 64 64) 0 = some .window := by decide

theorem witness_RetirementAdvancesTheCounts :
    (withJob (.retire [] true) false [] flying).ControllerFree := by decide

/-! ### Witnesses: the frame -/

/-- A board slot: lens 0xA1 at zoom 700, focus 400, stamped 0, valid. -/
def slot (seq : Nat) : List Byte :=
  leBytes 4 seq ++ leBytes 4 0 ++ leBytes 4 0xA1 ++ leBytes 2 700 ++ leBytes 2 400 ++ leBytes 4 1 ++ zeroBytes 4

/-- A board read that has ended with lens 0xA1 settled by it, with a cache, a directory length and an ABORT pending or
not. -/
def looking (c : Cache) (dir : Nat) (abort : Bool) : State :=
  { withJob (.boardPrevious []) true (slot 9 ++ slot 8) flying with
    cache := c
    ec := { flying.ec with abortReq := abort, cfg := { flying.ec.cfg with dirLength := dir } } }

theorem witness_BoardReadDecidesAndLoads :
    let s := looking {} 1 false
    let d (data : List Byte) := decideFromBoard s.ec.cfg 0 s.lens (boardSlots true data) s.chain.flight.override
    let held (e : EntryState) : Cache := { e1 := { state := e, lens := some 0xA1, copy := some {} } }
    s.PortSettled ∧ (d (slot 9 ++ slot 8)).frame.flags.unknownLens = false ∧
      (d (slot 9 ++ slot 8)).frame.lens = some 0xA1 ∧ (d (zeroBytes 48)).frame.flags.unknownLens = true ∧
      (held .ready).find 0xA1 = some .e1 ∧ ((held .ready).get .e1).copy = some {} ∧
      (held .invalid).find 0xA1 = some .e1 ∧ ((held .invalid).get .e1).state = .invalid ∧
      s.cache.find 0xA1 = none ∧ (looking {} 1 true).ec.abortReq = true ∧ s.ec.abortReq = false ∧
      (looking {} 0 false).ec.cfg.dirLength = 0 ∧ s.ec.cfg.dirLength ≠ 0 ∧
      accessOk (directoryReq s.ec.cfg 0) s.window = true := by decide

theorem witness_BoardReadDecidesAndLoads_reads :
    let slotRead (k : Nat) : Request := lensReadReq .boardSlotRead (4096 + (8 + 24 * k)) 24
    let h (attempts : Nat) : State :=
      asking flying .boardHeader (lensReadReq .boardHeaderRead 4096 8) attempts [(4096, 15)]
    (h 1).port.inFlight = some (onBus (lensReadReq .boardHeaderRead 4096 8) 1) ∧ (h 1).OnTime ∧
      (slotRead 7).block = .lensStateUnit ∧ (slotRead 7).data = none ∧ (h 1).port.requests = [] ∧
      7 = ((memRead (memLand (h 1).dram []) 4096 8).getD 0 0).toNat % 8 ∧
      accessOk (slotRead 7) (h 1).window = true ∧ accessOk (slotRead 0) (h 1).window = true ∧
      (h 4).port.retryCount < 4 ∧ ¬({ h 4 with reg := { time := 2048 } } : State).OnTime ∧
      (asking flying (.boardNewest 0) (slotRead 0) 1 []).work = some { job := .boardNewest 0 } ∧
      (asking flying (.boardPrevious (slot 9)) (slotRead 7) 1 []).port.inFlight = some (onBus (slotRead 7) 1) ∧
      (slot 9).length = 24 := by decide

/-- R48: the header's newest index is taken modulo 8, and slot 7 comes before slot 0. -/
theorem test_board_slots_read :
    let out (s : State) : Option (Option Job × Option Nat) :=
      match exec (.memoryAttemptAnswer .succeeded []) s with
      | .next t => some (t.work.map Work.job, t.port.inFlight.map fun a => a.req.offset)
      | _ => none
    out (asking flying .boardHeader (lensReadReq .boardHeaderRead 4096 8) 1 [(4096, 15)]) =
        some (some (.boardNewest 7), some 4272) ∧
      out (asking flying (.boardNewest 0) (lensReadReq .boardSlotRead 4104 24) 1 []) =
        some (some (.boardPrevious (zeroBytes 24)), some 4272) := by decide

/-- R35, R36, R38, R40: what a lookup comes to: an INVALID entry serves the frame as UNKNOWN_LENS and a READY one from
its copy; a miss under an ABORT faults the frame, with an empty directory it ends at once, and else the victim holds
the identifier alone. -/
theorem test_lookup :
    let p : Profile := { zooms := [700], foci := [400], nodes := [{ k1 := 5 }] }
    let held (e : EntryState) : Cache := { e1 := { state := e, lens := some 0xA1, copy := some p } }
    let out (s : State) (f : State → Bool) : Bool :=
      match exec .boardReadDone s with | .next t => f t | _ => false
    out (looking (held .ready) 1 false) (fun t => decide (t.cache.lastServed = some .e1 ∧
        t.chain.flight.coeffs.k1 = 5 ∧ t.chain.flight.used.flags.unknownLens = false)) = true ∧
      out (looking (held .invalid) 1 false) (fun t => decide (t.cache.lastServed = some .e1 ∧
        t.chain.flight.coeffs.k1 = 0 ∧ t.chain.flight.used.flags.unknownLens = true)) = true ∧
      out (looking {} 1 true) (fun t => decide (t.chain.flight.fault = some .aborted ∧ t.cache = {})) = true ∧
      out (looking {} 0 false) (fun t => decide ((t.work.map fun w => (w.ended, w.ok)) = some (true, false))) = true ∧
      out (looking {} 1 false) (fun t => decide (t.cache.lastServed = none ∧
        t.cache.e0 = { state := .loading, lens := some 0xA1, copy := some {} })) = true := by decide

theorem witness_BoardDecisionByAge :
    let n (t : Word) : LensSample := { seq := 1, stamp := t, lens := 5, zoom := 1, focus := 2, valid := true }
    let cfg : ConfigCopy := { staleLimit := 1, holdLimit := 2, settleMode := 2 }
    usable 0 (n 2147483648) = true ∧ usable 3000 (n 2000) = true ∧ usable 3000 (n 1000) = true ∧
      cfg.staleLimit * 1000 < ((3000 : Word) - 1999).toNat ∧
      ((3000 : Word) - 1000).toNat ≤ cfg.holdLimit * 1000 ∧
      ((⟨4294967295, 1000, 5, 1, 2, true⟩ : LensSample).seq + 1) % 4294967296 = 0 ∧
      (⟨7, 1000, 5, 1, 2, true⟩ : LensSample).seq + 1 ≠ (n 1000).seq ∧
      max cfg.staleLimit cfg.holdLimit * 1000 < ((3000 : Word) - 999).toNat ∧
    (let p (zoom : Nat) : LensSample := { n 2000 with seq := 0, zoom := zoom }
     let wide : ConfigCopy := { cfg with settleMode := 1, zoomTol := 4095, focusTol := 4095 }
     ((p 4096).seq + 1) % 4294967296 = (n 2000).seq ∧ (p 4096).zoom ≤ (n 2000).zoom + wide.zoomTol ∧
      ¬(p 4097).zoom ≤ (n 2000).zoom + wide.zoomTol ∧ (p 4097).focus ≤ (n 2000).focus + wide.focusTol) ∧
    (let off : LensSample := { n 0 with valid := false }
     usable 0 (n 2147483647) = false ∧ usable 5 off = false ∧ usable 5 (n 0) = true) := by decide

/-- R53, R54: slot P stands in for a slot N from the future, and with no usable sample the settled lens is held. -/
theorem test_slot_p_stands_in :
    let x (t : Word) (lens : Nat) : LensSample :=
      { seq := 1, stamp := t, lens := lens, zoom := 1, focus := 2, valid := true }
    let b (p : LensSample) := boardStep { staleLimit := 1, holdLimit := 2, settleMode := 1 } 3000
      { settledLens := some 5, settledZoom := some 7, settledFocus := some 8 } (some (x 3001 9, p))
    (b (x 2500 9)).unit.settledLens = some 9 ∧ (b (x 2500 5)).frame.flags.moving = true ∧
      (b (x 3001 5)).frame.flags = { hold := true } ∧ (b (x 3001 5)).frame.zoom = some 7 := by decide

theorem witness_LoadEndsReadyOrInvalid :
    let s (ok abort : Bool) : State := withJob (.load .e0 0xA1 (.directory 0)) ok []
      { flying with
        ec := { flying.ec with abortReq := abort }
        cache := { e0 := { state := .loading, lens := some 0xA1, copy := some {} } } }
    (s true false).PortSettled ∧
      (s true false).cache.get .e0 = { state := .loading, lens := some 0xA1, copy := some {} } ∧
      (s false false).ec.abortReq = false ∧ (s true true).ec.abortReq = true ∧
      (s false true).pools.heldSlots = [] ∧ (s false false).chain.group.entries = [] ∧
      accessOk (poolReadReq .poolTableRead ((s false false).ec.cfg.poolTable + 4 * 0) 4)
        (s false false).window = true := by decide

/-- A profile's header at 16384: lens 0xA1, two zoom and two focus stops, and its rest node. -/
def header : List Host.Cell :=
  [(16384, 0xA1), (16388, 2), (16389, 2), (16390, 1), (16392, 0xBC), (16393, 2), (16394, 0xD0), (16395, 7),
    (16424, 0x90), (16425, 1), (16426, 0x10), (16427, 0x0E)]

/-- A read of the Resolver on the bus, in the load of lens 0xA1 into E0. -/
def loading (stage : LoadStage) (r : Request) (abort : Bool) (dirLength attempts : Nat) (m : List Host.Cell) : State :=
  asking
    { flying with
      cache := { e0 := { state := .loading, lens := some 0xA1, copy := some {} } }
      ec := { flying.ec with abortReq := abort, cfg := { flying.ec.cfg with dirLength := dirLength } } }
    (.load .e0 0xA1 stage) r attempts m

theorem witness_LoadEndsReadyOrInvalid_directory :
    let r (n : Nat) : Request := resolverReadReq .directoryRead (8192 + 8 * n) 8
    let s (dirLength : Nat) (abort : Bool) := loading (.directory 0) (r 0) abort dirLength 1
    let b (m : List Host.Cell) := memRead (memLand m []) 8192 8
    (s 1 false []).port.inFlight = some (onBus (r 0) 1) ∧ (s 1 false []).OnTime ∧ (r 0).block = .resolver ∧
      (r 0).data = none ∧ (s 1 false []).port.requests = [] ∧ (s 1 false []).ec.abortReq = false ∧
      (s 1 false []).cache.get .e0 = { state := .loading, lens := some 0xA1, copy := some {} } ∧
      (s 1 true []).ec.abortReq = true ∧ (loading (.directory 0) (r 0) false 1 4 []).port.retryCount < 4 ∧
      (field (b [(8192, 0xA1), (8197, 64)]) 0 4 = 0xA1 ∧ field (b [(8192, 0xA1), (8197, 64)]) 4 4 = 16384 ∧
        16384 % 64 = 0 ∧ 16384 + 64 ≤ (s 1 false []).window) ∧
      (field (b [(8192, 0xA1), (8196, 1)]) 0 4 = 0xA1 ∧ field (b [(8192, 0xA1), (8196, 1)]) 4 4 % 64 ≠ 0) ∧
      field (b []) 0 4 ≠ 0xA1 ∧ 0 + 1 < (s 2 false []).ec.cfg.dirLength ∧ (s 1 false []).ec.cfg.dirLength ≤ 0 + 1 ∧
      accessOk (r 1) (s 2 false []).window = true := by decide

theorem witness_LoadEndsReadyOrInvalid_header :
    let s := loading (.header 16384) (resolverReadReq .profileHeaderRead 16384 64) false 1 1
    let b := memRead (memLand (s header).dram []) 16384 64
    let zoom (k : Nat) : Nat := field b (0x08 + 2 * k) 2
    let focus (k : Nat) : Nat := field b (0x28 + 2 * k) 2
    (s header).work = some { job := .load .e0 0xA1 (.header 16384) } ∧ 16384 % 64 = 0 ∧
      field b 0 4 = 0xA1 ∧ (field b 4 1 = 2 ∧ field b 5 1 = 2 ∧ field b 6 1 < 2 ∧ field b 7 1 < 2) ∧
      (∀ k, k < 1 → zoom k < zoom (k + 1)) ∧ (∀ k, k < 1 → focus k < focus (k + 1)) ∧
      (∀ k, k < 2 → focus k ≤ 4095) ∧ 16384 + 64 + 32 * 2 * 2 ≤ (s header).window ∧
      field (memRead (memLand header [(16388, 17)]) 16384 64) 4 1 = 17 := by decide

theorem witness_LoadEndsReadyOrInvalid_nodes :
    let r (k : Nat) : Request := resolverReadReq .profileNodeRead (16384 + 64 + 32 * k) 32
    let s (count : Nat) (abort : Bool) := loading (.node 16384 0 count) (r 0) abort 1 1 []
    (s 2 false).work = some { job := .load .e0 0xA1 (.node 16384 0 2) } ∧ 0 + 1 < 2 ∧ 1 ≤ 0 + 1 ∧
      (s 1 false).work = some { job := .load .e0 0xA1 (.node 16384 0 1) } ∧ (s 2 true).ec.abortReq = true ∧
      accessOk (r 1) (s 2 false).window = true := by decide

/-- R28, R31, R37: a directory entry leads to its header, a header that passes to the first node, one with 17 zoom
stops ends the load, and the last node ends it well. -/
theorem test_load_reads :
    let out (s : State) : Option Job × Option Bool × Option Nat :=
      match exec (.memoryAttemptAnswer .succeeded []) s with
      | .next t => (t.work.map Work.job, t.work.map Work.ok, t.port.inFlight.map fun a => a.req.offset)
      | _ => (none, none, none)
    let h := resolverReadReq .profileHeaderRead 16384 64
    out (loading (.directory 0) (resolverReadReq .directoryRead 8192 8) false 1 1 [(8192, 0xA1), (8197, 64)]) =
        (some (.load .e0 0xA1 (.header 16384)), some false, some 16384) ∧
      out (loading (.header 16384) h false 1 1 header) =
        (some (.load .e0 0xA1 (.node 16384 0 4)), some false, some 16448) ∧
      out (loading (.header 16384) h false 1 1 (memLand header [(16388, 17)])) =
        (some (.load .e0 0xA1 (.header 16384)), some false, none) ∧
      out (loading (.node 16384 3 4) (resolverReadReq .profileNodeRead 16544 32) false 1 1 []) =
        (some (.load .e0 0xA1 (.node 16384 3 4)), some true, none) := by decide

/-- R116 to R119, R122: the results of entries that need no pool, of one that does, and the CLIPPED warning, for a
frame with UNKNOWN_LENS (bit 4) taken under relief with one pool. -/
theorem test_judging :
    let d : DerivedFields := { kind := 1, sense := 1, mask := 16, factor := 2 }
    let r : DerivedFields := { kind := 2, sense := 2, mask := 15, rx := 32, ry := 0, rw := 33, rh := 64 }
    let e (f : DerivedFields) : DerivedEntry := { offset := 0, fields := f, mainChain := true }
    let s : State := withJob (.load .e0 0xA1 (.directory 0)) false []
      { flying with
        cache := { e0 := { state := .loading, lens := some 0xA1, copy := some {} } }
        pace := { reliefForTake := true }
        ec := { flying.ec with cfg := { flying.ec.cfg with poolCount := 1, poolTable := 16 } }
        chain := { flying.chain with group := { frame := some goodFrame, entries :=
          [e { d with factor := 3 }, e { d with mask := 128 }, e { d with yields := true }, e r] } } }
    (match exec .profileLoadDone s with
      | .next t => decide (
          (t.chain.group.entries.map fun e => (e.result, e.clipped)) =
            [(some (.faulted .format), false), (some .skippedCondition, false), (some .skippedRelief, false),
              (none, true)] ∧
          t.chain.flight.judging = true ∧ t.work.map Work.job = some (.poolTable 3))
      | _ => false) = true := by decide

/-- A pool of depth 8 with one slot at 262144 in the state given, last filled 0. -/
def onePool : PoolView :=
  { desc := 16384, slotCount := 1, depth := 8, slotSize := 6144, lastFilled := 0, dropCount := 4294967295, slots := [] }

theorem witness_PoolGivesASlotOrCountsADrop :
    let data (place state : Nat) : List Byte := leBytes 4 place ++ leBytes 4 state ++ zeroBytes 8
    let v (j : Job) (ok : Bool) (d : List Byte) : State := withJob j ok d
      { flying with chain := { flying.chain with group :=
          { frame := some goodFrame
            entries := [{ offset := 0, fields := { kind := 1, factor := 2 }, mainChain := true }] } } }
    let s : State := v (.poolSlots 0 onePool) true (data 262144 0)
    let q (place state : Nat) : PoolView := { onePool with slots := slotEntries 1 (data place state) }
    let size := imageSize (s.entryFields 0) s.frame.fields
    s.PortSettled ∧ derivedPitch size.1 8 * size.2 ≤ onePool.slotSize ∧
      ({ onePool with slotSize := 4095 } : PoolView).slotSize < derivedPitch size.1 8 * size.2 ∧
      (chooseSlot s.pools.heldSlots (s.entryFields 0).pool (q 262144 0) = some 0 ∧
        slotFit (slotFor s 0 (q 262144 0) 0) s.window = true ∧
        accessOk (poolWriteReq .slotWrite (16384 + 32 + 4) (leBytes 4 1)) s.window = true) ∧
      (chooseSlot s.pools.heldSlots (s.entryFields 0).pool (q 262145 0) = some 0 ∧
        slotFit (slotFor s 0 (q 262145 0) 0) s.window = false ∧
        slotFit (slotFor s 0 (q 1044480 0) 0) s.window = true ∧
        slotFit (slotFor s 0 (q 1044544 0) 0) s.window = false) ∧
      (chooseSlot s.pools.heldSlots (s.entryFields 0).pool (q 262144 1) = none ∧
        accessOk (poolWriteReq .poolWordWrite (16384 + 0x0C) (leBytes 4 4294967296)) s.window = true) ∧
      (v (.poolTable 0) false []).PortSettled ∧ (v (.poolHeader 0 16384) false []).PortSettled ∧
      (v (.poolSlots 0 onePool) false []).PortSettled := by decide

theorem witness_PoolGivesASlotOrCountsADrop_reads :
    let s := asking flying
    let table : State := s (.poolTable 0) (poolReadReq .poolTableRead 16 4) 1 [(17, 64)]
    let header : State := s (.poolHeader 0 16384) (poolReadReq .poolHeaderRead 16384 32) 1 [(16384, 16), (16385, 8)]
    table.port.inFlight = some (onBus (poolReadReq .poolTableRead 16 4) 1) ∧ table.OnTime ∧
      (poolReadReq .poolTableRead 16 4).block = .poolManager ∧ (poolReadReq .poolTableRead 16 4).data = none ∧
      table.port.requests = [] ∧
      field (memRead (memLand table.dram []) 16 4) 0 4 = 16384 ∧ 16384 % 64 = 0 ∧ 16384 + 32 ≤ table.window ∧
      field (memRead (memLand table.dram [(18, 255)]) 16 4) 0 4 + 32 > table.window ∧
      field (memRead (memLand header.dram []) 16384 32) 0 1 = 16 ∧
      field (memRead (memLand header.dram []) 16384 32) 1 1 = 8 ∧ 16384 + 32 + 16 * 16 ≤ header.window ∧
      field (memRead (memLand header.dram [(16384, 17)]) 16384 32) 0 1 = 17 ∧
      (s (.poolSlots 0 onePool) (poolReadReq .slotEntriesRead 16416 16) 1 []).work =
        some { job := .poolSlots 0 onePool } ∧
      (s (.poolTable 0) (poolReadReq .poolTableRead 16 4) 4 []).port.retryCount < 4 ∧
    (let late : State := s (.poolTable 0) (poolReadReq .poolTableRead 16 4) 4 []
     late.OnTime ∧ ¬({ late with reg := { late.reg with time := 2048 } } : State).OnTime ∧
      late.work = some { job := .poolTable 0 }) := by decide

theorem witness_ChosenSlotIsTheFirstFree :
    chooseSlot [{ entry := 0, pool := 3, slot := 1, offset := 0, depth := 8, width := 1, height := 1, pitch := 64
                  desc := 64 }] 3
      { onePool with slotCount := 3, slots := [(64, 0), (128, 0), (192, 1)] } = some 0 := by decide

/-- A slot of pool 0 held for entry `k`. -/
def heldSlot (k : Nat) : HeldSlot :=
  { entry := k, pool := 0, slot := k, offset := 262144, depth := 8, width := 32, height := 32, pitch := 128
    desc := 16384 }

/-- Two RAWCOPY entries with their slots held. -/
def copying : State :=
  { flying with
    pools := { heldSlots := [heldSlot 0, heldSlot 1] }
    chain := { flying.chain with group :=
      { frame := some goodFrame
        entries := [{ offset := 0, fields := { kind := 3, rw := 32, rh := 32 }, mainChain := true },
                    { offset := 0, fields := { kind := 3, rw := 32, rh := 32 }, mainChain := true }] } } }

theorem witness_LastEntryIsJudged :
    let s (j : Job) (ok building : Bool) : State := withJob j ok []
      { copying with
        ec := { flying.ec with cfg := { flying.ec.cfg with poolCount := 1, poolTable := 16 } }
        pools := {}
        chain := { copying.chain with flight := { inFlight := true, building := building, judging := true } } }
    let v := s (.slotBusy (heldSlot 0)) true true
    v.PortSettled ∧ (s (.dropCount 1) true true).chain.flight.building = true ∧
      (s (.dropCount 1) false false).chain.flight.building = false ∧ (heldSlot 0).entry = 0 ∧
      v.chain.group.entries.drop 2 = [] ∧ (v.chain.group.entries.drop 1).length = 1 ∧
      ((v.chain.group.entries[1]?).map fun e => v.judgedWithoutPool { e.fields with sense := 2 }) = some none ∧
      ((v.chain.group.entries[1]?).map fun e => v.judgedWithoutPool e.fields) = some (some (.faulted .format)) ∧
      accessOk (poolReadReq .poolTableRead (v.ec.cfg.poolTable + 4 * 0) 4) v.window = true := by decide

theorem witness_BuildReplacesTheTables :
    let s (judging abort : Bool) (strength : Nat) : State :=
      { flying with
        ec := { flying.ec with abortReq := abort }
        chain := { flying.chain with
          flight := { inFlight := true, building := true, judging := judging, strength := strength } } }
    (s true false 256).PortSettled ∧ (s false false 0).chain.flight.building = true ∧
      (s false false 0).chain.flight.judging = false ∧ (s false false 0).chain.flight.inFlight = true ∧
      (s false false 0).ec.abortReq = false ∧ (s false true 0).ec.abortReq = true ∧
      (s false false 0).chain.flight.strength = 0 ∧ 0 < (s false false 256).tileInHand.height ∧
      rndDiv 5 10 = 1 ∧ rndDiv (-5) 10 = -1 ∧ rndDiv 4 10 = 0 := by decide

theorem witness_SampledTileIsWritten :
    let v : Serving := { rect := ⟨0, 0, 64, 32⟩, box := ⟨0, 0, 65, 33⟩, overspan := false }
    let s (ok abort : Bool) (rest : List Rect) : State := withJob (.rows 0) ok []
      { flying with ec := { flying.ec with abortReq := abort }, tile := { serving := some v, subTiles := rest } }
    (s true false []).PortSettled ∧ (s true false []).tile.serving = some v ∧
      (s true false []).tile.subTiles = [] ∧ 0 < (s true false []).tileInHand.height ∧
      (s true true [⟨32, 0, 32, 32⟩]).tile.subTiles ≠ [] ∧ (s true true []).ec.abortReq = true ∧
      (s false false []).pools.heldSlots = [] ∧
      outputRows (s true false []).frame.fields (s true false []).tileInHand [] ≠ [] ∧
    (let a (row : Nat) : Access :=
       { req := sourceReadReq .tilePassUnit (65536 + row * 384) 390, address := 65536 + row * 384, attempts := 1
         phase := .attempt }
     let r (row : Nat) : State := withAccess (a row)
       { flying with work := some { job := .rows row }, tile := { serving := some v } }
     (r 31).port.inFlight = some (a 31) ∧ (r 31).OnTime ∧ (a 31).req.block = .tilePassUnit ∧
      (a 31).req.data = none ∧ (r 31).port.requests = [] ∧ (r 31).work = some { job := .rows 31 } ∧
      31 + 1 < v.box.height ∧ v.box.height ≤ 32 + 1 ∧
      accessOk (sourceReadReq .tilePassUnit (65536 + (0 + (31 + 1)) * 384 + 6 * 0) (6 * 65)) (r 31).window =
        true ∧
      (let late : State := withAccess { a 31 with attempts := 4 }
         { flying with work := some { job := .rows 31 }, tile := { serving := some v } }
       late.OnTime ∧ ¬({ late with reg := { late.reg with time := 2048 } } : State).OnTime ∧
        late.port.retryCount < 4 ∧ late.port.requests = [])) := by decide

/-- A part at the lower right of the second tile of a frame of 66 by 34 pixels. -/
theorem witness_SampledTileIsWritten_parts :
    let s : State := { flying with
      chain := { flying.chain with group := { frame := some { goodFrame with fields :=
        { goodFrame.fields with outW := 66, outH := 34 } } } }
      tile := { row := 1, col := 1 } }
    let tile := s.tileInHand
    let part : Rect := ⟨65, 33, 1, 1⟩
    let p (fill : Bool) : PixelPos := { fill := fill, r := ⟨16, 32⟩, g := ⟨17, 31⟩, b := ⟨0, 32⟩ }
    tile = ⟨64, 32, 2, 2⟩ ∧ (List.replicate 4 (p false)).length = tile.width * tile.height ∧
      (List.replicate 4 ({} : Sample)).length = tile.width * tile.height ∧ tile.left ≤ part.left ∧
      part.left + part.width ≤ tile.left + tile.width ∧ tile.top ≤ part.top ∧
      part.top + part.height ≤ tile.top + tile.height ∧ rectSlice tile part [1, 2, 3, 4] = [4] ∧
      footprint [p true] = {} ∧ footprint [p true, p false] = ⟨0, 1, 3, 2⟩ := by decide

/-- R82, R70, R72: what follows a sub-tile that is not the tile's last: an ABORT faults the frame, and else the next is
served with its first row read. -/
theorem test_next_sub_tile :
    let v : Serving := { rect := ⟨0, 0, 1, 1⟩, box := {}, overspan := false }
    let p : PixelPos := { fill := false, r := ⟨16, 32⟩, g := ⟨16, 32⟩, b := ⟨16, 32⟩ }
    let s (abort : Bool) : State := withJob (.rows 0) true []
      { flying with
        ec := { flying.ec with abortReq := abort }
        chain := { flying.chain with group := { frame := some { goodFrame with fields :=
          { goodFrame.fields with outW := 2, outH := 1 } } } }
        tile := { serving := some v, positions := [p, p], samples := [{}, {}], subTiles := [⟨1, 0, 1, 1⟩] } }
    (match exec .subtileRowsReadDone (s false), exec .subtileRowsReadDone (s true) with
      | .next t, .next u => decide (t.work = some { job := .rows 0 } ∧ t.tile.subTiles = [] ∧
          (t.port.inFlight.map fun a => (a.req.offset, a.req.length)) = some (65536 + 2 * 384 + 6, 6) ∧
          u.chain.flight.fault = some .aborted)
      | _, _ => false) = true := by decide

/-- R76, R78: the last sub-tile's first output row goes to the Port: one row of two pixels at depth 8. -/
theorem test_tile_is_written :
    let v : Serving := { rect := ⟨0, 0, 2, 1⟩, box := {}, overspan := false }
    let p : PixelPos := { fill := true, r := ⟨0, 0⟩, g := ⟨0, 0⟩, b := ⟨0, 0⟩ }
    let s : State := withJob (.rows 0) true []
      { flying with
        chain := { flying.chain with group := { frame := some { goodFrame with fields :=
          { goodFrame.fields with outW := 2, outH := 1, fillR := 1530, fillG := 4095, fillB := 8 } } } }
        tile := { serving := some v, positions := [p, p], samples := [{}, {}] } }
    (match exec .subtileRowsReadDone s with
      | .next t => decide ((t.port.inFlight.map fun a => (a.req.offset, a.req.data)) =
          some (131072, some [96, 255, 1, 96, 255, 1]))
      | _ => false) = true := by decide

theorem witness_TileRowsFollowInOrder :
    let r : RowWrite := { offset := 131072, bytes := [1, 2, 3] }
    let d : DerivedRow := { entry := 0, offset := 262144, bytes := [1] }
    let s (j : Job) (rows : List RowWrite) : State := withJob j true []
      { flying with writer := { outRows := rows, derivedRows := [d] } }
    (s .outRow [r]).PortSettled ∧
      (∀ h, h ∈ copying.pools.heldSlots → h.depth = 8 ∨ h.depth = 10 ∨ h.depth = 12) ∧
      accessOk (rowWriteReq .outputRowWrite r.offset r.bytes) (s .outRow [r]).window = true ∧
      accessOk (rowWriteReq .derivedRowWrite d.offset d.bytes) (s .outRow []).window = true ∧
      (s (.derivedRow 0) []).writer.derivedRows = [d] ∧
    (let last (w h row col : Nat) (abort ok : Bool) : State := withJob .outRow ok []
       { flying with
         ec := { flying.ec with abortReq := abort }
         chain := { flying.chain with group := { frame := some { goodFrame with fields :=
           { goodFrame.fields with outW := w, outH := h } } } }
         tile := { row := row, col := col } }
     (last 65 64 0 0 false true).writer.outRows = [] ∧ (last 65 64 0 0 false true).writer.derivedRows = [] ∧
      64 * (0 + 1) < (last 65 64 0 0 false true).frame.fields.outW ∧
      (last 64 64 0 0 false true).frame.fields.outW ≤ 64 * (0 + 1) ∧
      32 * (0 + 1) < (last 64 64 0 0 false true).frame.fields.outH ∧
      (last 64 64 1 0 false true).frame.fields.outH ≤ 32 * (1 + 1) ∧
      (last 64 64 1 0 true true).ec.abortReq = true ∧ (last 64 64 1 0 false true).pools.heldSlots = [] ∧
      (last 64 64 1 0 false false).PortSettled) := by decide

/-- R67, R82, R86, R129, R131, R81: after a tile's last row the first RAWCOPY row is read past the last tile, the frame
retires with no slot held, an ABORT faults it, and so does an output row write that failed. -/
theorem test_tile_end :
    let s (u : State) (abort ok : Bool) : State := withJob .outRow ok []
      { u with ec := { u.ec with abortReq := abort }, tile := { u.tile with row := 1 } }
    let out (v : State) : Option Job × Option FaultCode :=
      match exec .outputRowWriteDone v with
      | .next t => (t.work.map Work.job, t.chain.flight.fault)
      | _ => (none, none)
    let retires (o : Option Job × Option FaultCode) : Bool :=
      match o.1 with | some (.retire _ _) => true | _ => false
    out (s copying false true) = (some (.rawRead 0 0), none) ∧
      (retires (out (s flying false true)) = true ∧ (out (s flying false true)).2 = none) ∧
      out (s copying true true) = (some (.slotEmpty 0), some .aborted) ∧
      out (s copying false false) = (some (.slotEmpty 0), some .outputWrite) := by decide

theorem witness_DerivedWritesAndTheirFailures :
    let s (j : Job) (ok abort : Bool) : State := withJob j ok []
      { copying with ec := { copying.ec with abortReq := abort } }
    (s (.rawWrite 0 30) true false).PortSettled ∧
      (s (.rawWrite 0 30) true false).heldFor 0 = some (heldSlot 0) ∧
      accessOk (poolWriteReq .slotWrite (heldSlot 0).stateOffset (leBytes 4 0))
        (s (.derivedRow 0) false false).window = true ∧
      30 + 1 < (heldSlot 0).height ∧ (heldSlot 0).height ≤ 31 + 1 ∧
      (s (.rawWrite 0 30) true false).ec.abortReq = false ∧ (s (.rawWrite 0 30) true true).ec.abortReq = true ∧
      (s (.rawRead 0 0) false false).heldFor 0 = some (heldSlot 0) ∧
      accessOk (sourceReadReq .outputWriter (65536 + (0 + (30 + 1)) * 384 + 6 * 0) (32 * 6))
        (s (.rawWrite 0 30) true false).window = true ∧
      ((s (.slotEmpty 0) false false).chain.flight.fault = none ∧
        ((s (.slotEmpty 0) false false).entryFields 0).kind = 3 ∧
        (s (.slotEmpty 0) false false).pools.heldSlots = [heldSlot 0, heldSlot 1] ∧ 0 + 1 ≤ (heldSlot 1).entry ∧
        ((s (.slotEmpty 0) false false).entryFields 1).kind = 3 ∧
        accessOk (sourceReadReq .outputWriter (65536 + 0 * 384 + 6 * 0) (32 * 6))
          (s (.slotEmpty 0) false false).window = true) ∧
      (let d : DerivedRow := { entry := 1, offset := 262144, bytes := [1] }
       let v (rows : List DerivedRow) : State := withJob (.slotEmpty 0) true []
         { flying with
           pools := { heldSlots := [heldSlot 0] }, writer := { derivedRows := rows }
           chain := { flying.chain with group :=
             { frame := some goodFrame
               entries := [{ offset := 0, fields := { kind := 1, factor := 2 }, mainChain := true }] } } }
       (v [d]).heldFor 0 = some (heldSlot 0) ∧ ((v [d]).entryFields 0).kind ≠ 3 ∧
         (v [d]).writer.derivedRows = [d] ∧ (v []).writer.derivedRows = [] ∧
         accessOk (rowWriteReq .derivedRowWrite d.offset d.bytes) (v [d]).window = true) := by decide

theorem witness_DerivedWritesAndTheirFailures_answers :
    let w := rowWriteReq .derivedRowWrite 262144 [1, 2, 3]
    let r := sourceReadReq .outputWriter 65536 192
    let row := rowWriteReq .derivedRowWrite 262144 (zeroBytes 96)
    (asking copying .outRow w 1 []).port.inFlight = some (onBus w 1) ∧ (asking copying .outRow w 1 []).OnTime ∧
      w.block = .outputWriter ∧ w.data = some [1, 2, 3] ∧ (asking copying .outRow w 1 []).port.requests = [] ∧
      (asking copying (.derivedRow 0) w 4 []).port.retryCount < 4 ∧ memWf (asking copying .outRow w 4 []).dram = true ∧
      (asking copying (.rawWrite 0 0) w 1 []).work = some { job := .rawWrite 0 0 } ∧
      r.block = .outputWriter ∧ r.data = none ∧ (asking copying (.rawRead 0 0) r 1 []).heldFor 0 = some (heldSlot 0) ∧
      (heldSlot 0).depth = 8 ∧ accessOk row (asking copying (.rawRead 0 0) r 1 []).window = true ∧
      (asking copying (.rawRead 0 0) r 4 []).port.retryCount < 4 ∧
      ¬({ asking copying (.rawRead 0 0) r 4 [] with reg := { time := 2048 } } : State).OnTime := by decide

/-- R26, R74, R129: a RAWCOPY row is limited to 4095, rounded to depth 8 and written at its place, mirrored under
REVERSE. -/
theorem test_rawcopy_row :
    let s (scan : Nat) : State := asking
      { copying with
        pools := { heldSlots := [{ heldSlot 0 with width := 2, height := 2, pitch := 64 }] }
        chain := { copying.chain with group := { copying.chain.group with
          frame := some { goodFrame with fields := { goodFrame.fields with scan := scan } } } } }
      (.rawRead 0 0) (sourceReadReq .outputWriter 65536 12) 1 [(65536, 24), (65539, 32), (65543, 8)]
    let out (s : State) : Option (Option (Nat × Option (List Byte))) :=
      match exec (.memoryAttemptAnswer .succeeded []) s with
      | .next t => some (t.port.inFlight.map fun a => (a.req.offset, a.req.data))
      | _ => none
    out (s 1) = some (some (262144, some [2, 255, 0, 128, 0, 0])) ∧
      out (s 2) = some (some (262208, some [128, 0, 0, 2, 255, 0])) := by decide

/-- R128, R129, R130, R131: after the last row of a RAWCOPY the next entry's first row is read, and after the last
entry's the first slot is released; an ABORT before a row, and a read that failed, fault the frame. -/
theorem test_rawcopy_goes_on :
    let out (j : Job) (ok abort : Bool) : Option Job × Option FaultCode :=
      match exec .rawcopyRowDone (withJob j ok []
          { copying with ec := { copying.ec with abortReq := abort } }) with
      | .next t => (t.work.map Work.job, t.chain.flight.fault)
      | _ => (none, none)
    out (.rawWrite 0 31) true false = (some (.rawRead 1 0), none) ∧
      out (.rawWrite 1 31) true false = (some (.releaseFilled (heldSlot 0)), none) ∧
      out (.rawWrite 0 30) true true = (some (.slotEmpty 0), some .aborted) ∧
      out (.rawRead 0 0) false false = (some (.slotEmpty 0), some .sourceRead) := by decide

theorem witness_HeldSlotsAreGivenBackInOrder :
    let s (j : Job) (f : Option FaultCode) : State := withJob j true []
      { copying with chain := { copying.chain with flight := { inFlight := true, fault := f } } }
    (s (.slotEmpty 0) (some .aborted)).PortSettled ∧
      (s (.slotEmpty 0) (some .aborted)).pools.heldSlots = [heldSlot 0, heldSlot 1] ∧
      (heldSlot 1).entry ≠ (heldSlot 0).entry ∧
      accessOk (poolWriteReq .slotWrite (heldSlot 1).stateOffset (leBytes 4 0))
        (s (.slotEmpty 0) (some .aborted)).window = true ∧
      accessOk (poolWriteReq .slotWrite (heldSlot 1).stateOffset (filledBytes (heldSlot 1) 0))
        (s (.releaseIndex (heldSlot 0)) none).window = true ∧
      (∀ x, x ∈ [heldSlot 2] → x.entry ≠ (heldSlot 0).entry) ∧
    (let lost (j : Job) (f : Option FaultCode) : State := withJob j false [] (s j f)
     (lost (.slotEmpty 0) (some .aborted)).PortSettled ∧
      (lost (.slotEmpty 0) (some .aborted)).chain.flight.fault = some .aborted ∧
      (lost (.releaseFilled (heldSlot 0)) none).pools.heldSlots = [heldSlot 0, heldSlot 1] ∧
      (lost (.releaseIndex (heldSlot 0)) none).PortSettled) ∧
    (let one (j : Job) (ok : Bool) (f : Option FaultCode) : State := withJob j ok []
        { copying with
          pools := { heldSlots := [heldSlot 0] }
          chain := { copying.chain with flight := { inFlight := true, judged := true, fault := f } } }
     let legal (r : Option EntryResult) (s : State) : Prop :=
        let es := s.chain.group.entries
        let t : State := State.measured { s with
          pools := { heldSlots := [] }
          chain := { s.chain with group := { s.chain.group with
            entries := match r with
              | some r => es.modify (heldSlot 0).entry fun e => { e with result := some r }
              | none => es } } }
        accessOk (completionReq t.frame.offset (frameCompletion t)) s.window = true
     (one (.slotEmpty 0) true (some .aborted)).PortSettled ∧ legal none (one (.slotEmpty 0) true (some .aborted)) ∧
      legal (some (.faulted .poolBad)) (one (.slotEmpty 0) false (some .aborted)) ∧
      (one (.releaseIndex (heldSlot 0)) true none).pools.heldSlots = [heldSlot 0] ∧
      legal (some (.filled 0)) (one (.releaseIndex (heldSlot 0)) true none) ∧
      legal (some (.faulted .poolBad)) (one (.releaseFilled (heldSlot 0)) false none)) := by decide

theorem witness_HeldSlotsAreGivenBackInOrder_answers :
    let h := heldSlot 0
    let w := poolWriteReq .slotWrite h.stateOffset (leBytes 4 1)
    let filled := poolWriteReq .slotWrite h.stateOffset (filledBytes h 0)
    let s (j : Job) := asking copying j w
    (s (.slotBusy h) 1 []).port.inFlight = some (onBus w 1) ∧ (s (.slotBusy h) 1 []).OnTime ∧
      w.block = .poolManager ∧ w.data = some (leBytes 4 1) ∧ (s (.slotBusy h) 1 []).port.requests = [] ∧
      (s (.dropCount 1) 4 []).port.retryCount < 4 ∧ memWf (s (.slotEmpty 0) 4 []).dram = true ∧
      (s (.releaseIndex h) 1 []).work = some { job := .releaseIndex h } ∧
      (asking copying (.releaseFilled h) filled 1 []).port.inFlight = some (onBus filled 1) ∧
      accessOk (poolWriteReq .poolWordWrite (h.desc + 0x08) (leBytes 4 h.slot)) copying.window = true := by decide

/-- 07, worked pace, frames 1, 3 and 4 under a budget of 40,000 and a threshold of 2: the overrun flag, the
consecutive count and relief. -/
theorem test_worked_pace :
    let s (take retire : Word) (run : Nat) (f : Option FaultCode) : State :=
      { State.reset with
        reg := { time := retire }, ec := { cfg := { frameBudget := 40000, reliefThreshold := 2 } }
        pace := { takeTime := take, consecutive := run }, chain := { flight := { fault := f } } }
    let r (u : State) : Nat × Bool × Nat × Bool :=
      let t := Machine.measure u
      (t.chain.flight.duration.toNat, t.chain.flight.overrun, t.pace.consecutive, t.pace.relief)
    r (s 1000000 1036000 0 none) = (36000, false, 0, false) ∧
      r (s 1090000 1131000 1 none) = (41000, true, 2, true) ∧
      r (s 1135000 1190000 2 (some .sourceRead)) = (55000, false, 2, true) ∧
      r (s 4294950000 22704 0 none) = (40000, false, 0, false) := by decide

/-! ### Witnesses: the arithmetic -/

theorem witness_LookupFindsTheHolder :
    let c : Cache := { e0 := { state := .invalid, lens := some 7 }, e1 := { state := .loading, lens := some 8 } }
    c.find 7 = some .e0 ∧ c.find 8 = none ∧ c.lastServed = none ∧ c.victim = .e0 ∧
      ({ c with lastServed := some .e0 } : Cache).victim = .e1 := by decide

theorem witness_PixelOffsetFromTheCentre :
    6000 % 2 = 0 ∧ 1 ≤ 6000 ∧ 6001 % 2 = 1 ∧
      (256 : Int) ^ 2 + 0 ^ 2 = 256 * (16 : Nat) ^ 2 ∧ radiusU 256 0 16 = 65536 ∧ radiusU 362 0 16 = 131044 ∧
      radiusU 363 0 16 = 131071 := by decide

set_option maxRecDepth 20000 in
/-- 1.4, worked edge case: pixel (0, 400) under CLAMP and under FILL, and its neighbour two columns on. -/
theorem test_worked_edge_case :
    let flat (v : Int) : List Int := List.replicate 129 v
    let t : Tables := { green := flat 65536, red := flat 65600, blue := flat 65472, cx16 := 8000, cy16 := 6400 }
    let f (edge : Nat) : FrameFields := { srcW := 1000, srcH := 800, outW := 1000, outH := 800, edge := edge }
    rawPositions t (f 1) 500 0 400 = (⟨-8, 6400⟩, ⟨0, 6400⟩, ⟨8, 6400⟩) ∧ pixelOut t (f 1) 500 0 400 = true ∧
      pixelPos t (f 1) 500 0 400 = { fill := false, r := ⟨0, 6400⟩, g := ⟨0, 6400⟩, b := ⟨8, 6400⟩ } ∧
      (pixelPos t (f 2) 500 0 400).fill = true ∧ pixelOut t (f 2) 500 2 400 = false ∧
      pixelOut t (f 2) 500 999 400 = true := by decide

set_option maxRecDepth 20000 in
theorem witness_MagnificationLiesBetweenItsEntries :
    (List.replicate 129 (65536 : Int)).length = 129 ∧ (131071 : Nat) ≤ 131071 ∧
      tableOk (List.replicate 129 65536) = true := ⟨rfl, by decide, rfl⟩

theorem witness_BilinearSample : (15 : Nat) ≤ 15 ∧ (4095 : Nat) ≤ 4095 := by decide

theorem witness_InterpolationStaysBetweenItsNodes :
    let stops := telephoto.zooms
    stops ≠ [] ∧ ascending stops = true ∧ ascending telephoto.foci = true ∧ 700 ≤ stops.getD 0 0 ∧
      stops.getD 0 0 < 701 ∧ 1999 < stops.getD (stops.length - 1) 0 ∧ stops.getD (stops.length - 1) 0 ≤ 2000 ∧
      (4095 : Nat) ≤ 4095 ∧ telephoto.restZoom < telephoto.zooms.length ∧
      telephoto.restFocus < telephoto.foci.length := by decide

/-- 02, the worked interpolation's brackets and weights, and R46's rest node under HOLD with a focus override. -/
theorem test_worked_brackets :
    bracket telephoto.zooms 1200 = (0, 1, 1575) ∧ bracket telephoto.foci 1000 = (0, 1, 768) ∧
      bracket telephoto.zooms 2400 = (1, 1, 0) ∧ bracket telephoto.foci 0 = (0, 0, 0) ∧
      (resolveFrom telephoto { flags := { hold := true } } { focus := some 3600 }).coeffs.k1 = -30000 ∧
      (resolveFrom telephoto { flags := { hold := true } } {}).coeffs.k1 = -40000 := by decide

end Sys2Proof.Tests
end

section
/-! PROOFS. Chapter 1: the magnification a pixel's position is formed with (R12), and the bilinear value (R19). -/

namespace Sys2Proof.Machine

/-! ### The rounded quotient ("Rounding") -/

/-- Halves go away from zero on both sides, so the rounding is odd. -/
theorem rndDiv_neg (n : Int) {d : Int} (hd : 0 < d) : rndDiv (-n) d = -rndDiv n d := by
  have half_floor : d / (2 * d) = 0 := Int.ediv_eq_zero_of_lt hd.le (by omega)
  unfold rndDiv
  rcases lt_trichotomy n 0 with hn | rfl | hn
  · simp [hn.le, hn.not_ge]
  · simp [half_floor]
  · simp [hn.le, hn.not_ge]

theorem rndDiv_mul_mem_of_nonneg {step part d : Int} (hstep : 0 ≤ step) (hpart : 0 ≤ part) (hd : 0 < d)
    (hle : part ≤ d) : 0 ≤ rndDiv (step * part) d ∧ rndDiv (step * part) d ≤ step := by
  have hprod : 0 ≤ step * part := mul_nonneg hstep hpart
  have hcap : step * part ≤ step * d := mul_le_mul_of_nonneg_left hle hstep
  rw [rndDiv, if_pos hprod]
  constructor
  · exact Int.ediv_nonneg (by omega) (by omega)
  · refine Int.lt_add_one_iff.mp (Int.ediv_lt_of_lt_mul (by omega) ?_)
    calc 2 * (step * part) + d < 2 * (step * d) + 2 * d := by omega
      _ = (step + 1) * (2 * d) := by ring

/-- A part of a step, rounded, goes neither back nor past the step's end. -/
theorem rndDiv_mul_mem (step : Int) {part d : Int} (hpart : 0 ≤ part) (hd : 0 < d) (hle : part ≤ d) :
    min 0 step ≤ rndDiv (step * part) d ∧ rndDiv (step * part) d ≤ max 0 step := by
  rcases le_total 0 step with hstep | hstep
  · have h := rndDiv_mul_mem_of_nonneg hstep hpart hd hle
    omega
  · have h := rndDiv_mul_mem_of_nonneg (neg_nonneg.mpr hstep) hpart hd hle
    rw [neg_mul, rndDiv_neg _ hd] at h
    omega

/-! ### The magnification (R11, R12) -/

theorem radiusU_le (dx dy : Int) (rn : Nat) : radiusU dx dy rn ≤ 131071 := Nat.min_le_right _ _

theorem tableOk_getD_mem {table : List Int} (h : tableOk table = true) {i : Nat} (hi : i < 129) (v : Int) :
    32768 ≤ table.getD i v ∧ table.getD i v ≤ 131071 := by
  simp only [tableOk, Bool.and_eq_true, decide_eq_true_eq, List.all_eq_true] at h
  obtain ⟨hlen, hentries⟩ := h
  rw [List.getD_eq_getElem _ _ (hlen ▸ hi)]
  exact hentries _ (List.getElem_mem _)

theorem magnification_eq (table : List Int) (u : Nat) :
    magnification table u = table.getD (u / 1024) 65536 +
      rndDiv ((table.getD (u / 1024 + 1) 65536 - table.getD (u / 1024) 65536) *
        ((u - 1024 * (u / 1024) : Nat) : Int)) 1024 := rfl

theorem magnification_between (table : List Int) (u : Nat) :
    min (table.getD (u / 1024) 65536) (table.getD (u / 1024 + 1) 65536) ≤ magnification table u ∧
      magnification table u ≤ max (table.getD (u / 1024) 65536) (table.getD (u / 1024 + 1) 65536) := by
  have hfrac : ((u - 1024 * (u / 1024) : Nat) : Int) ≤ 1024 := by omega
  have hstep := rndDiv_mul_mem (table.getD (u / 1024 + 1) 65536 - table.getD (u / 1024) 65536)
    (Int.natCast_nonneg _) (by decide) hfrac
  rw [magnification_eq]
  omega

theorem magnification_mem {table : List Int} (h : tableOk table = true) {u : Nat} (hu : u ≤ 131071) :
    32768 ≤ magnification table u ∧ magnification table u ≤ 131071 := by
  have hlower := tableOk_getD_mem h (show u / 1024 < 129 by omega) 65536
  have hupper := tableOk_getD_mem h (show u / 1024 + 1 < 129 by omega) 65536
  have hbetween := magnification_between table u
  omega

/-- Settles O58: the rounded step stays between 0 and the difference of the two entries, since frac is below 1024. -/
theorem magnificationLiesBetweenItsEntries : Obligations.MagnificationLiesBetweenItsEntries := by
  constructor
  · intro t f rn x y
    exact ⟨radiusU_le _ _ _, rfl⟩
  · intro table u _ hu
    obtain ⟨hlow, hhigh⟩ := magnification_between table u
    exact ⟨magnification_eq table u, hlow, hhigh, fun h => magnification_mem h hu⟩

/-! ### The bilinear value (R19) -/

section
variable {fx fy : Nat}

theorem bilinear_weights_sum (hx : fx ≤ 16) (hy : fy ≤ 16) :
    (16 - fx) * (16 - fy) + fx * (16 - fy) + (16 - fx) * fy + fx * fy = 256 :=
  calc _ = ((16 - fx) + fx) * ((16 - fy) + fy) := by ring
    _ = 256 := by rw [Nat.sub_add_cancel hx, Nat.sub_add_cancel hy]

/-- The value is a weighted mean, so no bound of the four neighbours is passed; the added half does not carry. -/
theorem bilinear_le {p00 p10 p01 p11 m : Nat} (hx : fx ≤ 16) (hy : fy ≤ 16) (h00 : p00 ≤ m) (h10 : p10 ≤ m)
    (h01 : p01 ≤ m) (h11 : p11 ≤ m) : bilinear fx fy p00 p10 p01 p11 ≤ m := by
  have hsum : (16 - fx) * (16 - fy) * p00 + fx * (16 - fy) * p10 + (16 - fx) * fy * p01 + fx * fy * p11 ≤ 256 * m :=
    calc _ ≤ (16 - fx) * (16 - fy) * m + fx * (16 - fy) * m + (16 - fx) * fy * m + fx * fy * m := by gcongr
      _ = 256 * m := by rw [← add_mul, ← add_mul, ← add_mul, bilinear_weights_sum hx hy]
  unfold bilinear
  omega

end

theorem bilinear_at_pixel (p00 p10 p01 p11 : Nat) : bilinear 0 0 p00 p10 p01 p11 = p00 := by
  unfold bilinear; omega

/-- Half way along a row, the mean of the two neighbours in it, a half rounded up. -/
theorem bilinear_half_row (p00 p10 p01 p11 : Nat) : bilinear 8 0 p00 p10 p01 p11 = (p00 + p10 + 1) / 2 := by
  unfold bilinear; omega

/-- Half way down a column, the mean of the two neighbours in it, a half rounded up. -/
theorem bilinear_half_column (p00 p10 p01 p11 : Nat) : bilinear 0 8 p00 p10 p01 p11 = (p00 + p01 + 1) / 2 := by
  unfold bilinear; omega

/-- Settles O59: the bound is that of a weighted mean, and the half-way cases are means of two. -/
theorem bilinearSample : Obligations.BilinearSample := by
  intro fx fy p00 p10 p01 p11 hfx hfy h00 h10 h01 h11
  have hx : fx ≤ 16 := by omega
  have hy : fy ≤ 16 := by omega
  refine ⟨rfl, bilinear_weights_sum hx hy, bilinear_le hx hy h00 h10 h01 h11, bilinear_at_pixel _ _ _ _, ?_⟩
  have mean_of_equal : (p00 + p00 + 1) / 2 = p00 := by omega
  have mean_with_next : (p00 + (p00 + 1) + 1) / 2 = p00 + 1 := by omega
  have mean_of_next : (p00 + 1 + p00 + 1) / 2 = p00 + 1 := by omega
  simp only [bilinear_half_row, bilinear_half_column, mean_of_equal, mean_with_next, mean_of_next, and_self]

end Sys2Proof.Machine
end

section
/-! PROOFS. Chapter 10: the register that identifies the hardware (R179). -/

namespace Sys2Proof.Machine

theorem readRegister_ident (s : State) : readRegister s 0x00 = Config.ident := rfl

theorem ident_upper_half : Config.ident.toNat / 65536 = 0x4726 := by decide

theorem ident_lower_half : Config.ident.toNat % 65536 = 0x0001 := by decide

/-- Settles O21: the read at offset 0 takes nothing from the state, so the halves of its constant are those of
every read. -/
theorem identNeverChanges : Obligations.IdentNeverChanges := by
  intro s
  rw [readRegister_ident]
  exact ⟨rfl, ident_upper_half, ident_lower_half⟩

end Sys2Proof.Machine
end

section
/-! PROOFS. What the engine's own work does to the Engine Controller's turn: it holds back no access and releases
none, it ends no access of the controller, and it leaves no task waiting for a free controller (R143, R170). -/

namespace Sys2Proof.Machine

/-- What the three invariants about waiting look at: what is held, the controller's access in progress and the tasks
that wait for its turn. -/
structure Turn where
  held : List Held
  job : Option EcWork
  queue : List EcTask

def State.turn (s : State) : Turn := ⟨s.reg.held, s.ec.job, s.ec.queue⟩

/-- The controller's access belongs to a status write. -/
def EcWork.writesStatus (w : EcWork) : Bool :=
  match w.job with
  | .status _ _ _ => true
  | .config _ => false

theorem statusInFlight_eq (s : State) : s.statusInFlight = (s.ec.job.map EcWork.writesStatus).getD false := by
  unfold State.statusInFlight
  rcases s.ec.job with _ | ⟨_ | _, _, _, _⟩ <;> rfl

/-- The held list stands, a status write or configuration read in progress goes on, and no task begins to wait for a
free controller. -/
structure Turn.Keeps (a b : Turn) : Prop where
  held : b.held = a.held
  job : a.job.isSome = true → b.job.map EcWork.writesStatus = a.job.map EcWork.writesStatus
  settled : (a.job = none → a.queue = []) → b.job = none → b.queue = []

@[simp] theorem Turn.Keeps.refl (a : Turn) : a.Keeps a := ⟨rfl, fun _ => rfl, id⟩

theorem Turn.Keeps.trans {a b c : Turn} (h : a.Keeps b) (g : b.Keeps c) : a.Keeps c where
  held := g.held.trans h.held
  job := fun ha => by
    have hb : b.job.isSome = true := by simpa using (congrArg Option.isSome (h.job ha)).trans (by simpa using ha)
    exact (g.job hb).trans (h.job ha)
  settled := fun ha => g.settled (h.settled ha)

variable {s t : State} {a : Turn}

/-! ### Updates -/

@[simp] theorem turn_mapChain (f : ChainReader → ChainReader) : (s.mapChain f).turn = s.turn := (rfl)
@[simp] theorem turn_mapGroup (f : Group → Group) : (s.mapGroup f).turn = s.turn := (rfl)
@[simp] theorem turn_mapFlight (f : Flight → Flight) : (s.mapFlight f).turn = s.turn := (rfl)
@[simp] theorem turn_mapLens (f : LensUnit → LensUnit) : (s.mapLens f).turn = s.turn := (rfl)
@[simp] theorem turn_mapCache (f : Cache → Cache) : (s.mapCache f).turn = s.turn := (rfl)
@[simp] theorem turn_mapTile (f : TileUnit → TileUnit) : (s.mapTile f).turn = s.turn := (rfl)
@[simp] theorem turn_mapWriter (f : Writer → Writer) : (s.mapWriter f).turn = s.turn := (rfl)
@[simp] theorem turn_mapPools (f : PoolManager → PoolManager) : (s.mapPools f).turn = s.turn := (rfl)
@[simp] theorem turn_mapPace (f : PaceMonitor → PaceMonitor) : (s.mapPace f).turn = s.turn := (rfl)
@[simp] theorem turn_mapPort (f : Port → Port) : (s.mapPort f).turn = s.turn := (rfl)
@[simp] theorem turn_setTables (x : Tables) : (s.setTables x).turn = s.turn := (rfl)
@[simp] theorem turn_setWork (w : Option Work) : (s.setWork w).turn = s.turn := (rfl)
@[simp] theorem turn_setEvents (e : BitVec 10) : (s.setEvents e).turn = s.turn := (rfl)
@[simp] theorem turn_setDram (m : List Host.Cell) : (s.setDram m).turn = s.turn := (rfl)
@[simp] theorem turn_submit (r : Request) : (s.submit r).turn = s.turn := (rfl)
@[simp] theorem turn_doJob (j : Job) (r : Request) : (s.doJob j r).turn = s.turn := (rfl)
@[simp] theorem turn_endJob (j : Job) (ok : Bool) (d : List Byte) : (s.endJob j ok d).turn = s.turn := (rfl)

theorem turn_mapReg {f : RegisterInterface → RegisterInterface} (h : (f s.reg).held = s.reg.held) :
    (s.mapReg f).turn = s.turn := by simp [State.turn, h]

/-- An update of the controller's registers that takes neither its access nor its tasks. -/
@[simp] theorem turn_mapEc {f : Controller → Controller} (hj : (f s.ec).job = s.ec.job)
    (hq : (f s.ec).queue = s.ec.queue) : (s.mapEc f).turn = s.turn := by simp [State.turn, hj, hq]

/-! ### The frame's work: the turn stands -/

@[simp] theorem turn_readRecord (w : ReadWhy) (n : Nat) : (readRecord w n s).turn = s.turn := (rfl)

@[simp] theorem turn_beginLook : (beginLook s).turn = s.turn := by
  unfold beginLook; split_ifs <;> simp

@[simp] theorem turn_wakeNow : (wakeNow s).turn = s.turn := by
  unfold wakeNow; split_ifs <;> simp

@[simp] theorem turn_armTimer : (armTimer s).turn = s.turn := (rfl)
@[simp] theorem turn_clearAssembly : (clearAssembly s).turn = s.turn := (rfl)
@[simp] theorem turn_haltWith (r : HaltReason) (n : Nat) : (haltWith r n s).turn = s.turn := (rfl)
@[simp] theorem turn_setCursor (n : Nat) (b : Bool) : (setCursor n b s).turn = s.turn := (rfl)
@[simp] theorem turn_advancePast (n : Nat) : (advancePast n s).turn = s.turn := (rfl)
@[simp] theorem turn_setResult (k : Nat) (r : EntryResult) : (setResult k r s).turn = s.turn := (rfl)
@[simp] theorem turn_measure : (measure s).turn = s.turn := (rfl)

@[simp] theorem turn_retire : (retire s).turn = s.turn := by
  simp only [retire]; split <;> simp

@[simp] theorem turn_returnSlot (x : HeldSlot) : (returnSlot x s).turn = s.turn := (rfl)
@[simp] theorem turn_dropHeld (k : Nat) : (dropHeld k s).turn = s.turn := (rfl)

@[simp] theorem turn_returnNext : (returnNext s).turn = s.turn := by
  unfold returnNext; split <;> simp

@[simp] theorem turn_faultFrame (c : FaultCode) : (faultFrame c s).turn = s.turn := by
  simp [faultFrame]

@[simp] theorem turn_releaseNext : (releaseNext s).turn = s.turn := by
  unfold releaseNext; split <;> simp

@[simp] theorem turn_rawRow (x : HeldSlot) (n : Nat) : (rawRow x n s).turn = s.turn := by
  unfold rawRow; split <;> simp

@[simp] theorem turn_rawFrom (k : Nat) : (rawFrom k s).turn = s.turn := by
  unfold rawFrom; split <;> simp

@[simp] theorem turn_sampleSubTile (v : Serving) : (sampleSubTile v s).turn = s.turn := (rfl)

@[simp] theorem turn_writeOutRow : (writeOutRow s).turn = s.turn := by
  unfold writeOutRow; split <;> simp

@[simp] theorem turn_finishTile : (finishTile s).turn = s.turn := by simp [finishTile]

@[simp] theorem turn_readBoxRow (v : Serving) (n : Nat) : (readBoxRow v n s).turn = s.turn := (rfl)
@[simp] theorem turn_serve (r : Rect) (x : Box) : (serve r x s).turn = s.turn := (rfl)

@[simp] theorem turn_judgeSubTiles (fuel : Nat) (s : State) : (judgeSubTiles fuel s).turn = s.turn := by
  induction fuel generalizing s with
  | zero => rfl
  | succ fuel ih =>
    unfold judgeSubTiles
    split
    · simp
    · simp only
      split
      · split_ifs <;> simp [ih]
      · simp [ih]

@[simp] theorem turn_judgeTile : (judgeTile s).turn = s.turn := by simp [judgeTile]

@[simp] theorem turn_beginTile : (beginTile s).turn = s.turn := by
  unfold beginTile; split <;> simp

@[simp] theorem turn_beginPass : (beginPass s).turn = s.turn := by simp [beginPass]

@[simp] theorem turn_tileDone : (tileDone s).turn = s.turn := by
  simp only [tileDone]; split_ifs <;> simp

@[simp] theorem turn_nextDerivedRow : (nextDerivedRow s).turn = s.turn := by
  unfold nextDerivedRow; split <;> simp

@[simp] theorem turn_nextOutRow : (nextOutRow s).turn = s.turn := by
  unfold nextOutRow; split <;> simp

@[simp] theorem turn_markClipped (k : Nat) : (markClipped k s).turn = s.turn := (rfl)

@[simp] theorem turn_judgingEnded : (judgingEnded s).turn = s.turn := by
  simp only [judgingEnded]; split <;> simp

@[simp] theorem turn_judgeEntries (fuel k : Nat) (s : State) : (judgeEntries fuel k s).turn = s.turn := by
  induction fuel generalizing k s with
  | zero => simp [judgeEntries]
  | succ fuel ih =>
    unfold judgeEntries
    split
    · simp
    · simp only
      split <;> simp [ih]

@[simp] theorem turn_judgeFrom (k : Nat) : (judgeFrom k s).turn = s.turn := by simp [judgeFrom]
@[simp] theorem turn_judgeOn (k : Nat) (r : EntryResult) : (judgeOn k r s).turn = s.turn := by simp [judgeOn]

@[simp] theorem turn_judgePool (k : Nat) (p : PoolView) : (judgePool k p s).turn = s.turn := by
  simp only [judgePool]
  split
  · simp
  · split
    · simp
    · split <;> simp

@[simp] theorem turn_slotBusyEnded (x : HeldSlot) (ok : Bool) : (slotBusyEnded x ok s).turn = s.turn := by
  unfold slotBusyEnded; split <;> simp

@[simp] theorem turn_dropCountEnded (k : Nat) (ok : Bool) : (dropCountEnded k ok s).turn = s.turn := by
  unfold dropCountEnded; split <;> simp

@[simp] theorem turn_deliver (r : Resolved) : (deliver r s).turn = s.turn := by simp [deliver]

@[simp] theorem turn_buildEnded : (buildEnded s).turn = s.turn := by
  simp only [buildEnded]; split <;> simp

@[simp] theorem turn_beginLoad (n : Nat) : (beginLoad n s).turn = s.turn := by
  simp only [beginLoad]; split <;> simp

@[simp] theorem turn_lookup : (lookup s).turn = s.turn := by
  simp only [lookup]
  split
  · simp
  · split
    · simp
    · split <;> simp

@[simp] theorem turn_loadEnded (v : CacheSlot) (ok : Bool) : (loadEnded v ok s).turn = s.turn := by
  unfold loadEnded; split <;> simp

@[simp] theorem turn_applyDecision (d : Decision) : (applyDecision d s).turn = s.turn := by simp [applyDecision]

@[simp] theorem turn_boardEnded (ok : Bool) (d : List Byte) (now : Word) :
    (boardEnded ok d now s).turn = s.turn := by simp [boardEnded]

@[simp] theorem turn_frameAccepted : (frameAccepted s).turn = s.turn := by
  simp only [frameAccepted]; split_ifs <;> simp

@[simp] theorem turn_validate : (validate s).turn = s.turn := by
  unfold validate; split <;> simp

@[simp] theorem turn_recordTake : (recordTake s).turn = s.turn := (rfl)
@[simp] theorem turn_consumeOverride : (consumeOverride s).turn = s.turn := (rfl)

@[simp] theorem turn_afterTaken (ok : Bool) : (afterTaken ok s).turn = s.turn := by
  simp only [afterTaken]; split <;> simp

@[simp] theorem turn_nextTaken : (nextTaken s).turn = s.turn := by
  unfold nextTaken; split <;> simp

@[simp] theorem turn_takenEnded (ok : Bool) : (takenEnded ok s).turn = s.turn := by
  unfold takenEnded; split <;> simp

@[simp] theorem turn_rowsEnded (ok : Bool) : (rowsEnded ok s).turn = s.turn := by
  simp only [rowsEnded]
  split
  · simp
  · split
    · simp
    · split <;> simp

@[simp] theorem turn_derivedWriteFailed (k : Nat) : (derivedWriteFailed k s).turn = s.turn := by
  simp only [derivedWriteFailed]; split <;> simp

@[simp] theorem turn_rawRowWritten (k n : Nat) : (rawRowWritten k n s).turn = s.turn := by
  unfold rawRowWritten
  split
  · simp
  · split <;> simp

@[simp] theorem turn_slotEmptyEnded (k : Nat) (ok : Bool) : (slotEmptyEnded k ok s).turn = s.turn := by
  simp only [slotEmptyEnded]; split_ifs <;> simp

@[simp] theorem turn_slotReleased (x : HeldSlot) (r : EntryResult) : (slotReleased x r s).turn = s.turn := by
  simp [slotReleased]

/-! ### The controller's tasks -/

@[simp] theorem keeps_kick (h : a.Keeps t.turn) : a.Keeps (kick t).turn := by
  refine h.trans ⟨by simp [State.turn], fun hj => ?_, fun _ => controllerSettled_kick t⟩
  rw [kick_of_job hj]

/-- A task that joins the queue is taken up in the same step when the controller is free (R170). -/
theorem keeps_kick_queued {f : Controller → Controller} (h : a.Keeps t.turn) (hf : (f t.ec).job = t.ec.job) :
    a.Keeps (kick (t.mapEc f)).turn := by
  refine h.trans ⟨by simp [State.turn], fun hj => ?_, fun _ => controllerSettled_kick _⟩
  have hj' : t.ec.job.isSome = true := hj
  rw [kick_of_job (by simpa [hf] using hj')]
  exact congrArg _ hf

@[simp] theorem keeps_requestStatus {w : StatusWrite} (h : a.Keeps t.turn) : a.Keeps (requestStatus w t).turn :=
  keeps_kick_queued h rfl

@[simp] theorem keeps_requestConfig {w : ConfigWhy} (h : a.Keeps t.turn) : a.Keeps (requestConfig w t).turn :=
  keeps_kick_queued h rfl

@[simp] theorem keeps_enterStopped (h : a.Keeps t.turn) : a.Keeps (enterStopped t).turn :=
  keeps_requestStatus (t := ((clearAssembly t).mapChain _).mapEc _) h

@[simp] theorem keeps_enterHalted {r : HaltReason} {n : Nat} (h : a.Keeps t.turn) :
    a.Keeps (enterHalted r n t).turn := keeps_requestStatus (by simpa using h)

@[simp] theorem keeps_dropQueue (h : a.Keeps t.turn) : a.Keeps (dropQueue t).turn :=
  h.trans ⟨rfl, fun _ => rfl, fun _ _ => rfl⟩

@[simp] theorem keeps_haltUnreported {r : HaltReason} {n : Nat} (h : a.Keeps t.turn) :
    a.Keeps (haltUnreported r n t).turn := by simpa [haltUnreported] using keeps_dropQueue h

@[simp] theorem keeps_enterCalledHalt {r : HaltReason} {n : Nat} (h : a.Keeps t.turn) :
    a.Keeps (enterCalledHalt r n t).turn := by
  unfold enterCalledHalt; split <;> simp [h]

@[simp] theorem keeps_chainHalt {r : HaltReason} {n : Nat} (h : a.Keeps t.turn) :
    a.Keeps (chainHalt r n t).turn := keeps_enterCalledHalt h

/-! ### The look and the chain -/

@[simp] theorem keeps_endLook {m : Bool} (h : a.Keeps t.turn) : a.Keeps (endLook m t).turn := by
  simp only [endLook]; split_ifs <;> simp [h]

@[simp] theorem keeps_park {n : Nat} {b : Bool} (h : a.Keeps t.turn) : a.Keeps (park n b t).turn := by
  simp only [park]; split_ifs <;> simp [h]

@[simp] theorem keeps_moveOn {n : Nat} (h : a.Keeps t.turn) : a.Keeps (moveOn n t).turn := by
  simp only [moveOn]; split <;> simp [h]

@[simp] theorem keeps_moveOnReported {n : Nat} (h : a.Keeps t.turn) : a.Keeps (moveOnReported n t).turn := by
  simp only [moveOnReported]; split <;> simp [h]

@[simp] theorem keeps_reportCursor (h : a.Keeps t.turn) : a.Keeps (reportCursor t).turn := by
  unfold reportCursor; split <;> simp [h]

@[simp] theorem keeps_take (h : a.Keeps t.turn) : a.Keeps (take t).turn := by
  simp only [take]; split <;> simp [h]

@[simp] theorem keeps_nextRead {w : ReadWhy} {n : Nat} (h : a.Keeps t.turn) : a.Keeps (nextRead w n t).turn := by
  unfold nextRead; split_ifs <;> simp [h]

@[simp] theorem keeps_followMain {m n : Nat} (h : a.Keeps t.turn) : a.Keeps (followMain m n t).turn := by
  unfold followMain incomplete; split_ifs <;> simp [h]

@[simp] theorem keeps_followSub {m n : Nat} (h : a.Keeps t.turn) : a.Keeps (followSub m n t).turn := by
  unfold followSub; split_ifs <;> simp [h]

@[simp] theorem keeps_completeGroup (h : a.Keeps t.turn) : a.Keeps (completeGroup t).turn := by
  unfold completeGroup; split <;> simp [h]

@[simp] theorem keeps_afterMain {n : Nat} {x : RecordHead} (h : a.Keeps t.turn) :
    a.Keeps (afterMain n x t).turn := by
  unfold afterMain; split <;> simp [h]

@[simp] theorem turn_countRead (n : Nat) : (countRead n s).turn = s.turn := (rfl)
@[simp] theorem turn_addMain (n : Nat) (k : RecordKind) (x : RecordHead) (e : Option Nat) :
    (addMain n k x e s).turn = s.turn := rfl
@[simp] theorem turn_stageOverride (b : List Byte) : (stageOverride b s).turn = s.turn := (rfl)

@[simp] theorem turn_joinEntry (n : Nat) (b : List Byte) (m : Bool) : (joinEntry n b m s).turn = s.turn := by
  unfold joinEntry; split <;> simp

@[simp] theorem keeps_callPush {m n : Nat} (h : a.Keeps t.turn) : a.Keeps (callPush m n t).turn := by
  unfold callPush; split_ifs <;> simp [h]

@[simp] theorem keeps_returnPop (h : a.Keeps t.turn) : a.Keeps (returnPop t).turn := by
  unfold returnPop
  split
  · exact h
  · simp only; split <;> simp [h]

@[simp] theorem turn_countUnterminated : (countUnterminated s).turn = s.turn := (rfl)

@[simp] theorem keeps_unterminatedEnded {u : Unterminated} (h : a.Keeps t.turn) :
    a.Keeps (unterminatedEnded u t).turn := by
  simp only [unterminatedEnded]; split <;> simp [h]

@[simp] theorem keeps_nextUnterminated (h : a.Keeps t.turn) : a.Keeps (nextUnterminated t).turn := by
  unfold nextUnterminated
  split
  · exact h
  · split <;> simp [h]

@[simp] theorem keeps_beginUnterminated {n : Nat} (h : a.Keeps t.turn) :
    a.Keeps (beginUnterminated n t).turn := by
  unfold beginUnterminated; split <;> simp [h]

@[simp] theorem keeps_unterminatedWritten {n : Nat} {ok : Bool} (h : a.Keeps t.turn) :
    a.Keeps (unterminatedWritten n ok t).turn := by
  unfold unterminatedWritten
  split
  · exact h
  · simp only; split_ifs <;> simp [h]

@[simp] theorem turn_beginGroupStart (k : RecordKind) (b : List Byte) : (beginGroupStart k b s).turn = s.turn := by
  simp only [beginGroupStart]; split <;> simp

@[simp] theorem keeps_groupStartWritten {c : Bool} {k : RecordKind} {n : Nat} {ok : Bool} (h : a.Keeps t.turn) :
    a.Keeps (groupStartWritten c k n ok t).turn := by
  unfold groupStartWritten; split_ifs <;> simp [h]

@[simp] theorem keeps_recordWritten {w : WriteWhy} {n : Nat} {ok : Bool} (h : a.Keeps t.turn) :
    a.Keeps (recordWritten w n ok t).turn := by
  unfold recordWritten; split <;> simp [h]

@[simp] theorem keeps_beginGroup {b : List Byte} (h : a.Keeps t.turn) : a.Keeps (beginGroup b t).turn :=
  keeps_afterMain h

@[simp] theorem keeps_cursorRead {b : List Byte} (h : a.Keeps t.turn) : a.Keeps (cursorRead b t).turn := by
  simp only [cursorRead]
  split
  · simp [h]
  · repeat' split
    all_goals simp [h]

@[simp] theorem keeps_cursorLinkRead {n : Nat} (h : a.Keeps t.turn) : a.Keeps (cursorLinkRead n t).turn := by
  unfold cursorLinkRead; split_ifs <;> simp [h]

@[simp] theorem keeps_advanceRead {m n : Nat} (h : a.Keeps t.turn) : a.Keeps (advanceRead m n t).turn := by
  unfold advanceRead; split_ifs <;> simp [h]

@[simp] theorem keeps_lookAheadRead {n : Nat} {b : List Byte} (h : a.Keeps t.turn) :
    a.Keeps (lookAheadRead n b t).turn := by
  simp only [lookAheadRead, incomplete]
  split
  · simp [h]
  · split
    case h_6 => exact keeps_callPush h
    all_goals simp [h]

@[simp] theorem keeps_subchainRead {n : Nat} {b : List Byte} (h : a.Keeps t.turn) :
    a.Keeps (subchainRead n b t).turn := by
  simp only [subchainRead]
  split
  · simp [h]
  · split <;> simp [h]

@[simp] theorem keeps_callReread {m n : Nat} (h : a.Keeps t.turn) : a.Keeps (callReread m n t).turn := by
  unfold callReread; split <;> simp [h]

/-! ### Commands -/

@[simp] theorem turn_refuse : (refuse s).turn = s.turn := (rfl)
@[simp] theorem turn_clearForStart : (clearForStart s).turn = s.turn := (rfl)
@[simp] theorem turn_holdReload : (holdReload s).turn = s.turn := (rfl)

@[simp] theorem keeps_actStart (h : a.Keeps t.turn) : a.Keeps (actStart t).turn := by
  unfold actStart; split <;> simp [h]

@[simp] theorem keeps_stopParked (h : a.Keeps t.turn) : a.Keeps (stopParked t).turn := by
  unfold stopParked; split <;> simp [h]

@[simp] theorem keeps_toStopping (h : a.Keeps t.turn) : a.Keeps (toStopping t).turn := by
  unfold toStopping; split <;> simp [h]

@[simp] theorem keeps_actStop (h : a.Keeps t.turn) : a.Keeps (actStop t).turn := by
  unfold actStop
  repeat' split
  all_goals simp [h]

@[simp] theorem keeps_actAbort (h : a.Keeps t.turn) : a.Keeps (actAbort t).turn := by
  unfold actAbort abortActive
  repeat' split
  all_goals simp [h]

@[simp] theorem keeps_actResume (h : a.Keeps t.turn) : a.Keeps (actResume t).turn := by
  simp only [actResume]
  split_ifs
  · exact keeps_requestStatus h
  · exact keeps_requestStatus h
  · exact h

@[simp] theorem keeps_actRescan (h : a.Keeps t.turn) : a.Keeps (actRescan t).turn := by
  unfold actRescan; split <;> simp [h]

@[simp] theorem keeps_actReload (h : a.Keeps t.turn) : a.Keeps (actReload t).turn := by
  unfold actReload
  repeat' split
  all_goals simp [h]

@[simp] theorem turn_actNoEffect (x : NoEffectAccess) : (actNoEffect x s).turn = s.turn := by
  cases x <;> rfl

@[simp] theorem turn_windowWrite {f : RegisterInterface → RegisterInterface} (h : (f s.reg).held = s.reg.held) :
    (windowWrite f s).turn = s.turn := by
  unfold windowWrite
  split
  · exact turn_mapReg h
  · exact turn_mapReg h
  all_goals rfl

/-! ### The ends of the controller's work -/

@[simp] theorem keeps_retirementEnded {b : Bool} (h : a.Keeps t.turn) : a.Keeps (retirementEnded b t).turn := by
  unfold retirementEnded countRetirement
  exact keeps_requestStatus h

@[simp] theorem keeps_boundaryEnd {f : Option Nat} {r : Bool} (h : a.Keeps t.turn) :
    a.Keeps (boundaryEnd f r t).turn := by
  unfold boundaryEnd
  split
  · exact h
  · split
    · simp [h]
    · split
      · simp [h]
      · split <;> simp [h]

@[simp] theorem keeps_boundaryStart (h : a.Keeps t.turn) : a.Keeps (boundaryStart t).turn := by
  unfold boundaryStart; split <;> simp [h]

@[simp] theorem turn_applyCopy (c : ConfigCopy) : (applyCopy c s).turn = s.turn := (rfl)

@[simp] theorem keeps_configHalt {n : Nat} (h : a.Keeps t.turn) : a.Keeps (configHalt n t).turn := by
  simp [configHalt, h]

@[simp] theorem keeps_stopFromStarting {m : Bool} (h : a.Keeps t.turn) :
    a.Keeps (stopFromStarting m t).turn := by
  simp only [stopFromStarting]; split_ifs <;> simp [h]

@[simp] theorem keeps_startRead {r : Bool} {c : ConfigCopy} {f : Option Nat} (h : a.Keeps t.turn) :
    a.Keeps (startRead r c f t).turn := by
  unfold startRead
  split
  · simp [h]
  · split
    · simp [h]
    · simp only [parkFromStarting]; split_ifs <;> simp [h]

@[simp] theorem keeps_reloadRead {c : ConfigCopy} {f : Option Nat} (h : a.Keeps t.turn) :
    a.Keeps (reloadRead c f t).turn := by
  unfold reloadRead
  simp only
  split
  · simp [h]
  · split_ifs <;> simp [h]

@[simp] theorem keeps_boundaryRead {c : ConfigCopy} {f : Option Nat} (h : a.Keeps t.turn) :
    a.Keeps (boundaryRead c f t).turn := by
  unfold boundaryRead
  simp only
  split
  · exact keeps_boundaryEnd h
  · split <;> simp [h]

@[simp] theorem keeps_continueAfter {x : After} (h : a.Keeps t.turn) : a.Keeps (continueAfter x t).turn := by
  unfold continueAfter; split <;> simp [h]

@[simp] theorem turn_abandonLook : (abandonLook s).turn = s.turn := by
  simp only [abandonLook]; split <;> rfl

@[simp] theorem keeps_statusFail {w : StatusWrite} (h : a.Keeps t.turn) : a.Keeps (statusFail w t).turn := by
  unfold statusFail
  split
  · exact h
  · split
    · simp only [holdStatusHalt]; split <;> simp [h]
    · split <;> simp [h]

/-! ### The Port -/

@[simp] theorem turn_startAccess (r : Request) : (startAccess r s).turn = s.turn := (rfl)
@[simp] theorem turn_issueAttempt (x : Access) : (issueAttempt x s).turn = s.turn := (rfl)

@[simp] theorem turn_loadReport (v : CacheSlot) (l : Nat) (st : LoadStage) (ok : Bool) (d : List Byte) :
    (loadReport v l st ok d s).turn = s.turn := by
  unfold loadReport
  split
  · rfl
  · split
    · simp only [directoryReport, loadGoesOn]; split_ifs <;> rfl
    · simp only [headerReport, loadGoesOn, readNode]; split_ifs <;> rfl
    · simp only [nodeReport, loadGoesOn, readNode]; split_ifs <;> rfl

@[simp] theorem turn_rowsReport (n : Nat) (d : List Byte) : (rowsReport n d s).turn = s.turn := by
  simp only [rowsReport]
  split
  · rfl
  · split <;> simp

@[simp] theorem turn_rawReadReport (k n : Nat) (d : List Byte) : (rawReadReport k n d s).turn = s.turn := by
  unfold rawReadReport; split <;> simp

@[simp] theorem turn_retireReport (r : Request) (todo : List Request) (f ok : Bool) :
    (retireReport r todo f ok s).turn = s.turn := by
  simp only [retireReport]; split <;> simp

@[simp] theorem turn_poolTableReport (k : Nat) (d : List Byte) : (poolTableReport k d s).turn = s.turn := by
  simp only [poolTableReport]; split <;> rfl

@[simp] theorem turn_poolHeaderReport (k n : Nat) (d : List Byte) : (poolHeaderReport k n d s).turn = s.turn := by
  simp only [poolHeaderReport]; split <;> rfl

@[simp] theorem keeps_abandonedReport {k : Option RecordKind} {ok : Bool} (h : a.Keeps t.turn) :
    a.Keeps (abandonedReport k ok t).turn := by
  simp only [abandonedReport]
  split_ifs
  · exact keeps_endLook h
  · rw [turn_beginLook]; exact h
  all_goals exact h

@[simp] theorem keeps_workReport {r : Request} {ok : Bool} {d : List Byte} (h : a.Keeps t.turn) :
    a.Keeps (workReport r ok d t).turn := by
  unfold workReport
  split
  · exact h
  · repeat' split
    all_goals simp [h]

/-- R143, R157: the report of one access of the controller leaves its status write or configuration read in progress,
ended or with its next access. -/
@[simp] theorem keeps_ecReport {ok : Bool} {d : List Byte} (h : a.Keeps t.turn) : a.Keeps (ecReport ok d t).turn := by
  refine h.trans ?_
  unfold ecReport
  split
  · next hj => exact ⟨rfl, fun _ => by simp [State.turn, hj, EcWork.writesStatus], fun _ hn => absurd hn nofun⟩
  · next hj =>
    simp only [statusReport]
    split
    · exact ⟨rfl, fun _ => by simp [State.turn, hj, EcWork.writesStatus], fun _ hn => absurd hn nofun⟩
    · split <;> exact ⟨rfl, fun _ => by simp [State.turn, hj, EcWork.writesStatus], fun _ hn => absurd hn nofun⟩
  · exact Turn.Keeps.refl _

theorem keeps_report {r : Request} {ok : Bool} {d : List Byte} (h : a.Keeps t.turn) :
    a.Keeps (report r ok d t).turn := by
  unfold report; split <;> simp [h]

theorem keeps_pump {fuel : Nat} (h : a.Keeps t.turn) : a.Keeps (pump fuel t).turn := by
  induction fuel generalizing t with
  | zero => exact h
  | succ fuel ih =>
    unfold pump
    split
    · simp only
      split
      · exact h
      · exact ih (keeps_report h)
    · exact h

theorem keeps_settle (h : a.Keeps t.turn) : a.Keeps (settle t).turn := keeps_pump h

end Sys2Proof.Machine
end

section
/-! PROOFS. What each row of the table can do: the rows that end a piece of work do the engine's own work alone, and
the others add what only they do (R143, R145, R148, R164, R173, R177, R182). -/

namespace Sys2Proof.Machine

variable {s t : State} {c : Instr}

/-! ### The rows that end a piece of work -/

/-- The rows that end a piece of work of the look or of the frame in flight. -/
def endsWork : Instr → Bool
  | .cursorRecordReadDone | .cursorLinkReadDone | .advanceReadDone | .lookAheadRecordReadDone
  | .subchainRecordReadDone | .boardReadDone | .profileLoadDone | .poolReadDone | .slotBusyWriteDone
  | .tableBuildDone | .subtileRowsReadDone | .outputRowWriteDone | .derivedRowWriteDone | .rawcopyRowDone
  | .slotReleaseDone | .retirementWritesDone | .chainRecordWriteDone | .callRecordRereadDone | .slotEmptyWriteDone
  | .dropCountWriteDone => true
  | _ => false

/-- A step answers a next state that comes from `s` by the engine's own work, with no request left waiting for a free
Port. -/
def OwnWork (s : State) (o : Host.Outcome State Fault Refusal) : Prop :=
  ∃ t, o = .next t ∧ Good s t ∧ s.turn.Keeps t.turn ∧ (s.PortSettled → t.PortSettled)

theorem ownWork_idle : OwnWork s (.next s) := ⟨s, rfl, Good.refl s, Turn.Keeps.refl _, id⟩

theorem ownWork_finish (hg : Good s t) (hk : s.turn.Keeps t.turn) : OwnWork s (finish t) :=
  ⟨settle t, rfl, good_settle hg, keeps_settle hk, fun _ => portSettled_settle t⟩

theorem ownWork_ite {ok : Bool} {u v : State} (hu : Good s u ∧ s.turn.Keeps u.turn)
    (hv : Good s v ∧ s.turn.Keeps v.turn) : OwnWork s (finish (if ok then u else v)) := by
  split
  · exact ownWork_finish hu.1 hu.2
  · exact ownWork_finish hv.1 hv.2

theorem ownWork_of_endsWork (h : endsWork c = true) : OwnWork s (exec c s) := by
  have hg : Good s (s.setWork none) := good_setWork (Good.refl s)
  cases c with
  | cursorRecordReadDone =>
    show OwnWork s (execCursorRecordReadDone s)
    unfold execCursorRecordReadDone
    split
    · exact ownWork_ite (by simp) (by simp)
    · exact ownWork_idle
  | cursorLinkReadDone =>
    show OwnWork s (execCursorLinkReadDone s)
    unfold execCursorLinkReadDone
    split
    · exact ownWork_ite (by simp) (by simp)
    · exact ownWork_idle
  | advanceReadDone =>
    show OwnWork s (execAdvanceReadDone s)
    unfold execAdvanceReadDone
    split
    · exact ownWork_ite (by simp) ⟨good_chainHalt (good_setCursor hg), by simp⟩
    · exact ownWork_idle
  | lookAheadRecordReadDone =>
    show OwnWork s (execLookAheadRecordReadDone s)
    unfold execLookAheadRecordReadDone
    split
    · exact ownWork_ite ⟨good_lookAheadRead (good_countRead hg), by simp⟩ (by simp)
    · exact ownWork_idle
  | subchainRecordReadDone =>
    show OwnWork s (execSubchainRecordReadDone s)
    unfold execSubchainRecordReadDone
    split
    · exact ownWork_ite ⟨good_subchainRead (good_countRead hg), by simp⟩ (by simp)
    · exact ownWork_idle
  | callRecordRereadDone =>
    show OwnWork s (execCallRecordRereadDone s)
    unfold execCallRecordRereadDone
    split
    · exact ownWork_ite ⟨good_callReread (good_countRead hg), by simp⟩ (by simp)
    · exact ownWork_idle
  | chainRecordWriteDone =>
    show OwnWork s (execChainRecordWriteDone s)
    unfold execChainRecordWriteDone
    split
    · exact ownWork_finish (by simp) (by simp)
    · exact ownWork_idle
  | retirementWritesDone =>
    show OwnWork s (execRetirementWritesDone s)
    unfold execRetirementWritesDone
    split
    · exact ownWork_finish (by simp) (by simp)
    · exact ownWork_idle
  | boardReadDone =>
    show OwnWork s (execBoardReadDone s)
    unfold execBoardReadDone
    split
    · split
      · exact ownWork_finish (by simp) (by simp)
      · exact ownWork_idle
    · exact ownWork_idle
  | profileLoadDone =>
    show OwnWork s (execProfileLoadDone s)
    unfold execProfileLoadDone
    split
    · exact ownWork_finish (by simp) (by simp)
    · exact ownWork_idle
  | poolReadDone =>
    show OwnWork s (execPoolReadDone s)
    unfold execPoolReadDone
    split
    · exact ownWork_finish (by simp) (by simp)
    · exact ownWork_finish (by simp) (by simp)
    · exact ownWork_idle
  | slotBusyWriteDone =>
    show OwnWork s (execSlotBusyWriteDone s)
    unfold execSlotBusyWriteDone
    split
    · exact ownWork_finish (by simp) (by simp)
    · exact ownWork_idle
  | dropCountWriteDone =>
    show OwnWork s (execDropCountWriteDone s)
    unfold execDropCountWriteDone
    split
    · exact ownWork_finish (by simp) (by simp)
    · exact ownWork_idle
  | tableBuildDone =>
    show OwnWork s (execTableBuildDone s)
    unfold execTableBuildDone
    split
    · exact ownWork_finish (by simp) (by simp)
    · exact ownWork_idle
  | subtileRowsReadDone =>
    show OwnWork s (execSubtileRowsReadDone s)
    unfold execSubtileRowsReadDone
    split
    · exact ownWork_finish (by simp) (by simp)
    · exact ownWork_idle
  | outputRowWriteDone =>
    show OwnWork s (execOutputRowWriteDone s)
    unfold execOutputRowWriteDone
    split
    · exact ownWork_ite (by simp) (by simp)
    · exact ownWork_idle
  | derivedRowWriteDone =>
    show OwnWork s (execDerivedRowWriteDone s)
    unfold execDerivedRowWriteDone
    split
    · exact ownWork_ite (by simp) (by simp)
    · exact ownWork_idle
  | rawcopyRowDone =>
    show OwnWork s (execRawcopyRowDone s)
    unfold execRawcopyRowDone
    split
    · exact ownWork_finish (by simp) (by simp)
    · exact ownWork_ite (by simp) (by simp)
    · exact ownWork_idle
  | slotEmptyWriteDone =>
    show OwnWork s (execSlotEmptyWriteDone s)
    unfold execSlotEmptyWriteDone
    split
    · exact ownWork_finish (by simp) (by simp)
    · exact ownWork_idle
  | slotReleaseDone =>
    show OwnWork s (execSlotReleaseDone s)
    unfold execSlotReleaseDone
    split
    · exact ownWork_finish (by simp) (by simp)
    · exact ownWork_finish (by simp) (by simp)
    · exact ownWork_idle
  | _ => exact Bool.noConfusion h

end Sys2Proof.Machine
end

section
/-! PROOFS. What judging an access or a wake keeps, and with it the judging of everything that was held: the three
invariants, and the memory and registers that no held access touches (R143, R167, R178). -/

namespace Sys2Proof.Machine

variable {s t : State} {c : Instr}

/-! ### The relations read off a step -/

theorem Good.sound (h : Good s t) (hs : s.Sound) : t.Sound := by
  have hi := h.inner ⟨hs.dither, hs.tables, hs.stack, hs.entries, hs.lens, hs.pace, hs.copy, hs.port⟩
  exact ⟨by rw [h.dram]; exact hs.memory, hi.dither, hi.tables, hi.stack, hi.entries, hi.lens, hi.pace,
    by rw [h.winSize]; exact hs.window, hi.copy, hi.port⟩

/-- R143: what is held goes on waiting while the controller keeps its turn. -/
theorem Turn.Keeps.heldWait (h : s.turn.Keeps t.turn) (hr : t.reg.inReset = s.reg.inReset) (hs : s.HeldWait) :
    t.HeldWait := by
  intro hn
  obtain ⟨hall, hstatus⟩ := hs (hr ▸ hn)
  have hheld : t.reg.held = s.reg.held := h.held
  refine ⟨by rw [hheld]; exact hall, fun hne => ?_⟩
  have hb := hstatus (by rwa [← hheld])
  rw [statusInFlight_eq] at hb ⊢
  have hjob : t.ec.job.map EcWork.writesStatus = s.ec.job.map EcWork.writesStatus := by
    refine h.job ?_
    cases hj : s.ec.job with
    | none => simp [hj] at hb
    | some w => simp [State.turn, hj]
  rw [hjob]; exact hb

/-! ### One access judged -/

/-- The accesses that write or clear a register, or every register. -/
def setsRegister : Instr → Bool
  | .reset | .winBaseWrite _ | .winSizeWrite _ | .eventsRead | .lineEnableWrite _ => true
  | _ => false

/-- R151, R178: judging any other access is the engine's own work. -/
theorem good_judgeAccess (h : setsRegister c = false) : Good s (judgeAccess c s) := by
  cases c with
  | reset => exact Bool.noConfusion h
  | winBaseWrite v => exact Bool.noConfusion h
  | winSizeWrite v => exact Bool.noConfusion h
  | eventsRead => exact Bool.noConfusion h
  | lineEnableWrite v => exact Bool.noConfusion h
  | start => exact good_actStart (Good.refl s)
  | stop => exact good_actStop (Good.refl s)
  | abort => exact good_actAbort (Good.refl s)
  | resume => exact good_actResume (Good.refl s)
  | rescan => exact good_actRescan (Good.refl s)
  | reload => exact good_actReload (Good.refl s)
  | commandUnknown v => exact good_actCommandUnknown (Good.refl s)
  | registerWriteNoEffect a => exact good_actNoEffect (Good.refl s)
  | _ => exact Good.refl s

/-- R143, R170: no access but RESET takes the controller's turn away. -/
theorem keeps_judgeAccess (hr : c ≠ .reset) : s.turn.Keeps (judgeAccess c s).turn := by
  cases c with
  | reset => exact absurd rfl hr
  | start => exact keeps_actStart (Turn.Keeps.refl _)
  | stop => exact keeps_actStop (Turn.Keeps.refl _)
  | abort => exact keeps_actAbort (Turn.Keeps.refl _)
  | resume => exact keeps_actResume (Turn.Keeps.refl _)
  | rescan => exact keeps_actRescan (Turn.Keeps.refl _)
  | reload => exact keeps_actReload (Turn.Keeps.refl _)
  | winBaseWrite v => simp [actWinBase]
  | winSizeWrite v => simp [actWinSize]
  | registerWriteNoEffect a => simp
  | _ => exact Turn.Keeps.refl _

/-- R164: a window write is refused or stores its value; nothing else but the configuration-valid mark changes. -/
theorem windowWrite_cases (f : RegisterInterface → RegisterInterface) (s : State) :
    windowWrite f s = refuse s ∨ ∃ m, (m = s.ec.cfgValid ∨ m = false) ∧
      windowWrite f s = { s with reg := f s.reg, ec := { s.ec with cfgValid := m } } := by
  unfold windowWrite
  split
  · exact .inr ⟨_, .inl rfl, rfl⟩
  · exact .inr ⟨_, .inr rfl, rfl⟩
  all_goals exact .inl rfl

theorem inReset_judgeAccess (hr : c ≠ .reset) : (judgeAccess c s).reg.inReset = s.reg.inReset := by
  cases c with
  | winBaseWrite v =>
    rcases windowWrite_cases (fun r => { r with winBase := v }) s with h | ⟨m, _, h⟩ <;>
      simp [actWinBase, h, refuse]
  | winSizeWrite v =>
    rcases windowWrite_cases (fun r => { r with winSize := if Config.maxWinSize < v then Config.maxWinSize else v }) s
      with h | ⟨m, _, h⟩ <;> simp [actWinSize, h, refuse]
  | eventsRead => rfl
  | lineEnableWrite v => rfl
  | reset => exact absurd rfl hr
  | _ => exact Good.inReset (good_judgeAccess rfl)

theorem sound_windowWrite {f : RegisterInterface → RegisterInterface} (hs : s.Sound)
    (hf : (f s.reg).winSize ≤ Config.maxWinSize) : (windowWrite f s).Sound := by
  rcases windowWrite_cases f s with h | ⟨m, _, h⟩ <;> rw [h]
  · exact (good_refuse (Good.refl s)).sound hs
  · exact { hs with window := hf }

/-- R177: the bytes that a cut-off write placed keep the canonical form of memory. -/
theorem memWf_cutAccess (h : memWf s.dram = true) : memWf (cutAccess s).dram = true := by
  unfold cutAccess
  split
  · split
    · unfold landPart
      split
      · exact memWf_memWriteSome _ _ _ h
      · exact h
    · exact h
  · exact h

theorem tableOk_identity : tableOk (List.replicate 129 65536) = true := by
  rw [tableOk, List.length_replicate, List.all_replicate]
  rfl

theorem zero_le_maxWinSize : (0 : Word) ≤ Config.maxWinSize := by decide

theorem sound_reset : State.reset.Sound where
  memory := rfl
  dither := by decide
  tables := by
    show (tableOk (List.replicate 129 65536) && tableOk (List.replicate 129 65536) &&
      tableOk (List.replicate 129 65536) && true && true) = true
    rw [tableOk_identity]
    rfl
  stack := Nat.zero_le _
  entries := Nat.zero_le _
  lens := rfl
  pace := Nat.zero_le _
  window := zero_le_maxWinSize
  copy := rfl
  port := rfl

/-- R165, R166: the reset state is sound whatever the reset cut off. -/
theorem sound_resetState (hs : s.Sound) : (resetState s).Sound :=
  { sound_reset with memory := memWf_cutAccess hs.memory, window := zero_le_maxWinSize }

theorem sound_judgeAccess (hs : s.Sound) : (judgeAccess c s).Sound := by
  cases c with
  | reset => exact sound_resetState hs
  | winBaseWrite v => exact sound_windowWrite hs hs.window
  | winSizeWrite v =>
    refine sound_windowWrite hs ?_
    simp only
    split
    · exact BitVec.le_refl _
    · next h => exact BitVec.not_lt.mp h
  | eventsRead => exact { hs with }
  | lineEnableWrite v => exact { hs with }
  | _ => exact Good.sound (good_judgeAccess rfl) hs

theorem controllerSettled_judgeAccess (hs : s.ControllerSettled) : (judgeAccess c s).ControllerSettled := by
  by_cases hr : c = .reset
  · subst hr
    exact fun _ => rfl
  · exact (keeps_judgeAccess hr).settled hs

theorem heldWait_judgeAccess (hs : s.HeldWait) : (judgeAccess c s).HeldWait := by
  by_cases hr : c = .reset
  · subst hr
    exact fun h => absurd h nofun
  · exact (keeps_judgeAccess hr).heldWait (inReset_judgeAccess hr) hs

/-! ### An access or a wake taken -/

theorem takeAccess_cases (c : Instr) (s : State) :
    (s.accessWaits c = true ∧ takeAccess c s = s.mapReg fun r => { r with held := r.held ++ [.access c] }) ∨
      takeAccess c s = judgeAccess c s := by
  cases h : s.accessWaits c
  · exact .inr (takeAccess_judged h)
  · exact .inl ⟨rfl, takeAccess_held h⟩

theorem sound_takeAccess (hs : s.Sound) : (takeAccess c s).Sound := by
  rcases takeAccess_cases c s with ⟨_, h⟩ | h <;> rw [h]
  · exact (good_hold (Good.refl s)).sound hs
  · exact sound_judgeAccess hs

theorem controllerSettled_takeAccess (hs : s.ControllerSettled) : (takeAccess c s).ControllerSettled := by
  rcases takeAccess_cases c s with ⟨_, h⟩ | h <;> rw [h]
  · exact hs
  · exact controllerSettled_judgeAccess hs

/-- What joins the held list outside a reset waits for the status write in progress. -/
theorem heldWait_hold {x : Held} (hx : s.reg.inReset = false → x.waits = true ∧ s.statusInFlight = true)
    (hs : s.HeldWait) : (s.mapReg fun r => { r with held := r.held ++ [x] }).HeldWait := by
  intro hn
  obtain ⟨hw, hi⟩ := hx hn
  exact ⟨by simp [(hs hn).1, hw], fun _ => hi⟩

theorem heldWait_takeAccess (hs : s.HeldWait) : (takeAccess c s).HeldWait := by
  rcases takeAccess_cases c s with ⟨hw, h⟩ | h <;> rw [h]
  · refine heldWait_hold (fun hn => ?_) hs
    simpa [State.accessWaits, hn, Held.waits] using hw
  · exact heldWait_judgeAccess hs

theorem wake_cases (s : State) :
    (s.statusInFlight = true ∧ wake s = s.mapReg fun r => { r with held := r.held ++ [.wake] }) ∨
      wake s = wakeNow s := by
  unfold wake
  split
  · next h => exact .inl ⟨h, rfl⟩
  · exact .inr rfl

theorem controllerSettled_wake (hs : s.ControllerSettled) : (wake s).ControllerSettled := by
  rcases wake_cases s with ⟨_, h⟩ | h <;> rw [h]
  · exact hs
  · exact (turn_wakeNow ▸ Turn.Keeps.refl s.turn : s.turn.Keeps (wakeNow s).turn).settled hs

theorem heldWait_wake (hs : s.HeldWait) : (wake s).HeldWait := by
  rcases wake_cases s with ⟨hi, h⟩ | h <;> rw [h]
  · exact heldWait_hold (fun _ => ⟨rfl, hi⟩) hs
  · exact (turn_wakeNow ▸ Turn.Keeps.refl s.turn : s.turn.Keeps (wakeNow s).turn).heldWait
      (good_wakeNow (Good.refl s)).inReset hs

/-! ### Everything that was held -/

/-- What taking an access and a wake keep, the judging of everything held keeps. -/
theorem drainHeld_invariant {P : State → Prop} (ha : ∀ c s, P s → P (takeAccess c s)) (hw : ∀ s, P s → P (wake s))
    (h : P (s.mapReg fun r => { r with held := [] })) : P (drainHeld s) := by
  have hheld : ∀ x s, P s → P (judgeHeld x s) := by
    intro x u hu
    cases x with
    | access c => exact ha c u hu
    | wake =>
      simp only [judgeHeld]
      split
      · exact hu
      · exact hw u hu
  have hall : ∀ (xs : List Held) (u : State), P u → P (judgeAll xs u) := by
    intro xs
    induction xs with
    | nil => exact fun u hu => hu
    | cons x xs ih => exact fun u hu => ih _ (hheld x u hu)
  exact hall _ _ h

theorem sound_drainHeld (hs : s.Sound) : (drainHeld s).Sound :=
  drainHeld_invariant (fun _ _ => sound_takeAccess) (fun _ hu => (good_wake (Good.refl _)).sound hu) { hs with }

theorem controllerSettled_drainHeld (hs : s.ControllerSettled) : (drainHeld s).ControllerSettled :=
  drainHeld_invariant (P := fun u => u.ControllerSettled) (fun _ _ => controllerSettled_takeAccess)
    (fun _ => controllerSettled_wake) hs

theorem heldWait_drainHeld : (drainHeld s).HeldWait :=
  drainHeld_invariant (P := fun u => u.HeldWait) (fun _ _ => heldWait_takeAccess) (fun _ => heldWait_wake)
    fun _ => ⟨rfl, fun h => absurd rfl h⟩

/-! ### What no held access touches -/

/-- Memory, LINE_ENABLE, TIME and the level seen stand, and no event is lost. -/
structure Kept (s t : State) : Prop where
  dram : t.dram = s.dram
  events : s.reg.events ||| t.reg.events = t.reg.events
  lineEnable : t.reg.lineEnable = s.reg.lineEnable
  time : t.reg.time = s.reg.time
  seen : t.reg.frameReadySeen = s.reg.frameReadySeen
  inReset : t.reg.inReset = s.reg.inReset

theorem Good.kept (h : Good s t) : Kept s t := ⟨h.dram, h.events, h.lineEnable, h.time, h.seen, h.inReset⟩

theorem Kept.trans {u : State} (h : Kept s t) (g : Kept t u) : Kept s u :=
  ⟨g.dram.trans h.dram, by rw [← g.events, ← BitVec.or_assoc, h.events], g.lineEnable.trans h.lineEnable,
    g.time.trans h.time, g.seen.trans h.seen, g.inReset.trans h.inReset⟩

theorem kept_windowWrite {f : RegisterInterface → RegisterInterface} (he : (f s.reg).events = s.reg.events)
    (hl : (f s.reg).lineEnable = s.reg.lineEnable) (ht : (f s.reg).time = s.reg.time)
    (hf : (f s.reg).frameReadySeen = s.reg.frameReadySeen) (hr : (f s.reg).inReset = s.reg.inReset) :
    Kept s (windowWrite f s) := by
  rcases windowWrite_cases f s with h | ⟨m, _, h⟩ <;> rw [h]
  · exact (good_refuse (Good.refl s)).kept
  · exact ⟨rfl, by simp [he], hl, ht, hf, hr⟩

/-- R143, R167: an access that a status write holds leaves memory and the other registers as they are. -/
theorem kept_judgeAccess (hw : waitsForStatus c = true) : Kept s (judgeAccess c s) := by
  cases c with
  | winBaseWrite v => exact kept_windowWrite rfl rfl rfl rfl rfl
  | winSizeWrite v => exact kept_windowWrite rfl rfl rfl rfl rfl
  | reset => exact Bool.noConfusion hw
  | eventsRead => exact Bool.noConfusion hw
  | lineEnableWrite v => exact Bool.noConfusion hw
  | _ => exact Good.kept (good_judgeAccess rfl)

theorem kept_judgeHeld {x : Held} (hx : s.reg.inReset = false → x.waits = true) : Kept s (judgeHeld x s) := by
  cases x with
  | access c =>
    simp only [judgeHeld]
    cases hw : s.accessWaits c with
    | true => rw [takeAccess_held hw]; exact (good_hold (Good.refl s)).kept
    | false =>
      rw [takeAccess_judged hw]
      have hr : s.reg.inReset = false := by
        unfold State.accessWaits at hw
        exact (Bool.or_eq_false_iff.mp hw).1
      exact kept_judgeAccess (hx hr)
  | wake =>
    simp only [judgeHeld]
    split
    · exact (Good.refl s).kept
    · exact (good_wake (Good.refl s)).kept

theorem kept_judgeAll (xs : List Held) (s : State) (hx : s.reg.inReset = false → xs.all Held.waits = true) :
    Kept s (judgeAll xs s) := by
  induction xs generalizing s with
  | nil => exact (Good.refl s).kept
  | cons x xs ih =>
    simp only [List.all_cons, Bool.and_eq_true] at hx
    have h1 := kept_judgeHeld (x := x) (s := s) fun hn => (hx hn).1
    exact h1.trans (ih _ fun hn => (hx (h1.inReset ▸ hn)).2)

theorem kept_drainHeld (hx : s.reg.inReset = false → s.reg.held.all Held.waits = true) : Kept s (drainHeld s) :=
  have h : Kept s (s.mapReg fun r => { r with held := [] }) := ⟨rfl, by simp, rfl, rfl, rfl, rfl⟩
  h.trans (kept_judgeAll s.reg.held _ hx)

end Sys2Proof.Machine
end

section
/-! PROOFS. Every row of the table: the invariants it keeps, and what of memory and the registers it can change. -/

namespace Sys2Proof.Machine

variable {s t : State} {c : Instr} {a : Access}

/-! ### The attempts on the bus -/

/-- R173, R177: what a write attempt that did not succeed leaves differs in memory and the count of free values. -/
theorem landPart_eq (a : Access) (s : State) : ∃ m n, landPart a s = { s with dram := m, freeCount := n } ∧
    (memWf s.dram = true → memWf m = true) := by
  unfold landPart
  split
  · exact ⟨_, _, rfl, memWf_memWriteSome _ _ _⟩
  · exact ⟨s.dram, s.freeCount, rfl, id⟩

theorem landFailed_cases (a : Access) (s : State) : ∃ m n, landFailed a s = { s with dram := m, freeCount := n } ∧
    (memWf s.dram = true → memWf m = true) := by
  unfold landFailed
  split
  · exact ⟨s.dram, s.freeCount, rfl, id⟩
  · exact landPart_eq a s

/-- R174: the Port is free once the access has ended, and its requester goes on. -/
theorem good_endAccess {ok : Bool} {d : List Byte} : Good s (endAccess a ok d s) :=
  good_report (good_mapPort (Good.refl s) fun _ hp => by
    simp only [portBounded, Bool.and_eq_true] at hp ⊢
    exact ⟨hp.1, rfl⟩)

theorem keeps_endAccess {x : Turn} {ok : Bool} {d : List Byte} (h : x.Keeps s.turn) :
    x.Keeps (endAccess a ok d s).turn := keeps_report h

/-- R174: the access in flight that has attempts left may wait for its delay or issue the next one. -/
theorem portBounded_repeat {p : Port} {b : Access} {x y : Word} (hi : p.inFlight = some a)
    (ha : a.attempts ≤ p.retryCount) (hb : b = { a with phase := .delay } ∨
      b = { a with phase := .attempt, attempts := a.attempts + 1 }) (hp : portBounded p = true) :
    portBounded { p with inFlight := some b, delayStart := x, attemptStart := y } = true := by
  simp only [portBounded, hi, Option.all_some, accessBounded, Bool.and_eq_true, decide_eq_true_eq] at hp ⊢
  obtain ⟨hcount, ⟨hone, _⟩, _⟩ := hp
  rcases hb with rfl | rfl <;> simp [ha] <;> omega

/-- A step at the bus: memory may have changed, the rest is the engine's own work. -/
def BusWork (s t : State) : Prop :=
  ∃ m n, (memWf s.dram = true → memWf m = true) ∧ Good { s with dram := m, freeCount := n } t ∧ s.turn.Keeps t.turn

theorem busWork_attemptSucceeded : BusWork s (attemptSucceeded a s) := by
  unfold attemptSucceeded
  split
  · exact ⟨_, s.freeCount, memWf_memWrite _, good_endAccess, keeps_endAccess (Turn.Keeps.refl s.turn)⟩
  · exact ⟨s.dram, s.freeCount, id, good_endAccess, keeps_endAccess (Turn.Keeps.refl s.turn)⟩

theorem busWork_attemptFailed (hi : s.port.inFlight = some a) : BusWork s (attemptFailed a s) := by
  unfold attemptFailed
  split
  · next ha =>
    obtain ⟨m, n, hl, hm⟩ := landPart_eq a s
    refine ⟨m, n, hm, ?_⟩
    rw [hl]
    dsimp only
    split
    · exact ⟨{ Good.refl { s with dram := m, freeCount := n } with inner := fun i => { i with
        port := portBounded_repeat (p := s.port) hi ha (.inr rfl) i.port } }, Turn.Keeps.refl s.turn⟩
    · exact ⟨{ Good.refl { s with dram := m, freeCount := n } with inner := fun i => { i with
        port := portBounded_repeat (p := s.port) (y := s.port.attemptStart) hi ha (.inl rfl) i.port } },
        Turn.Keeps.refl s.turn⟩
  · obtain ⟨m, n, hl, hm⟩ := landFailed_cases a s
    rw [hl]
    exact ⟨m, n, hm, good_endAccess, keeps_endAccess (Turn.Keeps.refl s.turn)⟩

theorem attempt_inFlight (h : s.attempt = some a) : s.port.inFlight = some a := (Option.filter_eq_some_iff.mp h).1

theorem BusWork.settled (h : BusWork s t) : BusWork s (settle t) := by
  obtain ⟨m, n, hm, hg, hk⟩ := h
  exact ⟨m, n, hm, good_settle hg, keeps_settle hk⟩

theorem exec_endsAttempt (h : endsAttempt c = true) (s : State) :
    ∃ t, exec c s = .next t ∧ BusWork s t ∧ (s.PortSettled → t.PortSettled) := by
  cases c with
  | memoryAttemptAnswer answer others =>
    show ∃ t, execMemoryAttemptAnswer answer others s = _ ∧ _
    have land : ∀ {t}, BusWork (s.setDram (memLand s.dram others)) t → BusWork s t := by
      rintro t ⟨m, n, hm, hg, hk⟩
      exact ⟨m, n, fun hs => hm (memWf_memLand hs), hg, hk⟩
    have idle : BusWork s (s.setDram (memLand s.dram others)) :=
      ⟨_, s.freeCount, memWf_memLand, Good.refl _, Turn.Keeps.refl _⟩
    simp only [execMemoryAttemptAnswer]
    split
    · next a ha =>
      split
      · exact ⟨_, rfl, idle, id⟩
      · cases answer with
        | succeeded => exact ⟨_, rfl, land busWork_attemptSucceeded.settled, fun _ => portSettled_settle _⟩
        | failed =>
          exact ⟨_, rfl, land (busWork_attemptFailed (attempt_inFlight ha)).settled, fun _ => portSettled_settle _⟩
        | late => exact ⟨_, rfl, idle, id⟩
    · exact ⟨_, rfl, idle, id⟩
  | memoryAttemptTimeout =>
    show ∃ t, execMemoryAttemptTimeout s = _ ∧ _
    have idle : BusWork s s := ⟨_, s.freeCount, id, Good.refl _, Turn.Keeps.refl _⟩
    unfold execMemoryAttemptTimeout
    split
    · next a ha =>
      split
      · exact ⟨_, rfl, (busWork_attemptFailed (attempt_inFlight ha)).settled, fun _ => portSettled_settle _⟩
      · exact ⟨_, rfl, idle, id⟩
    · exact ⟨_, rfl, idle, id⟩
  | _ => exact Bool.noConfusion h

/-- R174: the next attempt is issued for an access in DELAY, which has one left. -/
theorem ownWork_retryDelayExpiry : OwnWork s (exec .retryDelayExpiry s) := by
  show OwnWork s (execRetryDelayExpiry s)
  unfold execRetryDelayExpiry
  split
  · next a ha =>
    split
    · obtain ⟨hi, hd⟩ := Option.filter_eq_some_iff.mp ha
      refine ⟨_, rfl, { Good.refl s with inner := fun i => { i with port := ?_ } }, Turn.Keeps.refl _, nofun⟩
      have hb := i.port
      simp only [portBounded, hi, Option.all_some, accessBounded, Bool.and_eq_true, Bool.or_eq_true,
        decide_eq_true_eq] at hb
      have hleft : a.attempts ≤ s.port.retryCount := hb.2.2.resolve_left (by simp_all)
      exact portBounded_repeat (x := s.port.delayStart) hi hleft (.inr rfl) i.port
    · exact ownWork_idle
  · exact ownWork_idle

/-! ### The ends of the controller's work -/

theorem configReadDone_cases (s : State) : exec .configReadDone s = .next s ∨
    ∃ why ok data, s.statusInFlight = false ∧
      exec .configReadDone s = .next (settle (configEnded why ok data s)) := by
  show execConfigReadDone s = _ ∨ ∃ why ok data, _ ∧ execConfigReadDone s = _
  unfold execConfigReadDone
  split
  · next why ok data hj => exact .inr ⟨why, ok, data, by simp [State.statusInFlight, hj], rfl⟩
  · exact .inl rfl

theorem statusWriteDone_cases (s : State) : exec .statusWriteDone s = .next s ∨
    ∃ w ok, exec .statusWriteDone s = .next (settle (statusEnded w ok s)) := by
  show execStatusWriteDone s = _ ∨ ∃ w ok, execStatusWriteDone s = _
  unfold execStatusWriteDone
  split
  · next w _ _ ok _ hj => exact .inr ⟨w, ok, rfl⟩
  · exact .inl rfl

theorem configEnded_kick (why : ConfigWhy) (ok : Bool) (data : List Byte) (s : State) :
    (configEnded why ok data s).ControllerSettled ∧ (configEnded why ok data s).reg.held = s.reg.held := by
  unfold configEnded
  refine ⟨controllerSettled_kick _, ?_⟩
  have h0 : (⟨s.reg.held, none, s.ec.queue⟩ : Turn).Keeps (s.mapEc fun c => { c with job := none }).turn :=
    Turn.Keeps.refl _
  refine (keeps_kick (a := ⟨s.reg.held, none, s.ec.queue⟩) ?_).held
  split
  · exact keeps_startRead h0
  · exact keeps_startRead h0
  · exact keeps_reloadRead h0
  · exact keeps_boundaryRead h0

/-- What a status write's end leaves before the held accesses are judged. -/
def statusDone (w : StatusWrite) (ok : Bool) (s : State) : State :=
  let s := (s.mapEc fun c => { c with job := none }).setEvents (w.onEnd ||| eventWhen ok w.onSuccess)
  kick (if ok then continueAfter w.after s else statusFail w s)

theorem statusEnded_eq (w : StatusWrite) (ok : Bool) (s : State) :
    statusEnded w ok s = kick (drainHeld (statusDone w ok s)) := rfl

theorem good_statusDone {w : StatusWrite} {ok : Bool} : Good s (statusDone w ok s) := by
  have h0 : Good s ((s.mapEc fun c => { c with job := none }).setEvents (w.onEnd ||| eventWhen ok w.onSuccess)) :=
    good_setEvents (good_mapEc (Good.refl s) rfl)
  unfold statusDone
  refine good_kick ?_
  split
  · exact good_continueAfter h0
  · exact good_statusFail h0

theorem held_statusDone {w : StatusWrite} {ok : Bool} : (statusDone w ok s).reg.held = s.reg.held := by
  have h0 : (⟨s.reg.held, none, s.ec.queue⟩ : Turn).Keeps ((s.mapEc fun c => { c with job := none }).setEvents
      (w.onEnd ||| eventWhen ok w.onSuccess)).turn := Turn.Keeps.refl _
  unfold statusDone
  refine (keeps_kick (a := ⟨s.reg.held, none, s.ec.queue⟩) ?_).held
  split
  · exact keeps_continueAfter h0
  · exact keeps_statusFail h0

/-! ### The invariants -/

/-- The invariants of the whole machine, carried over a step. -/
structure Invariants (s t : State) : Prop where
  sound : s.Sound → t.Sound
  port : s.PortSettled → t.PortSettled
  controller : s.ControllerSettled → t.ControllerSettled
  heldWait : s.HeldWait → t.HeldWait

theorem Invariants.refl (s : State) : Invariants s s := ⟨id, id, id, id⟩

theorem OwnWork.invariants {o : Host.Outcome State Fault Refusal} (h : OwnWork s o) :
    ∃ t, o = .next t ∧ Invariants s t := by
  obtain ⟨t, ht, hg, hk, hp⟩ := h
  exact ⟨t, ht, hg.sound, hp, hk.settled, hk.heldWait hg.inReset⟩

theorem BusWork.invariants (h : BusWork s t) (hp : s.PortSettled → t.PortSettled) : Invariants s t := by
  obtain ⟨m, n, hm, hg, hk⟩ := h
  exact ⟨fun hs => hg.sound { hs with memory := hm hs.memory }, hp, hk.settled, hk.heldWait hg.inReset⟩

/-- What the Port takes up at the end of a step keeps each invariant. -/
theorem invariants_settle (hs : s.Sound → t.Sound) (hc : s.ControllerSettled → t.ControllerSettled)
    (hw : s.HeldWait → t.HeldWait) : Invariants s (settle t) := by
  have hg : Good t (settle t) := good_settle (Good.refl t)
  have hk : t.turn.Keeps (settle t).turn := keeps_settle (Turn.Keeps.refl _)
  exact ⟨fun h => hg.sound (hs h), fun _ => portSettled_settle t, fun h => hk.settled (hc h),
    fun h => hk.heldWait hg.inReset (hw h)⟩

theorem invariants_wake {f : State} (hs : s.Sound → f.Sound) (hc : s.ControllerSettled → f.ControllerSettled)
    (hw : s.HeldWait → f.HeldWait) : Invariants s (settle (wake f)) :=
  invariants_settle (fun h => (good_wake (Good.refl f)).sound (hs h)) (fun h => controllerSettled_wake (hc h))
    fun h => heldWait_wake (hw h)

/-- The rows that are no register access and end neither an attempt nor a piece of work of the look or the frame. -/
def isOther : Instr → Bool
  | .powerOnReset | .frameReadyEdge | .rescanTimerExpiry | .retryDelayExpiry | .configReadDone | .statusWriteDone
  | .frameReadyFallingEdge | .resetEnd _ | .timeTick => true
  | _ => false

theorem row_cases (c : Instr) :
    isAccess c = true ∨ endsWork c = true ∨ endsAttempt c = true ∨ isOther c = true := by
  cases c <;>
    first | exact .inl rfl | exact .inr (.inl rfl) | exact .inr (.inr (.inl rfl)) | exact .inr (.inr (.inr rfl))

theorem exec_invariants (c : Instr) (s : State) : ∃ t, exec c s = .next t ∧ Invariants s t := by
  rcases row_cases c with h | h | h | h
  · rw [exec_access h]
    exact ⟨_, rfl, invariants_settle sound_takeAccess controllerSettled_takeAccess heldWait_takeAccess⟩
  · exact (ownWork_of_endsWork h).invariants
  · obtain ⟨t, ht, hb, hp⟩ := exec_endsAttempt h s
    exact ⟨t, ht, hb.invariants hp⟩
  · cases c with
    | powerOnReset =>
      exact ⟨resetState s, rfl, sound_resetState, fun _ _ => rfl, fun _ _ => rfl, fun _ h => Bool.noConfusion h⟩
    | frameReadyEdge =>
      show ∃ t, execFrameReadyEdge s = _ ∧ _
      unfold execFrameReadyEdge
      split
      · exact ⟨_, rfl, invariants_wake (fun h => { h with }) id id⟩
      · exact ⟨_, rfl, Invariants.refl s⟩
    | rescanTimerExpiry =>
      show ∃ t, execRescanTimerExpiry s = _ ∧ _
      unfold execRescanTimerExpiry
      split
      · exact ⟨_, rfl, invariants_wake (fun h => { h with }) id id⟩
      · exact ⟨_, rfl, Invariants.refl s⟩
    | retryDelayExpiry =>
      exact ownWork_retryDelayExpiry.invariants
    | configReadDone =>
      rcases configReadDone_cases s with h | ⟨why, ok, data, hn, h⟩ <;> rw [h]
      · exact ⟨_, rfl, Invariants.refl s⟩
      · have hg : Good s (configEnded why ok data s) := good_configEnded (Good.refl s)
        obtain ⟨hk, hheld⟩ := configEnded_kick why ok data s
        refine ⟨_, rfl, invariants_settle hg.sound (fun _ => hk) fun hw hr => ?_⟩
        obtain ⟨_, hin⟩ := hw (hg.inReset ▸ hr)
        have hnone : s.reg.held = [] := by
          by_contra hne
          exact absurd (hin hne) (by simp [hn])
        rw [hheld, hnone]
        exact ⟨rfl, fun h => absurd rfl h⟩
    | statusWriteDone =>
      rcases statusWriteDone_cases s with h | ⟨w, ok, h⟩ <;> rw [h]
      · exact ⟨_, rfl, Invariants.refl s⟩
      · rw [statusEnded_eq]
        refine ⟨_, rfl, invariants_settle (fun hs => ?_) (fun _ => controllerSettled_kick _) fun _ => ?_⟩
        · exact (good_kick (Good.refl _)).sound (sound_drainHeld (good_statusDone.sound hs))
        · exact (keeps_kick (Turn.Keeps.refl _)).heldWait (by simp) heldWait_drainHeld
    | frameReadyFallingEdge =>
      show ∃ t, execFrameReadyFallingEdge s = _ ∧ _
      unfold execFrameReadyFallingEdge
      split
      · exact ⟨_, rfl, fun h => { h with }, id, id, id⟩
      · exact ⟨_, rfl, Invariants.refl s⟩
    | resetEnd level =>
      show ∃ t, execResetEnd level s = _ ∧ _
      unfold execResetEnd endReset
      split
      · exact ⟨_, rfl, invariants_settle (fun h => sound_drainHeld { h with })
          (fun h => controllerSettled_drainHeld (s := s.mapReg _) h) fun _ => heldWait_drainHeld⟩
      · exact ⟨_, rfl, Invariants.refl s⟩
    | timeTick =>
      show ∃ t, execTimeTick s = _ ∧ _
      unfold execTimeTick
      split
      · exact ⟨_, rfl, Invariants.refl s⟩
      · exact ⟨_, rfl, fun h => { h with }, id, id, id⟩
    | _ => exact Bool.noConfusion h

/-- One step carries the invariants. -/
theorem step_invariants (h : step s = .next t) : Invariants s t := by
  cases hp : s.pending with
  | nil =>
    simp only [step, hp] at h
    cases h
    exact Invariants.refl s
  | cons c rest =>
    simp only [step, hp] at h
    obtain ⟨u, hu, hi⟩ := exec_invariants c { s with pending := rest }
    rw [hu] at h
    cases h
    exact ⟨fun hs => hi.sound { hs with }, hi.port, hi.controller, hi.heldWait⟩

/-- Settles O4: each row keeps every part of soundness. -/
theorem everyStepKeepsSoundness : Obligations.EveryStepKeepsSoundness :=
  fun _ _ hs h => (step_invariants h).sound hs

/-- Settles O5: a step ends with the Port and the controller having taken up what they can. -/
theorem everyStepKeepsTheServersBusy : Obligations.EveryStepKeepsTheServersBusy :=
  fun _ _ h => ⟨(step_invariants h).port, (step_invariants h).controller⟩

/-- Settles O6: what joins the held list waits for a status write, and what such a write held is judged at its end. -/
theorem everyStepKeepsWhatIsHeldWaiting : Obligations.EveryStepKeepsWhatIsHeldWaiting :=
  fun _ _ hs h => (step_invariants h).heldWait hs

/-- Settles O1: the step takes the front off the queue. -/
theorem stepRunsTheFrontCommand : Obligations.StepRunsTheFrontCommand := fun _ _ _ => ⟨rfl, rfl⟩

/-- Settles O2: each row answers a next state. -/
theorem noCommandStopsTheEngine : Obligations.NoCommandStopsTheEngine := fun c s =>
  let ⟨t, ht, _⟩ := exec_invariants c s
  ⟨t, ht⟩

/-- Settles O3: at reset nothing is in progress and nothing waits. -/
theorem resetStateIsSound : Obligations.ResetStateIsSound :=
  ⟨sound_reset, ⟨fun _ => rfl, fun _ => rfl⟩, fun _ => ⟨rfl, fun h => absurd rfl h⟩⟩

/-! ### What a row can change -/

/-- What of memory and of the registers a row that is no reset can change. -/
structure Changes (c : Instr) (s t : State) : Prop where
  dram : endsAttempt c = false → t.dram = s.dram
  events : c ≠ .eventsRead → s.reg.events ||| t.reg.events = t.reg.events
  lineEnable : (∀ v, c ≠ .lineEnableWrite v) → t.reg.lineEnable = s.reg.lineEnable
  winBase : (∀ v, c ≠ .winBaseWrite v) → c ≠ .statusWriteDone → t.reg.winBase = s.reg.winBase
  winSize : (∀ v, c ≠ .winSizeWrite v) → c ≠ .statusWriteDone → t.reg.winSize = s.reg.winSize
  time : c ≠ .timeTick → t.reg.time = s.reg.time
  seen : c ≠ .frameReadyEdge → c ≠ .frameReadyFallingEdge → t.reg.frameReadySeen = s.reg.frameReadySeen

theorem Good.changes (h : Good s t) : Changes c s t :=
  ⟨fun _ => h.dram, fun _ => h.events, fun _ => h.lineEnable, fun _ _ => h.winBase, fun _ _ => h.winSize,
    fun _ => h.time, fun _ _ => h.seen⟩

theorem Kept.changes (h : Kept s t) : Changes .statusWriteDone s t :=
  ⟨fun _ => h.dram, fun _ => h.events, fun _ => h.lineEnable, fun _ hn => absurd rfl hn, fun _ hn => absurd rfl hn,
    fun _ => h.time, fun _ _ => h.seen⟩

/-- The engine's own work adds nothing to what the row changes. -/
theorem Changes.good {u : State} (h : Changes c s t) (g : Good t u) : Changes c s u where
  dram hc := g.dram.trans (h.dram hc)
  events hc := by rw [← g.events, ← BitVec.or_assoc, h.events hc]
  lineEnable hc := g.lineEnable.trans (h.lineEnable hc)
  winBase hc hd := g.winBase.trans (h.winBase hc hd)
  winSize hc hd := g.winSize.trans (h.winSize hc hd)
  time hc := g.time.trans (h.time hc)
  seen hc hd := g.seen.trans (h.seen hc hd)

theorem changes_judgeAccess (hr : c ≠ .reset) : Changes c s (judgeAccess c s) := by
  cases c with
  | reset => exact absurd rfl hr
  | winBaseWrite v =>
    rw [judgeAccess_winBaseWrite, actWinBase]
    rcases windowWrite_cases (fun r => { r with winBase := v }) s with h | ⟨m, _, h⟩ <;> rw [h]
    · exact (good_refuse (Good.refl s)).changes
    · exact { (Good.refl s).changes with winBase := fun hn => absurd rfl (hn v), events := fun _ => by simp }
  | winSizeWrite v =>
    rw [judgeAccess_winSizeWrite, actWinSize]
    rcases windowWrite_cases (fun r => { r with winSize := if Config.maxWinSize < v then Config.maxWinSize else v }) s
      with h | ⟨m, _, h⟩ <;> rw [h]
    · exact (good_refuse (Good.refl s)).changes
    · exact { (Good.refl s).changes with winSize := fun hn => absurd rfl (hn v), events := fun _ => by simp }
  | eventsRead => exact { (Good.refl s).changes with events := fun hn => absurd rfl hn }
  | lineEnableWrite v => exact { (Good.refl s).changes with lineEnable := fun hn => absurd rfl (hn v) }
  | _ => exact Good.changes (good_judgeAccess rfl)

theorem changes_takeAccess (hr : c ≠ .reset) : Changes c s (takeAccess c s) := by
  rcases takeAccess_cases c s with ⟨_, h⟩ | h <;> rw [h]
  · exact (good_hold (Good.refl s)).changes
  · exact changes_judgeAccess hr

theorem exec_changes (hw : s.HeldWait) (hr : isReset c = false) (h : exec c s = .next t) : Changes c s t := by
  rcases row_cases c with ha | ha | ha | ha
  · rw [exec_access ha] at h
    cases h
    exact (changes_takeAccess fun hc => by simp [hc, isReset] at hr).good (good_settle (Good.refl _))
  · obtain ⟨u, hu, hg, _⟩ := ownWork_of_endsWork (s := s) ha
    cases hu.symm.trans h
    exact hg.changes
  · obtain ⟨u, hu, ⟨m, n, _, hg, _⟩, _⟩ := exec_endsAttempt ha s
    cases hu.symm.trans h
    exact { hg.changes (c := c) with dram := fun hn => absurd hn (by simp [ha]) }
  · cases c with
    | powerOnReset =>
      exact Bool.noConfusion hr
    | frameReadyEdge =>
      replace h : execFrameReadyEdge s = .next t := h
      unfold execFrameReadyEdge at h
      split at h <;> cases h
      · have hc : Changes .frameReadyEdge s (s.mapReg fun r => { r with frameReadySeen := true }) :=
          { (Good.refl s).changes with seen := fun hn => absurd rfl hn }
        exact hc.good (good_settle (good_wake (Good.refl _)))
      · exact (Good.refl s).changes
    | rescanTimerExpiry =>
      replace h : execRescanTimerExpiry s = .next t := h
      unfold execRescanTimerExpiry at h
      split at h <;> cases h
      · exact (good_settle (good_wake (good_mapEc (Good.refl s) rfl))).changes
      · exact (Good.refl s).changes
    | retryDelayExpiry =>
      obtain ⟨u, hu, hg, _⟩ := ownWork_retryDelayExpiry (s := s)
      cases hu.symm.trans h
      exact hg.changes
    | configReadDone =>
      rcases configReadDone_cases s with hc | ⟨why, ok, data, _, hc⟩ <;> cases hc.symm.trans h
      · exact (Good.refl s).changes
      · exact (good_settle (good_configEnded (Good.refl s))).changes
    | statusWriteDone =>
      rcases statusWriteDone_cases s with hc | ⟨w, ok, hc⟩ <;> cases hc.symm.trans h
      · exact (Good.refl s).changes
      · rw [statusEnded_eq]
        have hd : Kept (statusDone w ok s) (drainHeld (statusDone w ok s)) := kept_drainHeld fun hn => by
          rw [held_statusDone]
          exact (hw (good_statusDone.inReset ▸ hn)).1
        exact (good_statusDone.kept.trans hd).changes.good (good_settle (good_kick (Good.refl _)))
    | frameReadyFallingEdge =>
      replace h : execFrameReadyFallingEdge s = .next t := h
      unfold execFrameReadyFallingEdge at h
      split at h <;> cases h
      · exact { (Good.refl s).changes with seen := fun _ hn => absurd rfl hn }
      · exact (Good.refl s).changes
    | resetEnd level =>
      exact Bool.noConfusion hr
    | timeTick =>
      replace h : execTimeTick s = .next t := h
      unfold execTimeTick at h
      split at h <;> cases h
      · exact (Good.refl s).changes
      · exact { (Good.refl s).changes with time := fun hn => absurd rfl hn }
    | _ => exact Bool.noConfusion ha

/-- Settles O7: of the rows that are no reset, only the ends of an attempt reach memory. -/
theorem memoryChangesOnlyAtTheBus : Obligations.MemoryChangesOnlyAtTheBus :=
  fun _ _ _ hw ha hr h a => by rw [(exec_changes hw hr h).dram ha]

/-- Settles O8: every row but EVENTS_READ and the resets only adds events. -/
theorem eventsStayUntilReadOrReset : Obligations.EventsStayUntilReadOrReset :=
  fun _ _ _ hw hc hr h => (exec_changes hw hr h).events hc

/-- Settles O9: what each row can change, register by register. -/
theorem registersChangeOnlyByTheirCommands : Obligations.RegistersChangeOnlyByTheirCommands :=
  fun _ _ _ hw hr h =>
    have hc := exec_changes hw hr h
    ⟨hc.lineEnable, hc.winBase, hc.winSize, hc.time, hc.seen⟩

end Sys2Proof.Machine
end

section
/-! PROOFS. The commands and the resets: what each row leaves in each engine state (R151 to R156, R159, R160, R164 to
R166, R178). -/

namespace Sys2Proof.Machine

variable {s : State} {c : Instr}

/-! ### Resets -/

/-- R177: a reset cuts off at most the bytes of the write attempt in flight. -/
theorem cutAccess_eq (hw : memWf s.dram = true) : ∃ m n, cutAccess s = { s with dram := m, freeCount := n } ∧
    ∀ a, (∀ x bytes, s.port.inFlight = some x → x.phase = .attempt → x.req.data = some bytes →
      a < x.address ∨ x.address + bytes.length ≤ a) → memGet m a = memGet s.dram a := by
  have untouched : ∃ m n, s = { s with dram := m, freeCount := n } ∧
      ∀ a, (∀ x bytes, s.port.inFlight = some x → x.phase = .attempt → x.req.data = some bytes →
        a < x.address ∨ x.address + bytes.length ≤ a) → memGet m a = memGet s.dram a :=
    ⟨s.dram, s.freeCount, rfl, fun _ _ => rfl⟩
  unfold cutAccess
  split
  · next x hi =>
    split
    · next hp =>
      unfold landPart
      split
      · next bytes hd =>
        refine ⟨_, _, rfl, fun a ha => ?_⟩
        have := ha x bytes hi hp hd
        rw [memGet_memWriteSome _ _ _ _ hw, if_neg (by omega)]
      · exact untouched
    · exact untouched
  · exact untouched

theorem settle_resetState (s : State) : settle (resetState s) = resetState s := settle_empty rfl

/-- Settles O10: the cut-off access is all that a reset does to memory. -/
theorem resetsClearTheBlock : Obligations.ResetsClearTheBlock := by
  intro s hw
  obtain ⟨m, n, hcut, hmem⟩ := cutAccess_eq hw
  refine ⟨resetState s, rfl, fun hr => ?_, ?_, fun a ha => ?_⟩
  · rw [exec_reset_judged hr, finish, actReset, settle_resetState]
  · unfold resetState
    rw [hcut]
  · unfold resetState
    rw [hcut]
    exact hmem a ha

/-! ### The controller's turn -/

/-- R170: a status write asked for while the controller has an access in progress waits for its turn. -/
theorem requestStatus_queued {w : StatusWrite} (hj : s.ec.job.isSome = true) :
    requestStatus w s = { s with ec := { s.ec with
      queue := s.ec.queue ++ [.status { w with onEnd := w.onEnd ||| s.ec.eventsDue }]
      eventsDue := 0, cursorDue := false } } :=
  kick_of_job (s := s.mapEc _) hj

theorem settle_requestStatus_queued {w : StatusWrite} (hp : s.PortSettled) (hj : s.ec.job.isSome = true) :
    settle (requestStatus w s) = { s with ec := { s.ec with
      queue := s.ec.queue ++ [.status { w with onEnd := w.onEnd ||| s.ec.eventsDue }]
      eventsDue := 0, cursorDue := false } } := by
  rw [requestStatus_queued hj]
  exact settle_of_portSettled (by exact hp)

/-- R153, R154, R170: the move to STOPPING during a configuration read has its status write wait for that read. -/
theorem settle_toStopping_reading (hp : s.PortSettled) (hj : s.ec.job.isSome = true) (he : s.ec.engine ≠ .stopping) :
    settle (toStopping s) = { s with ec := { s.ec with
      engine := .stopping, queue := s.ec.queue ++ [.status { onEnd := s.ec.eventsDue }]
      eventsDue := 0, cursorDue := false } } := by
  rw [toStopping, if_neg he, settle_requestStatus_queued (by exact hp) (by exact hj)]
  simp [State.mapEc]

theorem settle_toStopping_free (hc : s.ControllerFree) (he : s.ec.engine ≠ .stopping) :
    settle (toStopping s) = State.reporting {} { s with ec := { s.ec with engine := .stopping } } := by
  rw [toStopping, if_neg he]
  exact settle_requestStatus (s := s.mapEc fun c => { c with engine := .stopping }) hc

/-- A configuration read in progress is no status write. -/
theorem open_of_reading {why : ConfigWhy} {done ok : Bool} {data : List Byte} (hr : s.reg.inReset = false)
    (hj : s.ec.job = some { job := .config why, ended := done, ok := ok, data := data }) : s.Open :=
  ⟨hr, by simp [State.statusInFlight, hj]⟩

/-! ### START -/

theorem clearForStart_eq (hw : s.work = none) : clearForStart s =
    { s with
        ec := { s.ec.quiet with
                engine := .starting, haltReason := .noHalt, haltRecord := 0, cursor := 0, linkWait := false
                cfgValid := false, groupsTaken := 0, groupsRetired := 0, framesDone := 0, framesFaulted := 0
                derivedFilled := 0, derivedDropped := 0, derivedSkipped := 0, lastFrameNumber := 0 }
        chain := {}, lens := {}, cache := {}, pools := {}
        pace := { s.pace with overruns := 0, consecutive := 0, relief := false, reliefForTake := false } } := by
  simp only [clearForStart, hw, leftWork]
  rw [← hw]
  rfl

/-- Settles O11: what START clears, then its status write. -/
theorem startBegins : Obligations.StartBegins := by
  refine ⟨fun _ => rfl, fun s ⟨hr, hc, hw⟩ he => ?_⟩
  obtain ⟨hj, hq, hsize, hp⟩ := hc
  rw [exec_start_judged (open_of_controllerFree hr ⟨hj, hq, hsize, hp⟩), finish, actStart, if_pos ⟨he, hsize⟩,
    clearForStart_eq hw, settle_requestStatus (by exact ⟨hj, hq, hsize, hp⟩)]

/-! ### STOP and ABORT -/

theorem settle_stopParked_idle (hc : s.ControllerFree) (hw : s.work = none) :
    settle (stopParked s) = State.reporting { onSuccess := evStopped } s.stopped := by
  rw [stopParked, if_neg (by simp [hw, State.configBusy, hc.1, hc.2.1]), settle_enterStopped hc hw]

/-- R153, R154: in PARKED a STOP or ABORT is remembered while work is in progress. -/
theorem settle_stopParked_busy (hp : s.PortSettled) (hb : s.work.isSome = true ∨ s.configBusy = true) :
    settle (stopParked s) = { s with ec := { s.ec with stopAsked := true } } := by
  rw [stopParked, if_pos (by simpa using hb)]
  exact settle_of_portSettled (by exact hp)

/-- Settles O12: the branches of STOP by the engine's state. -/
theorem stopStops : Obligations.StopStops := by
  intro s hr
  refine ⟨fun hc => ⟨fun hw he => ?_, fun he => ?_⟩, fun hp hn he hb => ?_, fun why done ok data hp he hj => ?_⟩
  · rw [exec_stop_judged (open_of_controllerFree hr hc), finish]
    rcases he with he | he
    · rw [actStop, he]
      exact congrArg _ (settle_stopParked_idle hc hw)
    · simp only [actStop, he, if_pos hc.2.2.1]
      exact congrArg _ (settle_enterStopped hc hw)
  · rw [exec_stop_judged (open_of_controllerFree hr hc), finish, actStop, he]
    exact congrArg _ (settle_toStopping_free hc (by simp [he]))
  · rw [exec_stop_judged ⟨hr, hn⟩, finish, actStop, he]
    exact congrArg _ (settle_stopParked_busy hp hb)
  · have hmove := settle_toStopping_reading hp (by simp [hj]) (by rcases he with he | he <;> simp [he])
    rw [exec_stop_judged (open_of_reading hr hj), finish, ← hmove]
    rcases he with he | he <;> rw [actStop, he]

/-- R154: what ABORT marks as ended when no group is in flight. -/
def State.abortEnds (s : State) : Bool := s.startReadBusy || (s.ec.boundaryLast.isNone && s.work.isSome)

theorem abortActive_inFlight (h : s.chain.flight.inFlight = true) :
    abortActive s = toStopping { s with ec := { s.ec with abortReq := true } } := by
  rw [abortActive, if_pos h]
  rfl

theorem abortActive_noGroup (h : s.chain.flight.inFlight = false) :
    abortActive s = toStopping { s with ec := { s.ec with endedByAbort := s.ec.endedByAbort || s.abortEnds } } := by
  rw [abortActive, if_neg (by simp [h])]
  rfl

theorem settle_abortActive_stopping (hp : s.PortSettled) (he : s.ec.engine = .stopping)
    (h : s.chain.flight.inFlight = false) :
    settle (abortActive s) = { s with ec := { s.ec with endedByAbort := s.ec.endedByAbort || s.abortEnds } } := by
  rw [abortActive_noGroup h, toStopping, if_pos (by exact he)]
  exact settle_of_portSettled (by exact hp)

/-- An ABORT that ends nothing leaves the mark as it is. -/
theorem unmarked (s : State) : { s with ec := { s.ec with endedByAbort := s.ec.endedByAbort || false } } = s := by
  simp

/-- Settles O13: the branches of ABORT by the engine's state and what is in progress. -/
theorem abortEndsTheWork : Obligations.AbortEndsTheWork := by
  intro s ho hp
  rw [exec_abort_judged ho]
  unfold finish
  refine ⟨fun hc => ⟨fun he hw => ?_, fun he hi => ?_, fun he hi => ?_⟩, fun he hb => ?_, fun he hi => ?_,
    fun he hi hb => ⟨fun hw => ?_, fun why done ok data hw hj => ⟨fun hy => ?_, fun hy => ?_⟩⟩,
    fun done ok data he hi hb hw hj => ?_, fun done ok data hi hb hj => ⟨fun he => ?_, fun he => ?_⟩, fun he => ?_⟩
  · rw [actAbort, he]
    exact congrArg _ (settle_stopParked_idle hc hw)
  · rw [actAbort, he]
    refine congrArg _ ((congrArg _ (abortActive_inFlight hi)).trans ?_)
    exact settle_toStopping_free (s := { s with ec := { s.ec with abortReq := true } }) hc (by simp [he])
  · have ends : s.abortEnds = (s.ec.boundaryLast.isNone && s.work.isSome) := by
      simp [State.abortEnds, State.startReadBusy, hc.1]
    rw [actAbort, he, ← ends]
    refine congrArg _ ((congrArg _ (abortActive_noGroup hi)).trans ?_)
    exact settle_toStopping_free
      (s := { s with ec := { s.ec with endedByAbort := s.ec.endedByAbort || s.abortEnds } }) hc (by simp [he])
  · rw [actAbort, he]
    exact congrArg _ (settle_stopParked_busy hp hb)
  · rw [actAbort, he]
    refine congrArg _ ((congrArg _ (abortActive_inFlight hi)).trans ?_)
    rw [toStopping, if_pos (by exact he)]
    exact settle_of_portSettled (by exact hp)
  · have ends : s.abortEnds = true := by simp [State.abortEnds, hb, hw]
    rw [actAbort, he]
    refine congrArg _ ((settle_abortActive_stopping hp he hi).trans ?_)
    rw [ends, Bool.or_true]
  · have ends : s.abortEnds = true := by
      rcases hy with rfl | rfl <;> simp [State.abortEnds, State.startReadBusy, hj]
    rw [actAbort, he]
    refine congrArg _ ((settle_abortActive_stopping hp he hi).trans ?_)
    rw [ends, Bool.or_true]
  · have ends : s.abortEnds = false := by
      subst hy
      simp [State.abortEnds, State.startReadBusy, hj, hw]
    rw [actAbort, he]
    refine congrArg _ ((settle_abortActive_stopping hp he hi).trans ?_)
    rw [ends]
    exact unmarked s
  · have ends : s.abortEnds = false := by simp [State.abortEnds, State.startReadBusy, hj, hw]
    rw [actAbort, he]
    refine congrArg _ ((congrArg _ (abortActive_noGroup hi)).trans ?_)
    rw [ends, unmarked s]
    exact settle_toStopping_reading hp (by simp [hj]) (by simp [he])
  · have ends : s.abortEnds = false := by
      simp [State.abortEnds, State.startReadBusy, hj, Option.isNone_iff_eq_none, Option.isSome_iff_ne_none.mp hb]
    rw [actAbort, he]
    refine congrArg _ ((settle_abortActive_stopping hp he hi).trans ?_)
    rw [ends]
    exact unmarked s
  · have ends : s.abortEnds = false := by
      simp [State.abortEnds, State.startReadBusy, hj, Option.isNone_iff_eq_none, Option.isSome_iff_ne_none.mp hb]
    rw [actAbort, he]
    refine congrArg _ ((congrArg _ (abortActive_noGroup hi)).trans ?_)
    rw [ends, unmarked s]
    exact settle_toStopping_reading hp (by simp [hj]) (by simp [he])
  · rw [actAbort, he]
    exact congrArg _ (settle_of_portSettled (by exact hp))

/-! ### RESUME, RESCAN and RELOAD -/

/-- Settles O14: RESUME parks with the copy valid and else starts. -/
theorem resumeLeavesTheHalt : Obligations.ResumeLeavesTheHalt := by
  intro s hr hc he
  rw [exec_resume_judged (open_of_controllerFree hr hc)]
  unfold finish actResume
  rw [if_pos ⟨he, hc.2.2.1⟩]
  refine ⟨fun hv => ?_, fun hv => ?_⟩
  · dsimp only
    rw [if_pos (by exact hv)]
    exact congrArg _ (settle_requestStatus (s := armTimer _) (by exact hc))
  · dsimp only
    rw [if_neg (by simp [hv])]
    exact congrArg _ (settle_requestStatus (s := State.mapEc _ _) (by exact hc))

/-- R92: a wake in PARKED with nothing in progress. -/
theorem settle_wakeNow_idle (hc : s.ControllerFree) (hw : s.work = none) (he : s.ec.engine = .parked)
    (hok : accessOk (recordReadReq s.ec.cursor) s.window = true) : settle (wakeNow s) = s.lookBegun := by
  rw [wakeNow, if_pos he, if_neg (by simp [hw, State.configBusy, hc.1, hc.2.1]), settle_beginLook hc.2.2.2 hw hok]

/-- R92, R159: a wake in PARKED during a look or a configuration read. -/
theorem settle_wakeNow_busy (hp : s.PortSettled) (he : s.ec.engine = .parked)
    (hb : s.work.isSome = true ∨ s.configBusy = true) :
    settle (wakeNow s) = { s with ec := { s.ec with wakePending := true } } := by
  rw [wakeNow, if_pos he, if_pos (by simpa using hb)]
  exact settle_of_portSettled (by exact hp)

/-- Settles O15: RESCAN is a wake in PARKED. -/
theorem rescanLooksAtTheCursor : Obligations.RescanLooksAtTheCursor := by
  intro s ho hp
  rw [exec_rescan_judged ho]
  unfold finish
  refine ⟨fun hc he hw hok => ?_, fun he hb => ?_, fun he => ?_⟩
  · rw [actRescan, he]
    exact congrArg _ (settle_wakeNow_idle hc hw he hok)
  · rw [actRescan, he]
    exact congrArg _ (settle_wakeNow_busy hp he hb)
  · rcases he with he | he | he <;> (rw [actRescan, he]; exact congrArg _ (settle_of_portSettled hp))

theorem configBusy_iff (s : State) : s.configBusy = true ↔
    (∃ why done ok data, s.ec.job = some { job := .config why, ended := done, ok := ok, data := data }) ∨
      ∃ why, EcTask.config why ∈ s.ec.queue := by
  have job : (match s.ec.job with | some { job := .config .., .. } => true | _ => false) = true ↔
      ∃ why done ok data, s.ec.job = some { job := .config why, ended := done, ok := ok, data := data } := by
    rcases s.ec.job with _ | ⟨_ | _, _, _, _⟩ <;> simp
  have queue : (s.ec.queue.any fun t => match t with | .config _ => true | .status _ => false) = true ↔
      ∃ why, EcTask.config why ∈ s.ec.queue := by
    rw [List.any_eq_true]
    constructor
    · rintro ⟨_ | why, hm, ht⟩
      · exact Bool.noConfusion ht
      · exact ⟨why, hm⟩
    · rintro ⟨why, hm⟩
      exact ⟨_, hm, rfl⟩
  rw [← job, ← queue, ← Bool.or_eq_true]
  rfl

/-- Settles O16: RELOAD begins the read in PARKED with nothing in progress, and waits otherwise. -/
theorem reloadReadsTheConfiguration : Obligations.ReloadReadsTheConfiguration := by
  refine ⟨configBusy_iff, fun s ho hp => ?_⟩
  rw [exec_reload_judged ho]
  unfold finish
  refine ⟨fun hc he hw => ?_, fun h => ?_⟩
  · simp only [actReload, he]
    rw [if_neg (by simp [hw, State.configBusy, hc.1, hc.2.1]), settle_requestConfig hc]
  · have hold : settle (holdReload s) = { s with ec := { s.ec with reloadReq := true } } :=
      settle_of_portSettled (by exact hp)
    rw [← hold]
    rcases h with ⟨he, hb⟩ | he | he
    · simp only [actReload, he]
      rw [if_pos (by simpa using hb)]
    · rw [actReload, he]
    · rw [actReload, he]

/-! ### Refused and held accesses -/

/-- R164: a window write outside STOPPED and HALTED is refused. -/
theorem windowWrite_refused {f : RegisterInterface → RegisterInterface} (h1 : s.ec.engine ≠ .stopped)
    (h2 : s.ec.engine ≠ .halted) : windowWrite f s = refuse s := by
  unfold windowWrite
  split
  · next h => exact absurd h h1
  · next h => exact absurd h h2
  all_goals rfl

/-- Settles O17: each refused row comes to `refuse`. -/
theorem refusedCommandsOnlySetCmdRefused : Obligations.RefusedCommandsOnlySetCmdRefused := by
  intro v s ho hp
  have refused : ∀ {u}, u = refuse s → finish u = .next s.refused := fun h => h ▸ finish_refuse hp
  rw [exec_commandUnknown_judged v ho, exec_start_judged ho, exec_stop_judged ho, exec_abort_judged ho,
    exec_resume_judged ho, exec_rescan_judged ho, exec_reload_judged ho, exec_winBaseWrite_judged v ho,
    exec_winSizeWrite_judged v ho]
  refine ⟨refused rfl, fun h => refused (if_neg ?_), fun h => refused ?_, fun h => refused ?_,
    fun h => refused (if_neg ?_), fun h => refused ?_, fun h => refused ?_, fun ⟨h1, h2⟩ =>
      ⟨refused (windowWrite_refused h1 h2), refused (windowWrite_refused h1 h2)⟩⟩
  · rcases h with ⟨h1, h2⟩ | h <;> simp_all
  · rcases h with h | h | ⟨h, hz⟩
    · rw [actStop, h]
    · rw [actStop, h]
    · simp [actStop, h, hz]
  · rcases h with h | h <;> rw [actAbort, h]
  · rcases h with h | h <;> simp [h]
  · rcases h with h | h <;> rw [actRescan, h]
  · rcases h with h | h | h <;> rw [actReload, h]

theorem statusInFlight_iff (s : State) : s.statusInFlight = true ↔ ∃ w st body done ok data,
    s.ec.job = some { job := .status w st body, ended := done, ok := ok, data := data } := by
  unfold State.statusInFlight
  rcases s.ec.job with _ | ⟨_ | _, _, _, _⟩ <;> simp

theorem waitsForStatus_iff (c : Instr) : waitsForStatus c = true ↔ c = .start ∨ c = .stop ∨ c = .abort ∨
    c = .resume ∨ c = .rescan ∨ c = .reload ∨ ∃ v, c = .commandUnknown v ∨ c = .winBaseWrite v ∨ c = .winSizeWrite v := by
  constructor
  · intro h
    cases c <;> first | exact Bool.noConfusion h | simp
  · rintro (rfl | rfl | rfl | rfl | rfl | rfl | ⟨v, rfl | rfl | rfl⟩) <;> rfl

/-- A row that a status write holds is a register access. -/
theorem isAccess_of_waits (h : waitsForStatus c = true) : isAccess c = true := by
  cases c <;> first | exact Bool.noConfusion h | rfl

/-- Settles O18: what waits joins the held list. -/
theorem heldAccessesChangeNothingElse : Obligations.HeldAccessesChangeNothingElse := by
  intro c s
  refine ⟨statusInFlight_iff s, waitsForStatus_iff c, fun hp h => ?_⟩
  have held : s.accessWaits c = true ∧ isAccess c = true := by
    rcases h with ⟨_, hs, hw⟩ | ⟨hr, ha⟩
    · exact ⟨by simp [State.accessWaits, hs, hw], isAccess_of_waits hw⟩
    · exact ⟨by simp [State.accessWaits, hr], ha⟩
  rw [exec_access held.2]
  exact finish_takeAccess_held hp held.1

/-! ### Window writes, EVENTS and LINE_ENABLE -/

/-- R164: WIN_SIZE holds at most 1,048,576. -/
theorem winSize_capped (v : Word) :
    (if Config.maxWinSize < v then Config.maxWinSize else v) = if v.toNat ≤ 1048576 then v else 1048576 := by
  have h : Config.maxWinSize < v ↔ ¬v.toNat ≤ 1048576 := by
    rw [BitVec.lt_def]
    exact Nat.not_le.symm
  by_cases hv : v.toNat ≤ 1048576
  · rw [if_pos hv, if_neg (by rw [h]; exact not_not_intro hv)]
  · rw [if_neg hv, if_pos (h.mpr hv)]
    rfl

/-- Settles O19: window writes in the two states that accept them. -/
theorem windowWritesTakeEffect : Obligations.WindowWritesTakeEffect := by
  intro v s ho hp
  rw [exec_winBaseWrite_judged v ho, exec_winSizeWrite_judged v ho, ← winSize_capped v]
  unfold finish actWinBase actWinSize windowWrite
  refine ⟨fun he => ?_, fun he => ?_⟩ <;> rw [he] <;>
    exact ⟨congrArg _ (settle_of_portSettled (by exact hp)), congrArg _ (settle_of_portSettled (by exact hp))⟩

/-- R148: the interrupt line follows a bit that both words share. -/
theorem lineAsserted_iff (s : State) : lineAsserted s = true ↔
    ∃ i : Nat, i < 10 ∧ s.reg.events.getLsbD i = true ∧ s.reg.lineEnable.getLsbD i = true := by
  unfold lineAsserted
  rw [decide_eq_true_eq, ← not_iff_not]
  push Not
  constructor
  · intro h i hi he hl
    have := congrArg (fun w => w.getLsbD i) h
    simp [he, hl] at this
  · intro h
    refine BitVec.eq_of_getLsbD_eq fun i hi => ?_
    have := h i hi
    rw [BitVec.getLsbD_and]
    cases he : s.reg.events.getLsbD i with
    | false => simp
    | true => simpa using this he

theorem engineCode_lt (e : EngineState) : e.code < 256 := by cases e <;> decide
theorem haltCode_lt (r : HaltReason) : r.code < 256 := by cases r <;> decide

/-- R181: the two codes stand in their bytes. -/
theorem stateRegister_bytes (s : State) : (stateRegister s).toNat / 65536 = 0 ∧
    (stateRegister s).toNat % 256 = s.ec.engine.code ∧ (stateRegister s).toNat / 256 % 256 = s.ec.haltReason.code := by
  have h1 := engineCode_lt s.ec.engine
  have h2 := haltCode_lt s.ec.haltReason
  rw [stateRegister, BitVec.toNat_ofNat, Nat.mod_eq_of_lt (by omega)]
  omega

/-- R148: the register shows the ten event bits of what was written. -/
theorem lineEnable_reads (v : Word) : (v.setWidth 10).setWidth 32 = v &&& 0x3FF := by
  refine BitVec.eq_of_getLsbD_eq fun i hi => ?_
  have mask : ∀ i < 32, (0x3FF : Word).getLsbD i = decide (i < 10) := by decide
  rw [BitVec.getLsbD_and, mask i hi, BitVec.getLsbD_setWidth, BitVec.getLsbD_setWidth, Bool.and_comm]
  simp only [hi, decide_true, Bool.true_and, Bool.and_comm]

/-- Settles O20: the accesses of the event registers, and how the registers read. -/
theorem eventAndEnableAccesses : Obligations.EventAndEnableAccesses := by
  intro v a s
  obtain ⟨hhigh, hengine, hreason⟩ := stateRegister_bytes s
  refine ⟨fun hr hp => ⟨?_, ?_, lineEnable_reads v, ?_⟩, lineAsserted_iff s, hhigh, ?_, ?_, by decide, rfl, rfl, rfl,
    rfl, rfl⟩
  · rw [exec_eventsRead_judged hr]
    exact congrArg _ (settle_of_portSettled (by exact hp))
  · rw [exec_lineEnableWrite_judged v hr]
    exact congrArg _ (settle_of_portSettled (by exact hp))
  · rw [exec_registerWriteNoEffect_judged a hr]
    cases a <;> exact congrArg _ (settle_of_portSettled (by exact hp))
  · refine hengine.trans ?_
    cases s.ec.engine <;> rfl
  · refine hreason.trans ?_
    cases s.ec.haltReason <;> rfl

/-! ### The lines, the timer and the clock -/

/-- R143: during a status write a wake is held. -/
theorem settle_wake_held (hp : s.PortSettled) (hs : s.statusInFlight = true) :
    settle (wake s) = { s with reg := { s.reg with held := s.reg.held ++ [.wake] } } := by
  rw [wake, if_pos hs]
  exact settle_of_portSettled (by exact hp)

theorem wake_eq_wakeNow (hs : s.statusInFlight = false) : wake s = wakeNow s := by
  rw [wake, if_neg (by simp [hs])]

/-- Settles O23: the edge is noted, and is a wake. -/
theorem frameReadyEdgeWakes : Obligations.FrameReadyEdgeWakes := by
  intro s hr hseen hp
  have hexec : exec .frameReadyEdge s = .next (settle (wake
      { s with reg := { s.reg with frameReadySeen := true } })) := by
    show execFrameReadyEdge s = _
    rw [execFrameReadyEdge, if_pos (by simp [hr, hseen])]
    rfl
  rw [hexec]
  refine ⟨fun ⟨_, hc, hw⟩ he hok => ?_, fun hs he hb => ?_, fun hs => ?_, fun hs he => ?_⟩
  · rw [wake_eq_wakeNow (by exact (open_of_controllerFree hr hc).2)]
    exact congrArg _ (settle_wakeNow_idle (by exact hc) hw he hok)
  · rw [wake_eq_wakeNow (by exact hs)]
    exact congrArg _ (settle_wakeNow_busy (by exact hp) he hb)
  · exact congrArg _ (settle_wake_held (by exact hp) hs)
  · rw [wake_eq_wakeNow (by exact hs), wakeNow, if_neg (by exact he)]
    exact congrArg _ (settle_of_portSettled (by exact hp))

/-- Settles O24: the timer run out is a wake, and before that the event changes nothing. -/
theorem rescanTimerWakes : Obligations.RescanTimerWakes := by
  intro tm s ht
  have early : exec .rescanTimerExpiry s =
      if tm.interval * 1000 ≤ (s.reg.time - tm.armedAt).toNat then
        .next (settle (wake { s with ec := { s.ec with timer := none } })) else .next s := by
    show execRescanTimerExpiry s = _
    rw [execRescanTimerExpiry, timerRunOut, ht]
    simp only [decide_eq_true_eq]
    rfl
  rw [early]
  refine ⟨fun hd ⟨hr, hc, hw⟩ he hok => ?_, fun hd hp hs he hb => ?_, fun hd hp hs => ?_, fun hd => ?_⟩
  · rw [if_pos hd, wake_eq_wakeNow (by exact (open_of_controllerFree hr hc).2)]
    exact congrArg _ (settle_wakeNow_idle (by exact hc) hw he hok)
  · rw [if_pos hd, wake_eq_wakeNow (by exact hs)]
    exact congrArg _ (settle_wakeNow_busy (by exact hp) he hb)
  · rw [if_pos hd]
    exact congrArg _ (settle_wake_held (by exact hp) hs)
  · rw [if_neg (Nat.not_le.mpr hd)]

/-! ### RESET_END -/

theorem asksNothing_port (h : asksNothing c = true) : (takeAccess c s).port = s.port := by
  rcases takeAccess_cases c s with ⟨_, he⟩ | he <;> rw [he]
  · rfl
  · cases c with
    | commandUnknown v => rfl
    | winBaseWrite v =>
      rw [judgeAccess_winBaseWrite, actWinBase]
      rcases windowWrite_cases (fun r => { r with winBase := v }) s with hw | ⟨m, _, hw⟩ <;> rw [hw]
      rfl
    | winSizeWrite v =>
      rw [judgeAccess_winSizeWrite, actWinSize]
      rcases windowWrite_cases (fun r => { r with winSize := if Config.maxWinSize < v then Config.maxWinSize else v }) s
        with hw | ⟨m, _, hw⟩ <;> rw [hw]
      rfl
    | eventsRead => rfl
    | lineEnableWrite v => rfl
    | registerWriteNoEffect a => cases a <;> rfl
    | _ => exact Bool.noConfusion h

/-- R178: held accesses of which only the last may ask the Port come to the commands taken one after another. -/
theorem runInOrder_held (cs : List Instr) (last : Option Instr) (s : State) (hp : s.PortSettled)
    (hcs : ∀ c, c ∈ cs → asksNothing c = true) (hlast : ∀ c, last = some c → isAccess c = true) :
    runInOrder (cs ++ last.toList) s = finish (judgeAll ((cs ++ last.toList).map Held.access) s) := by
  induction cs generalizing s with
  | nil =>
    cases last with
    | none => exact congrArg _ (settle_of_portSettled hp).symm
    | some c =>
      simp only [List.nil_append, Option.toList, runInOrder, exec_access (hlast c rfl)]
      rfl
  | cons c cs ih =>
    have hc := hcs c (by simp)
    have hport : (takeAccess c s).PortSettled := by
      unfold State.PortSettled
      rw [asksNothing_port hc]
      exact hp
    simp only [List.cons_append, runInOrder, exec_access (isAccess_of_asksNothing hc), finish,
      settle_of_portSettled hport]
    exact ih _ hport fun d hd => hcs d (by simp [hd])

/-- Settles O22: RESET_END runs what was held in order; the clock and the line stand during a reset. -/
theorem resetEndClockAndFallingEdge : Obligations.ResetEndClockAndFallingEdge := by
  intro level s
  refine ⟨fun hr => ⟨fun cs last hp hcs hlast hheld => ?_, ?_, ?_⟩, fun hr => ⟨?_, ?_, ?_⟩⟩
  · show execResetEnd level s = _
    rw [execResetEnd, if_pos hr, runInOrder_held cs last _ (by exact hp) hcs hlast, ← hheld]
    rfl
  · exact if_pos hr
  · show execFrameReadyFallingEdge s = _
    rw [execFrameReadyFallingEdge, if_neg (by simp [hr])]
  · show execResetEnd level s = _
    rw [execResetEnd, if_neg (by simp [hr])]
  · show execTimeTick s = _
    rw [execTimeTick, if_neg (by simp [hr])]
    rfl
  · show execFrameReadyFallingEdge s = _
    rw [execFrameReadyFallingEdge, if_pos (by simp [hr])]
    rfl

end Sys2Proof.Machine
end

