-- ==== Sys2Proof/Proofs/MemoryBus.lean ====
section
/-! PROOFS. The memory bus (O25 to O29): how an access begins, is repeated, delayed and ends, and what the Chain Reader
and the Engine Controller make of its report. -/

namespace Sys2Proof.Machine

variable {s : State} {a : Access} {others : List Host.Cell} {m : List Host.Cell}

/-! ### The access at the Port -/

theorem attempt_eq_some (hi : s.port.inFlight = some a) (hp : a.phase = .attempt) : s.attempt = some a := by
  simp [State.attempt, hi, hp]

theorem delayed_eq_some (hi : s.port.inFlight = some a) (hp : a.phase = .delay) : s.delayed = some a := by
  simp [State.delayed, hi, hp]

theorem answerOverdue_of_not_onTime (h : ¬s.OnTime) : answerOverdue s = true := decide_eq_true (Nat.le_of_not_lt h)

theorem answerOverdue_of_onTime (h : s.OnTime) : answerOverdue s = false := decide_eq_false (Nat.not_le.mpr h)

theorem attempt_none_of_delay (h : ∀ b, s.port.inFlight = some b → b.phase = .delay) : s.attempt = none := by
  refine Option.filter_eq_none_iff.mpr fun b hb => ?_
  simp [h b hb]

/-- R169, R170: a free Port begins the request under the retry settings in force. -/
theorem handedOver_free {r : Request} (h : s.port.inFlight = none) : State.handedOver r s = startAccess r s := by
  unfold State.handedOver
  rw [if_neg (by rw [h]; exact Bool.false_ne_true)]

theorem handedOver_busy {r : Request} (h : s.port.inFlight.isSome = true) : State.handedOver r s = s.submit r :=
  if_pos h

/-! ### The bytes a failed attempt leaves -/

/-- R175: of an access of 4 bytes at a multiple of 4 all bytes are placed or none. -/
theorem placedByte_word {r : Request} (n : Nat) (hl : r.length = 4) (ho : r.offset % 4 = 0) :
    placedByte n r = fun _ => Config.partWritten n 0 := by
  funext i
  unfold placedByte
  rw [if_pos ⟨hl, ho⟩]

/-- What an attempt that failed may leave of the write `a` in memory `base` (R173, R175). -/
def PartlyWritten (a : Access) (base m : List Host.Cell) : Prop :=
  (∀ x, (∀ bytes, a.req.data = some bytes → x < a.address ∨ a.address + bytes.length ≤ x) →
    memGet m x = memGet base x) ∧
  (∀ bytes, a.req.data = some bytes → ∀ x, a.address ≤ x → x < a.address + bytes.length →
    memGet m x = bytes.getD (x - a.address) 0 ∨ memGet m x = memGet base x) ∧
  (∀ bytes, a.req.data = some bytes → a.req.length = 4 → a.req.offset % 4 = 0 →
    m = memWrite base a.address bytes ∨ m = base) ∧
  (a.req.data = none → m = base)

theorem partlyWritten_memWriteSome {bytes : List Byte} {base : List Host.Cell} {n : Nat}
    (hd : a.req.data = some bytes) (hw : memWf base = true) :
    PartlyWritten a base (memWriteSome (placedByte n a.req) base a.address 0 bytes) := by
  unfold PartlyWritten
  rw [hd]
  refine ⟨fun x hx => ?_, fun b hb x h1 h2 => ?_, fun b hb hl ho => ?_, fun h => nomatch h⟩
  · have := hx bytes rfl
    rw [memGet_memWriteSome _ _ _ _ hw, if_neg (by omega)]
  · obtain rfl : bytes = b := Option.some.inj hb
    rw [memGet_memWriteSome _ _ _ _ hw]
    split
    · exact .inl rfl
    · exact .inr rfl
  · obtain rfl : bytes = b := Option.some.inj hb
    rw [placedByte_word n hl ho, memWriteSome_const]
    split
    · exact .inl rfl
    · exact .inr rfl

theorem landPart_partlyWritten (hw : memWf s.dram = true) :
    ∃ m n, landPart a s = { s with dram := m, freeCount := n } ∧ PartlyWritten a s.dram m := by
  unfold landPart
  cases hd : a.req.data with
  | some bytes => exact ⟨_, _, rfl, partlyWritten_memWriteSome hd hw⟩
  | none =>
    refine ⟨s.dram, s.freeCount, rfl, fun _ _ => rfl, fun _ h => ?_, fun _ h => ?_, fun _ => rfl⟩
    · exact nomatch hd.symm.trans h
    · exact nomatch hd.symm.trans h

/-- R174: an attempt has failed with attempts left: the access waits for its delay, or is repeated at once. -/
def State.repeated (a : Access) (m : List Host.Cell) (n : Nat) (s : State) : State :=
  { s with
    dram := m, freeCount := n
    port := { s.port with
      inFlight := some (if s.port.retryDelay = 0 then { a with attempts := a.attempts + 1 }
                        else { a with phase := .delay })
      delayStart := s.reg.time
      attemptStart := if s.port.retryDelay = 0 then s.reg.time else s.port.attemptStart } }

theorem settle_attemptFailed_repeats {u : State} {n : Nat} (hp : a.phase = .attempt)
    (ha : a.attempts ≤ s.port.retryCount) (hl : landPart a s = { u with dram := m, freeCount := n })
    (hs : ∃ d, s = { u with dram := d }) : settle (attemptFailed a s) = u.repeated a m n := by
  obtain ⟨d, rfl⟩ := hs
  obtain ⟨req, address, attempts, phase⟩ := a
  dsimp only at hp
  subst hp
  unfold attemptFailed State.repeated
  rw [if_pos ha, hl]
  by_cases hz : u.port.retryDelay = 0
  · rw [settle_busy (by simp [State.mapPort, hz, issueAttempt])]
    simp [State.mapPort, hz, issueAttempt]
  · rw [settle_busy (by simp [State.mapPort, hz])]
    simp [State.mapPort, hz]

/-- Settles O25: the request begins or joins the list (`State.handedOver`), and both ways an attempt fails end in the
same `State.repeated`, whose memory is what `landPart` leaves. -/
theorem failedAttemptIsRepeated : Obligations.FailedAttemptIsRepeated := by
  unfold Obligations.FailedAttemptIsRepeated
  refine ⟨fun r s => ⟨fun h => ?_, fun h => ?_⟩, fun a others s hi hp ha hw => ?_⟩
  · rw [handedOver_free h]
    rfl
  · rw [handedOver_busy h]
    rfl
  · obtain ⟨m, n, hl, hpart, hbyte, hword, hread⟩ :=
      landPart_partlyWritten (a := a) (s := s.setDram (memLand s.dram others)) (memWf_memLand hw)
    have go : settle (attemptFailed a (s.setDram (memLand s.dram others))) = s.repeated a m n :=
      settle_attemptFailed_repeats hp ha hl ⟨_, rfl⟩
    refine ⟨m, n, fun ht => ?_, fun ht ho => ?_, hpart, hbyte, hword, hread⟩
    · rw [(exec_answered hi hp ht).2]
      exact congrArg Host.Outcome.next go
    · subst ho
      rw [exec_timed_out hi hp ht]
      exact congrArg Host.Outcome.next go

/-! ### Delays and late answers -/

theorem exec_timeout_early (h : s.OnTime) : exec .memoryAttemptTimeout s = .next s := by
  show execMemoryAttemptTimeout s = _
  unfold execMemoryAttemptTimeout
  split
  · rw [if_neg (by rw [answerOverdue_of_onTime h]; exact Bool.false_ne_true)]
  · rfl

/-- R173, R177: an answer to no attempt, to one that has ended, or past the limit is disregarded. -/
theorem exec_answer_disregarded {answer : BusAnswer}
    (h : answer = .late ∨ ¬s.OnTime ∨ (∀ b, s.port.inFlight = some b → b.phase = .delay)) :
    exec (.memoryAttemptAnswer answer others) s = .next { s with dram := memLand s.dram others } := by
  show execMemoryAttemptAnswer answer others s = _
  unfold execMemoryAttemptAnswer
  rcases h with rfl | h | h
  · dsimp only
    split
    · split <;> rfl
    · rfl
  · dsimp only
    rw [show answerOverdue (s.setDram (memLand s.dram others)) = true from answerOverdue_of_not_onTime h]
    split <;> rfl
  · dsimp only
    rw [show (s.setDram (memLand s.dram others)).attempt = none from attempt_none_of_delay h]
    rfl

/-- Settles O26, one case of `execRetryDelayExpiry`, `execMemoryAttemptTimeout` and `execMemoryAttemptAnswer` each. -/
theorem delayEndsInTheNextAttempt : Obligations.DelayEndsInTheNextAttempt := by
  unfold Obligations.DelayEndsInTheNextAttempt
  intro answer others a s
  refine ⟨fun hi hp => ⟨fun hd => ?_, fun hd => ?_⟩, exec_timeout_early, exec_answer_disregarded, fun hi => ⟨?_, ?_⟩⟩
  · show execRetryDelayExpiry s = _
    unfold execRetryDelayExpiry
    rw [delayed_eq_some hi hp, show delayElapsed s = true from decide_eq_true hd]
    rfl
  · show execRetryDelayExpiry s = _
    unfold execRetryDelayExpiry
    rw [delayed_eq_some hi hp, show delayElapsed s = false from decide_eq_false (Nat.not_le.mpr hd)]
    rfl
  · show execMemoryAttemptTimeout s = _
    unfold execMemoryAttemptTimeout
    rw [show s.attempt = none by simp [State.attempt, hi]]
  · show execRetryDelayExpiry s = _
    unfold execRetryDelayExpiry
    rw [show s.delayed = none by simp [State.delayed, hi]]

/-! ### What memory lists -/

/-- In the canonical form an address reads as the byte listed for it, and an unlisted one as 0. -/
theorem memGet_eq_find? (x : Nat) (h : memWf m = true) :
    memGet m x = match m.find? fun c => c.1 == x with | some c => c.2 | none => 0 := by
  induction m with
  | nil => rfl
  | cons c rest ih =>
    obtain ⟨_, habove, hrest⟩ := memWf_cons.mp h
    rw [memGet, List.find?_cons]
    by_cases hx : c.1 = x
    · simp [hx]
    · rw [if_neg hx, beq_eq_false_iff_ne.mpr hx]
      by_cases hlt : x < c.1
      · have hnone : (rest.find? fun c => c.1 == x) = none := by
          refine List.find?_eq_none.mpr fun e he => ?_
          have := habove e he
          simpa using by omega
        rw [if_pos hlt]
        simp only [hnone]
        rfl
      · rw [if_neg hlt]
        exact ih hrest

/-- Settles O27: the begun request, the memory's own laws, and a write that lands before its report. -/
theorem successfulWriteStoresItsBytes : Obligations.SuccessfulWriteStoresItsBytes := by
  unfold Obligations.SuccessfulWriteStoresItsBytes
  refine ⟨fun r s h => ?_, fun m cells x y b hw => ?_, fun a bytes others s hi hp ht hd hw => ?_⟩
  · rw [handedOver_free h]
    exact ⟨_, rfl, rfl, rfl, rfl, rfl⟩
  · exact ⟨rfl, memGet_eq_find? x hw, rfl, rfl, memGet_memSet y b x hw⟩
  · refine ⟨_, exec_write_succeeds hi hp ht hd, fun x => ?_⟩
    have hkeep : ∀ u : State, (settle (report a.req true [] u)).dram = u.dram := fun u =>
      (good_settle (good_report (Good.refl u))).dram
    rw [hkeep]
    exact memGet_memWrite _ _ (memWf_memLand hw)

/-! ### A refused write of a retirement that names the Engine Controller -/

/-- A request that the checks refuse, which names the Engine Controller. -/
def strayRequest : Request := { block := .engineController, kind := .configRead, offset := 1, length := 0 }

/-- A retirement whose write is on the bus and whose last request is `strayRequest`. -/
def strayRetirement : State :=
  { State.reset with
    work := some { job := .retire [strayRequest] false }
    port := { State.reset.port with
      inFlight := some { req := stateWriteReq 0 .done, address := 0, attempts := 1, phase := .attempt } } }

/-- The refusal is reported to the Engine Controller, so the retirement has not ended. -/
theorem strayRetirement_goes_on :
    exec (.memoryAttemptAnswer .succeeded []) strayRetirement = .next (settle (retireReport (stateWriteReq 0 .done)
      [strayRequest] false true (strayRetirement.freed (memWrite [] 0 (leBytes 4 3))))) ∧
    ((settle (retireReport (stateWriteReq 0 .done) [strayRequest] false true
      (strayRetirement.freed (memWrite [] 0 (leBytes 4 3))))).work.map Work.ended) = some false :=
  ⟨rfl, rfl⟩

/-- Refutes O28: the last clause gives the end of a retirement whose last write the checks refuse for a request of any
block, but `report` tells the Engine Controller of a refused request that names it, and the retirement does not end. -/
theorem not_chainAccessesAreReported : ¬ Obligations.ChainAccessesAreReported := by
  unfold Obligations.ChainAccessesAreReported
  rintro ⟨-, -, -, h⟩
  obtain ⟨-, -, hretire⟩ := h { req := stateWriteReq 0 .done, address := 0, attempts := 1, phase := .attempt } []
    .cursor .taken 0 (leBytes 4 3) [strayRequest] false strayRetirement rfl rfl rfl rfl
  obtain ⟨t, ht, -, -, hend⟩ := (hretire rfl rfl).1 (by decide)
  obtain ⟨hgoes, hwork⟩ := strayRetirement_goes_on
  rw [hend strayRequest rfl (by decide)] at ht
  rw [← Host.Outcome.next.inj (ht.symm.trans hgoes)] at hwork
  exact Bool.noConfusion (Option.some.inj hwork)

/-! ### Status writes and configuration reads -/

/-- R172: each write of a status block of 248 bytes fits a window that is not empty. -/
theorem accessOk_statusReq_body {stage : StatusStage} {n : Word} {body : List Byte} (hl : body.length = 248)
    (hw : s.reg.winSize ≠ 0) : accessOk (statusReq stage n body) s.window = true := by
  have h1 := window_pos hw
  generalize s.window = w at *
  cases stage <;> simp only [accessOk, statusReq, AccessKind.alignment, hl] <;> simp <;> omega

theorem presenceByte_eq (l : LensUnit) : presenceByte l = (if l.settledLens = none then 0 else 1) +
    (if l.settledZoom = none then 0 else 2) + (if l.settledFocus = none then 0 else 4) := by
  unfold presenceByte
  cases l.settledLens <;> cases l.settledZoom <;> cases l.settledFocus <;> rfl

theorem flagByte_eq_leBytes (b : Bool) : flagByte b = leBytes 1 (if b then 1 else 0) := by cases b <;> rfl

/-- R141, 10.4: the body of the status block, byte by byte. -/
theorem statusBody_eq (t : State) :
    let entryCode (e : CacheEntry) : Nat := match e.state with
      | .empty => 0 | .loading => 1 | .ready => 2 | .invalid => 3
    let l := t.lens
    statusBody t =
      leBytes 1 (match t.ec.engine with
        | .stopped => 0 | .starting => 1 | .parked => 2 | .working => 3 | .stopping => 4 | .halted => 5) ++
      leBytes 1 (if t.ec.linkWait then 1 else 0) ++
      leBytes 1 (match t.ec.haltReason with
        | .noHalt => 0 | .linkBad => 1 | .callBad => 2 | .stackFull => 3 | .stackEmpty => 4 | .subchainState => 5
        | .subchainFrame => 6 | .unterminated => 7 | .badKind => 8 | .chainRead => 9 | .recordWrite => 10
        | .statusWrite => 11 | .config => 12) ++
      leBytes 1 (if t.pace.relief then 1 else 0) ++ leBytes 4 t.ec.cursor ++ leBytes 4 t.ec.haltRecord ++
      leBytes 4 t.ec.groupsTaken.toNat ++ leBytes 4 t.ec.groupsRetired.toNat ++
      leBytes 4 t.ec.framesDone.toNat ++ leBytes 4 t.ec.framesFaulted.toNat ++
      leBytes 4 t.ec.derivedFilled.toNat ++ leBytes 4 t.ec.derivedDropped.toNat ++
      leBytes 4 t.ec.derivedSkipped.toNat ++ leBytes 4 t.pace.overruns.toNat ++ leBytes 1 t.pace.consecutive ++
      leBytes 1 ((if l.settledLens = none then 0 else 1) + (if l.settledZoom = none then 0 else 2) +
        (if l.settledFocus = none then 0 else 4)) ++
      leBytes 2 (l.settledZoom.getD 0) ++ leBytes 4 (l.settledLens.getD 0) ++ leBytes 2 (l.settledFocus.getD 0) ++
      leBytes 1 (entryCode t.cache.e0) ++ leBytes 1 (entryCode t.cache.e1) ++
      leBytes 4 (t.cache.e0.lens.getD 0) ++ leBytes 4 (t.cache.e1.lens.getD 0) ++ leBytes 4 l.lastSeq.toNat ++
      leBytes 4 t.ec.lastFrameNumber.toNat ++ zeroBytes 176 := by
  dsimp only
  rw [← presenceByte_eq, ← flagByte_eq_leBytes, ← flagByte_eq_leBytes]
  rfl

/-- R143: a write of a status write has been reported. -/
theorem ecReport_status {w : StatusWrite} {st : StatusStage} {body : List Byte} {ok : Bool} {data : List Byte}
    (hj : s.ec.job = some { job := .status w st body }) : ecReport ok data s = statusReport w st body ok s := by
  unfold ecReport
  rw [hj]

/-- The Engine Controller's access has ended and waits for the step that acts on it. -/
def State.ecEnded (job : EcJob) (ok : Bool) (data : List Byte) (s : State) : State :=
  { s with ec := { s.ec with job := some { job := job, ended := true, ok := ok, data := data } } }

theorem ecReport_status_failed {w : StatusWrite} {st : StatusStage} {body : List Byte}
    (hj : s.ec.job = some { job := .status w st body }) :
    ecReport false [] s = s.ecEnded (.status w st body) false [] := ecReport_status hj

theorem ecReport_config {why : ConfigWhy} {ok : Bool} {data : List Byte}
    (hj : s.ec.job = some { job := .config why }) : ecReport ok data s = s.ecEnded (.config why) ok data := by
  unfold ecReport
  rw [hj]
  rfl

theorem report_engineController {r : Request} {ok : Bool} {data : List Byte} (h : r.block = .engineController) :
    report r ok data s = ecReport ok data s := if_pos h

/-- R143: the leading copy is followed by the body, the body by the trailing copy, and that by the write's end. -/
theorem settle_statusReport {w : StatusWrite} {st : StatusStage} {body : List Byte} (hr : s.port.requests = [])
    (hw : s.reg.winSize ≠ 0) (hl : body.length = 248) : settle (statusReport w st body true s) = match st with
      | .leading => State.handedOver (statusReq .body s.ec.writeCount body)
          { s with ec := { s.ec with job := some { job := .status w .body body } } }
      | .body => State.handedOver (statusReq .trailing s.ec.writeCount body)
          { s with ec := { s.ec with job := some { job := .status w .trailing body } } }
      | .trailing => s.ecEnded (.status w .trailing body) true [] := by
  cases st with
  | leading => exact settle_submit (fun _ => hr) (accessOk_statusReq_body hl hw)
  | body => exact settle_submit (fun _ => hr) (accessOk_statusReq_body hl hw)
  | trailing => exact settle_empty (by exact hr)

/-- Settles O29: the requests and the body by their definitions, and each answer through `ecReport`. -/
theorem statusWriteMakesThreeAccesses : Obligations.StatusWriteMakesThreeAccesses := by
  unfold Obligations.StatusWriteMakesThreeAccesses
  refine ⟨fun n count body flag => ⟨rfl, fun _ => rfl, rfl, rfl, rfl, rfl, rfl, rfl⟩,
    fun t => ⟨statusBody_eq t, statusBody_length t⟩, ?_, ?_⟩
  · intro a bytes body others w st s hi hp ht hb hd hr hw hl hj
    rw [exec_write_succeeds hi hp ht hd, report_engineController hb, ecReport_status (by exact hj)]
    exact congrArg _ (settle_statusReport (by exact hr) (by exact hw) hl)
  · intro a bytes body others w st why s hi hp hb hr
    refine ⟨fun hj hd => ?_, fun hj hd => ?_⟩
    · refine losesWrite_of_report hi hp hd fun m n => ?_
      rw [report_engineController hb, ecReport_status_failed (by exact hj)]
      exact congrArg _ (settle_empty (by exact hr))
    · have done : ∀ ok data m, finish (report a.req ok data (s.freed m)) =
          .next ((s.freed m).ecEnded (.config why) ok data) := by
        intro ok data m
        rw [report_engineController hb, ecReport_config (by exact hj)]
        exact congrArg _ (settle_empty (by exact hr))
      refine ⟨fun ht => (exec_read_succeeds hi hp ht hd).trans (done ..), fun hx => ?_⟩
      obtain ⟨hfail, hlate⟩ := exec_read_exhausted (others := others) hi hp hd hx
      exact ⟨fun ht => (hfail ht).trans (done ..), fun ht => (hlate ht).trans (done ..)⟩

end Sys2Proof.Machine
end

