-- ==== Sys2Proof/Proofs/Layouts.lean ====
section
/-! PROOFS. The configuration checks and the layouts of what is read (O32), and the cache lookup (O48). -/

namespace Sys2Proof.Machine

/-! ### The checks of the configuration block -/

/-- The offset named by the first check of a list that fails. -/
def firstFault (checks : List (Bool × Nat)) : Option Nat := (checks.find? fun p => !p.1).map Prod.snd

theorem configFault_eq_firstFault (c : ConfigCopy) (window : Nat) :
    configFault c window = firstFault (configChecks c window) := rfl

theorem firstFault_nil : firstFault [] = none := rfl

theorem firstFault_cons (p : Prop) [Decidable p] (n : Nat) (rest : List (Bool × Nat)) :
    firstFault ((decide p, n) :: rest) = if ¬p then some n else firstFault rest := by
  by_cases h : p
  · rw [if_neg (not_not.mpr h)]
    simp [firstFault, h]
  · rw [if_pos h]
    simp [firstFault, h]

theorem firstFault_eq_none (checks : List (Bool × Nat)) :
    firstFault checks = none ↔ ∀ p ∈ checks, p.1 = true := by
  simp [firstFault]

/-! ### Little-endian fields -/

theorem leNat_cons (b : Byte) (rest : List Byte) : leNat (b :: rest) = b.toNat + 256 * leNat rest := rfl

/-- Conventions: a field is read from its first byte up. -/
theorem field_succ (b : List Byte) (offset width : Nat) :
    field b offset (width + 1) = (b.getD offset 0).toNat + 256 * field b (offset + 1) width := by
  unfold field
  by_cases h : offset < b.length
  · rw [List.drop_eq_getElem_cons h, List.take_succ_cons, leNat_cons, List.getD_eq_getElem _ _ h]
  · rw [List.drop_eq_nil_of_le (by omega), List.drop_eq_nil_of_le (by omega), List.getD_eq_default _ _ (by omega)]
    simp [leNat]

theorem presentField_eq (b : List Byte) (bit offset width : Nat) :
    presentField b bit offset width =
      if field b 0x10 1 / 2 ^ bit % 2 = 1 then some (field b offset width) else none := by
  unfold presentField
  rw [Nat.testBit_eq_decide_div_mod_eq]
  simp

theorem overrideFields_eq (b : List Byte) :
    let present (bit offset width : Nat) : Option Nat :=
      if field b 0x10 1 / 2 ^ bit % 2 = 1 then some (field b offset width) else none
    overrideFields b = { lens := present 0 0x14 4, zoom := present 1 0x18 2, focus := present 2 0x1A 2
                         strength := present 3 0x1C 2 } := by
  simp only [← presentField_eq]
  rfl

/-- Settles O32: the checks are a list whose first failing entry is named, and each layout is its definition. -/
theorem configurationChecks : Obligations.ConfigurationChecks := by
  unfold Obligations.ConfigurationChecks
  refine ⟨fun c window => ⟨rfl, ?_, ?_⟩, fun b offset width => ⟨?_, field_succ b offset width⟩, fun b => ?_⟩
  · rw [configFault_eq_firstFault, firstFault_eq_none]
    simp only [configChecks, List.forall_mem_cons, decide_eq_true_eq, List.not_mem_nil, false_imp_iff, implies_true,
      and_true]
  · rw [configFault_eq_firstFault]
    unfold configChecks
    simp only [firstFault_cons, firstFault_nil]
    refine if_congr (by omega) rfl <| if_congr (by omega) rfl <| if_congr (by omega) rfl <|
      if_congr (by omega) rfl <| if_congr (by omega) rfl <| if_congr (by omega) rfl <| if_congr (by omega) rfl <|
      if_congr (by omega) rfl <| if_congr (by omega) rfl <| if_congr (by omega) rfl <| if_congr (by omega) rfl <|
      if_congr (by omega) rfl <| if_congr (by omega) rfl <| if_congr (by omega) rfl <| if_congr (by omega) rfl rfl
  · simp [field, leNat]
  · refine ⟨rfl, rfl, rfl, ?_, ?_, rfl, rfl, rfl, overrideFields_eq b, rfl⟩
    · show (field b 0x05 1).testBit 0 = true ↔ _
      simp [Nat.testBit_eq_decide_div_mod_eq]
    · show (field b 0x05 1).testBit 1 = true ↔ _
      simp [Nat.testBit_eq_decide_div_mod_eq]

/-! ### The profile cache -/

theorem holds_iff (e : CacheEntry) (lens : Nat) :
    e.holds lens = true ↔ (e.state = .ready ∨ e.state = .invalid) ∧ e.lens = some lens := by
  simp [CacheEntry.holds]

/-- R35: a lookup finds an entry that holds the lens. -/
theorem holds_of_find {c : Cache} {lens : Nat} {slot : CacheSlot} (h : c.find lens = some slot) :
    (c.get slot).holds lens = true := by
  unfold Cache.find at h
  split at h
  next h0 => exact Option.some.inj h ▸ h0
  next =>
    split at h
    next h1 => exact Option.some.inj h ▸ h1
    next => exact nomatch h

theorem find_isSome_of_holds {c : Cache} {lens : Nat} {slot : CacheSlot} (h : (c.get slot).holds lens = true) :
    (c.find lens).isSome = true := by
  unfold Cache.find
  cases slot with
  | e0 => rw [if_pos (show c.e0.holds lens = true from h)]; rfl
  | e1 =>
    split
    · rfl
    · rw [if_pos (show c.e1.holds lens = true from h)]; rfl

/-- Settles O48: a lookup tries the two entries, and the victim is the one not served last. -/
theorem lookupFindsTheHolder : Obligations.LookupFindsTheHolder := by
  unfold Obligations.LookupFindsTheHolder
  intro c lens
  refine ⟨⟨fun h => ?_, fun ⟨slot, hs⟩ => find_isSome_of_holds ((holds_iff _ _).mpr hs)⟩, fun slot h => ?_, ?_, ?_⟩
  · obtain ⟨slot, hs⟩ := Option.isSome_iff_exists.mp h
    exact ⟨slot, (holds_iff _ _).mp (holds_of_find hs)⟩
  · exact ((holds_iff _ _).mp (holds_of_find h)).symm
  · unfold Cache.victim
    rcases h : c.lastServed with _ | _ | _ <;> simp
  · intro h
    unfold Cache.victim
    rw [h]

end Sys2Proof.Machine
end

