-- ==== Sys2Proof/Proofs/Arithmetic.lean ====
section
/-! PROOFS. The arithmetic of a pixel's positions (O57), the interpolation of the coefficients (O60), the slot search
(O50) and the lens decision (O46). -/

namespace Sys2Proof.Machine

/-! ### The rounded quotient is the nearest integer -/

/-- "Rounding": the nearest integer, halves away from zero. -/
theorem rndDiv_nearest (n : Int) {d : Int} (hd : 0 < d) :
    2 * (n - rndDiv n d * d) ≤ d ∧ 2 * (rndDiv n d * d - n) ≤ d ∧
      (2 * (n - rndDiv n d * d) = d → n < 0) ∧ (2 * (rndDiv n d * d - n) = d → 0 < n) := by
  have nonneg : ∀ m : Int, 0 ≤ m → 2 * (m - rndDiv m d * d) < d ∧ 2 * (rndDiv m d * d - m) ≤ d ∧
      (2 * (rndDiv m d * d - m) = d → 0 < m) := by
    intro m hm
    have hdiv := Int.mul_ediv_add_emod (2 * m + d) (2 * d)
    have hlow := Int.emod_nonneg (2 * m + d) (show 2 * d ≠ 0 by omega)
    have hhigh := Int.emod_lt_of_pos (2 * m + d) (show 0 < 2 * d by omega)
    rw [show rndDiv m d = (2 * m + d) / (2 * d) from if_pos hm]
    have hmul : 2 * d * ((2 * m + d) / (2 * d)) = 2 * ((2 * m + d) / (2 * d) * d) := by ring
    refine ⟨by omega, by omega, fun heq => ?_⟩
    rcases hm.lt_or_eq with h | rfl
    · exact h
    · rw [mul_zero, zero_add] at heq hdiv hlow hhigh hmul
      have : d / (2 * d) = 0 := Int.ediv_eq_zero_of_lt hd.le (by omega)
      rw [this, zero_mul] at heq
      omega
  rcases le_or_gt 0 n with h | h
  · obtain ⟨h1, h2, h3⟩ := nonneg n h
    exact ⟨h1.le, h2, fun he => absurd he h1.ne, h3⟩
  · obtain ⟨h1, h2, h3⟩ := nonneg (-n) (by omega)
    rw [rndDiv_neg _ hd, neg_mul] at h1 h2 h3
    exact ⟨by omega, by omega, fun _ => h, by omega⟩

/-! ### The offset, the radius and the positions of a pixel (R10 to R16) -/

theorem radiusU_floor (dx dy : Int) {rn : Nat} (hrn : 1 ≤ rn) :
    (radiusU dx dy rn : Int) * (256 * (rn : Int) ^ 2) ≤ (dx ^ 2 + dy ^ 2) * 65536 ∧
      (radiusU dx dy rn < 131071 →
        (dx ^ 2 + dy ^ 2) * 65536 < ((radiusU dx dy rn : Int) + 1) * (256 * (rn : Int) ^ 2)) := by
  have hunit : 0 < 256 * (rn : Int) ^ 2 := by positivity
  have hscaled : 0 ≤ (dx ^ 2 + dy ^ 2) * 65536 := by positivity
  unfold radiusU
  generalize 256 * (rn : Int) ^ 2 = unit at *
  generalize (dx ^ 2 + dy ^ 2) * 65536 = scaled at *
  have hq : 0 ≤ scaled / unit := Int.ediv_nonneg hscaled hunit.le
  have hle : (min (scaled / unit).toNat 131071 : Nat) ≤ scaled / unit := by omega
  refine ⟨(mul_le_mul_of_nonneg_right hle hunit.le).trans (Int.ediv_mul_le _ hunit.ne'), fun hlt => ?_⟩
  have heq : ((min (scaled / unit).toNat 131071 : Nat) : Int) = scaled / unit := by omega
  rw [heq]
  exact Int.lt_ediv_add_one_mul_self _ hunit

theorem radiusU_unit {dx dy : Int} {rn : Nat} (hrn : 1 ≤ rn) (h : dx ^ 2 + dy ^ 2 = 256 * (rn : Int) ^ 2) :
    radiusU dx dy rn = 65536 := by
  have hunit : 256 * (rn : Int) ^ 2 ≠ 0 := by positivity
  unfold radiusU
  rw [h, Int.mul_ediv_cancel_left _ hunit]
  rfl

/-- R14: a position in frame, as a proposition. -/
theorem inFrame_iff (w h : Nat) (p : Pos) : inFrame w h p = true ↔
    0 ≤ p.xs ∧ p.xs ≤ 16 * ((w : Int) - 1) ∧ 0 ≤ p.ys ∧ p.ys ≤ 16 * ((h : Int) - 1) := decide_eq_true_iff

theorem pixelOut_iff (t : Tables) (f : FrameFields) (rn x y : Nat) : pixelOut t f rn x y = true ↔
    ¬(inFrame f.srcW f.srcH (rawPositions t f rn x y).1 = true ∧
      inFrame f.srcW f.srcH (rawPositions t f rn x y).2.1 = true ∧
      inFrame f.srcW f.srcH (rawPositions t f rn x y).2.2 = true) := by
  unfold pixelOut
  simp only [Bool.not_eq_true', ← Bool.not_eq_true, Bool.and_eq_true, and_assoc]

/-- R15: under CLAMP each position is held to the source. -/
theorem pixelPos_clamp {f : FrameFields} (t : Tables) (rn x y : Nat) (h : f.edge = 1) :
    pixelPos t f rn x y =
      { fill := false
        r := clampPos f.srcW f.srcH (rawPositions t f rn x y).1
        g := clampPos f.srcW f.srcH (rawPositions t f rn x y).2.1
        b := clampPos f.srcW f.srcH (rawPositions t f rn x y).2.2 } := by
  have h2 : f.edge ≠ 2 := by omega
  unfold pixelPos
  exact if_neg h2

/-- R16: under FILL a pixel keeps its positions, or has its fill mark set. -/
theorem pixelPos_fill {f : FrameFields} (t : Tables) (rn x y : Nat) (h : f.edge = 2) :
    pixelPos t f rn x y = if pixelOut t f rn x y then { fill := true, r := ⟨0, 0⟩, g := ⟨0, 0⟩, b := ⟨0, 0⟩ }
      else { fill := false, r := (rawPositions t f rn x y).1, g := (rawPositions t f rn x y).2.1
             b := (rawPositions t f rn x y).2.2 } := by
  unfold pixelPos
  exact if_pos h

/-- Settles O57: the offsets by arithmetic, the radius as a floor, and the edge policies by their equations. -/
theorem pixelOffsetFromTheCentre : Obligations.PixelOffsetFromTheCentre := by
  unfold Obligations.PixelOffsetFromTheCentre
  refine ⟨fun x w => ⟨rfl, fun hw => ⟨?_, fun h1 => ?_⟩, fun hw => ?_⟩, fun dx dy rn hrn => ?_, fun t f rn x y => ?_⟩
  · unfold centreOffset; omega
  · unfold centreOffset; omega
  · unfold centreOffset; omega
  · obtain ⟨hfloor, hnext⟩ := radiusU_floor dx dy hrn
    have hcap := radiusU_le dx dy rn
    refine ⟨hcap, hfloor, hnext, by omega, fun h => ?_⟩
    rw [radiusU_unit hrn h]
    exact ⟨rfl, rfl⟩
  · have hout := pixelOut_iff t f rn x y
    simp only [inFrame_iff] at hout
    refine ⟨rfl, hout, pixelPos_clamp t rn x y, fun he ho => ?_, fun he ho => ?_⟩
    · rw [pixelPos_fill t rn x y he, if_neg fun hp => ho (hout.mp hp)]
      rfl
    · rw [pixelPos_fill t rn x y he, if_pos (hout.mpr ho)]

/-! ### Brackets and blends (R43 to R46) -/

theorem ascending_pairwise : ∀ {stops : List Nat}, ascending stops = true → stops.Pairwise (· < ·)
  | [], _ => .nil
  | [_], _ => List.pairwise_singleton _ _
  | a :: b :: rest, h => by
    simp only [ascending, Bool.and_eq_true, decide_eq_true_eq] at h
    obtain ⟨hab, hrest⟩ := h
    have ih := ascending_pairwise hrest
    refine List.pairwise_cons.mpr ⟨fun x hx => ?_, ih⟩
    rcases List.mem_cons.mp hx with rfl | hx
    · exact hab
    · exact hab.trans (List.rel_of_pairwise_cons ih hx)

/-- On rising stops those at or below a value are the first ones. -/
theorem getElem_le_iff_lt_countP {stops : List Nat} (h : stops.Pairwise (· < ·)) (v : Nat) {i : Nat}
    (hi : i < stops.length) : stops[i] ≤ v ↔ i < stops.countP (· ≤ v) := by
  induction stops generalizing i with
  | nil => exact absurd hi (Nat.not_lt_zero i)
  | cons a rest ih =>
    obtain ⟨habove, hrest⟩ := List.pairwise_cons.mp h
    by_cases ha : a ≤ v
    · rw [List.countP_cons_of_pos (by simpa using ha)]
      cases i with
      | zero => simpa using ha
      | succ j => simpa using ih hrest (by simpa using hi)
    · have hnone : rest.countP (· ≤ v) = 0 := by
        refine List.countP_eq_zero.mpr fun x hx => ?_
        have := habove x hx
        simpa using by omega
      rw [List.countP_cons_of_neg (by simpa using ha), hnone]
      refine iff_of_false ?_ (Nat.not_lt_zero i)
      cases i with
      | zero => simpa using ha
      | succ j =>
        have := habove _ (List.getElem_mem (by simpa using hi : j < rest.length))
        simpa using by omega

theorem bracket_low {stops : List Nat} {v : Nat} (h : v ≤ stops.getD 0 0) : bracket stops v = (0, 0, 0) := if_pos h

theorem bracket_high {stops : List Nat} {v : Nat} (h0 : stops.getD 0 0 < v)
    (h1 : stops.getD (stops.length - 1) 0 ≤ v) :
    bracket stops v = (stops.length - 1, stops.length - 1, 0) := by
  unfold bracket
  rw [if_neg (by omega), if_pos h1]

/-- R43: between the first and the last stop the bracket is the two neighbours of the value. -/
theorem bracket_between {stops : List Nat} {v : Nat} (ha : ascending stops = true) (h0 : stops.getD 0 0 < v)
    (h1 : v < stops.getD (stops.length - 1) 0) : ∃ i, i + 1 < stops.length ∧ stops.getD i 0 ≤ v ∧
      v < stops.getD (i + 1) 0 ∧ bracket stops v =
        (i, i + 1, (v - stops.getD i 0) * 4096 / (stops.getD (i + 1) 0 - stops.getD i 0)) := by
  have hcount : ∀ i, i < stops.length → (stops.getD i 0 ≤ v ↔ i < stops.countP (· ≤ v)) := fun i hi => by
    rw [List.getD_eq_getElem _ _ hi]
    exact getElem_le_iff_lt_countP (ascending_pairwise ha) v hi
  have hne : 0 < stops.length := by
    rcases stops with _ | _
    · exact absurd h1 (by simp)
    · simp
  have hfirst := (hcount 0 hne).mp (by omega)
  have hlast := mt (hcount (stops.length - 1) (by omega)).mpr (by omega)
  refine ⟨stops.countP (· ≤ v) - 1, by omega, (hcount _ (by omega)).mpr (by omega), ?_, ?_⟩
  · have := mt (hcount (stops.countP (· ≤ v) - 1 + 1) (by omega)).mp (by omega)
    omega
  · unfold bracket
    rw [if_neg (by omega), if_neg (by omega)]

theorem bracket_weight_le {stops : List Nat} (ha : ascending stops = true) (v : Nat) :
    (bracket stops v).2.2 ≤ 4095 := by
  rcases le_or_gt v (stops.getD 0 0) with h0 | h0
  · rw [bracket_low h0]; exact Nat.zero_le _
  · rcases le_or_gt (stops.getD (stops.length - 1) 0) v with h1 | h1
    · rw [bracket_high h0 h1]; exact Nat.zero_le _
    · obtain ⟨i, _, hle, hlt, heq⟩ := bracket_between ha h0 h1
      rw [heq]
      refine Nat.le_of_lt_succ (Nat.div_lt_of_lt_mul ?_)
      omega

/-- R46: at a stop the bracket begins with that stop, with weight 0. -/
theorem bracket_at_stop {stops : List Nat} {i : Nat} (ha : ascending stops = true) (hi : i < stops.length) :
    (bracket stops (stops.getD i 0)).1 = i ∧ (bracket stops (stops.getD i 0)).2.2 = 0 := by
  have hmono : ∀ {j k}, j < k → k < stops.length → stops.getD j 0 < stops.getD k 0 := fun {j k} hjk hk => by
    rw [List.getD_eq_getElem _ _ hk, List.getD_eq_getElem _ _ (hjk.trans hk)]
    exact List.pairwise_iff_getElem.mp (ascending_pairwise ha) j k _ _ hjk
  rcases Nat.eq_zero_or_pos i with rfl | hpos
  · rw [bracket_low le_rfl]
    exact ⟨rfl, rfl⟩
  · have h0 := hmono hpos hi
    rcases Nat.lt_or_ge i (stops.length - 1) with hlt | hge
    · obtain ⟨j, hj, hle, hnext, heq⟩ := bracket_between ha h0 (hmono hlt (by omega))
      have hji : j = i := by
        rcases Nat.lt_trichotomy j i with h | h | h
        · rcases Nat.lt_or_ge (j + 1) i with h' | h'
          · have := hmono h' hi
            omega
          · rw [show j + 1 = i by omega] at hnext
            omega
        · exact h
        · have := hmono h (by omega)
          omega
      subst hji
      rw [heq, Nat.sub_self, Nat.zero_mul, Nat.zero_div]
      exact ⟨rfl, rfl⟩
    · obtain rfl : i = stops.length - 1 := by omega
      rw [bracket_high h0 le_rfl]
      exact ⟨rfl, rfl⟩

theorem outsideAxis_iff (stops : List Nat) (v : Nat) : outsideAxis stops v = true ↔
    stops.length ≠ 1 ∧ (v < stops.getD 0 0 ∨ stops.getD (stops.length - 1) 0 < v) := by
  simp [outsideAxis]

/-- R44: a stop is never outside its axis. -/
theorem outsideAxis_at_stop {stops : List Nat} {i : Nat} (ha : ascending stops = true) (hi : i < stops.length) :
    outsideAxis stops (stops.getD i 0) = false := by
  have hmono : ∀ {j k}, j ≤ k → k < stops.length → stops.getD j 0 ≤ stops.getD k 0 := fun {j k} hjk hk => by
    rcases hjk.lt_or_eq with hlt | rfl
    · rw [List.getD_eq_getElem _ _ hk, List.getD_eq_getElem _ _ (hlt.trans hk)]
      exact (List.pairwise_iff_getElem.mp (ascending_pairwise ha) j k _ _ hlt).le
    · exact le_rfl
  rw [← Bool.not_eq_true, outsideAxis_iff]
  rintro ⟨-, h | h⟩
  · exact absurd (hmono (Nat.zero_le i) hi) (by omega)
  · exact absurd (hmono (show i ≤ stops.length - 1 by omega) (by omega)) (by omega)

theorem blend_zero (a b : Int) : blend a b 0 = a := by simp [blend, rndDiv]

theorem blend_self (a : Int) (w : Nat) : blend a a w = a := by simp [blend, rndDiv]

theorem blend_between (a b : Int) {w : Nat} (hw : w ≤ 4095) : min a b ≤ blend a b w ∧ blend a b w ≤ max a b := by
  have := rndDiv_mul_mem (b - a) (part := (w : Int)) (d := 4096) (by omega) (by omega) (by omega)
  unfold blend
  omega

theorem get_interpolate {p : Profile} {zoom focus : Nat} {get : Coeffs → Int}
    (h : get ∈ [Coeffs.k1, Coeffs.k2, Coeffs.k3, Coeffs.ar, Coeffs.br, Coeffs.ab, Coeffs.bb, Coeffs.sx, Coeffs.sy]) :
    get (interpolate p zoom focus) = blendField p (bracket p.zooms zoom) (bracket p.foci focus) get := by
  simp only [List.mem_cons, List.not_mem_nil, or_false] at h
  rcases h with rfl | rfl | rfl | rfl | rfl | rfl | rfl | rfl | rfl <;> rfl

/-- R46: at two stops the set is that of their node. -/
theorem interpolate_at_node {p : Profile} {i j : Nat} (hz : ascending p.zooms = true) (hf : ascending p.foci = true)
    (hi : i < p.zooms.length) (hj : j < p.foci.length) :
    interpolate p (p.zooms.getD i 0) (p.foci.getD j 0) = p.node i j := by
  obtain ⟨hzi, hzw⟩ := bracket_at_stop hz hi
  obtain ⟨hfj, hfw⟩ := bracket_at_stop hf hj
  have hfield : ∀ get, blendField p (bracket p.zooms (p.zooms.getD i 0)) (bracket p.foci (p.foci.getD j 0)) get =
      get (p.node i j) := by
    intro get
    unfold blendField
    simp only [hzi, hzw, hfj, hfw, blend_zero]
  unfold interpolate
  simp only [hfield]

theorem usedZoom_eq (p : Profile) (f : LensFrame) (o : Override) : usedZoom p f o =
    match f.flags.hold, o.zoom with
      | true, some v => v
      | true, none => p.zooms.getD p.restZoom 0
      | false, _ => f.zoom.getD 0 := by
  unfold usedZoom
  cases f.flags.hold <;> cases o.zoom <;> rfl

theorem usedFocus_eq (p : Profile) (f : LensFrame) (o : Override) : usedFocus p f o =
    match f.flags.hold, o.focus with
      | true, some v => min v 4095
      | true, none => p.foci.getD p.restFocus 0
      | false, _ => f.focus.getD 0 := by
  unfold usedFocus
  cases f.flags.hold <;> cases o.focus <;> rfl

/-- Settles O60: brackets on rising stops, blends by the rounded quotient, and the rest node as the node of two
stops. -/
theorem interpolationStaysBetweenItsNodes : Obligations.InterpolationStaysBetweenItsNodes := by
  unfold Obligations.InterpolationStaysBetweenItsNodes
  refine ⟨fun stops v _ ha => ⟨bracket_low, bracket_high, bracket_between ha, bracket_weight_le ha v,
    outsideAxis_iff stops v⟩, fun a b w => ?_, fun p zoom focus get h => get_interpolate h, fun p f o => ?_⟩
  · have hstep : blend a b w - a = rndDiv ((b - a) * w) 4096 := by unfold blend; omega
    dsimp only
    rw [hstep]
    obtain ⟨h1, h2, h3, h4⟩ := rndDiv_nearest ((b - a) * w) (d := 4096) (by omega)
    exact ⟨h1, h2, h3, h4, blend_between a b, blend_self a w, blend_zero a b⟩
  · intro zoom focus
    have hzoom : zoom = usedZoom p f o := (usedZoom_eq p f o).symm
    have hfocus : focus = usedFocus p f o := (usedFocus_eq p f o).symm
    rw [hzoom, hfocus]
    refine ⟨rfl, rfl, fun hh hoz hof hz hf hi hj => ?_⟩
    have huz : usedZoom p f o = p.zooms.getD p.restZoom 0 := by rw [usedZoom_eq, hh, hoz]
    have huf : usedFocus p f o = p.foci.getD p.restFocus 0 := by rw [usedFocus_eq, hh, hof]
    unfold resolveFrom
    rw [huz, huf]
    refine ⟨interpolate_at_node hz hf hi hj, ?_⟩
    dsimp only
    rw [outsideAxis_at_stop hz hi, outsideAxis_at_stop hf hj]
    rfl

/-! ### The slot search (R122, R124) -/

/-- The slot that memory shows EMPTY and that no held slot of the pool names. -/
def FreeSlot (held : List HeldSlot) (pool : Nat) (p : PoolView) (i : Nat) : Prop :=
  (p.slots[i]?).map Prod.snd = some 0 ∧ ∀ h, h ∈ held → h.pool = pool → h.slot ≠ i

theorem slotFree_iff (held : List HeldSlot) (pool : Nat) (p : PoolView) (i : Nat) :
    slotFree held pool p i = true ↔ FreeSlot held pool p i := by
  simp [slotFree, FreeSlot]

/-- The index the search begins after. -/
def searchFrom (p : PoolView) : Nat := if p.slotCount ≤ p.lastFilled then p.slotCount - 1 else p.lastFilled

theorem searchOrder_eq (p : PoolView) :
    searchOrder p = (List.range p.slotCount).map fun i => (searchFrom p + 1 + i) % p.slotCount := rfl

theorem mem_searchOrder {p : PoolView} {i : Nat} : i ∈ searchOrder p ↔ i < p.slotCount := by
  rw [searchOrder_eq, List.mem_map]
  constructor
  · rintro ⟨j, hj, rfl⟩
    exact Nat.mod_lt _ (Nat.zero_lt_of_lt (List.mem_range.mp hj))
  · intro hi
    have hlt : (searchFrom p + 1) % p.slotCount < p.slotCount := Nat.mod_lt _ (by omega)
    refine ⟨(i + (p.slotCount - (searchFrom p + 1) % p.slotCount)) % p.slotCount,
      List.mem_range.mpr (Nat.mod_lt _ (by omega)), ?_⟩
    rw [Nat.add_mod_mod, ← Nat.mod_add_mod,
      show (searchFrom p + 1) % p.slotCount + (i + (p.slotCount - (searchFrom p + 1) % p.slotCount)) =
        i + p.slotCount by omega, Nat.add_mod_right, Nat.mod_eq_of_lt hi]

theorem searchOrder_nodup (p : PoolView) : (searchOrder p).Nodup := by
  rw [searchOrder_eq]
  refine List.Nodup.map_on (fun a ha b hb hab => ?_) List.nodup_range
  have hmod : a ≡ b [MOD p.slotCount] := Nat.ModEq.add_left_cancel' _ hab
  exact Nat.ModEq.eq_of_lt_of_lt hmod (List.mem_range.mp ha) (List.mem_range.mp hb)

/-- Settles O50: the search is `find?` over an order that names each slot once. -/
theorem chosenSlotIsTheFirstFree : Obligations.ChosenSlotIsTheFirstFree := by
  unfold Obligations.ChosenSlotIsTheFirstFree
  intro held pool p
  refine ⟨fun j hj => ?_, by simp [searchOrder], searchOrder_nodup p, ?_, fun i hi => ?_⟩
  · rw [searchOrder_eq]
    simp only [List.getElem?_map, List.getElem?_range hj, Option.map_some]
    rfl
  · unfold chooseSlot
    rw [List.find?_eq_none]
    exact forall_congr' fun i => imp_congr mem_searchOrder (not_congr (slotFree_iff held pool p i))
  · obtain ⟨hfree, before, after, heq, hbefore⟩ := List.find?_eq_some_iff_append.mp hi
    refine ⟨mem_searchOrder.mp (heq ▸ by simp), (slotFree_iff held pool p i).mp hfree, before, after, heq, ?_⟩
    intro j hj hjfree
    have hnot := hbefore j hj
    rw [(slotFree_iff held pool p j).mpr hjfree] at hnot
    exact absurd hnot (by decide)

/-! ### The lens decision (R49, R53 to R62) -/

theorem usable_iff (now : Word) (x : LensSample) :
    usable now x = true ↔ x.valid = true ∧ (now - x.stamp).toNat ≤ 2147483648 := by
  simp [usable]

/-- R53: the newest usable sample, and the other one when both are usable. -/
theorem chooseSamples_eq {now : Word} {n p : LensSample} (h : usable now n = true ∨ usable now p = true) :
    chooseSamples now n p = some (if usable now n then n else p,
      if usable now n = true ∧ usable now p = true then some p else none) := by
  unfold chooseSamples
  cases hn : usable now n <;> cases hp : usable now p <;> simp_all

theorem boardStep_some {cfg : ConfigCopy} {now : Word} {u : LensUnit} {n p : LensSample}
    (h : usable now n = true ∨ usable now p = true) :
    boardStep cfg now u (some (n, p)) = boardSome cfg now u (if usable now n then n else p)
      (if usable now n = true ∧ usable now p = true then some p else none) := by
  unfold boardStep
  simp only [Option.bind_some, chooseSamples_eq h]

/-- R54: without a usable sample the unit is as it was. -/
theorem boardStep_none {cfg : ConfigCopy} {now : Word} {u : LensUnit} {slots : Option (LensSample × LensSample)}
    (h : ∀ n p, slots = some (n, p) → usable now n = false ∧ usable now p = false) :
    boardStep cfg now u slots = boardNone u := by
  unfold boardStep
  have hbind : (slots.bind fun np => chooseSamples now np.1 np.2) = none := by
    rcases slots with _ | ⟨n, p⟩
    · rfl
    · obtain ⟨hn, hp⟩ := h n p rfl
      simp [chooseSamples, hn, hp]
  rw [hbind]

theorem apart_le_iff (a b d : Nat) : apart a b ≤ d ↔ a ≤ b + d ∧ b ≤ a + d := by unfold apart; omega

/-- R58, R59: the filter accepts a pair within both tolerances; of one within the focus tolerance alone under the
widest tolerances it is left open. -/
theorem settles_iff (cfg : ConfigCopy) (n p : LensSample) : settles cfg n (some p) = true ↔
    p.lens = n.lens ∧ (p.seq + 1) % 4294967296 = n.seq ∧ n.focus ≤ p.focus + cfg.focusTol ∧
      p.focus ≤ n.focus + cfg.focusTol ∧ ((n.zoom ≤ p.zoom + cfg.zoomTol ∧ p.zoom ≤ n.zoom + cfg.zoomTol) ∨
        (cfg.zoomTol = 4095 ∧ cfg.focusTol = 4095) ∧ Config.fullTolerancesAcceptAll = true) := by
  simp only [settles, Bool.and_eq_true, Bool.or_eq_true, decide_eq_true_eq, apart_le_iff, and_assoc]
  rfl

/-- R55: the age chooses among fresh, stale and hold. -/
theorem boardSome_within {cfg : ConfigCopy} {now : Word} {u : LensUnit} {x : LensSample} {q : Option LensSample}
    (h : (now - x.stamp).toNat ≤ cfg.holdLimit * 1000) :
    boardSome cfg now u x q = boardWithin cfg { u with lastSeq := BitVec.ofNat 32 x.seq } x q
      (decide (cfg.staleLimit * 1000 < (now - x.stamp).toNat)) := by
  unfold boardSome
  by_cases hs : (now - x.stamp).toNat ≤ cfg.staleLimit * 1000
  · rw [decide_eq_false (by omega)]
    exact if_pos hs
  · rw [decide_eq_true (by omega)]
    exact (if_neg hs).trans (if_pos h)

theorem boardSome_beyond {cfg : ConfigCopy} {now : Word} {u : LensUnit} {x : LensSample} {q : Option LensSample}
    (h : max cfg.staleLimit cfg.holdLimit * 1000 < (now - x.stamp).toNat) :
    boardSome cfg now u x q =
      { unit := { u with lastSeq := BitVec.ofNat 32 x.seq }
        frame := takeSettled { u with lastSeq := BitVec.ofNat 32 x.seq }
          { stale := true, hold := u.settledLens.isSome } } := by
  unfold boardSome
  exact (if_neg (by omega)).trans (if_neg (by omega))

theorem boardSome_frame (cfg : ConfigCopy) (now : Word) (u : LensUnit) (x : LensSample) (q : Option LensSample) :
    let b := boardSome cfg now u x q
    b.unit.lastSeq = BitVec.ofNat 32 x.seq ∧ b.frame.lens = b.unit.settledLens ∧
      b.frame.zoom = b.unit.settledZoom ∧ b.frame.focus = b.unit.settledFocus := by
  have within : ∀ v stale, let b := boardWithin cfg v x q stale
      b.unit.lastSeq = v.lastSeq ∧ b.frame.lens = b.unit.settledLens ∧ b.frame.zoom = b.unit.settledZoom ∧
        b.frame.focus = b.unit.settledFocus := by
    intro v stale
    unfold boardWithin
    dsimp only
    split
    · exact ⟨rfl, rfl, rfl, rfl⟩
    · split <;> exact ⟨rfl, rfl, rfl, rfl⟩
  unfold boardSome
  dsimp only
  split
  · exact within _ _
  · split
    · exact within _ _
    · exact ⟨rfl, rfl, rfl, rfl⟩

theorem boardSome_stale (cfg : ConfigCopy) (now : Word) (u : LensUnit) (x : LensSample) (q : Option LensSample) :
    (boardSome cfg now u x q).frame.flags.stale = true ↔ cfg.staleLimit * 1000 < (now - x.stamp).toNat := by
  have within : ∀ v stale, (boardWithin cfg v x q stale).frame.flags.stale = stale := by
    intro v stale
    unfold boardWithin
    split
    · rfl
    · split <;> rfl
  unfold boardSome
  dsimp only
  split
  · rw [within]; exact iff_of_false Bool.false_ne_true (by omega)
  · split
    · rw [within]; exact iff_of_true rfl (by omega)
    · exact iff_of_true rfl (by omega)

theorem boardWithin_new {cfg : ConfigCopy} {u : LensUnit} {x : LensSample} {q : Option LensSample} {stale : Bool}
    (h : u.settledLens ≠ some x.lens) : boardWithin cfg u x q stale =
      { unit := settleOn u x, frame := takeSettled (settleOn u x) { stale := stale, lensNew := true } } := if_pos h

theorem boardWithin_settles {cfg : ConfigCopy} {u : LensUnit} {x : LensSample} {q : Option LensSample} {stale : Bool}
    (h : u.settledLens = some x.lens) (hs : cfg.settleMode = 2 ∨ settles cfg x q = true) :
    boardWithin cfg u x q stale =
      { unit := settleOn u x, frame := takeSettled (settleOn u x) { stale := stale } } := by
  unfold boardWithin
  rw [if_neg (not_not.mpr h), if_pos (by simpa using hs)]

theorem boardWithin_moves {cfg : ConfigCopy} {u : LensUnit} {x : LensSample} {q : Option LensSample} {stale : Bool}
    (h : u.settledLens = some x.lens) (hm : cfg.settleMode ≠ 2) (hs : settles cfg x q = false) :
    boardWithin cfg u x q stale = { unit := u, frame := takeSettled u { stale := stale, moving := true } } := by
  unfold boardWithin
  rw [if_neg (not_not.mpr h), if_neg (by simp [hm, hs])]

/-- R56: neither the board nor its age touches the previous-stale mark. -/
theorem boardStep_prevStale (cfg : ConfigCopy) (now : Word) (u : LensUnit)
    (slots : Option (LensSample × LensSample)) : (boardStep cfg now u slots).unit.prevStale = u.prevStale := by
  have within : ∀ v x q stale, (boardWithin cfg v x q stale).unit.prevStale = v.prevStale := by
    intro v x q stale
    unfold boardWithin
    split
    · rfl
    · split <;> rfl
  unfold boardStep
  split
  · rfl
  · unfold boardSome
    dsimp only
    split
    · exact within _ _ _ _
    · split
      · exact within _ _ _ _
      · rfl

/-- R60 to R62: the flags a completed frame carries. -/
theorem completeFrame_eq (f : LensFrame) :
    completeFrame f = { f with flags := { f.flags with
      unknownLens := f.flags.unknownLens || decide (f.lens = none ∨ f.lens = some 0)
      hold := f.flags.hold ||
        (!decide (f.lens = none ∨ f.lens = some 0) && decide (f.zoom = none ∨ f.focus = none)) } } := by
  obtain ⟨lens, zoom, focus, flags⟩ := f
  unfold completeFrame
  rcases lens with _ | _ | lens
  · simp
  · simp
  · cases zoom <;> cases focus <;> simp

/-- R61: OVERRIDE is flagged when the override supplies a lens, a zoom or a focus. -/
theorem override_supplies (o : Override) (flag : Bool) :
    (flag || o.lens.isSome || o.zoom.isSome || o.focus.isSome) =
      (flag || decide (o.lens ≠ none ∨ o.zoom ≠ none ∨ o.focus ≠ none)) := by
  cases o.lens <;> cases o.zoom <;> cases o.focus <;> simp

theorem completeFrame_flags (o : Override) (f : LensFrame) :
    let d := completeFrame (overrideFrame o f)
    let unknown := decide (d.lens = none ∨ d.lens = some 0)
    d.flags = { f.flags with
      override := f.flags.override || decide (o.lens ≠ none ∨ o.zoom ≠ none ∨ o.focus ≠ none)
      unknownLens := f.flags.unknownLens || unknown
      hold := f.flags.hold || (!unknown && decide (d.zoom = none ∨ d.focus = none)) } := by
  dsimp only
  rw [completeFrame_eq, ← override_supplies]
  rfl

theorem getLsbD_events (i : Nat) (lensNew stale before : Bool) :
    (eventWhen lensNew evLensChange ||| eventWhen (stale && !before) evLensStale).getLsbD i = true ↔
      i = 5 ∧ lensNew = true ∨ i = 6 ∧ stale = true ∧ before = false := by
  have hbit : ∀ (cause : Bool) (k : Nat), k < 10 → ((eventWhen cause (eventBit k)).getLsbD i = true ↔
      i = k ∧ cause = true) := by
    intro cause k hk
    cases cause
    · simp [eventWhen]
    · simp [eventWhen, eventBit, BitVec.getLsbD_shiftLeft]
      omega
  rw [BitVec.getLsbD_or, Bool.or_eq_true, evLensChange, evLensStale, hbit _ 5 (by omega), hbit _ 6 (by omega)]
  simp

/-- R58, R59: the filter accepts exactly a pair of usable slots. -/
theorem settles_chosen_iff (cfg : ConfigCopy) (now : Word) (n p : LensSample) :
    settles cfg (if usable now n then n else p)
        (if usable now n = true ∧ usable now p = true then some p else none) = true ↔
      (usable now n = true ∧ usable now p = true) ∧ settles cfg n (some p) = true := by
  by_cases h : usable now n = true ∧ usable now p = true
  · rw [if_pos h, if_pos h.1]
    exact (and_iff_right h).symm
  · rw [if_neg h]
    exact iff_of_false Bool.false_ne_true fun hp => h hp.1

/-- R57 to R59: a sample of the settled lens settles, or the frame is moving. -/
theorem boardSome_same {cfg : ConfigCopy} {now : Word} {u : LensUnit} {x : LensSample} {q : Option LensSample}
    (hage : (now - x.stamp).toNat ≤ cfg.holdLimit * 1000) (hsame : u.settledLens = some x.lens) :
    let b := boardSome cfg now u x q
    (cfg.settleMode = 2 ∨ settles cfg x q = true → b.unit.settledZoom = some x.zoom ∧
      b.unit.settledFocus = some x.focus ∧ b.frame.flags.moving = false ∧ b.frame.flags.lensNew = false) ∧
    (cfg.settleMode ≠ 2 → settles cfg x q = false → b.unit = { u with lastSeq := BitVec.ofNat 32 x.seq } ∧
      b.frame.flags.moving = true ∧ b.frame.flags.lensNew = false) := by
  rw [boardSome_within hage]
  refine ⟨fun hs => ?_, fun hm hs => ?_⟩
  · rw [boardWithin_settles (by exact hsame) hs]
    exact ⟨rfl, rfl, rfl, rfl⟩
  · rw [boardWithin_moves (by exact hsame) hm hs]
    exact ⟨rfl, rfl, rfl⟩

/-- Settles O46: the age decides among the equations of `boardSome` and `boardWithin`, and the override and the
completion are field by field. -/
theorem boardDecisionByAge : Obligations.BoardDecisionByAge := by
  unfold Obligations.BoardDecisionByAge
  refine ⟨usable_iff, fun cfg now u n p hu => ?_, fun cfg now u slots h => boardStep_none h,
    fun cfg now u slots o => ?_⟩
  · rw [boardStep_some hu]
    intro x b age
    obtain ⟨hseq, hlens, hzoom, hfocus⟩ := boardSome_frame cfg now u x
      (if usable now n = true ∧ usable now p = true then some p else none)
    refine ⟨hseq, hlens, hzoom, hfocus, boardSome_stale .., fun hage => ?_, fun hage hnew => ?_,
      fun hage hsame => ?_⟩
    · rw [show b = _ from boardSome_beyond hage]
      exact ⟨rfl, rfl⟩
    · rw [show b = _ from (boardSome_within hage).trans (boardWithin_new hnew)]
      exact ⟨rfl, rfl, rfl, rfl⟩
    · obtain ⟨hsettle, hmove⟩ := boardSome_same (q :=
        if usable now n = true ∧ usable now p = true then some p else none) hage hsame
      have haccept := (settles_chosen_iff cfg now n p).trans (and_congr_right fun _ => settles_iff cfg n p)
      intro pair near widest settles moves
      refine ⟨fun h => hsettle (h.imp_right fun ⟨⟨hn, hp, hlens, hseq, hf⟩, hz⟩ => haccept.mpr
          ⟨⟨hn, hp⟩, hlens, hseq, hf.1, hf.2, .inl hz⟩), fun hm h => hmove (by omega) ?_, fun hm _ _ _ => ?_⟩
      · rw [← Bool.not_eq_true, haccept]
        rintro ⟨⟨hn, hp⟩, hlens, hseq, hf1, hf2, hz⟩
        rcases h with hpair | ⟨hnear, hwide⟩
        · exact hpair ⟨hn, hp, hlens, hseq, hf1, hf2⟩
        · exact hz.elim hnear fun hw => hwide hw.1
      · rcases Bool.eq_false_or_eq_true (Machine.settles cfg (if usable now n then n else p)
          (if usable now n = true ∧ usable now p = true then some p else none)) with h | h
        · exact .inl (hsettle (.inr h))
        · exact .inr (hmove (by omega) h)
  · have hcomplete := completeFrame_eq (overrideFrame o (boardStep cfg now u slots).frame)
    have hprev := boardStep_prevStale cfg now u slots
    refine ⟨rfl, ?_, ?_, ?_, ?_, fun i => ?_⟩
    · show (completeFrame _).lens = _
      rw [hcomplete]
      unfold overrideFrame
      cases o.lens <;> rfl
    · show (completeFrame _).zoom = _
      rw [hcomplete]
      unfold overrideFrame
      cases o.zoom <;> rfl
    · show (completeFrame _).focus = _
      rw [hcomplete]
      unfold overrideFrame
      cases o.focus <;> rfl
    · exact completeFrame_flags o _
    · rw [← hprev]
      exact getLsbD_events i _ _ _

end Sys2Proof.Machine
end

