-- ==== Sys2Proof/Proofs/ControllerEnds.lean ====
section
/-! PROOFS. The ends of the Engine Controller's accesses (O30, O31, O33, O34): the configuration read of a START,
RESUME, RELOAD and group boundary, and the status write. -/

namespace Sys2Proof.Machine

variable {s : State}

/-! ### Tasks asked for when the controller has just become free -/

theorem kick_status {w : StatusWrite} {rest : List EcTask} (hj : s.ec.job = none) (hq : s.ec.queue = .status w :: rest) :
    kick s = beginStatus w { s with ec := { s.ec with queue := rest } } := by
  unfold kick
  rw [hj, hq]
  rfl

/-- The Port once the request is handed over. -/
def State.portWith (r : Request) (s : State) : Port :=
  if s.port.inFlight.isSome then (s.submit r).port else (startAccess r s).port

/-- Only the Port differs, and it depends on nothing that waits for the controller. -/
theorem handedOver_eq (r : Request) (s : State) : State.handedOver r s = { s with port := s.portWith r } := by
  unfold State.handedOver State.portWith
  split <;> rfl

theorem reporting_eq (w : StatusWrite) (s : State) : State.reporting w s = { s with
    port := s.portWith (statusReq .leading (s.ec.writeCount + 1) (statusBody s))
    ec := { s.ec with
      writeCount := s.ec.writeCount + 1, eventsDue := 0, cursorDue := false
      job := some { job := (.status { w with onEnd := w.onEnd ||| s.ec.eventsDue, cursorAtStart := s.ec.cursor }
        .leading (statusBody s)) } } } :=
  handedOver_eq _ _

/-- A status write that carries no event of an earlier one. -/
theorem reporting_of_noneDue {w : StatusWrite} (h : s.ec.eventsDue = 0) : State.reporting w s = { s with
    port := s.portWith (statusReq .leading (s.ec.writeCount + 1) (statusBody s))
    ec := { s.ec with
      writeCount := s.ec.writeCount + 1, eventsDue := 0, cursorDue := false
      job := some { job := (.status { w with cursorAtStart := s.ec.cursor } .leading (statusBody s)) } } } := by
  have hw : w.onEnd ||| s.ec.eventsDue = w.onEnd := by rw [h]; exact BitVec.or_zero
  rw [reporting_eq, hw]

/-- R143: the waiting status write `f` begins, behind which the tasks `q` are left. -/
theorem settle_beginStatus_waiting {f : StatusWrite} {q : List EcTask} {e : BitVec 10} {d : Bool}
    (hw : s.reg.winSize ≠ 0) (hp : s.PortSettled) :
    settle (beginStatus f { s with ec := { s.ec with queue := q, eventsDue := e, cursorDue := d } }) =
      let r := State.reporting f { s with ec := { s.ec with queue := [], eventsDue := 0 } }
      { r with ec := { r.ec with queue := q, eventsDue := e, cursorDue := d } } := by
  unfold beginStatus
  rw [settle_submit (by exact hp) (accessOk_statusReq (by exact hw)), handedOver_eq, reporting_of_noneDue rfl]
  rfl

/-- R170: a status write asked for while another one may wait for the controller's turn. -/
theorem settle_kick_requestStatus {before : Option StatusWrite} {w : StatusWrite} (hj : s.ec.job = none)
    (hq : s.ec.queue = before.toList.map .status) (hw : s.reg.winSize ≠ 0) (hp : s.PortSettled) :
    settle (kick (requestStatus w s)) = s.reportingAfter before w := by
  rw [kick_of_job (oneRequest_status s).busy]
  cases before with
  | none => exact settle_requestStatus ⟨hj, hq, hw, hp⟩
  | some f =>
    unfold requestStatus
    rw [kick_status (by exact hj) (by simp only [State.mapEc, hq]; rfl)]
    refine (settle_beginStatus_waiting (s := s) hw hp).trans ?_
    unfold State.reportingAfter
    dsimp only
    rw [reporting_of_noneDue rfl]
    rfl

/-- R143, R160: a RELOAD's configuration read asked for while a status write may wait for the controller's turn. -/
theorem settle_kick_requestConfig_waiting {f : StatusWrite} {why : ConfigWhy} (hj : s.ec.job = none)
    (hq : s.ec.queue = [.status f]) (hw : s.reg.winSize ≠ 0) (hp : s.PortSettled) :
    settle (kick (requestConfig why s)) =
      let r := State.reporting f { s with ec := { s.ec with queue := [], eventsDue := 0 } }
      { r with ec := { r.ec with queue := [.config why], eventsDue := s.ec.eventsDue, cursorDue := s.ec.cursorDue } } := by
  rw [kick_of_job (oneRequest_config s).busy]
  unfold requestConfig
  rw [kick_status (by exact hj) (by simp only [State.mapEc, hq]; rfl)]
  exact settle_beginStatus_waiting (s := s) hw hp

theorem settle_kick_requestConfig {why : ConfigWhy} (hc : s.ControllerFree) :
    settle (kick (requestConfig why s)) = s.readingConfig why := by
  rw [kick_of_job (oneRequest_config s).busy, settle_requestConfig hc]

/-! ### Entries with no work in progress -/

theorem clearAssembly_free (hw : s.work = none) : clearAssembly s = s.lookEnded := by
  simp only [clearAssembly, State.lookEnded, State.setWork, State.mapChain, hw, leftWork]

theorem enterStopped_free (hw : s.work = none) : enterStopped s = requestStatus { onSuccess := evStopped } s.stopped := by
  unfold enterStopped
  rw [clearAssembly_free hw]
  rfl

theorem enterHalted_free {reason : HaltReason} {record : Nat} (hw : s.work = none) :
    enterHalted reason record s = requestStatus { onEnd := evHalt } (s.halted reason record) := by
  unfold enterHalted haltWith
  rw [clearAssembly_free hw]
  rfl

/-! ### The configuration read of a START or RESUME -/

theorem exec_configReadDone {why : ConfigWhy} {ok : Bool} {data : List Byte}
    (hj : s.ec.job = some { job := .config why, ended := true, ok := ok, data := data }) :
    exec .configReadDone s = finish (configEnded why ok data s) := by
  show execConfigReadDone s = _
  unfold execConfigReadDone
  rw [hj]

/-- The controller's access has been reported and acted on. -/
def State.ecDone (s : State) : State := { s with ec := { s.ec with job := none } }

theorem configEnded_start (resume ok : Bool) (data : List Byte) (s : State) :
    configEnded (if resume then .resume else .start) ok data s =
      kick (startRead resume (configFields data) (readFault ok data s.window) s.ecDone) := by
  cases resume <;> rfl

theorem readFault_of_clean {ok : Bool} {data : List Byte} {window : Nat} (hok : ok = true)
    (hf : configFault (configFields data) window = none) : readFault ok data window = none := by
  rw [readFault, hok]
  exact hf

theorem readFault_of_fault {ok : Bool} {data : List Byte} {window f : Nat}
    (h : ok = true ∧ configFault (configFields data) window = some f ∨ ok = false ∧ f = 0) :
    readFault ok data window = some f := by
  rcases h with ⟨rfl, hf⟩ | ⟨rfl, rfl⟩
  · exact hf
  · rfl

theorem reliefActive_eq (threshold consecutive : Nat) :
    reliefActive threshold consecutive = decide (threshold ≠ 0 ∧ threshold ≤ consecutive) := by
  simp [reliefActive]

/-- R158, R140: the copy after a clean read. -/
def State.copied (c : ConfigCopy) (s : State) : State := { s with
  ec := { s.ec with cfg := clampConfig c, cfgValid := true }
  pace := { s.pace with relief := decide (c.reliefThreshold ≠ 0 ∧ c.reliefThreshold ≤ s.pace.consecutive) } }

theorem applyCopy_eq (c : ConfigCopy) (s : State) : applyCopy c s = s.copied c := by
  simp only [applyCopy, State.mapEc, State.mapPace, reliefActive_eq]
  rfl

/-- R152, R153, R155: the cursor after the clean read of a START or RESUME. -/
def State.headed (toHead : Bool) (c : ConfigCopy) (s : State) : State := { s.copied c with
  ec := { (s.copied c).ec with
    cursor := if toHead then c.chainHead else s.ec.cursor, linkWait := !toHead && s.ec.linkWait } }

/-- Whether that read puts the cursor at the chain head. -/
def State.goesToHead (resume : Bool) (s : State) : Bool :=
  !resume || decide (s.ec.cursor = 0) || (decide (s.ec.engine = .stopping) && Config.stopTakesChainHead)

theorem startRead_aborted {resume : Bool} {c : ConfigCopy} {fault : Option Nat} (h : s.ec.endedByAbort = true) :
    startRead resume c fault s = enterStopped s := by
  unfold startRead
  rw [if_pos h]

theorem startRead_fault {resume : Bool} {c : ConfigCopy} {f : Nat} (h : s.ec.endedByAbort = false) :
    startRead resume c (some f) s = configHalt f s := by
  unfold startRead
  rw [if_neg (by rw [h]; exact Bool.false_ne_true)]

theorem startRead_clean {resume : Bool} {c : ConfigCopy} (h : s.ec.endedByAbort = false) :
    ∃ moved, startRead resume c none s =
      if s.ec.engine = .stopping then stopFromStarting moved (s.headed (s.goesToHead resume) c)
      else parkFromStarting (s.headed (s.goesToHead resume) c) := by
  refine ⟨s.goesToHead resume && cursorMoves (applyCopy c s).ec.cfg.chainHead false (applyCopy c s), ?_⟩
  unfold startRead State.goesToHead
  rw [if_neg (by rw [h]; exact Bool.false_ne_true)]
  dsimp only
  generalize (!resume || decide (s.ec.cursor = 0) ||
    (decide (s.ec.engine = .stopping) && Config.stopTakesChainHead)) = toHead
  rw [applyCopy_eq]
  cases toHead <;> rfl

theorem goesToHead_of_start {resume : Bool} (h : ¬(resume = true ∧ s.ec.cursor ≠ 0)) : s.goesToHead resume = true := by
  unfold State.goesToHead
  cases resume
  · rfl
  · rw [decide_eq_true (by simpa using h)]
    rfl

/-- R155: a RESUME whose cursor is not 0 keeps it in STARTING. -/
theorem goesToHead_of_resume {resume : Bool} (h : resume = true ∧ s.ec.cursor ≠ 0) (he : s.ec.engine ≠ .stopping) :
    s.goesToHead resume = false := by
  unfold State.goesToHead
  rw [h.1, decide_eq_false h.2, decide_eq_false he]
  rfl

/-- Settles O30: the branches of `startRead`, each ending in one status write behind the one that waits. -/
theorem startReadParksAtTheHead : Obligations.StartReadParksAtTheHead := by
  unfold Obligations.StartReadParksAtTheHead
  intro resume ok data before s hj hq hw hp
  rw [exec_configReadDone hj, configEnded_start]
  refine ⟨fun ha => ⟨fun hok hf => ?_, fun f hf hwork => ?_⟩, fun ha hwork => ?_⟩
  · obtain ⟨moved, hread⟩ := startRead_clean (s := s.ecDone) (resume := resume) (c := configFields data) ha
    rw [readFault_of_clean hok hf, hread]
    refine ⟨fun he => ?_, fun he hr hwork => ?_⟩
    · rw [if_neg (by rw [show s.ecDone.ec.engine = _ from he]; decide)]
      have parked : ∀ toHead, finish (kick (parkFromStarting (s.ecDone.headed toHead (configFields data)))) = _ :=
        fun toHead => congrArg Host.Outcome.next
          (settle_kick_requestStatus (before := before) (by rfl) (by exact hq) (by exact hw) (by exact hp))
      refine ⟨fun haway => ?_, fun haway => ?_⟩
      · rw [goesToHead_of_start (by exact haway)]
        exact parked true
      · rw [goesToHead_of_resume (by exact haway) (by rw [show s.ecDone.ec.engine = _ from he]; decide)]
        exact parked false
    · rw [if_pos (by exact he), stopFromStarting, if_neg (by
        rw [show (s.ecDone.headed _ (configFields data)).ec.reloadReq = _ from hr]; exact Bool.false_ne_true),
        enterStopped_free (by exact hwork)]
      have stopped : ∀ toHead, finish (kick (requestStatus { onSuccess := evStopped }
          (s.ecDone.headed toHead (configFields data)).stopped)) = _ := fun toHead => congrArg Host.Outcome.next
        (settle_kick_requestStatus (before := before) (by rfl) (by exact hq) (by exact hw) (by exact hp))
      refine ⟨fun haway => ?_, fun _ => ?_⟩
      · rw [goesToHead_of_start (by exact haway)]
        exact stopped true
      · cases s.ecDone.goesToHead resume
        · exact .inr (stopped false)
        · exact .inl (stopped true)
  · rw [readFault_of_fault hf, startRead_fault (by exact ha), configHalt, enterHalted_free (by exact hwork)]
    exact congrArg _ (settle_kick_requestStatus (by rfl) (by exact hq) (by exact hw) (by exact hp))
  · rw [startRead_aborted (by exact ha), enterStopped_free (by exact hwork)]
    exact congrArg _ (settle_kick_requestStatus (by rfl) (by exact hq) (by exact hw) (by exact hp))

/-! ### The configuration read of a RELOAD -/

theorem configEnded_reload (ok : Bool) (data : List Byte) (s : State) :
    configEnded .reload ok data s =
      kick (reloadRead (configFields data) (readFault ok data s.window) s.ecDone) := rfl

/-- R41: both entries of the cache are emptied. -/
def State.cacheEmptied (s : State) : State := { s with cache := {} }

theorem reloadRead_fault (c : ConfigCopy) (f : Nat) (s : State) :
    reloadRead c (some f) s = configHalt f s.cacheEmptied := rfl

/-- R41, R158: the state after the clean read of a RELOAD. -/
def State.reloaded (c : ConfigCopy) (s : State) : State := s.ecDone.cacheEmptied.copied c

/-- R159, R160: what follows a clean read of a RELOAD. -/
theorem reloadRead_clean (c : ConfigCopy) (s : State) : reloadRead c none s.ecDone =
    if s.ec.reloadReq = true then
      requestConfig .reload ((s.reloaded c).mapEc fun e => { e with reloadReq := false })
    else if s.ec.stopAsked = true ∨ s.ec.engine = .stopping then enterStopped (s.reloaded c)
    else if s.ec.lookAfterRead = true ∨ s.ec.wakePending = true ∨ s.ec.engine = .working then
      beginLook ((s.reloaded c).mapEc fun e => { e with lookAfterRead := false, wakePending := false })
    else s.reloaded c := by
  unfold reloadRead
  dsimp only
  rw [applyCopy_eq]
  rfl

theorem kick_beginLook (hj : s.ec.queue = []) (hw : s.work = none) : kick (beginLook s) = beginLook s := by
  refine kick_of_empty ?_
  unfold beginLook
  rw [if_neg (by simp [hw])]
  split <;> exact hj

theorem reloadRead_stops {c : ConfigCopy} {before : Option StatusWrite} (hr : s.ec.reloadReq = false)
    (hstop : s.ec.stopAsked = true ∨ s.ec.engine = .stopping) (hq : s.ec.queue = before.toList.map .status)
    (hw : s.reg.winSize ≠ 0) (hp : s.PortSettled) (hwork : s.work = none) :
    settle (kick (reloadRead c none s.ecDone)) =
      (s.reloaded c).stopped.reportingAfter before { onSuccess := evStopped } := by
  rw [reloadRead_clean, if_neg (by rw [hr]; exact Bool.false_ne_true), if_pos hstop,
    enterStopped_free (s := s.reloaded c) hwork]
  exact settle_kick_requestStatus (s := (s.reloaded c).stopped) rfl hq hw hp

theorem reloadRead_goesOn {c : ConfigCopy} (hr : s.ec.reloadReq = false)
    (hstop : ¬(s.ec.stopAsked = true ∨ s.ec.engine = .stopping)) (hq : s.ec.queue = []) (hp : s.PortSettled) :
    settle (kick (reloadRead c none s.ecDone)) =
      if s.ec.lookAfterRead = true ∨ s.ec.wakePending = true ∨ s.ec.engine = .working then
        settle (kick (beginLook ((s.reloaded c).mapEc fun e => { e with lookAfterRead := false, wakePending := false })))
      else s.reloaded c := by
  rw [reloadRead_clean, if_neg (by rw [hr]; exact Bool.false_ne_true), if_neg hstop]
  split
  · rfl
  · rw [kick_of_empty (s := s.reloaded c) hq, settle_of_portSettled (s := s.reloaded c) hp]

theorem reloadRead_again {c : ConfigCopy} (hr : s.ec.reloadReq = true) :
    reloadRead c none s.ecDone = requestConfig .reload ((s.reloaded c).mapEc fun e => { e with reloadReq := false }) := by
  rw [reloadRead_clean, if_pos hr]

theorem reloadRead_faults {c : ConfigCopy} {f : Nat} {before : Option StatusWrite}
    (hq : s.ec.queue = before.toList.map .status) (hw : s.reg.winSize ≠ 0) (hp : s.PortSettled)
    (hwork : s.work = none) : settle (kick (reloadRead c (some f) s.ecDone)) =
      State.reportingAfter before { onEnd := evHalt }
        (State.halted .config f { s with cache := {}, ec := { s.ec with job := none, cfgValid := false } }) := by
  rw [reloadRead_fault, configHalt, enterHalted_free (by exact hwork)]
  exact settle_kick_requestStatus rfl hq hw hp

/-- Settles O31: the branches of `reloadRead` in its order. -/
theorem reloadReplacesTheCopy : Obligations.ReloadReplacesTheCopy := by
  unfold Obligations.ReloadReplacesTheCopy
  intro ok data before s hj hq hp
  rw [exec_configReadDone hj, configEnded_reload]
  refine ⟨fun hok hf => ?_, fun f hf hw hwork => ?_⟩
  · rw [readFault_of_clean hok hf]
    refine ⟨fun hr hw => ?_, fun hr => ⟨fun hstop hw hwork => ?_, fun hns hne hb => ?_⟩⟩
    · rw [reloadRead_again hr]
      refine ⟨?_, ?_⟩
      · rintro rfl
        exact congrArg Host.Outcome.next (settle_kick_requestConfig
          (s := (s.reloaded (configFields data)).mapEc fun e => { e with reloadReq := false }) ⟨rfl, hq, hw, hp⟩)
      · rintro f rfl
        exact congrArg Host.Outcome.next (settle_kick_requestConfig_waiting
          (s := (s.reloaded (configFields data)).mapEc fun e => { e with reloadReq := false }) rfl hq hw hp)
    · exact congrArg Host.Outcome.next (reloadRead_stops hr hstop hq hw hp hwork)
    · subst hb
      have hgoes := reloadRead_goesOn (c := configFields data) hr (by simp [hns, hne]) hq hp
      refine ⟨fun hgo hwork hok => ?_, fun hno => ?_⟩
      · rw [if_pos hgo, kick_beginLook (by exact hq) (by exact hwork)] at hgoes
        exact congrArg Host.Outcome.next (hgoes.trans (settle_beginLook (by exact hp) (by exact hwork) (by exact hok)))
      · rw [if_neg hno] at hgoes
        exact congrArg Host.Outcome.next hgoes
  · rw [readFault_of_fault hf]
    exact congrArg Host.Outcome.next (reloadRead_faults hq hw hp hwork)

end Sys2Proof.Machine
end

