-- ==== Sys2Proof/Proofs/StatusEnds.lean ====
section
/-! PROOFS. The end of a status write (O33) and the group boundary (O34). -/

namespace Sys2Proof.Machine

variable {s : State}

/-! ### The end of a status write with nothing held -/

theorem exec_statusWriteDone {w : StatusWrite} {st : StatusStage} {body : List Byte} {ok : Bool}
    (hj : s.ec.job = some { job := .status w st body, ended := true, ok := ok }) :
    exec .statusWriteDone s = finish (statusEnded w ok s) := by
  show execStatusWriteDone s = _
  unfold execStatusWriteDone
  rw [hj]

theorem kick_kick (s : State) : kick (kick s) = kick s := by
  cases hj : (kick s).ec.job with
  | none => exact kick_of_empty (controllerSettled_kick s hj)
  | some j => exact kick_of_job (by rw [hj]; rfl)

/-- R143: with nothing held the engine's own turn is all that follows. -/
theorem statusEnded_noneHeld {w : StatusWrite} {ok : Bool} (h : s.reg.held = []) :
    statusEnded w ok s = statusDone w ok s := by
  rw [statusEnded_eq, drainHeld_nil (by rw [held_statusDone, h])]
  exact kick_kick _

/-- R143, R147: a status write has ended and its events are set. -/
def State.statusOver (e : BitVec 10) (s : State) : State :=
  { s with reg := { s.reg with events := s.reg.events ||| e }, ec := { s.ec with job := none } }

theorem statusDone_ok (w : StatusWrite) (s : State) :
    statusDone w true s = kick (continueAfter w.after (s.statusOver (w.onEnd ||| w.onSuccess))) := rfl

theorem statusDone_failed (w : StatusWrite) (s : State) :
    statusDone w false s = kick (statusFail w (s.statusOver w.onEnd)) := by
  have hnone : w.onEnd ||| eventWhen false w.onSuccess = w.onEnd := BitVec.or_zero
  unfold statusDone
  rw [hnone]
  rfl

theorem statusOver_or (e e' : BitVec 10) (s : State) :
    { s.statusOver e with reg := { (s.statusOver e).reg with events := (s.statusOver e).reg.events ||| e' } } =
      s.statusOver (e ||| e') := by
  unfold State.statusOver
  rw [BitVec.or_assoc]

/-- The held list as a statement spells it out. -/
theorem statusOver_noneHeld {e : BitVec 10} (h : s.reg.held = []) : s.statusOver e =
    { s with reg := { s.reg with events := s.reg.events ||| e, held := [] }, ec := { s.ec with job := none } } := by
  unfold State.statusOver
  rw [← h]

theorem settle_kick_quiet (hq : s.ec.queue = []) (hp : s.PortSettled) : settle (kick s) = s := by
  rw [kick_of_empty hq, settle_of_portSettled hp]

theorem settle_kick_beginLook (hq : s.ec.queue = []) (hp : s.PortSettled) (hw : s.work = none)
    (hok : accessOk (recordReadReq s.ec.cursor) s.window = true) : settle (kick (beginLook s)) = s.lookBegun := by
  rw [kick_beginLook hq hw, settle_beginLook hp hw hok]

/-! ### A status write that has failed -/

theorem statusFail_halted {w : StatusWrite} (h : s.ec.engine = .halted) : statusFail w s = s := by
  unfold statusFail
  exact if_pos h

theorem statusFail_group {w : StatusWrite} {last : Nat} (h : s.ec.engine ≠ .halted) (hl : s.groupLast = some last) :
    statusFail w s = if w.after = .boundary then boundaryStart (holdStatusHalt last s) else holdStatusHalt last s := by
  unfold statusFail
  rw [if_neg h, hl]

theorem statusFail_look {w : StatusWrite} (h : s.ec.engine ≠ .halted) (hl : s.groupLast = none) :
    statusFail w s = if s.haltCalled = true then { s with ec := { s.ec with statusFailed := true } }
      else haltUnreported .statusWrite w.cursorAtStart (abandonLook s) := by
  unfold statusFail
  rw [if_neg h, hl]
  rfl

/-- R144, R161: a halt without a status write; an access of the look may still run in the Port. -/
theorem haltUnreported_leftWork {reason : HaltReason} {record : Nat} (hq : s.ec.queue = []) :
    haltUnreported reason record s =
      { State.halted reason record { s with reg := { s.reg with events := s.reg.events ||| evHalt } } with
        work := leftWork s.work } := by
  simp only [haltUnreported, haltWith, clearAssembly, State.setEvents, State.mapReg, State.mapEc, dropQueue,
    State.setWork, State.mapChain, hq, State.halted, State.lookEnded, Controller.quiet, List.foldl]

theorem abandonLook_free (hw : s.work = none) (hu : s.chain.unterminated = none) : abandonLook s = s := by
  have hf : s.faultsWritten = false := by simp [State.faultsWritten, hu]
  have he : s.ec.eventsDue ||| endedOrphan s.work = s.ec.eventsDue := by rw [hw]; exact BitVec.or_zero
  unfold abandonLook
  rw [hf]
  simp only [Bool.false_eq_true, if_false, State.setWork, State.mapEc, hw, abandonWork]
  rw [← hw, he]

/-- R144: the halt of a status write that failed during a look, which ends with the access left in the Port. -/
theorem settle_kick_statusFail_look {w : StatusWrite} (h : s.ec.engine ≠ .halted) (hl : s.groupLast = none)
    (hq : s.ec.queue = []) (hp : s.PortSettled) (hw : s.work = none) (hu : s.chain.unterminated = none) :
    settle (kick (statusFail w s)) = State.halted .statusWrite w.cursorAtStart
      { s with reg := { s.reg with events := s.reg.events ||| evHalt } } := by
  have hc : s.haltCalled = false := by simp [State.haltCalled, hw, hu]
  rw [statusFail_look h hl, if_neg (by rw [hc]; exact Bool.false_ne_true), abandonLook_free hw hu,
    haltUnreported_eq hq hw]
  exact settle_kick_quiet hq hp

/-- R142, R146, R147: the same during the last fault write of an unterminated group, which is counted. -/
theorem settle_kick_statusFail_unterminated {w : StatusWrite} {off second : Nat} {done good : Bool}
    {data : List Byte} {at_ : Word} (h : s.ec.engine ≠ .halted) (hl : s.groupLast = none)
    (hq : s.ec.queue = []) (hp : s.PortSettled)
    (hw : s.work = some { job := .recordWrite .unterminated off, ended := done, ok := good, data := data
                          endedAt := at_ })
    (hgood : done = true → good = true)
    (hu : s.chain.unterminated = some { todo := [], second := second, failed := none }) :
    settle (kick (statusFail w s)) =
      { State.halted .statusWrite w.cursorAtStart { s with
          reg := { s.reg with events := s.reg.events ||| evHalt }
          ec := { s.ec with framesFaulted := s.ec.framesFaulted + 1
                            lastFrameNumber := BitVec.ofNat 32 s.frame.fields.frameNumber
                            eventsDue := s.ec.eventsDue ||| evRecordFault } } with
        work := if done then none else some { job := .abandoned none } } := by
  have hc : s.haltCalled = false := by
    rw [State.haltCalled, hw, hu]
    cases done <;> simp_all
  have hf : s.faultsWritten = true := by simp [State.faultsWritten, hu]
  have he : ∀ e : BitVec 10, e ||| endedOrphan s.work = e := by
    intro e
    rw [hw]
    cases done <;> cases good <;> exact BitVec.or_zero
  rw [statusFail_look h hl, if_neg (by rw [hc]; exact Bool.false_ne_true), haltUnreported_leftWork (by
    unfold abandonLook; rw [hf]; exact hq)]
  rw [settle_kick_quiet (by unfold abandonLook; rw [hf]; exact hq) (by unfold abandonLook; rw [hf]; exact hp)]
  unfold abandonLook
  rw [hf]
  dsimp only [countUnterminated, State.mapEc, State.setWork, if_true]
  rw [he, hw]
  cases done <;> rfl

theorem groupLast_none (hf : s.chain.flight.inFlight = false) (hb : s.ec.boundaryLast = none) :
    s.groupLast = none := by
  rw [State.groupLast, hf]
  exact hb

theorem groupLast_boundary {last : Nat} (hf : s.chain.flight.inFlight = false) (hb : s.ec.boundaryLast = some last) :
    s.groupLast = some last := by
  rw [State.groupLast, hf]
  exact hb

/-- R113, R144: the last main-chain record, the FRAME when the list is empty. -/
theorem lastMain_eq (s : State) : s.chain.group.lastMain = match s.chain.group.mainList.getLast? with
    | some m => m.offset
    | none => s.frame.offset := by
  unfold Group.lastMain State.frame
  cases s.chain.group.frame <;> rfl

theorem retirementFailed_iff (s : State) :
    s.retirementFailed = true ↔ ∃ v todo, s.work = some v ∧ v.job = .retire todo true := by
  unfold State.retirementFailed
  split
  next todo failed _ _ _ _ hw =>
    rw [hw]
    constructor
    · rintro rfl
      exact ⟨_, _, rfl, rfl⟩
    · rintro ⟨v, t, hv, ht⟩
      obtain rfl := Option.some.inj hv
      cases ht
      rfl
  next hne =>
    refine iff_of_false Bool.false_ne_true ?_
    rintro ⟨⟨job, e, o, d, a⟩, t, hv, rfl⟩
    exact hne _ _ _ _ _ _ hv

/-- R144: with a group in flight the halt is held. -/
theorem holdStatusHalt_eq {last : Nat} {reason : HaltReason}
    (h : s.retirementFailed = true ∧ reason = .recordWrite ∨ s.retirementFailed = false ∧ reason = .statusWrite) :
    holdStatusHalt last s = { s with ec := { s.ec with
      heldHalt := s.ec.heldHalt.or (some (reason, last)), statusFailed := true } } := by
  unfold holdStatusHalt
  rcases h with ⟨hr, rfl⟩ | ⟨hr, rfl⟩ <;> rw [hr] <;> rfl

theorem haltCalled_iff (s : State) : s.haltCalled = true ↔
    (∃ v, s.work = some v ∧ v.ended = true ∧ v.ok = false) ∨
      (∃ v, s.chain.unterminated = some v ∧ v.failed.isSome = true) := by
  unfold State.haltCalled
  cases s.work <;> cases s.chain.unterminated <;> simp

/-! ### What was held -/

/-- A held access is judged as soon as no status write is in progress (R143). -/
theorem drainHeld_cons {h : Held} {rest : List Held} (hh : s.reg.held = h :: rest) :
    drainHeld s = judgeAll rest (judgeHeld h { s with reg := { s.reg with held := [] } }) := by
  unfold drainHeld
  rw [hh]
  rfl

theorem actStop_parked (he : s.ec.engine = .parked) (hj : s.ec.job = none) (hq : s.ec.queue = [])
    (hw : s.work = none) : actStop s = requestStatus { onSuccess := evStopped } s.stopped := by
  unfold actStop
  rw [he]
  dsimp only
  rw [stopParked, if_neg (by simp [hw, State.configBusy, hj, hq]), enterStopped_free hw]

theorem wake_parked (he : s.ec.engine = .parked) (hj : s.ec.job = none) (hq : s.ec.queue = []) (hw : s.work = none) :
    wake s = beginLook s := by
  unfold wake wakeNow
  rw [if_neg (by simp [State.statusInFlight, hj]), if_pos he, if_neg (by simp [hw, State.configBusy, hj, hq])]

theorem statusInFlight_requestStatus {w : StatusWrite} (hj : s.ec.job = none) (hq : s.ec.queue = []) :
    (requestStatus w s).statusInFlight = true := by
  rw [requestStatus_submit hj hq]
  rfl

/-- A status write asked for takes nothing from the held list. -/
theorem requestStatus_held {w : StatusWrite} {held : List Held} (hj : s.ec.job = none) (hq : s.ec.queue = []) :
    { requestStatus w s with reg := { (requestStatus w s).reg with held := held } } =
      requestStatus w { s with reg := { s.reg with held := held } } := by
  rw [requestStatus_submit hj hq, requestStatus_submit (by exact hj) (by exact hq)]
  rfl

/-- R143, R150: a STOP held in PARKED stops the engine, and the rest stays held. -/
theorem drainHeld_stop {rest : List Held} (hr : s.reg.inReset = false) (he : s.ec.engine = .parked)
    (hj : s.ec.job = none) (hq : s.ec.queue = []) (hw : s.work = none)
    (hh : s.reg.held = .access .stop :: rest) (hrest : rest.all Held.waits = true) :
    drainHeld s = requestStatus { onSuccess := evStopped }
      ({ s with reg := { s.reg with held := rest } } : State).stopped := by
  have hjudge : judgeHeld (.access .stop) { s with reg := { s.reg with held := [] } } =
      requestStatus { onSuccess := evStopped } ({ s with reg := { s.reg with held := [] } } : State).stopped :=
    (takeAccess_judged (s := { s with reg := { s.reg with held := [] } })
      (accessWaits_of_open ⟨hr, by simp [State.statusInFlight, hj]⟩ _)).trans (actStop_parked he hj hq hw)
  have hreg : (requestStatus { onSuccess := evStopped }
      ({ s with reg := { s.reg with held := [] } } : State).stopped).reg = { s.reg with held := [] } :=
    requestStatus_reg
  rw [drainHeld_cons hh, hjudge, judgeAll_waits (by rw [hreg]; exact hr)
    (statusInFlight_requestStatus (by exact hj) (by exact hq)) hrest, requestStatus_held (by exact hj) (by exact hq),
    hreg]
  rfl

theorem drainHeld_wake (hr : s.reg.inReset = false) (he : s.ec.engine = .parked) (hj : s.ec.job = none)
    (hq : s.ec.queue = []) (hw : s.work = none) (hh : s.reg.held = [.wake]) :
    drainHeld s = beginLook { s with reg := { s.reg with held := [] } } := by
  rw [drainHeld_cons hh]
  unfold judgeAll judgeHeld
  dsimp only
  rw [if_neg (by rw [hr]; exact Bool.false_ne_true)]
  exact wake_parked (by exact he) (by exact hj) (by exact hq) (by exact hw)

/-- Settles O33: with nothing held the end is `statusDone`, whose branches are those of `continueAfter` and
`statusFail`; what is held is judged after it. -/
theorem statusWriteEnds : Obligations.StatusWriteEnds := by
  unfold Obligations.StatusWriteEnds
  intro w st body ok s hj hq hw hp u
  rw [exec_statusWriteDone hj]
  refine ⟨fun hheld => ?_, fun hr hok ha he hwork => ?_⟩
  · have hu : ∀ e, u e [] = s.statusOver e := fun e => (statusOver_noneHeld hheld).symm
    rw [statusEnded_noneHeld hheld]
    refine ⟨fun hok ha => ?_, fun hok resume ha => ?_, fun hok ha hwork hacc => ?_, fun hok he => ?_,
      fun hok he hf hb hwork hun => ?_, fun off second done good data at_ hok he hf hb hwork hgood hun => ?_,
      fun hok he hf hb hcall => ?_, fun hok he hf ha reason hreason => ?_⟩
    · rw [hu, hok, statusDone_ok, ha]
      exact congrArg Host.Outcome.next (settle_kick_quiet (by exact hq) (by exact hp))
    · rw [hu, hok, statusDone_ok, ha]
      exact congrArg Host.Outcome.next (settle_kick_requestConfig ⟨rfl, hq, hw, hp⟩)
    · rw [hu, hok, statusDone_ok, ha]
      exact congrArg Host.Outcome.next
        (settle_kick_beginLook (by exact hq) (by exact hp) (by exact hwork) (by exact hacc))
    · rw [hu, hok, statusDone_failed, statusFail_halted (by exact he)]
      exact congrArg Host.Outcome.next (settle_kick_quiet (by exact hq) (by exact hp))
    · rw [hu, hok, statusDone_failed, ← statusOver_or]
      exact congrArg Host.Outcome.next (settle_kick_statusFail_look (by exact he)
        (groupLast_none (by exact hf) (by exact hb)) (by exact hq) (by exact hp) (by exact hwork) (by exact hun))
    · intro v
      have hv : v = s.statusOver (w.onEnd ||| evHalt) := hu _
      rw [hv, hok, statusDone_failed, ← statusOver_or]
      exact congrArg Host.Outcome.next (settle_kick_statusFail_unterminated (by exact he)
        (groupLast_none (by exact hf) (by exact hb)) (by exact hq) (by exact hp) (by exact hwork) hgood
        (by exact hun))
    · rw [hu, hok, statusDone_failed, statusFail_look (by exact he) (groupLast_none (by exact hf) (by exact hb)),
        if_pos (show (s.statusOver w.onEnd).haltCalled = true from (haltCalled_iff s).mpr hcall)]
      exact congrArg Host.Outcome.next (settle_kick_quiet (by exact hq) (by exact hp))
    · have hfailed := retirementFailed_iff s
      rw [hu, hok, statusDone_failed, statusFail_group (by exact he) (if_pos (by exact hf)), if_neg (by exact ha),
        holdStatusHalt_eq (s := s.statusOver w.onEnd) (hreason.imp (.imp_left hfailed.mpr)
          (.imp_left fun h => Bool.eq_false_iff.mpr (mt hfailed.mp h))), lastMain_eq]
      exact congrArg Host.Outcome.next (settle_kick_quiet (by exact hq) (by exact hp))
  · have hdone : statusDone w ok s = s.statusOver (w.onEnd ||| w.onSuccess) := by
      rw [hok, statusDone_ok, ha]
      exact kick_of_empty (by exact hq)
    rw [statusEnded_eq, hdone]
    refine ⟨fun rest hh hrest => ?_, fun hh hacc => ?_⟩
    · rw [drainHeld_stop (s := s.statusOver _) hr he rfl hq hwork hh hrest]
      exact congrArg Host.Outcome.next
        (settle_kick_requestStatus (before := none) (by rfl) (by exact hq) (by exact hw) (by exact hp))
    · rw [drainHeld_wake (s := s.statusOver _) hr he rfl hq hwork hh]
      exact congrArg Host.Outcome.next
        (settle_kick_beginLook (by exact hq) (by exact hp) (by exact hwork) (by exact hacc))

/-! ### The group boundary -/

/-- R160: a halt called for is entered in the step that comes to it. -/
theorem settle_kick_enterCalledHalt {reason : HaltReason} {record : Nat} (hc : s.ControllerFree) (hw : s.work = none) :
    settle (kick (enterCalledHalt reason record s)) = s.haltedBy reason record := by
  have hk : kick (enterCalledHalt reason record s) = enterCalledHalt reason record s := by
    unfold enterCalledHalt
    split
    · exact kick_of_empty (by rw [haltUnreported_eq hc.2.1 hw]; exact hc.2.1)
    · exact kick_of_job (oneRequest_status _).busy
  rw [hk, settle_enterCalledHalt hc hw]

theorem settle_kick_enterHalted {reason : HaltReason} {record : Nat} (hc : s.ControllerFree) (hw : s.work = none) :
    settle (kick (enterHalted reason record s)) = State.reporting { onEnd := evHalt } (s.halted reason record) := by
  rw [kick_of_job (by exact (oneRequest_status _).busy), settle_enterHalted hc hw]

theorem settle_kick_enterStopped (hc : s.ControllerFree) (hw : s.work = none) :
    settle (kick (enterStopped s)) = State.reporting { onSuccess := evStopped } s.stopped := by
  rw [kick_of_job (by exact (oneRequest_status _).busy), settle_enterStopped hc hw]

/-- R95, R160: past the boundary the last main-chain record is read. -/
theorem settle_kick_advancePast {off : Nat} (hc : s.ControllerFree) (hw : s.work = none)
    (hok : accessOk (recordReadReq off) s.window = true) :
    settle (kick (advancePast off s)) = State.doing (.recordRead .advance off) (recordReadReq off) s.lookEnded := by
  unfold advancePast
  rw [clearAssembly_free hw]
  have hk : kick (readRecord .advance off s.lookEnded) = readRecord .advance off s.lookEnded :=
    kick_of_empty hc.2.1
  rw [hk]
  exact settle_doJob (by exact hc.2.2.2) hok

/-- The state at the boundary's record, with the link-wait flag set. -/
def State.atRecord (last : Nat) (s : State) : State := { s with ec := { s.ec with cursor := last, linkWait := true } }

/-- R160 steps 2 to 5: a halt held, a CONFIG fault, a stop, and the advance, in this order. -/
theorem boundaryEnd_held {fault : Option Nat} {reloaded : Bool} {last record : Nat} {reason : HaltReason}
    (hb : s.ec.boundaryLast = some last) (hh : s.ec.heldHalt = some (reason, record)) :
    boundaryEnd fault reloaded s = enterCalledHalt reason record { s.atRecord last with
      ec := { (s.atRecord last).ec with cfgValid := s.ec.cfgValid && !reloaded } } := by
  unfold boundaryEnd
  rw [hb, hh]
  rfl

theorem boundaryEnd_fault {reloaded : Bool} {last field : Nat} (hb : s.ec.boundaryLast = some last)
    (hh : s.ec.heldHalt = none) : boundaryEnd (some field) reloaded s = enterHalted .config field (s.atRecord last) := by
  unfold boundaryEnd
  rw [hb, hh]
  rfl

theorem boundaryEnd_clean {reloaded : Bool} {last : Nat} (hb : s.ec.boundaryLast = some last)
    (hh : s.ec.heldHalt = none) : boundaryEnd none reloaded s =
      if s.ec.engine = .stopping ∨ s.ec.abortReq = true then enterStopped (s.atRecord last)
      else advancePast last { s with ec := { s.ec with boundaryLast := none } } := by
  unfold boundaryEnd
  rw [hb, hh]
  rfl

theorem boundaryStart_reload (hr : s.ec.reloadReq = true) : boundaryStart s =
    requestConfig .boundary { s with ec := { s.ec with reloadReq := false } } := if_pos hr

theorem boundaryStart_end (hr : s.ec.reloadReq = false) : boundaryStart s = boundaryEnd none false s :=
  if_neg (by rw [hr]; exact Bool.false_ne_true)

/-- A halt held at the boundary, after what statement spells out as the state at its record. -/
theorem settle_kick_boundaryEnd_held {fault : Option Nat} {last record : Nat} {reason : HaltReason}
    (hc : s.ControllerFree) (hw : s.work = none) (hb : s.ec.boundaryLast = some last)
    (hh : s.ec.heldHalt = some (reason, record)) :
    settle (kick (boundaryEnd fault false s)) = (s.atRecord last).haltedBy reason record := by
  rw [boundaryEnd_held hb hh, Bool.not_false, Bool.and_true]
  exact settle_kick_enterCalledHalt (s := s.atRecord last) hc hw

/-- R160 steps 4 and 5. -/
theorem settle_kick_boundaryEnd_clean {reloaded : Bool} {last : Nat} (hc : s.ControllerFree) (hw : s.work = none)
    (hb : s.ec.boundaryLast = some last) (hh : s.ec.heldHalt = none) :
    (s.ec.engine = .stopping ∨ s.ec.abortReq = true → settle (kick (boundaryEnd none reloaded s)) =
      State.reporting { onSuccess := evStopped } (s.atRecord last).stopped) ∧
    (s.ec.engine ≠ .stopping → s.ec.abortReq = false → accessOk (recordReadReq last) s.window = true →
      settle (kick (boundaryEnd none reloaded s)) = State.doing (.recordRead .advance last) (recordReadReq last)
        ({ s with ec := { s.ec with boundaryLast := none } } : State).lookEnded) := by
  rw [boundaryEnd_clean hb hh]
  refine ⟨fun h => ?_, fun he ha hok => ?_⟩
  · rw [if_pos h]
    exact settle_kick_enterStopped (s := s.atRecord last) hc hw
  · rw [if_neg (by simp [he, ha])]
    exact settle_kick_advancePast (s := { s with ec := { s.ec with boundaryLast := none } }) hc hw hok

theorem haltedBy_reported {reason : HaltReason} {record : Nat} (h : s.ec.statusFailed = false) :
    s.haltedBy reason record = State.reporting { onEnd := evHalt } (s.halted reason record) :=
  if_neg (by rw [h]; exact Bool.false_ne_true)

theorem haltedBy_unreported {reason : HaltReason} {record : Nat} (h : s.ec.statusFailed = true) :
    s.haltedBy reason record =
      State.halted reason record { s with reg := { s.reg with events := s.reg.events ||| evHalt } } := if_pos h

theorem configEnded_boundary (ok : Bool) (data : List Byte) (s : State) :
    configEnded .boundary ok data s =
      kick (boundaryRead (configFields data) (readFault ok data s.window) s.ecDone) := rfl

theorem boundaryRead_fault (c : ConfigCopy) (f : Nat) (s : State) : boundaryRead c (some f) s.ecDone =
    boundaryEnd (some f) true { s with cache := {}, ec := { s.ec with job := none, cfgValid := false } } := rfl

theorem boundaryRead_clean (c : ConfigCopy) (s : State) : boundaryRead c none s.ecDone =
    if s.ec.reloadReq = true then
      requestConfig .boundary { s.reloaded c with ec := { (s.reloaded c).ec with reloadReq := false } }
    else boundaryEnd none true (s.reloaded c) := by
  unfold boundaryRead
  dsimp only
  rw [applyCopy_eq]
  rfl

/-- R160: a halt held, entered after the boundary's configuration read with the copy no longer valid. -/
theorem settle_kick_boundaryEnd_invalid {fault : Option Nat} {last record : Nat} {reason : HaltReason}
    (hc : s.ControllerFree) (hw : s.work = none) (hb : s.ec.boundaryLast = some last)
    (hh : s.ec.heldHalt = some (reason, record)) :
    settle (kick (boundaryEnd fault true s)) =
      ({ s with ec := { s.ec with cfgValid := false, cursor := last, linkWait := true } } : State).haltedBy
        reason record := by
  rw [boundaryEnd_held hb hh, Bool.not_true, Bool.and_false]
  exact settle_kick_enterCalledHalt hc hw

/-- R144, R160: the retirement's status write has failed at the boundary, whose halt is held. -/
theorem statusFail_boundary {w : StatusWrite} {last : Nat} (he : s.ec.engine ≠ .halted)
    (hf : s.chain.flight.inFlight = false) (hb : s.ec.boundaryLast = some last) (ha : w.after = .boundary)
    (hw : s.work = none) : statusFail w s = boundaryStart { s with ec := { s.ec with
      heldHalt := s.ec.heldHalt.or (some (.statusWrite, last)), statusFailed := true } } := by
  have hr : s.retirementFailed = false := by simp [State.retirementFailed, hw]
  rw [statusFail_group he (groupLast_boundary hf hb), if_pos ha, holdStatusHalt_eq (.inr ⟨hr, rfl⟩)]

/-- Settles O34: `boundaryStart` and `boundaryRead` in the order of R160, after the retirement's status write and after
the boundary's configuration read. -/
theorem groupBoundaryAdvancesOrStops : Obligations.GroupBoundaryAdvancesOrStops := by
  unfold Obligations.GroupBoundaryAdvancesOrStops
  refine ⟨?_, ?_⟩
  · intro w st body last ok s hj hq hheld hw hp hwork ha hb u atLast unreported
    rw [exec_statusWriteDone hj, statusEnded_noneHeld hheld]
    refine ⟨fun hok => ?_, fun hok he hf => ?_⟩
    · subst hok
      have hc : u.ControllerFree := ⟨rfl, hq, hw, hp⟩
      rw [statusDone_ok, ha]
      refine ⟨fun hr => ?_, fun reason record hr hh => ?_, fun hr hh => ?_⟩
      · refine congrArg Host.Outcome.next (Eq.trans (congrArg (settle ∘ kick) (boundaryStart_reload (s := u) hr)) ?_)
        exact settle_kick_requestConfig hc
      · have hend : settle (kick (boundaryStart u)) = atLast.haltedBy reason record := by
          rw [boundaryStart_end (s := u) hr]
          exact settle_kick_boundaryEnd_held (s := u) hc hwork hb hh
        exact ⟨fun hs => congrArg Host.Outcome.next (hend.trans (haltedBy_reported hs)),
          fun hs => congrArg Host.Outcome.next (hend.trans (haltedBy_unreported hs))⟩
      · obtain ⟨hstop, hgo⟩ := settle_kick_boundaryEnd_clean (s := u) (reloaded := false) hc hwork hb hh
        rw [← boundaryStart_end (s := u) hr] at hstop hgo
        exact ⟨fun he habort hacc => congrArg Host.Outcome.next (hgo he habort hacc),
          fun h => congrArg Host.Outcome.next (hstop h)⟩
    · subst hok
      have hnone : w.onEnd ||| 0 = w.onEnd := BitVec.or_zero
      have hu : u = s.statusOver w.onEnd := by
        show ({ s with reg := { s.reg with events := s.reg.events ||| (w.onEnd ||| 0) }, ec := _ } : State) = _
        rw [hnone]
        rfl
      have hc : u.ControllerFree := ⟨rfl, hq, hw, hp⟩
      rw [statusDone_failed, ← hu, statusFail_boundary (s := u) he hf hb ha hwork]
      refine ⟨fun hr => ?_, fun hr => ?_⟩
      · generalize hout : finish (kick (boundaryStart _)) = outcome
        have unrep : ∀ reason record, s.ec.heldHalt.or (some (.statusWrite, last)) = some (reason, record) →
            outcome = .next (unreported reason record) := by
          intro reason record hh
          rw [← hout, boundaryStart_end (by exact hr)]
          refine congrArg Host.Outcome.next ((settle_kick_boundaryEnd_held (s := { u with ec := { u.ec with
              heldHalt := u.ec.heldHalt.or (some (.statusWrite, last)), statusFailed := true } })
            hc hwork hb hh).trans ?_)
          rw [haltedBy_unreported (by rfl)]
          rfl
        cases hh : s.ec.heldHalt with
        | none => exact unrep _ _ (by rw [hh]; rfl)
        | some halt => exact unrep halt.1 halt.2 (by rw [hh]; rfl)
      · refine congrArg Host.Outcome.next (Eq.trans (congrArg (settle ∘ kick) (boundaryStart_reload (by exact hr))) ?_)
        exact settle_kick_requestConfig ⟨rfl, hq, hw, hp⟩
  · intro ok data last s hj hq hw hp hwork hb c copied invalid faulted held
    rw [exec_configReadDone hj, configEnded_boundary]
    refine ⟨fun f hf => ?_, fun hok hf => ?_⟩
    · rw [readFault_of_fault hf, boundaryRead_fault]
      have hcf : ({ s with cache := {}, ec := { s.ec with job := none, cfgValid := false } } : State).ControllerFree :=
        ⟨rfl, hq, hw, hp⟩
      refine ⟨fun hh => ?_, fun hh => ?_⟩
      · rw [boundaryEnd_fault (by exact hb) (by exact hh)]
        exact congrArg Host.Outcome.next (settle_kick_enterHalted (by exact hcf) (by exact hwork))
      · refine ⟨_, rfl, fun reason record hhalt => ?_⟩
        rw [settle_kick_boundaryEnd_invalid hcf hwork hb hhalt]
        exact ⟨fun hs => haltedBy_reported hs, fun hs => haltedBy_unreported hs⟩
    · have hcc : copied.ControllerFree := ⟨rfl, hq, hw, hp⟩
      rw [readFault_of_clean hok hf, boundaryRead_clean]
      refine ⟨fun hr => ?_, fun hr hh => ?_, fun hr hh => ?_⟩
      · rw [if_pos hr]
        exact congrArg Host.Outcome.next (settle_kick_requestConfig (by exact hcc))
      · rw [if_neg (by rw [hr]; exact Bool.false_ne_true)]
        refine ⟨_, rfl, fun reason record hhalt => ?_⟩
        rw [settle_kick_boundaryEnd_invalid (by exact hcc) (by exact hwork) (by exact hb) (by exact hhalt)]
        exact ⟨fun hs => haltedBy_reported hs, fun hs => haltedBy_unreported hs⟩
      · rw [if_neg (by rw [hr]; exact Bool.false_ne_true)]
        obtain ⟨hstop, hgo⟩ := settle_kick_boundaryEnd_clean (s := copied) (reloaded := true) hcc hwork hb hh
        exact ⟨fun h => congrArg Host.Outcome.next (hstop h),
          fun he ha hacc => congrArg Host.Outcome.next (hgo he ha hacc)⟩

end Sys2Proof.Machine
end

