-- ==== Sys2Proof/Proofs/ChainReads.lean ====
section
/-! PROOFS. The records that a look, a group's look-ahead and a sub-chain read and write (O35 to O42). -/

namespace Sys2Proof.Machine

variable {s : State}

/-! ### The rows of the table that end an access to a record -/

section
variable {ok : Bool} {data : List Byte} {at_ : Word} {off : Nat}

theorem exec_cursorRecordReadDone (hw : s.work = some { job := .recordRead .cursor off, ended := true, ok := ok
                                                        data := data, endedAt := at_ }) :
    exec .cursorRecordReadDone s = finish (if ok then cursorRead data (s.setWork none)
      else chainHalt .chainRead s.ec.cursor (s.setWork none)) := by
  show execCursorRecordReadDone s = _
  unfold execCursorRecordReadDone
  rw [hw]
  rfl

theorem exec_cursorLinkReadDone (hw : s.work = some { job := .recordRead .cursorLink off, ended := true, ok := ok
                                                      data := data, endedAt := at_ }) :
    exec .cursorLinkReadDone s = finish (if ok then cursorLinkRead (recordHead data).link (s.setWork none)
      else chainHalt .chainRead s.ec.cursor (s.setWork none)) := by
  show execCursorLinkReadDone s = _
  unfold execCursorLinkReadDone
  rw [hw]
  rfl

theorem exec_advanceReadDone (hw : s.work = some { job := .recordRead .advance off, ended := true, ok := ok
                                                   data := data, endedAt := at_ }) :
    exec .advanceReadDone s = finish (if ok then advanceRead off (recordHead data).link (s.setWork none)
      else chainHalt .chainRead off (setCursor off true (s.setWork none))) := by
  show execAdvanceReadDone s = _
  unfold execAdvanceReadDone
  rw [hw]
  rfl

theorem exec_lookAheadRecordReadDone (hw : s.work = some { job := .recordRead .lookAhead off, ended := true, ok := ok
                                                           data := data, endedAt := at_ }) :
    exec .lookAheadRecordReadDone s = finish (if ok then lookAheadRead off data (countRead off (s.setWork none))
      else chainHalt .chainRead off (s.setWork none)) := by
  show execLookAheadRecordReadDone s = _
  unfold execLookAheadRecordReadDone
  rw [hw]

theorem exec_subchainRecordReadDone (hw : s.work = some { job := .recordRead .subchain off, ended := true, ok := ok
                                                          data := data, endedAt := at_ }) :
    exec .subchainRecordReadDone s = finish (if ok then subchainRead off data (countRead off (s.setWork none))
      else chainHalt .chainRead off (s.setWork none)) := by
  show execSubchainRecordReadDone s = _
  unfold execSubchainRecordReadDone
  rw [hw]

theorem exec_callRecordRereadDone (hw : s.work = some { job := .recordRead .callReread off, ended := true, ok := ok
                                                        data := data, endedAt := at_ }) :
    exec .callRecordRereadDone s = finish (if ok then callReread off (recordHead data).link
      (countRead off (s.setWork none)) else chainHalt .chainRead off (s.setWork none)) := by
  show execCallRecordRereadDone s = _
  unfold execCallRecordRereadDone
  rw [hw]
  rfl

theorem exec_chainRecordWriteDone {why : WriteWhy} (hw : s.work = some { job := .recordWrite why off, ended := true
                                                                         ok := ok, data := data, endedAt := at_ }) :
    exec .chainRecordWriteDone s = finish (recordWritten why off ok (s.setWork none)) := by
  show execChainRecordWriteDone s = _
  unfold execChainRecordWriteDone
  rw [hw]

end

/-! ### Ends of a look -/

theorem lookMustEnd_iff (s : State) : s.lookMustEnd = true ↔
    s.ec.stopAsked = true ∨ s.ec.reloadReq = true ∨ s.ec.engine = .stopping := by
  simp [State.lookMustEnd, or_assoc]

/-- A halt of the chain whatever the look had gathered. -/
theorem finish_chainHalt {reason : HaltReason} {record : Nat} (hc : s.ControllerFree) (hw : s.work = none) :
    finish (chainHalt reason record s) = .next (s.haltedBy reason record) :=
  congrArg Host.Outcome.next (settle_chainHalt hc hw)

theorem finish_endLook (hc : s.ControllerFree) (hw : s.work = none) :
    finish (endLook false s) = .next s.lookEndedByCommand :=
  congrArg Host.Outcome.next (settle_endLook_unmoved hc hw)

theorem unlessEnded_ended {t : State} (h : s.lookMustEnd = true) : s.unlessEnded t = s.lookEndedByCommand := if_pos h

theorem unlessEnded_goesOn {t : State} (h : s.lookMustEnd = false) : s.unlessEnded t = t :=
  if_neg (by rw [h]; exact Bool.false_ne_true)

/-- Settles O35: both ends of a look park by `park`. -/
theorem looksThatFindNothingPark : Obligations.LooksThatFindNothingPark := by
  unfold Obligations.LooksThatFindNothingPark
  intro data at_ off s
  refine ⟨lookMustEnd_iff s, fun hc => ⟨fun hw hstate => ?_, fun hw hlink => ?_⟩⟩
  · rw [exec_cursorRecordReadDone hw, if_pos rfl, cursorRead, if_pos hstate]
    exact ⟨_, rfl, parksOrEnds_settle_park (s := s.setWork none) hc rfl⟩
  · rw [exec_cursorLinkReadDone hw, if_pos rfl, cursorLinkRead, if_pos hlink]
    exact ⟨_, rfl, parksOrEnds_settle_park (s := s.setWork none) hc rfl⟩

/-! ### Records handled at group start (R107, R109) -/

theorem merge_eq_overlaid (held record : Override) : held.merge record = overlaid held record := by
  unfold Override.merge overlaid
  cases record.lens <;> cases record.zoom <;> cases record.focus <;> cases record.strength <;> rfl

/-- R93, R109: an OVERRIDE, DERIVED or CALL is one of the records handled at group start. -/
theorem cursorRead_groupStart {b : List Byte} {kind : RecordKind} (hstate : (recordHead b).state = some .ready)
    (hkind : (recordHead b).kind = some kind) (hk : kind = .override ∨ kind = .derived ∨ kind = .call) :
    cursorRead b s = if s.lookMustEnd then endLook false s else reportCursor (beginGroupStart kind b s) := by
  unfold cursorRead
  dsimp only
  rw [if_neg (not_not.mpr hstate), hkind]
  rcases hk with rfl | rfl | rfl <;> rfl

theorem groupStartCompletion_eq {kind : RecordKind} {section_ : List Byte}
    (h : kind = .override ∧ section_ = [0, 0, 0, 0] ∨ kind = .derived ∧ section_ = [3, 5, 0, 0] ∨
      kind = .call ∧ section_ = [3, 0, 0, 0]) : groupStartCompletion kind = section_ := by
  rcases h with ⟨rfl, rfl⟩ | ⟨rfl, rfl⟩ | ⟨rfl, rfl⟩ <;> decide

/-- R107, R109: the record's completion write goes to the Port with the merge made. -/
theorem beginGroupStart_eq (kind : RecordKind) (b : List Byte) (s : State) :
    beginGroupStart kind b s = State.doJob { s with chain := { s.chain with
        override := if kind = .override then overlaid s.chain.override (overrideFields b) else s.chain.override } }
      (.recordWrite (.groupStart true kind) s.ec.cursor) (completionReq s.ec.cursor (groupStartCompletion kind)) := by
  unfold beginGroupStart
  dsimp only
  split
  · rw [← merge_eq_overlaid]
    rfl
  · rfl

/-- R143: an access of the look, and behind it the status write of a cursor move still to be reported. -/
theorem settle_reportCursor_doJob {j : Job} {r : Request} (hc : s.ControllerFree)
    (hok : accessOk r s.window = true) :
    settle (reportCursor (s.doJob j r)) = if s.ec.cursorDue then State.reporting {} (s.doing j r) else s.doing j r := by
  unfold reportCursor
  rw [show (s.doJob j r).ec.cursorDue = s.ec.cursorDue from rfl]
  split
  · exact settle_requestStatus_doJob hc hok
  · exact settle_doJob hc.2.2.2 hok

/-- Settles O36: each kind of record at the cursor by its branch of `cursorRead`. -/
theorem looksHaltWithTheirRecord : Obligations.LooksHaltWithTheirRecord := by
  unfold Obligations.LooksHaltWithTheirRecord
  refine ⟨merge_eq_overlaid, ?_⟩
  intro ok data at_ off s hc h halted
  refine ⟨fun hw => ⟨fun hok => ?_, fun hok hst hk => ?_, fun hok hst hk => ?_, fun hok hst hend hk => ?_,
    fun hok hst hgo kind section_ hk hsec hacc => ?_⟩, fun hw => ⟨fun hok => ?_, fun hok hlink hbad => ?_⟩,
    fun completion kind hw hok => ?_⟩
  · rw [exec_cursorRecordReadDone hw, hok]
    exact finish_chainHalt (s := s.setWork none) hc rfl
  · rw [exec_cursorRecordReadDone hw, hok, if_pos rfl, cursorRead, if_neg (not_not.mpr hst), hk]
    exact finish_chainHalt (s := s.setWork none) hc rfl
  · rw [exec_cursorRecordReadDone hw, hok, if_pos rfl, cursorRead, if_neg (not_not.mpr hst), hk]
    exact finish_chainHalt (s := s.setWork none) hc rfl
  · obtain ⟨kind, hkind, hone⟩ : ∃ kind, h.kind = some kind ∧ (kind = .override ∨ kind = .derived ∨ kind = .call) := by
      rcases hk with hk | hk | hk <;> exact ⟨_, hk, by simp⟩
    rw [exec_cursorRecordReadDone hw, hok, if_pos rfl, cursorRead_groupStart hst hkind hone, if_pos (by exact hend)]
    exact finish_endLook (s := s.setWork none) hc rfl
  · have hone : kind = .override ∨ kind = .derived ∨ kind = .call := by
      rcases hsec with ⟨h1, _⟩ | ⟨h1, _⟩ | ⟨h1, _⟩ <;> simp [h1]
    rw [exec_cursorRecordReadDone hw, hok, if_pos rfl, cursorRead_groupStart hst hk hone,
      if_neg (Bool.eq_false_iff.mp (show (s.setWork none).lookMustEnd = false from hgo)), beginGroupStart_eq,
      groupStartCompletion_eq hsec]
    exact congrArg Host.Outcome.next (settle_reportCursor_doJob (by exact hc) (by exact hacc))
  · rw [exec_cursorLinkReadDone hw, hok]
    exact finish_chainHalt (s := s.setWork none) hc rfl
  · rw [exec_cursorLinkReadDone hw, hok, if_pos rfl, cursorLinkRead, if_neg hlink, if_neg (by
      rw [show offsetOk _ (s.setWork none).window = false from hbad]; exact Bool.false_ne_true)]
    exact finish_chainHalt (s := s.setWork none) hc rfl
  · rw [exec_chainRecordWriteDone hw, hok]
    exact finish_chainHalt (s := s.setWork none) hc rfl

/-! ### How a look goes on, or is ended by a command -/

/-- R102: the look-ahead's next read, the halt at the limit, or the end of the look. -/
theorem settle_nextRead_beyond {why : ReadWhy} {off : Nat} (hc : s.ControllerFree) (hw : s.work = none)
    (hn : 64 ≤ s.chain.group.readCount) :
    settle (nextRead why off s) = s.unlessEnded (s.haltedBy .unterminated s.chain.group.lastRead) := by
  rcases Bool.eq_false_or_eq_true s.lookMustEnd with hl | hl
  · rw [unlessEnded_ended hl, nextRead, if_pos hl, settle_endLook_unmoved hc hw]
  · rw [unlessEnded_goesOn hl, nextRead_beyond hl hn, settle_chainHalt hc hw]

theorem settle_nextRead_within {why : ReadWhy} {off : Nat} (hc : s.ControllerFree) (hw : s.work = none)
    (hn : s.chain.group.readCount < 64) (hok : s.lookMustEnd = false → accessOk (recordReadReq off) s.window = true) :
    settle (nextRead why off s) = s.unlessEnded (s.doing (.recordRead why off) (recordReadReq off)) := by
  rcases Bool.eq_false_or_eq_true s.lookMustEnd with hl | hl
  · rw [unlessEnded_ended hl, nextRead, if_pos hl, settle_endLook_unmoved hc hw]
  · rw [unlessEnded_goesOn hl, nextRead_within hl hn, settle_doJob hc.2.2.2 (hok hl)]

/-- The take replaces the work that the group's last read was. -/
theorem takeBegun_work (w : Option Work) (s : State) : ({ s with work := w } : State).takeBegun = s.takeBegun := by
  unfold State.takeBegun
  dsimp only
  split
  · rw [reporting_eq, reporting_eq]
    rfl
  · rfl

/-- R98: a complete group is taken, or the look ends without a take. -/
theorem settle_completeGroup (hc : s.ControllerFree) (hw : s.work = none)
    (hok : s.lookMustEnd = false → accessOk (stateWriteReq s.frame.offset .taken) s.window = true) :
    settle (completeGroup s) = s.unlessEnded s.takeBegun := by
  rcases Bool.eq_false_or_eq_true s.lookMustEnd with hl | hl
  · rw [unlessEnded_ended hl, completeGroup, if_pos hl, settle_endLook_unmoved hc hw]
  · rw [unlessEnded_goesOn hl, completeGroup, if_neg (Bool.eq_false_iff.mp hl), settle_take hc (hok hl)]

theorem followMain_null (record : Nat) (s : State) : followMain record 0 s = incomplete s := if_pos rfl

theorem followMain_bad {record link : Nat} (h0 : link ≠ 0) (hb : offsetOk link s.window = false) :
    followMain record link s = chainHalt .linkBad record s :=
  (if_neg h0).trans (if_neg (Bool.eq_false_iff.mp hb))

theorem followMain_legal {record link : Nat} (h0 : link ≠ 0) (hb : offsetOk link s.window = true) :
    followMain record link s = nextRead .lookAhead link s := (if_neg h0).trans (if_pos hb)

theorem followSub_null (record : Nat) (s : State) : followSub record 0 s = chainHalt .unterminated record s := if_pos rfl

theorem followSub_bad {record link : Nat} (h0 : link ≠ 0) (hb : offsetOk link s.window = false) :
    followSub record link s = chainHalt .linkBad record s :=
  (if_neg h0).trans (if_neg (Bool.eq_false_iff.mp hb))

theorem followSub_legal {record link : Nat} (h0 : link ≠ 0) (hb : offsetOk link s.window = true) :
    followSub record link s = nextRead .subchain link s := (if_neg h0).trans (if_pos hb)

theorem afterMain_end {off : Nat} {h : RecordHead} (he : h.endFlag = true) : afterMain off h s = completeGroup s :=
  if_pos he

theorem afterMain_follows {off : Nat} {h : RecordHead} (he : h.endFlag = false) :
    afterMain off h s = followMain off h.link s := if_neg (Bool.eq_false_iff.mp he)

/-! ### A cursor move that an end of the look has reported -/

theorem cursorDue_requestStatus (w : StatusWrite) (s : State) : (requestStatus w s).ec.cursorDue = false := by
  unfold requestStatus kick
  split <;> rfl

theorem cursorDue_beginLook (s : State) : (beginLook s).ec.cursorDue = s.ec.cursorDue := by
  unfold beginLook
  split
  · rfl
  · split <;> rfl

/-- R143: a park leaves no cursor move to report. -/
theorem cursorDue_park {off : Nat} {lw : Bool} (hl : s.lookMustEnd = false) : (park off lw s).ec.cursorDue = false := by
  unfold park
  dsimp only
  rw [if_neg (Bool.eq_false_iff.mp (show (setCursor off lw (clearAssembly s)).lookMustEnd = false from hl))]
  generalize hmoved : (cursorMoves off lw s || s.ec.cursorDue) = moved
  have hreported : ∀ (w : StatusWrite) (u : State) (b : Bool), u.ec.cursorDue = s.ec.cursorDue →
      (if (moved || b) = true then requestStatus w u else u).ec.cursorDue = false := by
    intro w u b hu
    split
    · exact cursorDue_requestStatus w u
    · next hn =>
      rw [hu]
      simp only [Bool.or_eq_true, not_or, Bool.not_eq_true] at hn
      rw [hn.1, Bool.or_eq_false_iff] at hmoved
      exact hmoved.2
  split
  · rw [cursorDue_beginLook]
    exact hreported _ _ _ rfl
  · exact hreported _ _ _ rfl

theorem cursorDue_chainHalt (reason : HaltReason) (record : Nat) (s : State) :
    (chainHalt reason record s).ec.cursorDue = false := by
  unfold chainHalt enterCalledHalt
  split
  · rfl
  · exact cursorDue_requestStatus _ _

theorem reportCursor_reported (h : s.ec.cursorDue = false) : reportCursor s = s := if_neg (Bool.eq_false_iff.mp h)

/-- R98: the group that a READY FRAME at the cursor begins. -/
def State.groupBegun (data : List Byte) (s : State) : State := { s with chain := { s.chain with
  returnStack := []
  group := { frame := some { offset := s.ec.cursor, endFlag := (recordHead data).endFlag
                             notify := (recordHead data).notify, fields := frameFields data }
             readCount := 1, lastRead := s.ec.cursor } } }

theorem cursorRead_frame {data : List Byte} (hst : (recordHead data).state = some .ready)
    (hk : (recordHead data).kind = some .frame) : cursorRead data s = if s.lookMustEnd then endLook false s
      else reportCursor (afterMain s.ec.cursor (recordHead data) (s.groupBegun data)) := by
  rw [cursorRead, if_neg (not_not.mpr hst), hk]
  rfl

/-- Settles O37: the FRAME's group is begun, and `afterMain` takes it or follows its link. -/
theorem readyFrameWithEndIsTaken : Obligations.ReadyFrameWithEndIsTaken := by
  unfold Obligations.ReadyFrameWithEndIsTaken
  intro data at_ off s hc hw h hst hk begun answers reported
  have hrow : exec .cursorRecordReadDone s = finish (cursorRead data (s.setWork none)) := exec_cursorRecordReadDone hw
  rw [cursorRead_frame hst hk] at hrow
  refine ⟨fun hl => ?_, fun hl => ?_⟩
  · rw [if_pos (by exact hl)] at hrow
    exact hrow.trans (finish_endLook (s := s.setWork none) hc rfl)
  · rw [if_neg (Bool.eq_false_iff.mp (by exact hl))] at hrow
    refine ⟨fun he hok => ?_, fun he => ⟨fun hlink hok => ?_, fun hlink hbad => ?_, fun hlink hbad => ?_⟩⟩
    · rw [afterMain_end he, completeGroup, if_neg (Bool.eq_false_iff.mp (by exact hl))] at hrow
      have htake := settle_reportCursor_take (s := (s.setWork none).groupBegun data) hc hok
      rw [show ((s.setWork none).groupBegun data).takeBegun = begun.takeBegun from takeBegun_work none begun] at htake
      refine ⟨fun hp => ?_, fun hp => ?_⟩
      · rw [if_neg fun hx => hx.1 hp] at htake
        exact hrow.trans (congrArg Host.Outcome.next htake)
      · refine hrow.trans (congrArg Host.Outcome.next (htake.trans ?_))
        exact if_congr (and_iff_right hp) rfl rfl
    · rw [afterMain_follows he, show (recordHead data).link = 0 from hlink, followMain_null, incomplete,
        reportCursor_reported (cursorDue_park (s := (s.setWork none).groupBegun data) hl)] at hrow
      exact hrow.trans (congrArg Host.Outcome.next
        (settle_park (s := (s.setWork none).groupBegun data) hc rfl hl hok))
    · rw [afterMain_follows he, followMain_bad (s := (s.setWork none).groupBegun data) hlink hbad,
        reportCursor_reported (cursorDue_chainHalt _ _ _)] at hrow
      exact hrow.trans (finish_chainHalt (s := (s.setWork none).groupBegun data) hc rfl)
    · rw [afterMain_follows he, followMain_legal (s := (s.setWork none).groupBegun data) hlink hbad,
        nextRead_within (s := (s.setWork none).groupBegun data) hl (by
        show 1 < 64; decide)] at hrow
      exact hrow.trans (congrArg Host.Outcome.next (settle_reportCursor_doJob
        (s := (s.setWork none).groupBegun data) hc (accessOk_recordReadReq hbad)))

/-! ### A link past a finished record -/

/-- Settles O39: the three ends of an advance read by `advanceRead`. -/
theorem advanceParksOrHaltsAtTheRecord : Obligations.AdvanceParksOrHaltsAtTheRecord := by
  unfold Obligations.AdvanceParksOrHaltsAtTheRecord
  intro ok data at_ off s hc hw u
  rw [exec_advanceReadDone hw]
  refine ⟨fun hok hlink => ?_, fun hok hlink hbad => ?_, fun hok => ?_⟩
  · rw [if_pos hok, advanceRead, if_pos hlink]
    exact ⟨_, rfl, parksOrEnds_settle_park (s := s.setWork none) hc rfl⟩
  · rw [if_pos hok, advanceRead, if_neg hlink, if_neg (Bool.eq_false_iff.mp (by exact hbad))]
    exact finish_chainHalt (s := setCursor off true (s.setWork none)) hc rfl
  · rw [if_neg (Bool.eq_false_iff.mp hok)]
    exact finish_chainHalt (s := setCursor off true (s.setWork none)) hc rfl

/-! ### Links that lead on -/

theorem cursorMoves_clear (off : Nat) (s : State) :
    cursorMoves off false s = (decide (s.ec.cursor ≠ off) || s.ec.linkWait) := by
  unfold cursorMoves
  cases s.ec.linkWait <;> rfl

/-- R94, R95: the cursor at the record a link names. -/
def State.movedTo (off : Nat) (s : State) : State := { s.lookEnded with ec := { s.ec with
  cursor := off, linkWait := false
  cursorDue := s.ec.cursorDue || (decide (s.ec.cursor ≠ off) || s.ec.linkWait) } }

/-- R94 to R96: the same look reads the record there, or is ended there. -/
theorem settle_moveOn {off : Nat} (hp : s.PortSettled) (hw : s.work = none)
    (hc : s.lookMustEnd = true → s.ControllerFree) (hok : accessOk (recordReadReq off) s.window = true) :
    settle (moveOn off s) = (s.movedTo off).unlessEnded (s.movedTo off).lookBegun := by
  unfold moveOn
  rw [clearAssembly_free hw, cursorMoves_clear]
  dsimp only
  rcases Bool.eq_false_or_eq_true s.lookMustEnd with hl | hl
  · rw [if_pos (by exact hl), unlessEnded_ended (by exact hl), settle_endLook (by exact hc hl) rfl]
    rfl
  · rw [if_neg (Bool.eq_false_iff.mp (by exact hl)), unlessEnded_goesOn (by exact hl)]
    exact settle_beginLook (s := s.movedTo off) hp rfl hok

theorem cursorLinkRead_legal {link : Nat} (h0 : link ≠ 0) (hb : offsetOk link s.window = true) :
    cursorLinkRead link s = moveOn link s := (if_neg h0).trans (if_pos hb)

theorem advanceRead_legal {off link : Nat} (h0 : link ≠ 0) (hb : offsetOk link s.window = true) :
    advanceRead off link s = moveOn link s := (if_neg h0).trans (if_pos hb)

/-! ### Writes at group start and of an unterminated group -/

theorem groupStartState_eq {kind : RecordKind} (hk : kind = .override ∨ kind = .derived ∨ kind = .call) :
    groupStartState kind = if kind = .override then .done else .faulted := by
  rcases hk with rfl | rfl | rfl <;> rfl

/-- R109, R146: after the state write the record is advanced past, with RECORD_FAULT due for an orphan. -/
theorem settle_groupStartWritten_state {kind : RecordKind} {off : Nat} (hp : s.PortSettled) (hw : s.work = none)
    (hok : accessOk (recordReadReq off) s.window = true) :
    settle (groupStartWritten false kind off true s) = State.doing (.recordRead .advance off) (recordReadReq off)
      { s.lookEnded with ec := { s.ec with
          eventsDue := s.ec.eventsDue ||| if kind = .override then 0 else evRecordFault } } := by
  have hev : orphanEvent (some kind) = if kind = .override then 0 else evRecordFault := by
    cases kind <;> rfl
  have hgo : groupStartWritten false kind off true s = advancePast off
      { s with ec := { s.ec with eventsDue := s.ec.eventsDue ||| orphanEvent (some kind) } } := rfl
  rw [hgo, hev, advancePast, clearAssembly_free (by exact hw)]
  exact settle_doJob (by exact hp) hok

/-- R100, R142: the unterminated group counted, with the cursor at the second FRAME. -/
def State.unterminatedAt (second : Nat) (s : State) : State := { s with ec := { s.ec with
  framesFaulted := s.ec.framesFaulted + 1
  lastFrameNumber := BitVec.ofNat 32 s.frame.fields.frameNumber
  eventsDue := s.ec.eventsDue ||| evRecordFault
  cursor := second, linkWait := false } }

theorem settle_unterminatedEnded_failed {u : Unterminated} {record : Nat} (hc : s.ControllerFree) (hw : s.work = none)
    (hf : u.failed = some record) :
    settle (unterminatedEnded u s) = (s.unterminatedAt u.second).haltedBy .recordWrite record := by
  unfold unterminatedEnded
  rw [hf]
  exact settle_chainHalt (s := s.unterminatedAt u.second) hc hw

/-- R100, R147: with no write failed the status write begins after which the look goes on, or a command ends it. -/
theorem settle_unterminatedEnded_clean {u : Unterminated} (hc : s.ControllerFree) (hw : s.work = none)
    (hf : u.failed = none) :
    (s.lookMustEnd = false → settle (unterminatedEnded u s) =
      State.reporting { after := .look } (s.unterminatedAt u.second).lookEnded) ∧
    (s.lookMustEnd = true → settle (unterminatedEnded u s) = State.lookEndedByCommand
      { s.unterminatedAt u.second with ec := { (s.unterminatedAt u.second).ec with cursorDue := true } }) := by
  have hstep : unterminatedEnded u s = if s.lookMustEnd then endLook true (s.unterminatedAt u.second).lookEnded
      else requestStatus { after := .look } (s.unterminatedAt u.second).lookEnded := by
    unfold unterminatedEnded moveOnReported
    rw [hf]
    dsimp only
    rw [clearAssembly_free (s := countUnterminated s) hw]
    rfl
  rw [hstep]
  refine ⟨fun hl => ?_, fun hl => ?_⟩
  · rw [if_neg (Bool.eq_false_iff.mp hl)]
    exact settle_requestStatus (s := (s.unterminatedAt u.second).lookEnded) hc
  · rw [if_pos hl, settle_endLook (by exact hc) rfl, Bool.or_true]
    rfl

theorem or_eq_match (a b : Option Nat) : a.or b = match a with | some r => some r | none => b := by
  cases a <;> rfl

/-- R100: a fault write has ended. -/
theorem unterminatedWritten_eq {record second : Nat} {ok : Bool} {todo : List (Nat × Request)} {failed : Option Nat}
    (hu : s.chain.unterminated = some { todo := todo, second := second, failed := failed }) :
    let first : Option Nat := failed.or (if ok then none else some record)
    let v : Unterminated := { todo := todo, second := second, failed := first }
    let t : State := { s with chain := { s.chain with unterminated := some v } }
    unterminatedWritten record ok s =
      if (s.lookMustEnd && !todo.isEmpty) = true then (if first.isSome then unterminatedEnded v t else endLook false t)
      else nextUnterminated t := by
  unfold unterminatedWritten
  rw [hu]
  rfl

/-- Settles O38: the legal links by `moveOn`, the writes at group start, and those of an unterminated group. -/
theorem linksMoveTheCursorOn : Obligations.LinksMoveTheCursorOn := by
  unfold Obligations.LinksMoveTheCursorOn
  intro data at_ off s hp
  refine ⟨?_, ?_, ?_⟩
  · intro link moved u h0 hb hc
    refine ⟨fun hw => ?_, fun hw => ?_⟩
    · rw [exec_cursorLinkReadDone hw, if_pos rfl, cursorLinkRead_legal (s := s.setWork none) h0 hb]
      exact congrArg Host.Outcome.next (settle_moveOn (s := s.setWork none) hp rfl hc hb)
    · rw [exec_advanceReadDone hw, if_pos rfl, advanceRead_legal (s := s.setWork none) h0 hb]
      exact congrArg Host.Outcome.next (settle_moveOn (s := s.setWork none) hp rfl hc hb)
  · intro kind hk st
    have hst : st = groupStartState kind := (groupStartState_eq hk).symm
    refine ⟨fun hw hok => ?_, fun hw hok => ?_⟩
    · rw [exec_chainRecordWriteDone hw, hst]
      exact congrArg Host.Outcome.next (settle_doJob (s := s.setWork none) hp (hst ▸ hok))
    · rw [exec_chainRecordWriteDone hw]
      exact congrArg Host.Outcome.next (settle_groupStartWritten_state (s := s.setWork none) hp rfl hok)
  · intro ok todo second failed hc hw hu first u
    have hfirst : failed.or (if ok then none else some off) = first := or_eq_match failed _
    have hrow := exec_chainRecordWriteDone hw
    rw [show recordWritten .unterminated off ok (s.setWork none) = _ from
      unterminatedWritten_eq (s := s.setWork none) hu, hfirst] at hrow
    refine ⟨fun record r rest htodo hl hok => ?_, fun htodo hl hnone => ?_, fun htodo hnone => ?_,
      fun record hor hsome => ?_⟩
    · subst htodo
      rw [if_neg (by rw [show (s.setWork none).lookMustEnd = false from hl]; exact Bool.false_ne_true)] at hrow
      exact hrow.trans (congrArg Host.Outcome.next (settle_doJob (s := { s.setWork none with chain := { s.chain with
        unterminated := some { todo := rest, second := second, failed := first } } }) hp hok))
    · obtain ⟨next, rest, rfl⟩ := List.exists_cons_of_ne_nil htodo
      rw [if_pos (by rw [show (s.setWork none).lookMustEnd = true from hl]; rfl), if_neg (by rw [hnone]; decide)] at hrow
      exact hrow.trans (finish_endLook (s := { s.setWork none with chain := { s.chain with
        unterminated := some { todo := next :: rest, second := second, failed := first } } }) hc rfl)
    · subst htodo
      rw [if_neg (by rw [List.isEmpty_nil, Bool.not_true, Bool.and_false]; exact Bool.false_ne_true)] at hrow
      obtain ⟨hgo, hend⟩ := settle_unterminatedEnded_clean (s := { s.setWork none with chain := { s.chain with
        unterminated := some { todo := [], second := second, failed := first } } })
        (u := { todo := [], second := second, failed := first }) hc rfl hnone
      exact ⟨fun hl => hrow.trans (congrArg Host.Outcome.next (hgo hl)),
        fun hl => hrow.trans (congrArg Host.Outcome.next (hend hl))⟩
    · have hend := settle_unterminatedEnded_failed (s := { s.setWork none with chain := { s.chain with
        unterminated := some { todo := todo, second := second, failed := first } } })
        (u := { todo := todo, second := second, failed := first }) hc rfl hsome
      cases todo with
      | nil =>
        rw [if_neg (by rw [List.isEmpty_nil, Bool.not_true, Bool.and_false]; exact Bool.false_ne_true)] at hrow
        exact hrow.trans (congrArg Host.Outcome.next hend)
      | cons next rest =>
        have hl : s.lookMustEnd = true := hor.resolve_left (List.cons_ne_nil _ _)
        rw [if_pos (by rw [show (s.setWork none).lookMustEnd = true from hl]; rfl), if_pos (by rw [hsome]; rfl)] at hrow
        exact hrow.trans (congrArg Host.Outcome.next hend)

end Sys2Proof.Machine
end

