-- ==== Sys2Proof/Proofs/LookAhead.lean ====
section
/-! PROOFS. The records of a group's look-ahead and of its sub-chains (O40 to O42). -/

namespace Sys2Proof.Machine

variable {s : State}

/-- R97, R102: the record read is counted, and the group is as `joined` has it. -/
def State.grouped (joined : Group) (s : State) : State :=
  { s with work := none, chain := { s.chain with group := joined } }

/-- R102: the group with one more record read. -/
def Group.counted (off : Nat) (g : Group) : Group := { g with readCount := g.readCount + 1, lastRead := off }

theorem countRead_eq (off : Nat) (s : State) :
    countRead off (s.setWork none) = s.grouped (s.chain.group.counted off) := rfl

/-! ### What follows a link of the look-ahead, whatever the group has gathered -/

section
variable {joined : Group} {off link : Nat} {why : ReadWhy}

theorem finish_chainHalt_grouped {reason : HaltReason} {record : Nat} (hc : s.ControllerFree) :
    finish (chainHalt reason record (s.grouped joined)) = .next (s.haltedBy reason record) :=
  finish_chainHalt (s := s.grouped joined) hc rfl

/-- R102: the read that would be the 65th halts the engine at the record read last. -/
theorem finish_nextRead_beyond (hc : s.ControllerFree) (hl : joined.lastRead = off) (hn : 64 ≤ joined.readCount) :
    finish (nextRead why link (s.grouped joined)) = .next (s.unlessEnded (s.haltedBy .unterminated off)) := by
  subst hl
  exact congrArg Host.Outcome.next (settle_nextRead_beyond (s := s.grouped joined) hc rfl hn)

theorem finish_nextRead_within (hc : s.ControllerFree) (hn : joined.readCount < 64)
    (hok : s.lookMustEnd = false → accessOk (recordReadReq link) s.window = true) :
    finish (nextRead why link (s.grouped joined)) = .next (s.unlessEnded (State.doing (.recordRead why link)
      (recordReadReq link) { s with chain := { s.chain with group := joined } })) :=
  congrArg Host.Outcome.next (settle_nextRead_within (s := s.grouped joined) hc rfl hn hok)

/-- R99: an incomplete group parks at its FRAME. -/
theorem parks_incomplete (hc : s.ControllerFree) :
    s.ParksOrEnds s.ec.cursor false (settle (incomplete (s.grouped joined))) :=
  parksOrEnds_settle_park (s := s.grouped joined) hc rfl

end

/-! ### A CALL read again after its RETURN -/

theorem callReread_main {off link : Nat} (h : s.chain.returnStack = []) :
    callReread off link s = followMain off link s := by
  rw [callReread, h]
  rfl

theorem callReread_sub {off link : Nat} (h : s.chain.returnStack ≠ []) :
    callReread off link s = followSub off link s := by
  rw [callReread, if_neg (by simpa using h)]

theorem callReread_bad {off link : Nat} (h0 : link ≠ 0) (hb : offsetOk link s.window = false) :
    callReread off link s = chainHalt .linkBad off s := by
  by_cases h : s.chain.returnStack = []
  · rw [callReread_main h, followMain_bad h0 hb]
  · rw [callReread_sub h, followSub_bad h0 hb]

theorem callReread_legal {off link : Nat} (h0 : link ≠ 0) (hb : offsetOk link s.window = true) :
    callReread off link s =
      nextRead (if decide (s.chain.returnStack ≠ []) then .subchain else .lookAhead) link s := by
  by_cases h : s.chain.returnStack = []
  · rw [callReread_main h, followMain_legal h0 hb, if_neg (by simp [h])]
  · rw [callReread_sub h, followSub_legal h0 hb, if_pos (by simp [h])]

/-- Settles O42: the CALL's link is followed in the chain it lies in. -/
theorem returnedCallsGoOn : Obligations.ReturnedCallsGoOn := by
  unfold Obligations.ReturnedCallsGoOn
  intro ok data at_ off s hc hw answers halted link inSub u
  have hrow := exec_callRecordRereadDone hw
  rw [countRead_eq] at hrow
  refine ⟨fun hok => ?_, fun hok h0 hb => ?_, fun hok h0 hb => ?_, fun hok h0 hin => ?_, fun hok h0 hin => ?_⟩
  · rw [if_neg (Bool.eq_false_iff.mp hok)] at hrow
    exact hrow.trans (finish_chainHalt (s := s.setWork none) hc rfl)
  · rw [if_pos hok, callReread_bad (s := s.grouped (s.chain.group.counted off)) h0 hb] at hrow
    exact hrow.trans (finish_chainHalt_grouped hc)
  · rw [if_pos hok, callReread_legal (s := s.grouped (s.chain.group.counted off)) h0 hb] at hrow
    exact ⟨fun hn => hrow.trans (finish_nextRead_beyond hc rfl hn),
      fun hn => hrow.trans (finish_nextRead_within hc hn fun _ => hb)⟩
  · rw [if_pos hok, callReread_sub (by exact of_decide_eq_true hin), show (recordHead data).link = 0 from h0,
      followSub_null] at hrow
    exact hrow.trans (finish_chainHalt_grouped hc)
  · rw [if_pos hok, callReread_main (by exact not_not.mp (of_decide_eq_false hin)),
      show (recordHead data).link = 0 from h0, followMain_null] at hrow
    exact ⟨_, hrow, parks_incomplete hc⟩

/-! ### Calls, and what joins the group -/

theorem callPush_bad {off target : Nat} (h : target = 0 ∨ offsetOk target s.window = false) :
    callPush off target s = chainHalt .callBad off s := by
  rw [callPush, if_pos (by simpa using h)]

theorem callPush_full {off target : Nat} (h0 : target ≠ 0) (hb : offsetOk target s.window = true)
    (hn : 4 ≤ s.chain.returnStack.length) : callPush off target s = chainHalt .stackFull off s := by
  rw [callPush, if_neg (by simp [h0, hb])]
  exact if_pos hn

theorem callPush_pushes {off target : Nat} (h0 : target ≠ 0) (hb : offsetOk target s.window = true)
    (hn : s.chain.returnStack.length < 4) : callPush off target s = nextRead .subchain target
      { s with chain := { s.chain with returnStack := s.chain.returnStack ++ [off] } } := by
  rw [callPush, if_neg (by simp [h0, hb])]
  exact if_neg (Nat.not_le.mpr hn)

/-- R103: what a CALL met in a group as `joined` leads to. -/
theorem finish_callPush {joined : Group} {off target : Nat} (hc : s.ControllerFree) (hl : joined.lastRead = off) :
    (target = 0 ∨ offsetOk target s.window = false →
      finish (callPush off target (s.grouped joined)) = .next (s.haltedBy .callBad off)) ∧
    (target ≠ 0 → offsetOk target s.window = true →
      (4 ≤ s.chain.returnStack.length →
        finish (callPush off target (s.grouped joined)) = .next (s.haltedBy .stackFull off)) ∧
      (s.chain.returnStack.length < 4 → 64 ≤ joined.readCount →
        finish (callPush off target (s.grouped joined)) = .next (s.unlessEnded (s.haltedBy .unterminated off))) ∧
      (s.chain.returnStack.length < 4 → joined.readCount < 64 →
        finish (callPush off target (s.grouped joined)) =
          .next (s.unlessEnded (State.doing (.recordRead .subchain target) (recordReadReq target)
            { s with chain := { s.chain with group := joined, returnStack := s.chain.returnStack ++ [off] } })))) := by
  subst hl
  refine ⟨fun h => ?_, fun h0 hb => ⟨fun hn => ?_, fun hn hcount => ?_, fun hn hcount => ?_⟩⟩
  · rw [callPush_bad (by exact h)]
    exact finish_chainHalt_grouped hc
  · rw [callPush_full h0 (by exact hb) (by exact hn)]
    exact finish_chainHalt_grouped hc
  · rw [callPush_pushes h0 (by exact hb) (by exact hn)]
    exact congrArg Host.Outcome.next (settle_nextRead_beyond (by exact hc) rfl hcount)
  · rw [callPush_pushes h0 (by exact hb) (by exact hn)]
    exact congrArg Host.Outcome.next (settle_nextRead_within (by exact hc) rfl hcount fun _ => hb)

/-- R101: the group after a DERIVED record, which joins while fewer than four have. -/
def Group.withEntry (off : Nat) (data : List Byte) (main : Bool) (g : Group) : Group := { g with
  entries := if g.entries.length < 4 then g.entries ++ [{ offset := off, fields := derivedFields data, mainChain := main }]
    else g.entries }

theorem joinEntry_grouped {joined : Group} (off : Nat) (data : List Byte) (main : Bool) (s : State) :
    joinEntry off data main (s.grouped joined) = s.grouped (joined.withEntry off data main) := by
  unfold joinEntry entryPlace Group.withEntry
  have h4 : Config.maxEntries = 4 := rfl
  rw [h4, show (s.grouped joined).chain.group = joined from rfl]
  by_cases h : joined.entries.length < 4
  · rw [if_pos h, if_pos h]
    rfl
  · rw [if_neg h, if_neg h]
    rfl

theorem stageOverride_grouped {joined : Group} (data : List Byte) (s : State) :
    stageOverride data (s.grouped joined) =
      s.grouped { joined with staged := overlaid joined.staged (overrideFields data) } := by
  rw [← merge_eq_overlaid]
  rfl

/-! ### Sub-chain records -/

/-- R104: what the link of a sub-chain DERIVED or OVERRIDE leads to. -/
theorem finish_followSub {joined : Group} {off link : Nat} (hc : s.ControllerFree) (hl : joined.lastRead = off) :
    (link = 0 → finish (followSub off link (s.grouped joined)) = .next (s.haltedBy .unterminated off)) ∧
    (link ≠ 0 → offsetOk link s.window = false →
      finish (followSub off link (s.grouped joined)) = .next (s.haltedBy .linkBad off)) ∧
    (link ≠ 0 → offsetOk link s.window = true →
      (64 ≤ joined.readCount →
        finish (followSub off link (s.grouped joined)) = .next (s.unlessEnded (s.haltedBy .unterminated off))) ∧
      (joined.readCount < 64 → finish (followSub off link (s.grouped joined)) =
        .next (s.unlessEnded (State.doing (.recordRead .subchain link) (recordReadReq link)
          { s with chain := { s.chain with group := joined } })))) := by
  refine ⟨fun h0 => ?_, fun h0 hb => ?_, fun h0 hb => ⟨fun hn => ?_, fun hn => ?_⟩⟩
  · rw [h0, followSub_null]
    exact finish_chainHalt_grouped hc
  · rw [followSub_bad h0 (by exact hb)]
    exact finish_chainHalt_grouped hc
  · rw [followSub_legal h0 (by exact hb)]
    exact finish_nextRead_beyond hc hl hn
  · rw [followSub_legal h0 (by exact hb)]
    exact finish_nextRead_within hc hn fun _ => hb

/-- R105: the RETURN that empties the stack under a CALL with END ends the group. -/
theorem callCarriesEnd_iff (s : State) : callCarriesEnd s = true ↔
    ∃ m, s.chain.group.mainList.getLast? = some m ∧ m.endFlag = true := by
  unfold callCarriesEnd
  cases s.chain.group.mainList.getLast? <;> simp

theorem dropLast_eq_nil_iff {l : List Nat} {x : Nat} (h : l.getLast? = some x) : l.dropLast = [] ↔ l = [x] := by
  obtain ⟨init, rfl⟩ := List.getLast?_eq_some_iff.mp h
  simp

/-- R105: the newest CALL popped. -/
def State.popped (s : State) : State :=
  { s with chain := { s.chain with returnStack := s.chain.returnStack.dropLast } }

theorem returnPop_eq {call : Nat} (h : s.chain.returnStack.getLast? = some call) :
    returnPop s =
      if s.chain.returnStack = [call] ∧ (∃ m, s.chain.group.mainList.getLast? = some m ∧ m.endFlag = true) then
        completeGroup s.popped else nextRead .callReread call s.popped := by
  unfold returnPop
  rw [h]
  refine if_congr ?_ rfl rfl
  rw [Bool.and_eq_true, List.isEmpty_iff, callCarriesEnd_iff]
  exact and_congr_left fun _ => dropLast_eq_nil_iff h

theorem subchainRead_standing {off : Nat} {data : List Byte} (h : (recordHead data).state = some .standing) :
    subchainRead off data s = match (recordHead data).kind with
      | none => chainHalt .badKind off s
      | some .frame => chainHalt .subchainFrame off s
      | some .derived => followSub off (recordHead data).link (joinEntry off data false s)
      | some .override => followSub off (recordHead data).link (stageOverride data s)
      | some .call => callPush off (callTarget data) s
      | some .ret => returnPop s := if_neg (not_not.mpr h)

/-- Settles O41: each kind of record by its branch of `subchainRead`. -/
theorem subchainRecords : Obligations.SubchainRecords := by
  unfold Obligations.SubchainRecords
  intro ok data at_ off call s hc hw answers halted h g counted follows
  have hrow := exec_subchainRecordReadDone hw
  rw [countRead_eq] at hrow
  refine ⟨fun hok => ?_, fun hok hst => ?_, fun hok hst => ?_⟩
  · rw [if_neg (Bool.eq_false_iff.mp hok)] at hrow
    exact hrow.trans (finish_chainHalt (s := s.setWork none) hc rfl)
  · rw [if_pos hok, subchainRead, if_pos hst] at hrow
    exact hrow.trans (finish_chainHalt_grouped hc)
  · rw [if_pos hok, subchainRead_standing hst] at hrow
    refine ⟨fun hk => ?_, fun hk => ?_, fun hk => ?_, fun hk => ?_, fun hk => ?_, fun hk hcall => ?_⟩ <;>
      rw [show (recordHead data).kind = _ from hk] at hrow
    · exact hrow.trans (finish_chainHalt_grouped hc)
    · exact hrow.trans (finish_chainHalt_grouped hc)
    · dsimp only at hrow
      rw [joinEntry_grouped] at hrow
      have hf := finish_followSub (joined := (s.chain.group.counted off).withEntry off data false) (off := off)
        (link := (recordHead data).link) hc rfl
      rw [← hrow] at hf
      exact hf
    · dsimp only at hrow
      rw [stageOverride_grouped] at hrow
      have hf := finish_followSub (off := off) (link := (recordHead data).link)
        (joined := { s.chain.group.counted off with
          staged := overlaid (s.chain.group.counted off).staged (overrideFields data) }) hc rfl
      rw [← hrow] at hf
      exact hf
    · dsimp only at hrow
      have hf := finish_callPush (joined := s.chain.group.counted off) (off := off) (target := callTarget data) hc rfl
      rw [← hrow] at hf
      exact hf
    · dsimp only at hrow
      rw [returnPop_eq (s := s.grouped (s.chain.group.counted off)) hcall] at hrow
      intro endsGroup returned
      let v := (s.grouped (s.chain.group.counted off)).popped
      refine ⟨fun hends => ⟨fun hn => ?_, fun hn hok => ?_⟩, fun hends hok => ?_⟩
      · rw [if_neg (by exact hends)] at hrow
        exact hrow.trans (congrArg Host.Outcome.next (settle_nextRead_beyond (s := v) hc rfl hn))
      · rw [if_neg (by exact hends)] at hrow
        exact hrow.trans (congrArg Host.Outcome.next (settle_nextRead_within (s := v) hc rfl hn hok))
      · rw [if_pos (by exact hends)] at hrow
        have htake := settle_completeGroup (s := v) hc rfl hok
        rw [show v.takeBegun = returned.takeBegun from takeBegun_work none returned] at htake
        exact hrow.trans (congrArg Host.Outcome.next htake)

/-! ### Main-chain records of a group (R98 to R103) -/

/-- R98, R99: what the link of a main-chain record without END leads to. -/
theorem finish_followMain {joined : Group} {off link : Nat} (hc : s.ControllerFree) (hl : joined.lastRead = off) :
    (link = 0 → ∃ t, finish (followMain off link (s.grouped joined)) = .next t ∧
      s.ParksOrEnds s.ec.cursor false t) ∧
    (link ≠ 0 → offsetOk link s.window = false →
      finish (followMain off link (s.grouped joined)) = .next (s.haltedBy .linkBad off)) ∧
    (link ≠ 0 → offsetOk link s.window = true →
      (joined.readCount < 64 → finish (followMain off link (s.grouped joined)) =
        .next (s.unlessEnded (State.doing (.recordRead .lookAhead link) (recordReadReq link)
          { s with chain := { s.chain with group := joined } }))) ∧
      (64 ≤ joined.readCount → finish (followMain off link (s.grouped joined)) =
        .next (s.unlessEnded (s.haltedBy .unterminated off)))) := by
  refine ⟨fun h0 => ?_, fun h0 hb => ?_, fun h0 hb => ⟨fun hn => ?_, fun hn => ?_⟩⟩
  · rw [h0, followMain_null]
    exact ⟨_, rfl, parks_incomplete hc⟩
  · rw [followMain_bad h0 (by exact hb)]
    exact finish_chainHalt_grouped hc
  · rw [followMain_legal h0 (by exact hb)]
    exact finish_nextRead_within hc hn fun _ => hb
  · rw [followMain_legal h0 (by exact hb)]
    exact finish_nextRead_beyond hc hl hn

/-- R98: END completes the group. -/
theorem finish_completeGroup {joined : Group} {fr : FrameRecord} (hc : s.ControllerFree) (hfr : joined.frame = some fr)
    (hok : s.lookMustEnd = false → accessOk (stateWriteReq fr.offset .taken) s.window = true) :
    finish (completeGroup (s.grouped joined)) = .next (s.unlessEnded
      ({ s with chain := { s.chain with group := joined } } : State).takeBegun) := by
  have hframe : (s.grouped joined).frame = fr := by
    unfold State.frame
    rw [show (s.grouped joined).chain.group.frame = some fr from hfr]
    rfl
  have htake := settle_completeGroup (s := s.grouped joined) hc rfl (by rw [hframe]; exact hok)
  rw [show (s.grouped joined).takeBegun = _ from takeBegun_work none
    { s with chain := { s.chain with group := joined } }] at htake
  exact congrArg Host.Outcome.next htake

/-- R97, R101, R107: a DERIVED or OVERRIDE joins the main-chain list; a DERIVED also the entries while fewer than four
have joined, and an OVERRIDE is staged. -/
def Group.withRecord (off : Nat) (data : List Byte) (kind : RecordKind) (g : Group) : Group :=
  let joins := decide (kind = .derived ∧ g.entries.length < 4)
  { g with
    mainList := g.mainList ++ [{ offset := off, kind := kind, endFlag := (recordHead data).endFlag
                                 notify := (recordHead data).notify
                                 entry := if joins then some g.entries.length else none }]
    entries := if joins then g.entries ++ [{ offset := off, fields := derivedFields data, mainChain := true }]
      else g.entries
    staged := if kind = .override then overlaid g.staged (overrideFields data) else g.staged }

theorem derived_joins_grouped {g : Group} (off : Nat) (data : List Byte) (s : State) :
    joinEntry off data true (addMain off .derived (recordHead data) (entryPlace (s.grouped g)) (s.grouped g)) =
      s.grouped (g.withRecord off data .derived) := by
  have hadd : addMain off .derived (recordHead data) (entryPlace (s.grouped g)) (s.grouped g) =
      s.grouped { g with mainList := g.mainList ++ [{
        offset := off, kind := .derived, endFlag := (recordHead data).endFlag, notify := (recordHead data).notify
        entry := if g.entries.length < 4 then some g.entries.length else none }] } := rfl
  rw [hadd, joinEntry_grouped]
  unfold Group.withRecord Group.withEntry
  by_cases h : g.entries.length < 4 <;> simp [h]

theorem override_joins_grouped {g : Group} (off : Nat) (data : List Byte) (s : State) :
    stageOverride data (addMain off .override (recordHead data) none (s.grouped g)) =
      s.grouped (g.withRecord off data .override) := by
  have hadd : addMain off .override (recordHead data) none (s.grouped g) =
      s.grouped { g with mainList := g.mainList ++ [{
        offset := off, kind := .override, endFlag := (recordHead data).endFlag, notify := (recordHead data).notify }] } := rfl
  rw [hadd, stageOverride_grouped]
  unfold Group.withRecord
  simp

theorem lookAheadRead_ready {off : Nat} {data : List Byte} (h : (recordHead data).state = some .ready) :
    lookAheadRead off data s = match (recordHead data).kind with
      | none => chainHalt .badKind off s
      | some .ret => chainHalt .stackEmpty off s
      | some .frame => beginUnterminated off s
      | some .derived => afterMain off (recordHead data)
          (joinEntry off data true (addMain off .derived (recordHead data) (entryPlace s) s))
      | some .override => afterMain off (recordHead data)
          (stageOverride data (addMain off .override (recordHead data) none s))
      | some .call => callPush off (callTarget data) (addMain off .call (recordHead data) none s) :=
  if_neg (not_not.mpr h)

/-- A DERIVED or OVERRIDE joins and its END or its link decides. -/
theorem lookAheadRead_joins {g : Group} {off : Nat} {data : List Byte} {kind : RecordKind}
    (h : (recordHead data).state = some .ready) (hk : (recordHead data).kind = some kind)
    (hone : kind = .derived ∨ kind = .override) :
    lookAheadRead off data (s.grouped g) = afterMain off (recordHead data) (s.grouped (g.withRecord off data kind)) := by
  rw [lookAheadRead_ready h, hk]
  rcases hone with rfl | rfl
  · exact congrArg (afterMain off (recordHead data)) (derived_joins_grouped off data s)
  · exact congrArg (afterMain off (recordHead data)) (override_joins_grouped off data s)

/-! ### A second FRAME (R100) -/

/-- The fault writes of an unterminated group, spelled out. -/
theorem unterminatedWrites_eq (frame : Nat) (main : List MainRecord) : unterminatedWrites frame main =
    main.map (fun m => (m.offset, completionReq m.offset (if m.kind = .derived then [1, 5, 0, 0] else [1, 0, 0, 0]))) ++
      [(frame, completionReq frame ([1, 1] ++ zeroBytes 66))] ++
      main.map (fun m => (m.offset, stateWriteReq m.offset .faulted)) ++ [(frame, stateWriteReq frame .faulted)] := by
  have hrecord : ∀ m : MainRecord,
      unterminatedCompletion m = if m.kind = .derived then [1, 5, 0, 0] else [1, 0, 0, 0] := by
    intro m
    unfold unterminatedCompletion
    cases m.kind <;> decide
  have hframe : unterminatedFrameCompletion = [1, 1] ++ zeroBytes 66 := by decide
  unfold unterminatedWrites
  simp only [hrecord, hframe]

theorem settle_beginUnterminated {second record : Nat} {r : Request} {rest : List (Nat × Request)}
    (hc : s.ControllerFree) (hw : s.work = none)
    (hwrites : unterminatedWrites s.frame.offset s.chain.group.mainList = (record, r) :: rest)
    (hok : s.lookMustEnd = false → accessOk r s.window = true) :
    settle (beginUnterminated second s) = s.unlessEnded (State.doing (.recordWrite .unterminated record) r
      { s with chain := { s.chain with unterminated := some { todo := rest, second := second } } }) := by
  unfold beginUnterminated
  rcases Bool.eq_false_or_eq_true s.lookMustEnd with hl | hl
  · rw [unlessEnded_ended hl, if_pos hl, settle_endLook_unmoved hc hw]
  · rw [unlessEnded_goesOn hl, if_neg (Bool.eq_false_iff.mp hl)]
    dsimp only
    rw [hwrites]
    exact settle_doJob (s := { s with chain := { s.chain with unterminated := some { todo := rest, second := second } } })
      hc.2.2.2 (hok hl)

/-- Settles O40: each kind of main-chain record by its branch of `lookAheadRead`. -/
theorem lookAheadGathersDerivedRecords : Obligations.LookAheadGathersDerivedRecords := by
  unfold Obligations.LookAheadGathersDerivedRecords
  intro ok data at_ off s hc hw answers halted h g counted incomplete_
  have hrow := exec_lookAheadRecordReadDone hw
  rw [countRead_eq] at hrow
  refine ⟨fun hok => ?_, fun hok hst => ?_, fun hok hst => ?_⟩
  · rw [if_neg (Bool.eq_false_iff.mp hok)] at hrow
    exact hrow.trans (finish_chainHalt (s := s.setWork none) hc rfl)
  · rw [if_pos hok, lookAheadRead, if_pos hst] at hrow
    exact ⟨_, hrow, parks_incomplete hc⟩
  · rw [if_pos hok] at hrow
    refine ⟨fun hk => ?_, fun hk => ?_, fun hk => ?_, fun kind hk hone => ?_, fun hk => ?_⟩
    · rw [lookAheadRead_ready hst, show (recordHead data).kind = _ from hk] at hrow
      exact hrow.trans (finish_chainHalt_grouped hc)
    · rw [lookAheadRead_ready hst, show (recordHead data).kind = _ from hk] at hrow
      exact hrow.trans (finish_chainHalt_grouped hc)
    · rw [lookAheadRead_ready hst, show (recordHead data).kind = _ from hk] at hrow
      intro writes record r rest hwrites hok
      exact hrow.trans (congrArg Host.Outcome.next (settle_beginUnterminated (s := s.grouped (s.chain.group.counted off))
        hc rfl ((unterminatedWrites_eq _ _).trans hwrites) hok))
    · rw [lookAheadRead_joins hst hk hone] at hrow
      intro joins joined u
      refine ⟨fun he fr hfr hok => ?_, fun he => ?_⟩
      · rw [afterMain_end he] at hrow
        exact hrow.trans (finish_completeGroup hc hfr hok)
      · rw [afterMain_follows he] at hrow
        obtain ⟨hnull, hbad, hlegal⟩ := finish_followMain (joined := (s.chain.group.counted off).withRecord off data kind)
          (off := off) (link := (recordHead data).link) hc rfl
        rw [← hrow] at hnull hbad hlegal
        exact ⟨hnull, hbad, hlegal⟩
    · rw [lookAheadRead_ready hst, show (recordHead data).kind = _ from hk] at hrow
      have hf := finish_callPush (off := off) (target := callTarget data)
        (joined := { s.chain.group.counted off with mainList := s.chain.group.mainList ++
          [{ offset := off, kind := .call, endFlag := (recordHead data).endFlag
             notify := (recordHead data).notify }] }) hc rfl
      have hrow' : exec .lookAheadRecordReadDone s = finish (callPush off (callTarget data) (s.grouped
        { s.chain.group.counted off with mainList := s.chain.group.mainList ++
          [{ offset := off, kind := .call, endFlag := (recordHead data).endFlag
             notify := (recordHead data).notify }] })) := hrow
      rw [← hrow'] at hf
      exact hf

end Sys2Proof.Machine
end

