-- ==== Sys2Proof/Proofs/FrameCourse.lean ====
section
/-! PROOFS. The course of a frame: its take, the judging of its entries, and the counts of its retirement (O43, O44,
O51). -/

namespace Sys2Proof.Machine

variable {s : State}

/-! ### The work that has ended does not show in how a frame goes on -/

theorem faultsWith_work (code : FaultCode) (w : Option Work) (u t : State) :
    ({ u with work := w } : State).FaultsWith code t ↔ u.FaultsWith code t := Iff.rfl

theorem copiesFrom_work (k : Nat) (w : Option Work) (u t : State) :
    ({ u with work := w } : State).CopiesFrom k t ↔ u.CopiesFrom k t := Iff.rfl

theorem judgesFrom_work (k : Nat) (w : Option Work) (u t : State) :
    ({ u with work := w } : State).JudgesFrom k t ↔ u.JudgesFrom k t := Iff.rfl

theorem lensDecided_work (d : Decision) (w : Option Work) (u t : State) :
    ({ u with work := w } : State).LensDecided d t ↔ u.LensDecided d t := Iff.rfl

/-! ### The end of a retirement (R114, R142, R146) -/

theorem exec_retirementWritesDone {failed ok : Bool} {at_ : Word} {data : List Byte} {todo : List Request}
    (hw : s.work = some { job := .retire todo failed, ended := true, ok := ok, data := data, endedAt := at_ }) :
    exec .retirementWritesDone s = finish (retirementEnded failed (s.setWork none)) := by
  show execRetirementWritesDone s = _
  unfold execRetirementWritesDone
  rw [hw]

theorem countResults_eq (s : State) (p : EntryResult → Bool) : countResults s p = BitVec.ofNat 32
    ((if s.chain.flight.judged then s.chain.group.entries else []).countP fun e => e.result.any p) := by
  unfold countResults State.results
  congr 2
  funext e
  cases e.result <;> rfl

theorem isFilled_eq : EntryResult.isFilled = fun r => match r with | .filled _ => true | _ => false := by
  funext r
  cases r <;> rfl

theorem isSkipped_eq : EntryResult.isSkipped = fun r => decide (r = .skippedCondition ∨ r = .skippedRelief) := by
  funext r
  cases r <;> simp [EntryResult.isSkipped]

theorem framesDone_eq (done : Word) (fault : Option FaultCode) :
    (if fault.isNone then done + 1 else done) = done + if fault = none then 1 else 0 := by
  cases fault <;> simp

theorem framesFaulted_eq (faulted : Word) (fault : Option FaultCode) :
    (if fault.isNone then faulted else faulted + 1) = faulted + if fault = none then 0 else 1 := by
  cases fault <;> simp

/-- Settles O44: `retirementEnded` asks a free controller for its status write. -/
theorem retirementAdvancesTheCounts : Obligations.RetirementAdvancesTheCounts := by
  unfold Obligations.RetirementAdvancesTheCounts
  intro failed ok at_ data todo s hc hw flight notify results count last
  rw [exec_retirementWritesDone hw]
  refine congrArg Host.Outcome.next ((settle_requestStatus (by exact hc)).trans ?_)
  have hlast : (s.setWork none).chain.group.lastMain = last := lastMain_eq s
  have hevents : retirementEvents (s.setWork none) = (if notify then 1 else 0) |||
      (if flight.faultWritten then 2 else 0) ||| (if flight.overrun then 128 else 0) := rfl
  have hfilled : countResults (s.setWork none) EntryResult.isFilled =
      count fun r => match r with | .filled _ => true | _ => false := by
    rw [isFilled_eq]
    exact countResults_eq s _
  have hdropped : countResults (s.setWork none) (fun r => decide (r = .dropped)) = count fun r => decide (r = .dropped) :=
    countResults_eq s _
  have hskipped : countResults (s.setWork none) EntryResult.isSkipped =
      count fun r => decide (r = .skippedCondition ∨ r = .skippedRelief) := by
    rw [isSkipped_eq]
    exact countResults_eq s _
  rw [hlast, hevents]
  unfold countRetirement
  dsimp only
  rw [hfilled, hdropped, hskipped, ← framesDone_eq s.ec.framesDone flight.fault,
    ← framesFaulted_eq s.ec.framesFaulted flight.fault]
  rfl

/-! ### The judging goes on after a pool's write (R117, R124) -/

theorem judgesFrom_judgeFrom {k : Nat} {u : State} (w : Option Work) (hp : u.PortSettled) (hw : u.work = none) :
    ({ u with work := w } : State).JudgesFrom k (settle (judgeFrom k u)) :=
  (judgesFrom_work k w u _).mpr (judgesFrom_settle hp hw)

theorem exec_slotBusyWriteDone {h : HeldSlot} {ok : Bool} {at_ : Word} {data : List Byte}
    (hw : s.work = some { job := .slotBusy h, ended := true, ok := ok, data := data, endedAt := at_ }) :
    exec .slotBusyWriteDone s = finish (slotBusyEnded h ok (s.setWork none)) := by
  show execSlotBusyWriteDone s = _
  unfold execSlotBusyWriteDone
  rw [hw]

theorem exec_dropCountWriteDone {k : Nat} {ok : Bool} {at_ : Word} {data : List Byte}
    (hw : s.work = some { job := .dropCount k, ended := true, ok := ok, data := data, endedAt := at_ }) :
    exec .dropCountWriteDone s = finish (dropCountEnded k ok (s.setWork none)) := by
  show execDropCountWriteDone s = _
  unfold execDropCountWriteDone
  rw [hw]

/-- Settles O51: after each of the two writes the judging goes on by `judgeFrom`. -/
theorem lastEntryIsJudged : Obligations.LastEntryIsJudged := by
  unfold Obligations.LastEntryIsJudged
  intro h k ok data at_ s hp
  refine ⟨fun hw => ⟨_, exec_slotBusyWriteDone hw, fun hok => ?_, fun hok => ?_⟩,
    fun hw => ⟨_, exec_dropCountWriteDone hw, fun hok => ?_, fun hok => ?_⟩⟩ <;> subst hok
  · exact judgesFrom_judgeFrom (u := { s.setWork none with pools := { heldSlots := s.pools.heldSlots ++ [h] } }) s.work hp rfl
  · exact judgesFrom_judgeFrom (u := (s.setWork none).resulted h.entry (.faulted .poolBad)) s.work hp rfl
  · exact judgesFrom_judgeFrom (u := State.resulted k .dropped
      { s.setWork none with reg := { s.reg with events := s.reg.events ||| evPoolDrop } }) s.work hp rfl
  · exact judgesFrom_judgeFrom (u := (s.setWork none).resulted k (.faulted .poolBad)) s.work hp rfl

/-! ### The take (R110, R111) -/

/-- R111: a size within its range. -/
def Sized (w h : Nat) : Prop := 64 ≤ w ∧ w ≤ 8192 ∧ 64 ≤ h ∧ h ≤ 6144

/-- R111: the FORMAT checks, spelled out. -/
theorem formatOk_iff (f : FrameFields) : formatOk f = true ↔
    Sized f.srcW f.srcH ∧ Sized f.outW f.outH ∧ (f.depth = 8 ∨ f.depth = 10 ∨ f.depth = 12) ∧
      (f.srcPitch % 64 = 0 ∧ f.srcW * 6 ≤ f.srcPitch) ∧
      (f.outPitch % 64 = 0 ∧ f.outW * (if f.depth = 8 then 3 else if f.depth = 10 then 4 else 6) ≤ f.outPitch) ∧
      (f.srcOffset ≠ 0 ∧ f.srcOffset % 64 = 0) ∧ (f.outOffset ≠ 0 ∧ f.outOffset % 64 = 0) ∧
      (f.edge = 1 ∨ f.edge = 2) ∧ (f.scan = 1 ∨ f.scan = 2) ∧ (f.dither = 1 ∨ f.dither = 2) := by
  unfold formatOk sizeOk depthOk pitchOk placeOk bytesPerPixel
  simp only [Bool.and_eq_true, decide_eq_true_eq, and_assoc, Sized]

theorem windowOk_iff (f : FrameFields) (window : Nat) : windowOk f window = true ↔
    f.srcOffset + f.srcPitch * f.srcH ≤ window ∧ f.outOffset + f.outPitch * f.outH ≤ window := decide_eq_true_iff

theorem validateFrame_iff (f : FrameFields) (window : Nat) :
    (validateFrame f window = some .format ↔ ¬formatOk f = true) ∧
    (validateFrame f window = some .window ↔ formatOk f = true ∧ ¬windowOk f window = true) ∧
    (validateFrame f window = none ↔ formatOk f = true ∧ windowOk f window = true) := by
  unfold validateFrame
  cases formatOk f <;> cases windowOk f window <;> simp

/-- R24, R65, R110, R138: the take recorded, and the overrides moved on. -/
def State.takeRecorded (s : State) : State := { s with
  ec := { s.ec with groupsTaken := s.ec.groupsTaken + 1 }
  pace := { s.pace with takeTime := s.reg.time, reliefForTake := s.pace.relief }
  tile := { s.tile with outOfFrame := 0, overspan := 0, overrange := 0, overspanInd := false }
  chain := { s.chain with
    flight := { s.chain.flight with override := s.chain.override }
    override := s.chain.group.staged
    group := { s.chain.group with staged := {} } } }

/-- R111, R24: the frame record clamped and its seed loaded. -/
def State.frameTaken (fr : FrameRecord) (s : State) : State := { s with
  writer := { s.writer with
    dither := if fr.fields.seedPresent then
        (if BitVec.ofNat 32 fr.fields.seed = 0 then 0x1D872B41 else BitVec.ofNat 32 fr.fields.seed)
      else s.writer.dither }
  chain := { s.chain with group := { s.chain.group with
    frame := some { fr with fields := { fr.fields with
      strength := min fr.fields.strength 256, fillR := min fr.fields.fillR 4095
      fillG := min fr.fields.fillG 4095, fillB := min fr.fields.fillB 4095 } } } } }

theorem validate_some {code : FaultCode} (h : validateFrame s.frame.fields s.window = some code) :
    validate s = faultFrame code s := by
  unfold validate
  rw [h]

/-- R111: the frame record with its clamps made. -/
def State.frameClamped (fr : FrameRecord) (s : State) : State := { s with
  chain := { s.chain with group := { s.chain.group with frame := some { fr with fields := clampFrame fr.fields } } } }

theorem mapGroup_clamped {fr : FrameRecord} (hfr : s.chain.group.frame = some fr) :
    (s.mapGroup fun g => { g with frame := g.frame.map fun r => { r with fields := clampFrame r.fields } }) =
      s.frameClamped fr := by
  unfold State.mapGroup State.mapChain State.frameClamped
  dsimp only
  rw [hfr]
  rfl

/-- R24: the seed enters the dither generator. -/
theorem frameClamped_seeded (fr : FrameRecord) (s : State) :
    (if fr.fields.seedPresent then (s.frameClamped fr).mapWriter fun w => { w with dither := seedState fr.fields.seed }
      else s.frameClamped fr) = s.frameTaken fr := by
  unfold State.frameTaken
  cases fr.fields.seedPresent <;> rfl

/-- R50, R60: the frame's lens is decided from a full override or from the board. -/
def decidedOrRead (s : State) : State :=
  if s.chain.flight.override.full then applyDecision (decideFull s.lens s.chain.flight.override) s
  else s.doJob .boardHeader (lensReadReq .boardHeaderRead s.ec.cfg.boardOffset 8)

theorem frameAccepted_eq {fr : FrameRecord} (hfr : s.chain.group.frame = some fr) :
    frameAccepted s = if s.chain.flight.override.full
      then applyDecision (decideFull s.lens s.chain.flight.override) (s.frameTaken fr)
      else (s.frameTaken fr).doJob .boardHeader (lensReadReq .boardHeaderRead s.ec.cfg.boardOffset 8) := by
  unfold frameAccepted
  rw [mapGroup_clamped hfr]
  show decidedOrRead (if fr.fields.seedPresent then
    (s.frameClamped fr).mapWriter fun w => { w with dither := seedState fr.fields.seed } else s.frameClamped fr) = _
  rw [frameClamped_seeded]
  rfl

theorem validate_none (h : validateFrame s.frame.fields s.window = none) : validate s = frameAccepted s := by
  unfold validate
  rw [h]

theorem override_full_iff (o : Override) : o.full = true ↔ o.lens ≠ none ∧ o.zoom ≠ none ∧ o.focus ≠ none := by
  unfold Override.full
  cases o.lens <;> cases o.zoom <;> cases o.focus <;> simp

/-- R60: the decision of an override that supplies all three. -/
theorem decideFull_eq {u : LensUnit} {o : Override} {lens zoom focus : Nat} (hl : o.lens = some lens)
    (hz : o.zoom = some zoom) (hf : o.focus = some focus) : decideFull u o =
      { unit := { u with prevStale := false }
        frame := { lens := some lens, zoom := some zoom, focus := some (min focus 4095)
                   flags := { override := true, unknownLens := decide (lens = 0) } }
        events := 0 } := by
  unfold decideFull finishDecision
  rw [completeFrame_eq]
  unfold overrideFrame
  rw [hl, hz, hf]
  simp [eventWhen]

theorem takenEnded_next {next : Nat} {rest : List Nat} (h : s.chain.flight.takenTodo = next :: rest) :
    takenEnded true s = State.doJob { s with chain := { s.chain with flight := { s.chain.flight with takenTodo := rest } } }
      (.recordWrite .taken next) (stateWriteReq next .taken) := by
  show nextTaken s = _
  unfold nextTaken
  rw [h]
  rfl

theorem takenEnded_last (h : s.chain.flight.takenTodo = []) : takenEnded true s = validate s.takeRecorded := by
  show nextTaken s = _
  unfold nextTaken
  rw [h]
  rfl

/-- Settles O43: the TAKEN writes by `takenEnded`, the last of them by `validate`. -/
theorem validFrameReadsTheBoard : Obligations.ValidFrameReadsTheBoard := by
  unfold Obligations.ValidFrameReadsTheBoard
  refine ⟨?_, ?_⟩
  · intro f window sized placed formatted inside
    have hformat : formatOk f = true ↔ formatted := formatOk_iff f
    have hwindow : windowOk f window = true ↔ inside := windowOk_iff f window
    rw [← hformat, ← hwindow]
    exact validateFrame_iff f window
  · intro ok at_ off data fr s hp hw hfr flight recorded
    have hrow : exec .chainRecordWriteDone s = finish (takenEnded ok (s.setWork none)) := exec_chainRecordWriteDone hw
    have hframe : s.frame = fr := by
      unfold State.frame
      rw [hfr]
      rfl
    refine ⟨fun next rest hok htodo hacc => ?_, fun hok htodo hvalid => ⟨fun hpart hacc => ?_,
      fun lens zoom focus hl hz hf => ?_⟩, fun code hcode => ?_⟩
    · subst hok
      rw [takenEnded_next (s := s.setWork none) htodo] at hrow
      exact hrow.trans (congrArg Host.Outcome.next (settle_doJob (by exact hp) hacc))
    · subst hok
      rw [takenEnded_last (s := s.setWork none) htodo, validate_none (by
        rw [show (s.setWork none).takeRecorded.frame = fr from hframe]; exact hvalid),
        frameAccepted_eq (s := (s.setWork none).takeRecorded) (fr := fr) hfr, if_neg (by
          rw [override_full_iff]
          rintro ⟨h1, h2, h3⟩
          rcases hpart with h | h | h
          exacts [h1 h, h2 h, h3 h])] at hrow
      exact hrow.trans (congrArg Host.Outcome.next (settle_doJob
        (s := (s.setWork none).takeRecorded.frameTaken fr) hp hacc))
    · subst hok
      rw [takenEnded_last (s := s.setWork none) htodo, validate_none (by
        rw [show (s.setWork none).takeRecorded.frame = fr from hframe]; exact hvalid),
        frameAccepted_eq (s := (s.setWork none).takeRecorded) (fr := fr) hfr, if_pos (by
          rw [override_full_iff]
          exact ⟨ne_of_eq_of_ne hl (Option.some_ne_none _), ne_of_eq_of_ne hz (Option.some_ne_none _),
            ne_of_eq_of_ne hf (Option.some_ne_none _)⟩),
        decideFull_eq (by exact hl) (by exact hz) (by exact hf)] at hrow
      exact ⟨_, hrow, (lensDecided_work _ s.work ((s.setWork none).takeRecorded.frameTaken fr) _).mpr
        (lensDecided_settle (by exact hp) rfl)⟩
    · have hfault : takenEnded ok (s.setWork none) = faultFrame code (s.setWork none).takeRecorded := by
        rcases hcode with ⟨rfl, htodo, hcheck⟩ | ⟨rfl, rfl⟩
        · rw [takenEnded_last (s := s.setWork none) htodo, validate_some (by
            rw [show (s.setWork none).takeRecorded.frame = fr from hframe]; exact hcheck)]
        · rfl
      rw [hfault] at hrow
      exact ⟨_, hrow, (faultsWith_work code s.work (s.setWork none).takeRecorded _).mpr
        (faultsWith_settle (by exact hp))⟩

end Sys2Proof.Machine
end

