-- ==== Sys2Proof/Proofs/FrameReads.lean ====
section
/-! PROOFS. The reads before the pass: the lens sample board, the profile load and the pools (O45, O47, O49). -/

namespace Sys2Proof.Machine

variable {s : State} {a : Access} {others : List Host.Cell}

/-! ### A read that the work at hand is told of -/

/-- R173: the bytes read go to the work. -/
theorem exec_work_read (hi : s.port.inFlight = some a) (hp : a.phase = .attempt) (ht : s.OnTime)
    (hb : a.req.block ≠ .engineController) (hd : a.req.data = none) :
    exec (.memoryAttemptAnswer .succeeded others) s = finish (workReport a.req true
      (memRead (memLand s.dram others) a.address a.req.length) (s.freed (memLand s.dram others))) := by
  rw [exec_read_succeeds hi hp ht hd, report_work hb]

/-- R174: the work that ends with a failed read. -/
theorem exec_work_read_exhausted {j : Job} {data : List Byte} (hi : s.port.inFlight = some a)
    (hp : a.phase = .attempt) (hb : a.req.block ≠ .engineController) (hd : a.req.data = none)
    (hr : s.port.requests = []) (hx : s.port.retryCount < a.attempts)
    (hend : ∀ m, workReport a.req false [] (s.freed m) = (s.freed m).endJob j false data) :
    (s.OnTime → exec (.memoryAttemptAnswer .failed others) s =
      .next (State.ended j false data (s.freed (memLand s.dram others)))) ∧
    (¬s.OnTime → exec .memoryAttemptTimeout s = .next (State.ended j false data (s.freed s.dram))) := by
  have hfin : ∀ m, finish (report a.req false [] (s.freed m)) = .next (State.ended j false data (s.freed m)) := by
    intro m
    rw [report_work hb, hend m]
    exact finish_freed_ended hr
  obtain ⟨hfail, hlate⟩ := exec_read_exhausted (others := others) hi hp hd hx
  exact ⟨fun ht => (hfail ht).trans (hfin _), fun ht => (hlate ht).trans (hfin _)⟩

/-! ### The lens sample board (R48 to R50) -/

theorem exec_boardReadDone {j : Job} {ok : Bool} {at_ : Word} {data : List Byte} (hj : j.isBoard = true)
    (hw : s.work = some { job := j, ended := true, ok := ok, data := data, endedAt := at_ }) :
    exec .boardReadDone s = finish (boardEnded ok data at_ (s.setWork none)) := by
  show execBoardReadDone s = _
  unfold execBoardReadDone
  rw [hw]
  exact if_pos hj

/-- R48: the newest-slot index of a header. -/
theorem newestIndex_eq (b : List Byte) : newestIndex b = (b.getD 0 0).toNat % 8 := by
  unfold newestIndex field
  cases b with
  | nil => rfl
  | cons x b => simp [leNat]

/-- R50: the slot before slot `n`. -/
theorem slotBefore_eq {n k : Nat} (h : n = 0 ∧ k = 7 ∨ n = k + 1) : slotBefore n = k := by
  unfold slotBefore
  rcases h with ⟨rfl, rfl⟩ | rfl
  · rfl
  · exact if_neg (Nat.succ_ne_zero k)

/-- What the board's work does with a report. -/
theorem workReport_boardHeader {r : Request} {ok : Bool} {data : List Byte} (hw : s.work = some { job := .boardHeader }) :
    workReport r ok data s = if ok then s.doJob (.boardNewest (newestIndex data)) (boardSlotReq s (newestIndex data))
      else s.endJob .boardHeader false [] := by
  unfold workReport
  rw [hw]

theorem workReport_boardNewest {r : Request} {ok : Bool} {data : List Byte} {n : Nat}
    (hw : s.work = some { job := .boardNewest n }) :
    workReport r ok data s = if ok then s.doJob (.boardPrevious data) (boardSlotReq s (slotBefore n))
      else s.endJob (.boardNewest n) false [] := by
  unfold workReport
  rw [hw]

theorem workReport_boardPrevious {r : Request} {ok : Bool} {data newest : List Byte}
    (hw : s.work = some { job := .boardPrevious newest }) :
    workReport r ok data s = s.endJob (.boardPrevious newest) ok (newest ++ data) := by
  unfold workReport
  rw [hw]

/-- Settles O45: the reads' end by `applyDecision`, their answers by `workReport`. -/
theorem boardReadDecidesAndLoads : Obligations.BoardReadDecidesAndLoads := by
  unfold Obligations.BoardReadDecidesAndLoads
  refine ⟨?_, ?_, ?_⟩
  · intro ok data at_ j s hp hj hw
    have hboard : j.isBoard = true := by rcases hj with rfl | ⟨n, rfl⟩ | ⟨newest, rfl⟩ <;> rfl
    exact ⟨_, exec_boardReadDone hboard hw,
      (lensDecided_work _ s.work (s.setWork none) _).mpr (lensDecided_settle (by exact hp) rfl)⟩
  · intro n p hn
    refine ⟨rfl, ?_⟩
    intro slot
    show some (lensSample ((n ++ p).take 24), lensSample ((n ++ p).drop 24)) = _
    rw [← hn, List.take_left, List.drop_left]
    rfl
  · intro n newest a others s hi hp hb hd hr m b u slotRead answers
    have hblock : a.req.block ≠ .engineController := by rw [hb]; decide
    refine ⟨fun ht => ⟨fun k hw hk hok => ?_, fun k hw hk hok => ?_, fun hw => ?_⟩, fun j hj hw hx => ?_⟩
    · refine (exec_work_read hi hp ht hblock hd).trans ?_
      rw [workReport_boardHeader (by exact hw), if_pos rfl, newestIndex_eq, ← show k = _ from hk]
      exact finish_freed_doJob hr hok
    · refine (exec_work_read hi hp ht hblock hd).trans ?_
      rw [workReport_boardNewest (by exact hw), if_pos rfl, slotBefore_eq hk]
      exact finish_freed_doJob hr hok
    · refine (exec_work_read hi hp ht hblock hd).trans ?_
      rw [workReport_boardPrevious (by exact hw)]
      exact finish_freed_ended hr
    · obtain ⟨data, hend⟩ : ∃ data, ∀ m, workReport a.req false [] (s.freed m) = (s.freed m).endJob j false data := by
        rcases hj with rfl | rfl | rfl
        · exact ⟨[], fun m => workReport_boardHeader hw⟩
        · exact ⟨[], fun m => workReport_boardNewest hw⟩
        · exact ⟨newest ++ [], fun m => workReport_boardPrevious hw⟩
      obtain ⟨hfail, hlate⟩ := exec_work_read_exhausted (others := others) hi hp hblock hd hr hx hend
      exact ⟨fun ht => ⟨data, hfail ht⟩, fun ht => ⟨data, hlate ht⟩⟩

/-! ### The profile load (R28 to R31, R37, R38, R40) -/

theorem exec_profileLoadDone {victim : CacheSlot} {lens : Nat} {stage : LoadStage} {ok : Bool} {at_ : Word}
    {data : List Byte}
    (hw : s.work = some { job := .load victim lens stage, ended := true, ok := ok, data := data, endedAt := at_ }) :
    exec .profileLoadDone s = finish (loadEnded victim ok (s.setWork none)) := by
  show execProfileLoadDone s = _
  unfold execProfileLoadDone
  rw [hw]

/-- R37, R38: what a load that no ABORT ended leaves, and what it delivers. -/
theorem loadEnded_goesOn {victim : CacheSlot} {lens : Nat} {p : Profile} {ok : Bool}
    (he : s.cache.get victim = { state := .loading, lens := some lens, copy := some p })
    (ha : s.ec.abortReq = false) : loadEnded victim ok s =
      deliver (if ok then resolveFrom p s.chain.flight.lens s.chain.flight.override
          else resolveUnknown s.chain.flight.lens)
        { s with cache := { s.cache.set victim
          (if ok then { state := .ready, lens := some lens, copy := some p }
            else { state := .invalid, lens := some lens, copy := none }) with lastServed := some victim } } := by
  unfold loadEnded
  rw [if_neg (Bool.eq_false_iff.mp ha), he]
  cases ok <;> rfl

theorem loadEnded_aborted {victim : CacheSlot} {ok : Bool} (ha : s.ec.abortReq = true) :
    loadEnded victim ok s = faultFrame .aborted { s with cache := s.cache.set victim {} } := if_pos ha

theorem workReport_load {r : Request} {victim : CacheSlot} {lens : Nat} {stage : LoadStage} {ok : Bool}
    {data : List Byte} (hw : s.work = some { job := .load victim lens stage }) :
    workReport r ok data s = loadReport victim lens stage ok data s := by
  unfold workReport
  rw [hw]

/-- R31, checks 5 and 6: an ascending list, by its neighbours. -/
theorem ascending_iff (l : List Nat) : ascending l = true ↔ ∀ k, k + 1 < l.length → l.getD k 0 < l.getD (k + 1) 0 := by
  induction l with
  | nil => simp [ascending]
  | cons x l ih =>
    cases l with
    | nil => simp [ascending]
    | cons y l =>
      rw [ascending, Bool.and_eq_true, decide_eq_true_iff, ih]
      constructor
      · rintro ⟨hxy, hrest⟩ k hk
        cases k with
        | zero => exact hxy
        | succ k => exact hrest k (Nat.lt_of_succ_lt_succ hk)
      · exact fun h => ⟨h 0 (by simp), fun k hk => h (k + 1) (Nat.succ_lt_succ hk)⟩

theorem ascending_map_range (n : Nat) (g : Nat → Nat) :
    ascending ((List.range n).map g) = true ↔ ∀ k, k + 1 < n → g k < g (k + 1) := by
  rw [ascending_iff, List.length_map, List.length_range]
  refine forall_congr' fun k => forall_congr' fun hk => ?_
  have hget : ∀ i, i < n → ((List.range n).map g).getD i 0 = g i := by
    intro i hi
    simp [List.getD_eq_getElem?_getD, hi]
  rw [hget k (by omega), hget (k + 1) hk]

/-- R31, checks 3 to 8, spelled out. -/
theorem headerOk_iff (b : List Byte) (lens offset window : Nat) :
    let nz := field b 4 1
    let nf := field b 5 1
    let zoom (k : Nat) : Nat := field b (0x08 + 2 * k) 2
    let focus (k : Nat) : Nat := field b (0x28 + 2 * k) 2
    headerOk b lens offset window = true ↔
      field b 0 4 = lens ∧ (1 ≤ nz ∧ nz ≤ 16 ∧ 1 ≤ nf ∧ nf ≤ 8) ∧
      (∀ k, k + 1 < nz → zoom k < zoom (k + 1)) ∧
      ((∀ k, k + 1 < nf → focus k < focus (k + 1)) ∧ ∀ k, k < nf → focus k ≤ 4095) ∧
      (field b 6 1 < nz ∧ field b 7 1 < nf) ∧ offset + 64 + 32 * nz * nf ≤ window := by
  intro nz nf zoom focus
  have hfoci : ((List.range nf).map focus).all (fun f => decide (f ≤ 4095)) = true ↔ ∀ k, k < nf → focus k ≤ 4095 := by
    simp
  unfold headerOk headerProfile headerLens headerNz headerNf
  simp only [Bool.and_eq_true, decide_eq_true_eq, ascending_map_range, and_assoc]
  rw [show (List.map (fun j => field b (40 + 2 * j) 2) (List.range (field b 5 1))).all (fun f => decide (f ≤ 4095)) = true
    ↔ _ from hfoci]

theorem field_two_lt (b : List Byte) (k : Nat) : field b k 2 < 65536 := by
  have hzero : field b (k + 1 + 1) 0 = 0 := rfl
  rw [field_succ, field_succ, hzero]
  have h0 := (b.getD k 0).isLt
  have h1 := (b.getD (k + 1) 0).isLt
  omega

/-- R30: a node's nine fields, in two's complement of 24 and of 16 bits. -/
theorem nodeFields_eq (b : List Byte) :
    let wide (k : Nat) : Int :=
      let v := field b k 4 % 16777216
      if v < 8388608 then v else (v : Int) - 16777216
    let half (k : Nat) : Int :=
      let v := field b k 2
      if v < 32768 then v else (v : Int) - 65536
    nodeFields b = { k1 := wide 0, k2 := wide 4, k3 := wide 8, ar := half 12, br := half 14, ab := half 16
                     bb := half 18, sx := half 20, sy := half 22 } := by
  intro wide half
  have hwide : ∀ k, signed 24 (field b k 4) = wide k := fun k => rfl
  have hhalf : ∀ k, signed 16 (field b k 2) = half k := by
    intro k
    unfold signed
    rw [show (2 : Nat) ^ 16 = 65536 from rfl, Nat.mod_eq_of_lt (field_two_lt b k)]
    rfl
  unfold nodeFields
  rw [hwide, hwide, hwide, hhalf, hhalf, hhalf, hhalf, hhalf, hhalf]

section
variable {victim : CacheSlot} {lens n offset i count : Nat} {data : List Byte}

theorem loadGoesOn_aborted {job : Job} {next : State → State} (ha : s.ec.abortReq = true) :
    loadGoesOn job next s = s.endJob job false [] := if_pos ha

theorem loadGoesOn_free {job : Job} {next : State → State} (ha : s.ec.abortReq = false) :
    loadGoesOn job next s = next s := if_neg (Bool.eq_false_iff.mp ha)

/-- R28: a directory entry that was read. -/
theorem directoryReport_free (ha : s.ec.abortReq = false) : directoryReport victim lens n data s =
    if field data 0 4 = lens then
      if profilePlaceOk (field data 4 4) s.window then
        s.doJob (.load victim lens (.header (field data 4 4))) (resolverReadReq .profileHeaderRead (field data 4 4) 64)
      else s.endJob (.load victim lens (.directory n)) false []
    else if n + 1 < s.ec.cfg.dirLength then
      s.doJob (.load victim lens (.directory (n + 1))) (directoryReq s.ec.cfg (n + 1))
    else s.endJob (.load victim lens (.directory n)) false [] := if_neg (Bool.eq_false_iff.mp ha)

/-- R31: a profile header that was read. -/
theorem headerReport_free (ha : s.ec.abortReq = false) : headerReport victim lens offset data s =
    if headerOk data lens offset s.window then
      readNode victim lens offset 0 (headerNz data * headerNf data)
        (s.mapCache fun c => c.set victim { c.get victim with copy := some (headerProfile data) })
    else s.endJob (.load victim lens (.header offset)) false [] := if_neg (Bool.eq_false_iff.mp ha)

/-- The cache with the entry that is being loaded. -/
def State.copying (victim : CacheSlot) (lens : Nat) (q : Profile) (s : State) : State :=
  { s with cache := s.cache.set victim { state := .loading, lens := some lens, copy := some q } }

/-- R31: an accepted header begins the copy. -/
theorem mapCache_headed {p : Profile}
    (he : s.cache.get victim = { state := .loading, lens := some lens, copy := some p }) :
    (s.mapCache fun c => c.set victim { c.get victim with copy := some (headerProfile data) }) =
      s.copying victim lens (headerProfile data) := by
  unfold State.mapCache State.copying
  dsimp only
  rw [he]

/-- R30: a node joins the copy. -/
theorem mapCache_grown {p : Profile}
    (he : s.cache.get victim = { state := .loading, lens := some lens, copy := some p }) :
    (s.mapCache fun c => c.set victim ((c.get victim).addNode (nodeFields data))) =
      s.copying victim lens { p with nodes := p.nodes ++ [nodeFields data] } := by
  unfold State.mapCache State.copying
  dsimp only
  rw [he]
  rfl

/-- R30, R37: a node that was read. -/
theorem nodeReport_eq {p : Profile}
    (he : s.cache.get victim = { state := .loading, lens := some lens, copy := some p }) :
    nodeReport victim lens offset i count data s =
      if i + 1 < count then loadGoesOn (.load victim lens (.node offset i count))
        (readNode victim lens offset (i + 1) count)
        (s.copying victim lens { p with nodes := p.nodes ++ [nodeFields data] })
      else (s.copying victim lens { p with nodes := p.nodes ++ [nodeFields data] }).endJob
        (.load victim lens (.node offset i count)) true [] := by
  unfold nodeReport
  rw [mapCache_grown he]

end

theorem finish_ended {u : State} {j : Job} {ok : Bool} {data : List Byte} (hr : u.port.requests = []) :
    finish (u.endJob j ok data) = .next (State.ended j ok data u) := congrArg Host.Outcome.next (settle_empty (by exact hr))

/-- R31: a header that passes its checks has its first node inside the window. -/
theorem accessOk_firstNode {offset nz nf window : Nat} (h64 : offset % 64 = 0) (hz : 1 ≤ nz) (hf : 1 ≤ nf)
    (hin : offset + 64 + 32 * nz * nf ≤ window) :
    accessOk (resolverReadReq .profileNodeRead (offset + 64 + 32 * 0) 32) window = true := by
  have hmul : 32 * 1 * 1 ≤ 32 * nz * nf := Nat.mul_le_mul (Nat.mul_le_mul_left 32 hz) hf
  refine decide_eq_true ⟨?_, ?_⟩
  · show (offset + 64 + 32 * 0) % 32 = 0
    omega
  · show offset + 64 + 32 * 0 + 32 ≤ window
    omega

/-- Settles O47: the load's end by `loadEnded`, its reads by `loadReport`. -/
theorem loadEndsReadyOrInvalid : Obligations.LoadEndsReadyOrInvalid := by
  unfold Obligations.LoadEndsReadyOrInvalid
  refine ⟨?_, ?_⟩
  · intro victim lens stage p ok data at_ s hp hw he flight
    refine ⟨_, exec_profileLoadDone hw, fun ha => ?_, fun ha => ?_⟩
    · rw [loadEnded_aborted (s := s.setWork none) ha]
      exact (faultsWith_work .aborted s.work { s.setWork none with cache := s.cache.set victim {} } _).mpr
        (faultsWith_settle (by exact hp))
    · rw [loadEnded_goesOn (s := s.setWork none) he ha]
      exact (judgesFrom_work 0 s.work _ _).mp (delivers_settle (u := { s.setWork none with cache := { s.cache.set victim
        (if ok then { state := .ready, lens := some lens, copy := some p }
          else { state := .invalid, lens := some lens, copy := none }) with lastServed := some victim } }) hp rfl)
  · intro victim lens n offset i count p a others s hi hp hb hd hr he m b u copying answers entry header node entryRead
      headerRead nodeRead nz nf zoom focus accepted wide half grown
    have hblock : a.req.block ≠ .engineController := by rw [hb]; decide
    have hread : s.OnTime → ∀ stage, s.work = some { job := .load victim lens stage } →
        exec (.memoryAttemptAnswer .succeeded others) s = finish (loadReport victim lens stage true b (u m)) := by
      intro ht stage hw
      rw [exec_work_read hi hp ht hblock hd, workReport_load (by exact hw)]
      rfl
    have hnode : nodeReport victim lens offset i count b (u m) = _ := nodeReport_eq (s := u m) he
    have hgrown : (u m).copying victim lens { p with nodes := p.nodes ++ [nodeFields b] } = copying grown := by
      rw [nodeFields_eq]
      rfl
    rw [hgrown] at hnode
    refine ⟨fun ht ha => ⟨fun hw => ?_, fun hw h64 => ⟨fun hacc => ?_, fun hacc => ?_⟩, fun hw hlt hok => ?_⟩,
      fun ht hw hle => ?_, fun ht ha => ⟨fun j hj hw => ?_, fun hw hlt => ?_⟩, fun j hj hw hx => ?_⟩
    · have hrow := hread ht _ hw
      rw [show loadReport victim lens (.directory n) true b (u m) = directoryReport victim lens n b (u m) from rfl,
        directoryReport_free (by exact ha)] at hrow
      intro found placed
      refine ⟨fun hl hpl => ?_, fun hl hlt hok => ?_, fun hend => ?_⟩
      · rw [if_pos hl, if_pos (by exact decide_eq_true hpl)] at hrow
        exact hrow.trans (finish_freed_doJob hr (decide_eq_true ⟨hpl.2.1, hpl.2.2⟩))
      · rw [if_neg hl, if_pos (by exact hlt)] at hrow
        exact hrow.trans (finish_freed_doJob hr hok)
      · rcases hend with ⟨hl, hpl⟩ | ⟨hl, hle⟩
        · rw [if_pos hl, if_neg (show ¬profilePlaceOk (field b 4 4) (u m).window = true from
            fun hx => hpl (of_decide_eq_true hx))] at hrow
          exact hrow.trans (finish_ended hr)
        · rw [if_neg hl, if_neg (by exact Nat.not_lt.mpr hle)] at hrow
          exact hrow.trans (finish_ended hr)
    · have hrow := hread ht _ hw
      rw [show loadReport victim lens (.header offset) true b (u m) = headerReport victim lens offset b (u m) from rfl,
        headerReport_free (by exact ha), if_pos (by exact (headerOk_iff b lens offset s.window).mpr hacc),
        mapCache_headed (s := u m) he] at hrow
      obtain ⟨-, ⟨hz, -, hf, -⟩, -, -, -, hin⟩ := hacc
      exact hrow.trans (finish_freed_doJob (by exact hr) (accessOk_firstNode h64 hz hf hin))
    · have hrow := hread ht _ hw
      rw [show loadReport victim lens (.header offset) true b (u m) = headerReport victim lens offset b (u m) from rfl,
        headerReport_free (by exact ha), if_neg (show ¬headerOk b lens offset (u m).window = true from
          fun hx => hacc ((headerOk_iff b lens offset s.window).mp hx))] at hrow
      exact hrow.trans (finish_ended hr)
    · have hrow := hread ht _ hw
      rw [show loadReport victim lens (.node offset i count) true b (u m) = _ from hnode, if_pos hlt,
        loadGoesOn_free (by exact ha)] at hrow
      exact hrow.trans (finish_freed_doJob (by exact hr) hok)
    · have hrow := hread ht _ hw
      rw [show loadReport victim lens (.node offset i count) true b (u m) = _ from hnode,
        if_neg (Nat.not_lt.mpr hle)] at hrow
      exact hrow.trans (finish_ended hr)
    · rcases hj with rfl | rfl
      · refine (hread ht _ hw).trans ?_
        rw [show loadReport victim lens (.directory n) true b (u m) = directoryReport victim lens n b (u m) from rfl,
          directoryReport, loadGoesOn_aborted (by exact ha)]
        exact finish_ended hr
      · refine (hread ht _ hw).trans ?_
        rw [show loadReport victim lens (.header offset) true b (u m) = headerReport victim lens offset b (u m) from rfl,
          headerReport, loadGoesOn_aborted (by exact ha)]
        exact finish_ended hr
    · have hrow := hread ht _ hw
      rw [show loadReport victim lens (.node offset i count) true b (u m) = _ from hnode, if_pos hlt,
        loadGoesOn_aborted (by exact ha)] at hrow
      exact hrow.trans (finish_ended hr)
    · have hend : ∀ m, workReport a.req false [] (s.freed m) = (s.freed m).endJob j false [] := by
        intro m
        rcases hj with rfl | rfl | rfl <;> exact workReport_load hw
      exact exec_work_read_exhausted hi hp hblock hd hr hx hend

end Sys2Proof.Machine
end

