-- ==== Sys2Proof/Proofs/Pools.lean ====
section
/-! PROOFS. The output pools: the reads of an entry's pool, and the slot they give (O49). -/

namespace Sys2Proof.Machine

variable {s : State} {a : Access} {others : List Host.Cell}

/-! ### What the pool's reads end in (R122) -/

/-- R122: the pool's reads have failed, or a check has. -/
theorem exec_poolReadDone_bad {j : Job} {k : Nat} {ok : Bool} {data : List Byte} {at_ : Word}
    (hw : s.work = some { job := j, ended := true, ok := ok, data := data, endedAt := at_ })
    (hread : poolRead { job := j, ended := true, ok := ok, data := data, endedAt := at_ } = some (k, none)) :
    exec .poolReadDone s = finish (judgeOn k (.faulted .poolBad) (s.setWork none)) := by
  show execPoolReadDone s = _
  unfold execPoolReadDone
  rw [hw, Option.filter_some, if_pos rfl, Option.bind_some, hread]

/-- R122: the pool as read. -/
theorem exec_poolReadDone_slots {k : Nat} {p : PoolView} {data : List Byte} {at_ : Word}
    (hw : s.work = some { job := .poolSlots k p, ended := true, ok := true, data := data, endedAt := at_ }) :
    exec .poolReadDone s =
      finish (judgePool k { p with slots := slotEntries p.slotCount data } (s.setWork none)) := by
  show execPoolReadDone s = _
  unfold execPoolReadDone
  rw [hw]
  rfl

/-- An entry that its pool settles is followed by the judging of the next. -/
theorem judgesFrom_judgeOn {k : Nat} {r : EntryResult} (hp : s.PortSettled) :
    (s.resulted k r).JudgesFrom (k + 1) (settle (judgeOn k r (s.setWork none))) :=
  judgesFrom_judgeFrom (u := (s.setWork none).resulted k r) s.work hp rfl

/-! ### The size of an image and the slot it is given (R116, R123, R124) -/

/-- R116, R123: the extent of an entry's image on one axis. -/
theorem imageSize_eq (d : DerivedFields) (f : FrameFields) :
    let cut (at_ len extent : Nat) : Nat := if d.kind = 1 then extent / d.factor else min (at_ + len) extent - at_
    imageSize d f = (cut d.rx d.rw (if d.kind = 3 then f.srcW else f.outW),
      cut d.ry d.rh (if d.kind = 3 then f.srcH else f.outH)) := by
  intro cut
  unfold imageSize clippedSize rectFrame clipExtent
  by_cases h1 : d.kind = 1
  · have h3 : d.kind ≠ 3 := by omega
    simp only [cut, if_pos h1, if_neg h3]
  · by_cases h3 : d.kind = 3
    · simp only [cut, if_neg h1, if_pos h3]
    · simp only [cut, if_neg h1, if_neg h3]

/-- R124: a slot that the search chooses was read. -/
theorem chooseSlot_lt {held : List HeldSlot} {pool i : Nat} {p : PoolView} (h : chooseSlot held pool p = some i) :
    i < p.slotCount :=
  mem_searchOrder.mp (List.mem_of_find?_eq_some h)

/-- R122: the offset of a slot read. -/
theorem slotEntries_place {count i : Nat} {data : List Byte} (h : i < count) :
    (((slotEntries count data)[i]?).map Prod.fst).getD 0 = field data (16 * i) 4 := by
  simp [slotEntries, h]

/-- R123: the held-slot entry of a chosen slot. -/
theorem slotFor_eq {k i : Nat} {p : PoolView} {data : List Byte} (h : i < p.slotCount) (s : State) :
    let d := s.entryFields k
    let size := imageSize d s.frame.fields
    slotFor s k { p with slots := slotEntries p.slotCount data } i =
      { entry := k, pool := d.pool, slot := i, offset := field data (16 * i) 4, depth := p.depth, width := size.1
        height := size.2, pitch := derivedPitch size.1 p.depth, desc := p.desc } := by
  unfold slotFor
  dsimp only
  rw [slotEntries_place h]

section
variable {k : Nat} {q : PoolView}

theorem judgePool_tooLarge (h : q.slotSize < derivedPitch (imageSize (s.entryFields k) s.frame.fields).1 q.depth *
      (imageSize (s.entryFields k) s.frame.fields).2) :
    judgePool k q s = judgeOn k (.faulted .tooLarge) s := if_pos h

/-- R124: an image that fits is given what the search chooses. -/
theorem judgePool_fits (h : derivedPitch (imageSize (s.entryFields k) s.frame.fields).1 q.depth *
      (imageSize (s.entryFields k) s.frame.fields).2 ≤ q.slotSize) :
    judgePool k q s = match chooseSlot s.pools.heldSlots (s.entryFields k).pool q with
      | none => s.doJob (.dropCount k) (poolWriteReq .poolWordWrite (q.desc + 0x0C) (leBytes 4 (q.dropCount + 1)))
      | some i =>
        if slotFit (slotFor s k q i) s.window then
          s.doJob (.slotBusy (slotFor s k q i)) (poolWriteReq .slotWrite (slotFor s k q i).stateOffset (leBytes 4 1))
        else judgeOn k (.faulted .poolBad) s := if_neg (Nat.not_lt.mpr h)

end

/-! ### The answers to the pool's reads -/

theorem workReport_poolTable {r : Request} {ok : Bool} {data : List Byte} {k : Nat}
    (hw : s.work = some { job := .poolTable k }) :
    workReport r ok data s = if ok then poolTableReport k data s else s.endJob (.poolTable k) false [] := by
  unfold workReport
  rw [hw]

theorem workReport_poolHeader {r : Request} {ok : Bool} {data : List Byte} {k desc : Nat}
    (hw : s.work = some { job := .poolHeader k desc }) :
    workReport r ok data s = if ok then poolHeaderReport k desc data s
      else s.endJob (.poolHeader k desc) false [] := by
  unfold workReport
  rw [hw]

theorem workReport_poolSlots {r : Request} {ok : Bool} {data : List Byte} {k : Nat} {p : PoolView}
    (hw : s.work = some { job := .poolSlots k p }) :
    workReport r ok data s = s.endJob (.poolSlots k p) ok data := by
  unfold workReport
  rw [hw]

/-- R122: the checks of a descriptor's header, spelled out. -/
theorem poolHeaderOk_iff (desc window : Nat) (b : List Byte) :
    poolHeaderOk (poolHeaderView desc b) window = true ↔
      1 ≤ field b 0 1 ∧ field b 0 1 ≤ 16 ∧ (field b 1 1 = 8 ∨ field b 1 1 = 10 ∨ field b 1 1 = 12) ∧
        desc + 32 + 16 * field b 0 1 ≤ window := by
  unfold poolHeaderOk depthOk
  simp only [Bool.and_eq_true, decide_eq_true_eq, and_assoc]
  rfl

/-- Settles O49: the reads' end by `judgePool`, their answers by `workReport`. -/
theorem poolGivesASlotOrCountsADrop : Obligations.PoolGivesASlotOrCountsADrop := by
  unfold Obligations.PoolGivesASlotOrCountsADrop
  refine ⟨?_, ?_⟩
  · intro k desc p ok data at_ s hp settles
    refine ⟨fun hw => ?_, fun hw => ?_⟩
    · intro place q d f cut width height pitch
      have hrow : exec .poolReadDone s = finish (judgePool k q (s.setWork none)) := exec_poolReadDone_slots hw
      have hsize : imageSize d f = (width, height) := imageSize_eq d f
      have hpitch : derivedPitch (imageSize d f).1 p.depth * (imageSize d f).2 = pitch * height := by
        rw [hsize]
        rfl
      refine ⟨fun e he => ?_, fun fr hfr => ?_, fun hl => ?_, fun hl => ⟨fun i hi => ?_, fun hnone hok => ?_⟩⟩
      · show ((s.chain.group.entries[k]?).map DerivedEntry.fields).getD {} = e.fields
        rw [he]
        rfl
      · show (s.chain.group.frame.getD _).fields = fr.fields
        rw [hfr]
        rfl
      · rw [judgePool_tooLarge (s := s.setWork none) (q := q) (by rw [← hpitch] at hl; exact hl)] at hrow
        exact ⟨_, hrow, judgesFrom_judgeOn hp⟩
      · rw [judgePool_fits (s := s.setWork none) (q := q) (by rw [← hpitch] at hl; exact hl),
          show chooseSlot (s.setWork none).pools.heldSlots ((s.setWork none).entryFields k).pool q = some i from hi] at hrow
        dsimp only at hrow
        have hslot := slotFor_eq (k := k) (p := p) (data := data)
          (chooseSlot_lt (p := q) hi) (s.setWork none)
        dsimp only at hslot
        rw [show imageSize ((s.setWork none).entryFields k) (s.setWork none).frame.fields = (width, height) from hsize]
          at hslot
        rw [show slotFor (s.setWork none) k q i = _ from hslot] at hrow
        intro h fit
        refine ⟨fun hfit hok => ?_, fun hfit => ?_⟩
        · rw [if_pos (by exact decide_eq_true hfit)] at hrow
          exact hrow.trans (congrArg Host.Outcome.next (settle_doJob (s := s.setWork none) hp hok))
        · rw [if_neg (by exact fun hx => hfit (of_decide_eq_true hx))] at hrow
          exact ⟨_, hrow, judgesFrom_judgeOn hp⟩
      · rw [judgePool_fits (s := s.setWork none) (q := q) (by rw [← hpitch] at hl; exact hl),
          show chooseSlot (s.setWork none).pools.heldSlots ((s.setWork none).entryFields k).pool q = none from hnone] at hrow
        exact hrow.trans (congrArg Host.Outcome.next (settle_doJob (s := s.setWork none) hp hok))
    · rcases hw with hw | hw | hw <;>
        exact ⟨_, exec_poolReadDone_bad hw rfl, judgesFrom_judgeOn hp⟩
  · intro k desc p a others s hi hp hb hd hr m b freed u found placed count headed answers
    have hblock : a.req.block ≠ .engineController := by rw [hb]; decide
    refine ⟨fun ht => ⟨fun hw => ⟨fun hpl => ?_, fun hpl => ?_⟩, fun hw h64 => ⟨fun hhd => ?_, fun hhd => ?_⟩,
      fun hw => ?_⟩, fun j hj hw hx => ?_⟩
    · refine (exec_work_read hi hp ht hblock hd).trans ?_
      rw [workReport_poolTable (by exact hw), if_pos rfl, poolTableReport, if_pos (by exact decide_eq_true hpl)]
      exact finish_freed_doJob hr (decide_eq_true ⟨by show found % 32 = 0; omega, hpl.2.2⟩)
    · refine (exec_work_read hi hp ht hblock hd).trans ?_
      rw [workReport_poolTable (by exact hw), if_pos rfl, poolTableReport,
        if_neg (by exact fun hx => hpl (of_decide_eq_true hx))]
      exact finish_ended hr
    · refine (exec_work_read hi hp ht hblock hd).trans ?_
      rw [workReport_poolHeader (by exact hw), if_pos rfl, poolHeaderReport,
        if_pos (by exact (poolHeaderOk_iff desc s.window b).mpr hhd)]
      obtain ⟨-, -, -, hin⟩ := hhd
      exact finish_freed_doJob hr (decide_eq_true ⟨by show (desc + 32) % 16 = 0; omega, hin⟩)
    · refine (exec_work_read hi hp ht hblock hd).trans ?_
      rw [workReport_poolHeader (by exact hw), if_pos rfl, poolHeaderReport,
        if_neg (by exact fun hx => hhd ((poolHeaderOk_iff desc s.window b).mp hx))]
      exact finish_ended hr
    · refine (exec_work_read hi hp ht hblock hd).trans ?_
      rw [workReport_poolSlots (by exact hw)]
      exact finish_ended hr
    · have hend : ∀ m, workReport a.req false [] (s.freed m) = (s.freed m).endJob j false [] := by
        intro m
        rcases hj with rfl | rfl | rfl
        · exact workReport_poolTable hw
        · exact workReport_poolHeader hw
        · exact workReport_poolSlots hw
      exact exec_work_read_exhausted hi hp hblock hd hr hx hend

end Sys2Proof.Machine
end

