-- ==== Sys2Proof/Proofs/Slots.lean ====
section
/-! PROOFS. Held slots given back, and what a group is retired with (O56). -/

namespace Sys2Proof.Machine

variable {s : State} {a : Access} {others : List Host.Cell}

/-! ### The rows of the table that end a slot's write -/

theorem exec_slotEmptyWriteDone {k : Nat} {ok : Bool} {at_ : Word} {data : List Byte}
    (hw : s.work = some { job := .slotEmpty k, ended := true, ok := ok, data := data, endedAt := at_ }) :
    exec .slotEmptyWriteDone s = finish (slotEmptyEnded k ok (s.setWork none)) := by
  show execSlotEmptyWriteDone s = _
  unfold execSlotEmptyWriteDone
  rw [hw]

theorem exec_slotReleaseDone_filled {h : HeldSlot} {ok : Bool} {at_ : Word} {data : List Byte}
    (hw : s.work = some { job := .releaseFilled h, ended := true, ok := ok, data := data, endedAt := at_ }) :
    exec .slotReleaseDone s = finish (slotReleased h (.faulted .poolBad) (s.setWork none)) := by
  show execSlotReleaseDone s = _
  unfold execSlotReleaseDone
  rw [hw]

theorem exec_slotReleaseDone_index {h : HeldSlot} {ok : Bool} {at_ : Word} {data : List Byte}
    (hw : s.work = some { job := .releaseIndex h, ended := true, ok := ok, data := data, endedAt := at_ }) :
    exec .slotReleaseDone s = finish (slotReleased h (.filled h.slot) (s.setWork none)) := by
  show execSlotReleaseDone s = _
  unfold execSlotReleaseDone
  rw [hw]

/-! ### The held-slot list after a slot's last write -/

/-- The list of held slots, the derived entries, and no work at hand. -/
def State.holding (slots : List HeldSlot) (es : List DerivedEntry) (s : State) : State := { s with
  work := none
  pools := { heldSlots := slots }
  chain := { s.chain with group := { s.chain.group with entries := es } } }

/-- Entry `k` of a list has the result `r`. -/
def withResult (k : Nat) (r : EntryResult) (es : List DerivedEntry) : List DerivedEntry :=
  es.modify k fun e => { e with result := some r }

/-- R121: no two held slots serve one entry, so only the first leaves the list. -/
theorem filter_first {h : HeldSlot} {rest : List HeldSlot} (hrest : ∀ x, x ∈ rest → x.entry ≠ h.entry) :
    (h :: rest).filter (fun x => x.entry ≠ h.entry) = rest := by
  rw [List.filter_cons_of_neg (by simp), List.filter_eq_self]
  exact fun x hx => decide_eq_true (hrest x hx)

theorem dropHeld_first {h : HeldSlot} {rest : List HeldSlot} {es : List DerivedEntry}
    (hrest : ∀ x, x ∈ rest → x.entry ≠ h.entry) :
    dropHeld h.entry (s.holding (h :: rest) es) = s.holding rest es :=
  congrArg (fun l => s.holding l es) (filter_first hrest)

theorem setWork_holding {slots : List HeldSlot} (h : s.pools.heldSlots = slots) :
    s.setWork none = s.holding slots s.chain.group.entries := by
  unfold State.holding
  rw [← h]
  rfl

/-- R128, R130: after the EMPTY write the slot has left the list. -/
theorem slotEmpty_dropped {h : HeldSlot} {rest : List HeldSlot} {ok : Bool} (hs : s.pools.heldSlots = h :: rest)
    (hrest : ∀ x, x ∈ rest → x.entry ≠ h.entry) :
    dropHeld h.entry (if ok then s.setWork none else setResult h.entry (.faulted .poolBad) (s.setWork none)) =
      s.holding rest (if ok then s.chain.group.entries
        else withResult h.entry (.faulted .poolBad) s.chain.group.entries) := by
  rw [setWork_holding hs]
  cases ok
  · exact dropHeld_first hrest
  · exact dropHeld_first hrest

theorem slotEmptyEnded_faulted {h : HeldSlot} {rest : List HeldSlot} {ok : Bool} {code : FaultCode}
    (hs : s.pools.heldSlots = h :: rest) (hrest : ∀ x, x ∈ rest → x.entry ≠ h.entry)
    (hf : s.chain.flight.fault = some code) : slotEmptyEnded h.entry ok (s.setWork none) =
      returnNext (s.holding rest (if ok then s.chain.group.entries
        else withResult h.entry (.faulted .poolBad) s.chain.group.entries)) := by
  unfold slotEmptyEnded
  rw [slotEmpty_dropped hs hrest]
  exact if_pos (show s.chain.flight.fault.isSome = true by rw [hf]; rfl)

/-- R131: after a slot's release the next is released. -/
theorem slotReleased_eq {h : HeldSlot} {rest : List HeldSlot} {r : EntryResult} (hs : s.pools.heldSlots = h :: rest)
    (hrest : ∀ x, x ∈ rest → x.entry ≠ h.entry) : slotReleased h r (s.setWork none) =
      releaseNext (s.holding rest (withResult h.entry r s.chain.group.entries)) := by
  unfold slotReleased
  rw [setWork_holding hs]
  exact congrArg releaseNext (dropHeld_first hrest)

theorem settle_returnNext_next {g : HeldSlot} {rest : List HeldSlot} {es : List DerivedEntry} {code : FaultCode}
    (hp : s.PortSettled) (hf : s.chain.flight.fault = some code)
    (hok : accessOk (poolWriteReq .slotWrite g.stateOffset (leBytes 4 0)) s.window = true) :
    settle (returnNext (s.holding (g :: rest) es)) = State.doing (.slotEmpty g.entry)
      (poolWriteReq .slotWrite g.stateOffset (leBytes 4 0))
      (s.holding (g :: rest) (withResult g.entry (.faulted code) es)) := by
  unfold returnNext
  rw [show (s.holding (g :: rest) es).pools.heldSlots = g :: rest from rfl,
    show (s.holding (g :: rest) es).chain.flight.fault = some code from hf]
  exact settle_doJob (s := s.holding (g :: rest) (withResult g.entry (.faulted code) es)) hp hok

theorem settle_releaseNext_next {g : HeldSlot} {rest : List HeldSlot} {es : List DerivedEntry} (hp : s.PortSettled)
    (hok : accessOk (poolWriteReq .slotWrite g.stateOffset (filledBytes g s.frame.fields.frameNumber)) s.window = true) :
    settle (releaseNext (s.holding (g :: rest) es)) = State.doing (.releaseFilled g)
      (poolWriteReq .slotWrite g.stateOffset (filledBytes g s.frame.fields.frameNumber))
      (s.holding (g :: rest) es) :=
  settle_doJob (s := s.holding (g :: rest) es) hp hok

/-- After the last slot the group retires. -/
theorem returnNext_none {es : List DerivedEntry} : returnNext (s.holding [] es) = retire (s.holding [] es) := rfl

theorem releaseNext_none {es : List DerivedEntry} : releaseNext (s.holding [] es) = retire (s.holding [] es) := rfl

/-- R113, R139: the retirement that begins when no slot is held any more. -/
theorem settle_retire_holding {es : List DerivedEntry} (hp : s.PortSettled)
    (hok : accessOk (completionReq (s.holding [] es).measured.frame.offset
      (frameCompletion (s.holding [] es).measured)) s.window = true) :
    settle (retire (s.holding [] es)) = State.retiring (State.measured { s with
      pools := { heldSlots := [] }
      chain := { s.chain with group := { s.chain.group with entries := es } } }) :=
  settle_retire (s := s.holding [] es) hp hok

/-! ### The Pool Manager's writes -/

/-- A write whose work ends with its report. -/
theorem exec_work_write {j : Job} {bytes : List Byte} (hi : s.port.inFlight = some a) (hp : a.phase = .attempt)
    (hb : a.req.block ≠ .engineController) (hd : a.req.data = some bytes) (hr : s.port.requests = [])
    (hend : ∀ ok u, u.work = s.work → workReport a.req ok [] u = u.endJob j ok []) :
    (s.OnTime → exec (.memoryAttemptAnswer .succeeded others) s =
      .next (State.ended j true [] (s.freed (memWrite (memLand s.dram others) a.address bytes)))) ∧
    s.LosesWrite a bytes others (State.ended j false []) := by
  refine ⟨fun ht => ?_, losesWrite_of_report hi hp hd fun m n => ?_⟩
  · rw [exec_write_succeeds hi hp ht hd, report_work hb, hend true (s.freed _) rfl]
    exact finish_ended hr
  · rw [report_work hb, hend false { s.freed m with freeCount := n } rfl]
    exact finish_ended hr

theorem workReport_releaseFilled {r : Request} {ok : Bool} {data : List Byte} {h : HeldSlot}
    (hw : s.work = some { job := .releaseFilled h }) : workReport r ok data s =
      if ok then s.doJob (.releaseIndex h) (releaseIndexReq h) else s.endJob (.releaseFilled h) false [] := by
  unfold workReport
  rw [hw]

/-! ### What a group is retired with (R113, R133 to R137, 10.2) -/

/-- 10.2: the warnings of a FRAME. -/
theorem warningBits_eq (t : TileUnit) : warningBits t = (if t.outOfFrame = 0 then 0 else 1) +
    (if t.overspanInd then 2 else 0) + (if t.overrange = 0 then 0 else 4) := by
  unfold warningBits
  by_cases h1 : t.outOfFrame = 0 <;> by_cases h2 : t.overrange = 0 <;> cases t.overspanInd <;> simp [h1, h2]

/-- 10.1: the resolution flags in one byte. -/
theorem flagBits_eq (f : ResFlags) : f.bits = (if f.stale then 1 else 0) + (if f.hold then 2 else 0) +
    (if f.moving then 4 else 0) + (if f.lensNew then 8 else 0) + (if f.unknownLens then 16 else 0) +
    (if f.outsideGrid then 32 else 0) + (if f.override then 64 else 0) := by
  have hbit : ∀ (b : Bool) (n : Nat), n * b.toNat = if b then n else 0 := by
    intro b n
    cases b <;> simp
  unfold ResFlags.bits
  rw [hbit, hbit, hbit, hbit, hbit, hbit, ← hbit f.stale 1, Nat.one_mul]

/-- 10.2: an entry of the derived results list, by its result. -/
theorem resultBytes_eq (e : DerivedEntry) : resultBytes e =
    leBytes 4 e.offset ++ leBytes 1 e.fields.pool ++
      (match e.result with
        | some (.filled slot) => leBytes 1 1 ++ leBytes 1 slot
        | some .dropped => leBytes 1 2 ++ leBytes 1 0
        | some .skippedCondition => leBytes 1 3 ++ leBytes 1 0
        | some .skippedRelief => leBytes 1 4 ++ leBytes 1 0
        | some (.faulted c) => leBytes 1 5 ++ leBytes 1 c.code
        | none => leBytes 1 0 ++ leBytes 1 0) ++ flagByte e.clipped := by
  unfold resultBytes
  rw [List.append_assoc (leBytes 4 e.offset ++ leBytes 1 e.fields.pool)]
  rcases e.result with _ | _ | _ | _ | _ | _ <;> rfl

/-- R135: the outcome of a FRAME. -/
theorem outcomeCode_eq (s : State) : outcomeCode s = match s.chain.flight.fault with
    | some c => c.code
    | none => if warningBits s.tile = 0 then 0x80 else 0x81 := rfl

theorem faultCodeOf_eq (f : Option FaultCode) : faultCodeOf f = match f with
    | some c => c.code
    | none => 0 := by cases f <;> rfl

/-- R137: a main-chain record that is no DERIVED is retired DONE. -/
theorem retired_plain {m : MainRecord} (h : m.kind ≠ .derived) :
    mainCompletion s m = completionReq m.offset [0, 0, 0, 0] ∧ retiredState s m = .done := by
  have hplain : plainCompletion 0 = [0, 0, 0, 0] := by decide
  unfold mainCompletion retiredState
  rw [hplain]
  cases hk : m.kind with
  | derived => exact absurd hk h
  | _ => exact ⟨rfl, rfl⟩

/-- R137: a DERIVED record is retired with its outcome. -/
theorem retired_derived {m : MainRecord} {code outcome slot : Nat} {state : RecordState} (hk : m.kind = .derived)
    (h : derivedOutcome s m = (code, outcome, slot, state)) :
    mainCompletion s m = completionReq m.offset (derivedCompletion code outcome slot) ∧ retiredState s m = state := by
  unfold mainCompletion retiredState
  rw [hk]
  dsimp only
  rw [h]
  exact ⟨rfl, rfl⟩

theorem derivedOutcome_full {m : MainRecord} (h : m.entry = none) : derivedOutcome s m = (2, 5, 0, .faulted) := by
  unfold derivedOutcome
  rw [h]
  rfl

theorem derivedOutcome_notRun {m : MainRecord} {k : Nat} (h : m.entry = some k)
    (hj : s.chain.flight.judged = false) : derivedOutcome s m = (0, 6, 0, .skipped) := by
  unfold derivedOutcome
  rw [h]
  exact if_neg (Bool.eq_false_iff.mp hj)

theorem derivedOutcome_judged {m : MainRecord} {k : Nat} {e : DerivedEntry} (h : m.entry = some k)
    (hj : s.chain.flight.judged = true) (he : s.chain.group.entries[k]? = some e) :
    derivedOutcome s m = match e.result with
      | some (.filled slot) => (0, 1, slot, .done)
      | some (.faulted c) => (c.code, 5, 0, .faulted)
      | some r => (0, r.code, 0, .skipped)
      | none => (0, 6, 0, .skipped) := by
  unfold derivedOutcome
  rw [h]
  dsimp only
  rw [if_pos hj, he]
  rfl

/-- Settles O56: the slots' writes by `returnNext` and `releaseNext`, the last of them by `retire`; the bytes by the
equations above. -/
theorem heldSlotsAreGivenBackInOrder : Obligations.HeldSlotsAreGivenBackInOrder := by
  unfold Obligations.HeldSlotsAreGivenBackInOrder
  refine ⟨?_, ?_, fun h number => ⟨rfl, rfl⟩, ?_, ?_⟩
  · intro h g rest ok data at_ s hp hs hg hrest set on entries empty filled
    have hall : ∀ x, x ∈ g :: rest → x.entry ≠ h.entry := List.forall_mem_cons.mpr ⟨hg, hrest⟩
    refine ⟨fun code hf hw hok => ?_, fun hw hok => ?_, fun hw hok => ?_⟩
    · rw [exec_slotEmptyWriteDone hw, slotEmptyEnded_faulted hs hall hf]
      exact congrArg Host.Outcome.next (settle_returnNext_next hp hf hok)
    · rw [exec_slotReleaseDone_index hw, slotReleased_eq hs hall]
      exact congrArg Host.Outcome.next (settle_releaseNext_next hp hok)
    · rw [exec_slotReleaseDone_filled hw, slotReleased_eq hs hall]
      exact congrArg Host.Outcome.next (settle_releaseNext_next hp hok)
  · intro h ok data at_ s hp hs last legal
    have hall : ∀ x, x ∈ ([] : List HeldSlot) → x.entry ≠ h.entry := by simp
    refine ⟨fun hf hw => ?_, fun hw => ?_, fun hw => ?_⟩
    · obtain ⟨code, hcode⟩ := Option.ne_none_iff_exists'.mp hf
      rw [exec_slotEmptyWriteDone hw, slotEmptyEnded_faulted hs hall hcode, returnNext_none]
      cases ok
      · exact fun hok => congrArg Host.Outcome.next (settle_retire_holding hp hok)
      · exact fun hok => congrArg Host.Outcome.next (settle_retire_holding hp hok)
    · rw [exec_slotReleaseDone_index hw, slotReleased_eq hs hall, releaseNext_none]
      exact fun hok => congrArg Host.Outcome.next (settle_retire_holding hp hok)
    · rw [exec_slotReleaseDone_filled hw, slotReleased_eq hs hall, releaseNext_none]
      exact fun hok => congrArg Host.Outcome.next (settle_retire_holding hp hok)
  · intro h k bytes a others s hi hp hb hd hr u answers
    have hblock : a.req.block ≠ .engineController := by rw [hb]; decide
    refine ⟨fun j hj hw => ?_, fun hw => ⟨fun ht => ?_, losesWrite_of_report hi hp hd fun m n => ?_⟩⟩
    · refine exec_work_write hi hp hblock hd hr fun ok u hu => ?_
      unfold workReport
      rw [hu, hw]
      rcases hj with rfl | rfl | rfl | rfl <;> rfl
    · intro index hok
      show exec (.memoryAttemptAnswer .succeeded others) s = _
      rw [exec_write_succeeds hi hp ht hd, report_work hblock, workReport_releaseFilled (by exact hw), if_pos rfl]
      exact finish_freed_doJob hr hok
    · rw [report_work hblock, workReport_releaseFilled (by exact hw), if_neg Bool.false_ne_true]
      exact finish_ended hr
  · intro t m f warnings results code used flags resultBytes_ retires
    have hcode : ∀ c : FaultCode, c.code = code c := fun c => by cases c <;> rfl
    have hwarn : warningBits t.tile = warnings := warningBits_eq t.tile
    have hfault : faultCodeOf f.fault = match f.fault with | some c => code c | none => 0 := by
      rw [faultCodeOf_eq]
      cases f.fault with
      | none => rfl
      | some c => exact hcode c
    have hout : outcomeCode t = match f.fault with
        | some c => code c
        | none => if warnings = 0 then 0x80 else 0x81 := by
      rw [outcomeCode_eq, hwarn]
      show (match f.fault with | some c => c.code | none => if warnings = 0 then 0x80 else 0x81) = _
      cases f.fault with
      | none => rfl
      | some c => exact hcode c
    have hresult : resultBytes = resultBytes_ := by
      funext e
      rw [resultBytes_eq]
      show _ = leBytes 4 e.offset ++ leBytes 1 e.fields.pool ++ _ ++ flagByte e.clipped
      rcases e.result with _ | _ | _ | _ | _ | c
      case some.faulted => exact congrArg (fun n => leBytes 4 e.offset ++ leBytes 1 e.fields.pool ++
        (leBytes 1 5 ++ leBytes 1 n) ++ flagByte e.clipped) (hcode c)
      all_goals rfl
    have hretires : ∀ {outcome slot c : Nat} {state : RecordState} {section_ : List Byte}, m.kind = .derived →
        derivedOutcome t m = (c, outcome, slot, state) → derivedCompletion c outcome slot = section_ →
        retires section_ state := by
      intro outcome slot c state section_ hk ho hs
      subst hs
      exact retired_derived hk ho
    refine ⟨?_, fun hk => retired_plain hk, fun hk => ⟨fun he => ?_, fun k he => ⟨fun hj => ?_, fun hj e hget => ?_⟩⟩⟩
    · unfold frameCompletion resultListBytes
      dsimp only
      rw [hout, hwarn, hresult, show t.chain.flight.used.flags.bits = flags from flagBits_eq _,
        show faultCodeOf t.chain.flight.fault = _ from hfault]
      rfl
    · exact hretires hk (derivedOutcome_full he) (by decide)
    · exact hretires hk (derivedOutcome_notRun he hj) (by decide)
    · have hjudged := derivedOutcome_judged he hj hget
      refine ⟨fun slot hr => ?_, fun hr => ?_, fun hr => ?_, fun hr => ?_, fun c hr => ?_⟩ <;> rw [hr] at hjudged
      · exact hretires hk hjudged rfl
      · exact hretires hk hjudged (by decide)
      · exact hretires hk hjudged (by decide)
      · exact hretires hk hjudged (by decide)
      · exact hretires hk hjudged (by rw [hcode c]; rfl)

end Sys2Proof.Machine
end

