-- ==== Sys2Proof/Proofs/Rows.lean ====
section
/-! PROOFS. The rows of a tile and of a RAWCOPY, and their writes (O54, O55). -/

namespace Sys2Proof.Machine

variable {s : State} {a : Access} {others : List Host.Cell}

/-! ### The rows of the table that end an output row -/

section
variable {k row : Nat} {ok : Bool} {at_ : Word} {data : List Byte}

theorem exec_outputRowWriteDone
    (hw : s.work = some { job := .outRow, ended := true, ok := ok, data := data, endedAt := at_ }) :
    exec .outputRowWriteDone s =
      finish (if ok then nextOutRow (s.setWork none) else faultFrame .outputWrite (s.setWork none)) := by
  show execOutputRowWriteDone s = _
  unfold execOutputRowWriteDone
  rw [hw]

theorem exec_derivedRowWriteDone
    (hw : s.work = some { job := .derivedRow k, ended := true, ok := ok, data := data, endedAt := at_ }) :
    exec .derivedRowWriteDone s =
      finish (if ok then nextDerivedRow (s.setWork none) else derivedWriteFailed k (s.setWork none)) := by
  show execDerivedRowWriteDone s = _
  unfold execDerivedRowWriteDone
  rw [hw]

theorem exec_rawcopyRowDone_read
    (hw : s.work = some { job := .rawRead k row, ended := true, ok := ok, data := data, endedAt := at_ }) :
    exec .rawcopyRowDone s = finish (faultFrame .sourceRead (s.setWork none)) := by
  show execRawcopyRowDone s = _
  unfold execRawcopyRowDone
  rw [hw]

theorem exec_rawcopyRowDone_write
    (hw : s.work = some { job := .rawWrite k row, ended := true, ok := ok, data := data, endedAt := at_ }) :
    exec .rawcopyRowDone s =
      finish (if ok then rawRowWritten k row (s.setWork none) else derivedWriteFailed k (s.setWork none)) := by
  show execRawcopyRowDone s = _
  unfold execRawcopyRowDone
  rw [hw]

end

/-! ### A derived write that failed (R128) -/

/-- R128: entry `k` makes no further writes and has the result WRITE. -/
def State.writeFaulted (k : Nat) (s : State) : State := { s with
  chain := { s.chain with group := { s.chain.group with
    entries := s.chain.group.entries.modify k fun e => { e with result := some (.faulted .write) } } }
  writer := { s.writer with derivedRows := s.writer.derivedRows.filter fun r => r.entry ≠ k } }

theorem settle_derivedWriteFailed {k : Nat} {h : HeldSlot} (hp : s.PortSettled) (hh : s.heldFor k = some h)
    (he : h.entry = k) (hok : accessOk (poolWriteReq .slotWrite h.stateOffset (leBytes 4 0)) s.window = true) :
    settle (derivedWriteFailed k s) =
      (s.writeFaulted k).doing (.slotEmpty k) (poolWriteReq .slotWrite h.stateOffset (leBytes 4 0)) := by
  have hfailed : derivedWriteFailed k s =
      (s.writeFaulted k).doJob (.slotEmpty h.entry) (poolWriteReq .slotWrite h.stateOffset (leBytes 4 0)) := by
    show (match (s.writeFaulted k).heldFor k with
      | some h => returnSlot h (s.writeFaulted k)
      | none => s.writeFaulted k) = _
    rw [show (s.writeFaulted k).heldFor k = some h from hh]
    rfl
  rw [hfailed, he]
  exact settle_doJob (by exact hp) hok

/-! ### The slot of a faulted entry (R128) -/

/-- R128: the slot has left the list, and its entry is POOL_BAD when the EMPTY write failed. -/
def State.slotReturned (k : Nat) (ok : Bool) (s : State) : State := { s with
  pools := { heldSlots := s.pools.heldSlots.filter fun x => x.entry ≠ k }
  chain := { s.chain with group := { s.chain.group with
    entries := if ok then s.chain.group.entries
      else s.chain.group.entries.modify k fun e => { e with result := some (.faulted .poolBad) } } } }

theorem dropHeld_slotReturned (k : Nat) (ok : Bool) (s : State) :
    dropHeld k (if ok then s else setResult k (.faulted .poolBad) s) = s.slotReturned k ok := by
  cases ok <;> rfl

theorem entryFields_slotReturned (k : Nat) (ok : Bool) (s : State) :
    (s.slotReturned k ok).entryFields k = s.entryFields k := by
  cases ok
  · unfold State.entryFields
    show (((s.chain.group.entries.modify k _)[k]?).map DerivedEntry.fields).getD {} = _
    rw [List.getElem?_modify_eq]
    cases s.chain.group.entries[k]? <;> rfl
  · rfl

/-- R128: without a frame fault the pass or the RAWCOPY phase goes on. -/
theorem slotEmptyEnded_clean {k : Nat} {ok : Bool} (hf : s.chain.flight.fault = none) :
    slotEmptyEnded k ok s = if (s.entryFields k).kind = 3 then rawFrom (k + 1) (s.slotReturned k ok)
      else nextDerivedRow (s.slotReturned k ok) := by
  unfold slotEmptyEnded
  rw [dropHeld_slotReturned]
  dsimp only
  rw [entryFields_slotReturned]
  exact if_neg (show ¬s.chain.flight.fault.isSome = true by rw [hf]; exact Bool.false_ne_true)

/-! ### The next row (R79, R127, R129) -/

theorem nextDerivedRow_cons {r : DerivedRow} {rs : List DerivedRow} (h : s.writer.derivedRows = r :: rs) :
    nextDerivedRow s = State.doJob { s with writer := { s.writer with derivedRows := rs } } (.derivedRow r.entry)
      (rowWriteReq .derivedRowWrite r.offset r.bytes) := by
  unfold nextDerivedRow
  rw [h]
  rfl

theorem nextDerivedRow_nil (h : s.writer.derivedRows = []) : nextDerivedRow s = tileDone s := by
  unfold nextDerivedRow
  rw [h]

theorem nextOutRow_cons {r : RowWrite} {rs : List RowWrite} (h : s.writer.outRows = r :: rs) :
    nextOutRow s = State.doJob { s with writer := { s.writer with outRows := rs } } .outRow
      (rowWriteReq .outputRowWrite r.offset r.bytes) := by
  unfold nextOutRow writeOutRow
  rw [h]
  rfl

theorem nextOutRow_nil (h : s.writer.outRows = []) : nextOutRow s = nextDerivedRow s := by
  unfold nextOutRow
  rw [h]

theorem rawRowWritten_eq {k row : Nat} {h : HeldSlot} (hh : s.heldFor k = some h) :
    rawRowWritten k row s = if row + 1 < h.height then rawRow h (row + 1) s else rawFrom (k + 1) s := by
  unfold rawRowWritten
  rw [hh]

theorem rawRow_aborted {h : HeldSlot} {row : Nat} (ha : s.ec.abortReq = true) :
    rawRow h row s = faultFrame .aborted s := if_pos ha

theorem rawRow_free {h : HeldSlot} {row : Nat} (ha : s.ec.abortReq = false) :
    rawRow h row s = s.doJob (.rawRead h.entry row) (sourceReadReq .outputWriter
      (s.frame.fields.srcOffset + ((s.entryFields h.entry).ry + row) * s.frame.fields.srcPitch +
        6 * (s.entryFields h.entry).rx) (h.width * 6)) := if_neg (Bool.eq_false_iff.mp ha)

/-! ### Rounding and pixel bytes (R26, 10.8) -/

/-- R21, R26: a 12-bit value rounded to an output depth. -/
theorem quantRound_eq {depth : Nat} (hd : depth = 8 ∨ depth = 10 ∨ depth = 12) (v : Nat) : quantRound depth v =
    if depth = 12 then v else if depth = 8 then min ((v + 8) / 16) 255 else min ((v + 2) / 4) 1023 := by
  rcases hd with rfl | rfl | rfl <;> rfl

theorem sourceTexels_values (b : List Byte) (columns : Nat) :
    (sourceTexels b columns).map (fun t => (t.r, t.g, t.b)) = (List.range columns).map fun q =>
      (container b (3 * q), container b (3 * q + 1), container b (3 * q + 2)) := by
  unfold sourceTexels
  rw [List.map_map]
  rfl

/-- R80: a row's bytes from its columns. -/
theorem rowBytes_map (reverse : Bool) (depth : Nat) (l : List Nat) (g : Nat → Nat × Nat × Nat) :
    rowBytes reverse depth (l.map g) = (if reverse then l.reverse else l).flatMap fun q =>
      pixelBytes depth (g q).1 (g q).2.1 (g q).2.2 := by
  unfold rowBytes
  cases reverse
  · exact List.flatMap_map ..
  · rw [if_pos rfl, if_pos rfl, ← List.map_reverse]
    exact List.flatMap_map ..

/-- R127, R129: where a RAWCOPY row is written. -/
theorem rawWriteRow_offset (h : HeldSlot) (reverse : Bool) (row : Nat) (b : List Byte) :
    (rawWriteRow h reverse row b).offset =
      h.offset + (if reverse then h.height - 1 - row else row) * h.pitch := by
  have hlen : ((sourceTexels b h.width).map fun t => (t.r, t.g, t.b)).length = h.width := by simp [sourceTexels]
  unfold rawWriteRow derivedRow derivedOffset
  dsimp only
  rw [hlen]
  cases reverse
  · simp
  · simp

/-- R26, R129: the bytes of a RAWCOPY row. -/
theorem rawWriteRow_bytes {h : HeldSlot} (reverse : Bool) (row : Nat) (b : List Byte) :
    (rawWriteRow h reverse row b).bytes =
      (if reverse then (List.range h.width).reverse else List.range h.width).flatMap fun q =>
        pixelBytes h.depth (quantRound h.depth (container b (3 * q))) (quantRound h.depth (container b (3 * q + 1)))
          (quantRound h.depth (container b (3 * q + 2))) := by
  unfold rawWriteRow derivedRow
  dsimp only
  rw [sourceTexels_values, List.map_map, rowBytes_map]
  rfl

theorem workReport_rawRead {r : Request} {ok : Bool} {data : List Byte} {k row : Nat}
    (hw : s.work = some { job := .rawRead k row }) :
    workReport r ok data s = if ok then rawReadReport k row data s else s.endJob (.rawRead k row) false [] := by
  unfold workReport
  rw [hw]

theorem rawReadReport_held {k row : Nat} {h : HeldSlot} {data : List Byte} (hh : s.heldFor k = some h) :
    rawReadReport k row data s = s.doJob (.rawWrite k row) (rowWriteReq .derivedRowWrite
      (rawWriteRow h (decide (s.frame.fields.scan = 2)) row data).offset
      (rawWriteRow h (decide (s.frame.fields.scan = 2)) row data).bytes) := by
  unfold rawReadReport
  rw [hh]

/-- Settles O55: the ends by `rawRowWritten`, `derivedWriteFailed` and `slotEmptyEnded`, the answers by `workReport`. -/
theorem derivedWritesAndTheirFailures : Obligations.DerivedWritesAndTheirFailures := by
  unfold Obligations.DerivedWritesAndTheirFailures
  refine ⟨?_, ?_⟩
  · intro k row h data at_ s hp hh he faulted back
    refine ⟨fun hok => ⟨fun hw => ?_, fun hw => ?_⟩, fun hw => ?_, fun ok hw hok => ?_, fun ok hw hf => ?_⟩
    · rw [exec_rawcopyRowDone_write hw, if_neg Bool.false_ne_true]
      exact congrArg Host.Outcome.next (settle_derivedWriteFailed (s := s.setWork none) hp hh he hok)
    · rw [exec_derivedRowWriteDone hw, if_neg Bool.false_ne_true]
      exact congrArg Host.Outcome.next (settle_derivedWriteFailed (s := s.setWork none) hp hh he hok)
    · intro f d r
      rw [exec_rawcopyRowDone_write hw, if_pos rfl, rawRowWritten_eq (s := s.setWork none) hh]
      refine ⟨fun hlt ha hok => ?_, fun hlt ha => ?_, fun hle => ?_⟩
      · rw [if_pos hlt, rawRow_free (s := s.setWork none) ha, he]
        exact congrArg Host.Outcome.next (settle_doJob (s := s.setWork none) hp hok)
      · rw [if_pos hlt, rawRow_aborted (s := s.setWork none) ha]
        exact ⟨_, rfl, (faultsWith_work .aborted none s _).mp (faultsWith_settle (u := s.setWork none) hp)⟩
      · rw [if_neg (Nat.not_lt.mpr hle)]
        exact ⟨_, rfl, (copiesFrom_work (k + 1) none s _).mp (copiesFrom_settle (u := s.setWork none) hp)⟩
    · exact ⟨_, exec_rawcopyRowDone_read hw,
        (faultsWith_work .sourceRead none s _).mp (faultsWith_settle (u := s.setWork none) hp)⟩
    · have hrow := exec_slotEmptyWriteDone hw
      rw [slotEmptyEnded_clean (s := s.setWork none) hf] at hrow
      intro returned
      refine ⟨fun hk => ⟨fun r rs hrs hok => ?_, fun hnil => ?_⟩, fun hk => ?_⟩
      · rw [if_neg (by exact hk), nextDerivedRow_cons (s := (s.setWork none).slotReturned k ok) hrs] at hrow
        exact hrow.trans (congrArg Host.Outcome.next (settle_doJob (by exact hp) hok))
      · rw [if_neg (by exact hk), nextDerivedRow_nil (s := (s.setWork none).slotReturned k ok) hnil] at hrow
        exact ⟨_, hrow, tileEnds_settle (u := (s.setWork none).slotReturned k ok) hp⟩
      · rw [if_pos (by exact hk)] at hrow
        exact ⟨_, hrow, (copiesFrom_work (k + 1) none (s.slotReturned k ok) _).mp
          (copiesFrom_settle (u := (s.setWork none).slotReturned k ok) hp)⟩
  · intro k row h a others s hi hp hb hr u answers
    have hblock : a.req.block ≠ .engineController := by rw [hb]; decide
    refine ⟨fun bytes j hd hj hw => ?_, fun hd hw => ⟨fun ht hh hdepth => ?_, fun hx => ?_⟩⟩
    · refine exec_work_write hi hp hblock hd hr fun ok u hu => ?_
      unfold workReport
      rw [hu, hw]
      rcases hj with rfl | rfl | rfl <;> rfl
    · intro m b reverse component pixel columns write hok
      have hcomponent : ∀ i, quantRound h.depth (container b i) = component i := fun i => quantRound_eq hdepth _
      have hbytes : (rawWriteRow h reverse row b).bytes = columns.flatMap pixel := by
        rw [rawWriteRow_bytes]
        simp only [hcomponent]
        rfl
      have hwrite : rowWriteReq .derivedRowWrite (rawWriteRow h reverse row b).offset
          (rawWriteRow h reverse row b).bytes = write := by
        rw [hbytes, rawWriteRow_offset]
      refine (exec_work_read hi hp ht hblock hd).trans ?_
      rw [workReport_rawRead (by exact hw), if_pos rfl, rawReadReport_held (by exact hh)]
      show finish ((u m).doJob (.rawWrite k row) (rowWriteReq .derivedRowWrite (rawWriteRow h reverse row b).offset
        (rawWriteRow h reverse row b).bytes)) = _
      rw [hwrite]
      exact finish_freed_doJob hr hok
    · exact exec_work_read_exhausted hi hp hblock hd hr hx fun m => workReport_rawRead (by exact hw)

/-! ### Lists of equal rows -/

theorem length_flatMap_range {α : Type} {m n : Nat} {row : Nat → List α} (hlen : ∀ j, j < m → (row j).length = n) :
    ((List.range m).flatMap row).length = m * n := by
  induction m with
  | zero => simp
  | succ m ih =>
    rw [List.range_succ, List.flatMap_append, List.length_append, ih fun j hj => hlen j (Nat.lt_succ_of_lt hj),
      List.flatMap_singleton, hlen m (Nat.lt_succ_self m), Nat.succ_mul]

/-- An entry of rows of `n` entries each, set one after the other. -/
theorem getElem?_flatMap_range {α : Type} {m n j i : Nat} {row : Nat → List α}
    (hlen : ∀ j, j < m → (row j).length = n) (hj : j < m) (hi : i < n) :
    ((List.range m).flatMap row)[j * n + i]? = (row j)[i]? := by
  induction m with
  | zero => exact absurd hj (Nat.not_lt_zero j)
  | succ m ih =>
    have hlen' : ∀ j, j < m → (row j).length = n := fun j hj => hlen j (Nat.lt_succ_of_lt hj)
    rw [List.range_succ, List.flatMap_append, List.flatMap_singleton]
    rcases Nat.lt_succ_iff_lt_or_eq.mp hj with hlt | rfl
    · have hin : j * n + i < m * n := calc
        j * n + i < j * n + n := Nat.add_lt_add_left hi _
        _ = (j + 1) * n := (Nat.succ_mul j n).symm
        _ ≤ m * n := Nat.mul_le_mul_right n hlt
      rw [List.getElem?_append_left (by rw [length_flatMap_range hlen']; exact hin)]
      exact ih hlen' hlt
    · rw [List.getElem?_append_right (by rw [length_flatMap_range hlen']; exact Nat.le_add_right _ _),
        length_flatMap_range hlen', Nat.add_sub_cancel_left]

/-- One of those rows. -/
theorem take_drop_flatMap_range {α : Type} {m n j : Nat} {row : Nat → List α}
    (hlen : ∀ j, j < m → (row j).length = n) (hj : j < m) :
    (((List.range m).flatMap row).drop (j * n)).take n = row j := by
  refine List.ext_getElem? fun i => ?_
  rw [List.getElem?_take]
  split
  · next hi => rw [List.getElem?_drop, getElem?_flatMap_range hlen hj hi]
  · next hi => rw [List.getElem?_eq_none (by rw [hlen j hj]; exact Nat.le_of_not_lt hi)]

/-! ### The rows of a tile, spelled out (R79, R80, R125 to R127) -/

/-- The samples of one row of a rectangle within a tile. -/
def sampleRun (tile : Rect) (samples : List Sample) (x y len : Nat) : List Sample :=
  (samples.drop ((y - tile.top) * tile.width + (x - tile.left))).take len

theorem tileRowValues_eq (tile : Rect) (samples : List Sample) (y x len : Nat) :
    tileRowValues tile samples y x len = (sampleRun tile samples x y len).map fun p => (p.r, p.g, p.b) := rfl

theorem foldl_addTriple (l : List (Nat × Nat × Nat)) (a b c : Nat) : l.foldl addTriple (a, b, c) =
    (a + (l.map Prod.fst).sum, b + (l.map fun p => p.2.1).sum, c + (l.map fun p => p.2.2).sum) := by
  induction l generalizing a b c with
  | nil => simp
  | cons p l ih =>
    rw [List.foldl_cons]
    exact (ih _ _ _).trans (by simp [Nat.add_assoc])

/-- R125: the sum of one component over a block. -/
def blockTotal (get : Sample → Nat) (tile : Rect) (samples : List Sample) (n x y : Nat) : Nat :=
  ((List.range n).map fun b => ((sampleRun tile samples x (y + b) n).map get).sum).sum

theorem blockSum_eq (tile : Rect) (samples : List Sample) (n x y : Nat) : blockSum tile samples n x y =
    (blockTotal Sample.r tile samples n x y, blockTotal Sample.g tile samples n x y,
      blockTotal Sample.b tile samples n x y) := by
  unfold blockSum blockTotal
  simp only [tileRowValues_eq, foldl_addTriple, List.flatMap_def, List.map_flatten, List.sum_flatten, List.map_map,
    Function.comp_def, Nat.zero_add]

/-- R125: a PREVIEW's accumulator, block row after block row. -/
theorem length_previewRow (tile : Rect) (samples : List Sample) (n j : Nat) :
    ((List.range (blocksIn tile.left tile.width n)).map fun i =>
      blockSum tile samples n (tile.left + n * i) (tile.top + n * j)).length = blocksIn tile.left tile.width n := by
  simp

/-- R125: the accumulator that a running PREVIEW finds is its own. -/
theorem accum_found {tile : Rect} {samples : List Sample} {h : HeldSlot} (hm : h ∈ s.pools.heldSlots)
    (hk : (s.entryFields h.entry).kind = 1) :
    (((tileAccums s tile samples).find? fun a => a.entry = h.entry).map Accum.sums).getD [] =
      previewSums tile samples (s.entryFields h.entry).factor := by
  unfold tileAccums
  rw [List.find?_map]
  have hsome : (List.find? ((fun a : Accum => decide (a.entry = h.entry)) ∘ fun h : HeldSlot =>
      ({ entry := h.entry, sums := previewSums tile samples (s.entryFields h.entry).factor } : Accum))
      (s.pools.heldSlots.filter fun h => (s.entryFields h.entry).kind = 1)).isSome := by
    rw [List.find?_isSome]
    exact ⟨h, List.mem_filter.mpr ⟨hm, decide_eq_true hk⟩, decide_eq_true rfl⟩
  obtain ⟨g, hg⟩ := Option.isSome_iff_exists.mp hsome
  have hentry : g.entry = h.entry := by simpa using List.find?_some hg
  rw [hg]
  show previewSums tile samples (s.entryFields g.entry).factor = _
  rw [hentry]

/-- R125: the pixels of a PREVIEW row are the rounded means of its blocks. -/
theorem previewRows_eq (h : HeldSlot) (reverse : Bool) (n : Nat) (tile : Rect) (samples : List Sample) :
    previewRows h reverse n tile (previewSums tile samples n) =
      if blocksIn tile.left tile.width n = 0 then []
      else (List.range (blocksIn tile.top tile.height n)).map fun j =>
        derivedRow h reverse (tile.top / n + j) (tile.left / n) ((List.range (blocksIn tile.left tile.width n)).map
          fun i =>
            let x := tile.left + n * i
            let y := tile.top + n * j
            (blockMean n (blockTotal Sample.r tile samples n x y), blockMean n (blockTotal Sample.g tile samples n x y),
              blockMean n (blockTotal Sample.b tile samples n x y))) := by
  unfold previewRows
  refine if_congr Iff.rfl rfl (List.map_congr_left fun j hj => ?_)
  unfold previewSums
  rw [take_drop_flatMap_range (fun j _ => length_previewRow tile samples n j) (List.mem_range.mp hj), List.map_map]
  simp only [Function.comp_def, blockSum_eq]

/-- R80: the scan direction turns a row around under REVERSE. -/
theorem rowBytes_scan (scan depth : Nat) (px : List (Nat × Nat × Nat)) : rowBytes (decide (scan = 2)) depth px =
    (if scan = 2 then px.reverse else px).flatMap fun p => pixelBytes depth p.1 p.2.1 p.2.2 := by
  unfold rowBytes
  by_cases h : scan = 2 <;> simp [h]

/-- Settles O54: the rows by the equations above, their writes by `nextOutRow` and `nextDerivedRow`. -/
theorem tileRowsFollowInOrder : Obligations.TileRowsFollowInOrder := by
  unfold Obligations.TileRowsFollowInOrder
  refine ⟨?_, ?_⟩
  · intro s tile q samples f bpp pixel row rounded part run across down sum mean image
    have hrow : ∀ depth px, rowBytes (decide (f.scan = 2)) depth px = row depth px :=
      fun depth px => rowBytes_scan f.scan depth px
    have hpart : ∀ (h : HeldSlot) (b left : Nat) (px : List (Nat × Nat × Nat)),
        (h.depth = 8 ∨ h.depth = 10 ∨ h.depth = 12) →
        derivedRow h (decide (f.scan = 2)) b left px = part h b left px := by
      intro h b left px hd
      have hround : roundPixel h.depth = fun p => (rounded h.depth p.1, rounded h.depth p.2.1, rounded h.depth p.2.2) := by
        funext p
        unfold roundPixel
        rw [quantRound_eq hd, quantRound_eq hd, quantRound_eq hd]
      unfold derivedRow derivedOffset
      rw [hround, hrow]
      by_cases hs : f.scan = 2 <;> simp [hs, part, bpp, bytesPerPixel]
    refine ⟨?_, ?_, fun hdepth => ?_⟩
    · unfold outputRows
      refine List.map_congr_left fun j _ => ?_
      rw [hrow]
      rfl
    · unfold tileAccums previewSums
      simp only [blockSum_eq]
      rfl
    · unfold tileDerivedRows
      refine List.flatMap_congr fun h hm => ?_
      dsimp only
      by_cases h1 : (s.entryFields h.entry).kind = 1
      · rw [if_pos h1, if_pos h1, accum_found hm h1, previewRows_eq]
        refine if_congr Iff.rfl rfl (List.map_congr_left fun j _ => ?_)
        exact hpart h _ _ _ (hdepth h hm)
      · rw [if_neg h1, if_neg h1]
        by_cases h2 : (s.entryFields h.entry).kind = 2
        · rw [if_pos h2]
          unfold cropRows
          dsimp only
          refine if_congr (and_iff_right h2).symm (List.map_congr_left fun j _ => ?_) rfl
          exact hpart h _ _ _ (hdepth h hm)
        · rw [if_neg h2, if_neg fun hx => h2 hx.1]
  · intro k d ds data at_ s hp
    refine ⟨fun hw => ⟨fun r rs hrs hok => ?_, fun hout hder => ?_⟩, fun hw => ?_, fun hw hder => ?_, fun hok hder =>
      ⟨fun hw hout => ?_, fun hw => ?_⟩⟩
    · rw [exec_outputRowWriteDone hw, if_pos rfl, nextOutRow_cons (s := s.setWork none) hrs]
      exact congrArg Host.Outcome.next (settle_doJob (by exact hp) hok)
    · rw [exec_outputRowWriteDone hw, if_pos rfl, nextOutRow_nil (s := s.setWork none) hout,
        nextDerivedRow_nil (s := s.setWork none) hder]
      exact ⟨_, rfl, tileEnds_settle (u := s.setWork none) hp⟩
    · rw [exec_outputRowWriteDone hw, if_neg Bool.false_ne_true]
      exact ⟨_, rfl, (faultsWith_work .outputWrite none s _).mp (faultsWith_settle (u := s.setWork none) hp)⟩
    · rw [exec_derivedRowWriteDone hw, if_pos rfl, nextDerivedRow_nil (s := s.setWork none) hder]
      exact ⟨_, rfl, tileEnds_settle (u := s.setWork none) hp⟩
    · rw [exec_outputRowWriteDone hw, if_pos rfl, nextOutRow_nil (s := s.setWork none) hout,
        nextDerivedRow_cons (s := s.setWork none) hder]
      exact congrArg Host.Outcome.next (settle_doJob (by exact hp) hok)
    · rw [exec_derivedRowWriteDone hw, if_pos rfl, nextDerivedRow_cons (s := s.setWork none) hder]
      exact congrArg Host.Outcome.next (settle_doJob (by exact hp) hok)

end Sys2Proof.Machine
end

