-- ==== Sys2Proof/Proofs/Sampling.lean ====
section
/-! PROOFS. The box of a part, the stores of a tile, sampling and quantization, and the source rows (O53). -/

namespace Sys2Proof.Machine

variable {s : State} {a : Access} {others : List Host.Cell}

/-! ### The box of a part (R69) -/

/-- `b` is the smallest box that holds what the positions touch. -/
structure Encloses (b : Bounds) (l : List Pos) : Prop where
  inside : ∀ q, q ∈ l →
    b.x0 ≤ (posBounds q).x0 ∧ (posBounds q).x1 ≤ b.x1 ∧ b.y0 ≤ (posBounds q).y0 ∧ (posBounds q).y1 ≤ b.y1
  left : ∃ q, q ∈ l ∧ (posBounds q).x0 = b.x0
  right : ∃ q, q ∈ l ∧ (posBounds q).x1 = b.x1
  top : ∃ q, q ∈ l ∧ (posBounds q).y0 = b.y0
  bottom : ∃ q, q ∈ l ∧ (posBounds q).y1 = b.y1

theorem encloses_singleton (q : Pos) : Encloses (posBounds q) [q] where
  inside := by
    intro x hx
    rw [List.mem_singleton.mp hx]
    exact ⟨le_refl _, le_refl _, le_refl _, le_refl _⟩
  left := ⟨q, List.mem_singleton_self q, rfl⟩
  right := ⟨q, List.mem_singleton_self q, rfl⟩
  top := ⟨q, List.mem_singleton_self q, rfl⟩
  bottom := ⟨q, List.mem_singleton_self q, rfl⟩

/-- Of two numbers, each taken on by a position, the chosen one is taken on too. -/
theorem exists_cons_of_choice {l : List Pos} {q : Pos} {v : Pos → Nat} {old new : Nat} (ho : ∃ x, x ∈ l ∧ v x = old)
    (hn : new = old ∨ new = v q) : ∃ x, x ∈ q :: l ∧ v x = new := by
  obtain ⟨x, hx, hv⟩ := ho
  rcases hn with h | h
  · exact ⟨x, List.mem_cons_of_mem q hx, hv.trans h.symm⟩
  · exact ⟨q, List.mem_cons_self, h.symm⟩

theorem encloses_join {b : Bounds} {l : List Pos} {q : Pos} (h : Encloses b l) :
    Encloses (b.join (posBounds q)) (q :: l) where
  inside := by
    intro x hx
    show min _ _ ≤ _ ∧ _ ≤ max _ _ ∧ min _ _ ≤ _ ∧ _ ≤ max _ _
    rcases List.mem_cons.mp hx with rfl | hx
    · omega
    · obtain ⟨h1, h2, h3, h4⟩ := h.inside x hx
      omega
  left := exists_cons_of_choice (v := fun x => (posBounds x).x0) h.left (min_choice _ _)
  right := exists_cons_of_choice (v := fun x => (posBounds x).x1) h.right (max_choice _ _)
  top := exists_cons_of_choice (v := fun x => (posBounds x).y0) h.top (min_choice _ _)
  bottom := exists_cons_of_choice (v := fun x => (posBounds x).y1) h.bottom (max_choice _ _)

theorem encloses_of_mem {b : Bounds} {l m : List Pos} (h : Encloses b l) (hm : ∀ x, x ∈ l ↔ x ∈ m) : Encloses b m where
  inside := fun q hq => h.inside q ((hm q).mpr hq)
  left := let ⟨q, hq, e⟩ := h.left; ⟨q, (hm q).mp hq, e⟩
  right := let ⟨q, hq, e⟩ := h.right; ⟨q, (hm q).mp hq, e⟩
  top := let ⟨q, hq, e⟩ := h.top; ⟨q, (hm q).mp hq, e⟩
  bottom := let ⟨q, hq, e⟩ := h.bottom; ⟨q, (hm q).mp hq, e⟩

theorem foldl_growBounds_encloses (l : List Pos) : ∀ (b : Bounds) (done : List Pos), Encloses b done →
    ∃ c, l.foldl growBounds (some b) = some c ∧ Encloses c (l ++ done) := by
  induction l with
  | nil => exact fun b done h => ⟨b, rfl, h⟩
  | cons q l ih =>
    intro b done h
    obtain ⟨c, hc, he⟩ := ih _ _ (encloses_join (q := q) h)
    refine ⟨c, hc, encloses_of_mem he fun x => ?_⟩
    simp only [List.mem_append, List.mem_cons]
    tauto

/-- R69: the bounds of positions that are there. -/
theorem foldl_growBounds {l : List Pos} (h : l ≠ []) : ∃ b, l.foldl growBounds none = some b ∧ Encloses b l := by
  obtain ⟨q, l, rfl⟩ := List.exists_cons_of_ne_nil h
  obtain ⟨b, hb, he⟩ := foldl_growBounds_encloses l (posBounds q) [q] (encloses_singleton q)
  refine ⟨b, hb, encloses_of_mem he fun x => ?_⟩
  simp only [List.mem_append, List.mem_cons, List.not_mem_nil, or_false]
  tauto

/-- R69: what a position touches, in the rule's terms. -/
theorem posBounds_eq (q : Pos) : posBounds q =
    { x0 := (q.xs / 16).toNat, y0 := (q.ys / 16).toNat
      x1 := if q.xs % 16 = 0 then (q.xs / 16).toNat else (q.xs / 16).toNat + 1
      y1 := if q.ys % 16 = 0 then (q.ys / 16).toNat else (q.ys / 16).toNat + 1 } := by
  have hfrac : ∀ v : Int, fracPart v = 0 ↔ v % 16 = 0 := by
    intro v
    unfold fracPart
    omega
  unfold posBounds wholePart
  simp only [hfrac]

theorem posBounds_le (q : Pos) : (posBounds q).x0 ≤ (posBounds q).x1 ∧ (posBounds q).y0 ≤ (posBounds q).y1 := by
  unfold posBounds
  dsimp only
  constructor <;> split <;> omega

theorem footprint_nil {px : List PixelPos} (h : px.flatMap pixelPositions = []) : footprint px = {} := by
  unfold footprint
  rw [h]
  rfl

/-- R69: the footprint of positions that are kept. -/
theorem footprint_encloses {px : List PixelPos} (h : px.flatMap pixelPositions ≠ []) :
    ∃ b, Encloses b (px.flatMap pixelPositions) ∧
      footprint px = { x := b.x0, y := b.y0, width := b.x1 - b.x0 + 1, height := b.y1 - b.y0 + 1 } := by
  obtain ⟨b, hb, he⟩ := foldl_growBounds h
  refine ⟨b, he, ?_⟩
  unfold footprint
  rw [hb]

/-! ### The tile and its stores (R67, R76) -/

theorem length_pixelRow (r : Rect) (j : Nat) :
    ((List.range r.width).map fun i => (r.left + i, r.top + j)).length = r.width := by simp

theorem length_pixels (r : Rect) : r.pixels.length = r.width * r.height := by
  unfold Rect.pixels
  rw [length_flatMap_range fun j _ => length_pixelRow r j, Nat.mul_comm]

/-- The pixel of a rectangle at a column and a row. -/
theorem getElem?_pixels {r : Rect} {x y : Nat} (hx : x < r.width) (hy : y < r.height) :
    r.pixels[y * r.width + x]? = some (r.left + x, r.top + y) := by
  unfold Rect.pixels
  rw [getElem?_flatMap_range (fun j _ => length_pixelRow r j) hy hx]
  simp [hx]

/-- A row of a part lies within the store of its tile. -/
theorem partRow_le {w h pw dl row : Nat} (hcol : dl + pw ≤ w) (hrow : row < h) : row * w + dl + pw ≤ w * h := calc
  row * w + dl + pw ≤ row * w + w := by omega
  _ = (row + 1) * w := (Nat.succ_mul row w).symm
  _ ≤ h * w := Nat.mul_le_mul_right w hrow
  _ = w * h := Nat.mul_comm h w

section
variable {tile part : Rect} {α : Type} {store : List α}

theorem length_sliceRow (hlen : store.length = tile.width * tile.height) (hl : tile.left ≤ part.left)
    (hr : part.left + part.width ≤ tile.left + tile.width) (ht : tile.top ≤ part.top)
    (hb : part.top + part.height ≤ tile.top + tile.height) :
    ∀ j, j < part.height →
      ((store.drop ((part.top - tile.top + j) * tile.width + (part.left - tile.left))).take part.width).length =
        part.width := by
  intro j hj
  have hin := partRow_le (w := tile.width) (h := tile.height) (pw := part.width) (dl := part.left - tile.left)
    (row := part.top - tile.top + j) (by omega) (by omega)
  rw [List.length_take, List.length_drop, hlen]
  omega

/-- R76: what a sub-tile takes of a store of its tile. -/
theorem getElem?_rectSlice (hlen : store.length = tile.width * tile.height) (hl : tile.left ≤ part.left)
    (hr : part.left + part.width ≤ tile.left + tile.width) (ht : tile.top ≤ part.top)
    (hb : part.top + part.height ≤ tile.top + tile.height) {x y : Nat} (hx : x < part.width) (hy : y < part.height) :
    (rectSlice tile part store)[y * part.width + x]? =
      store[(part.top - tile.top + y) * tile.width + (part.left - tile.left + x)]? := by
  unfold rectSlice
  rw [getElem?_flatMap_range (length_sliceRow hlen hl hr ht hb) hy hx, List.getElem?_take, if_pos hx,
    List.getElem?_drop, Nat.add_assoc]

theorem length_rectSlice (hlen : store.length = tile.width * tile.height) (hl : tile.left ≤ part.left)
    (hr : part.left + part.width ≤ tile.left + tile.width) (ht : tile.top ≤ part.top)
    (hb : part.top + part.height ≤ tile.top + tile.height) :
    (rectSlice tile part store).length = part.width * part.height := by
  unfold rectSlice
  rw [length_flatMap_range (length_sliceRow hlen hl hr ht hb), Nat.mul_comm]

end

/-- R76: the samples of a part replace those of its own pixels. -/
theorem getElem?_putSamples {tile part : Rect} {store : List Sample} {positions : List PixelPos}
    {sample : PixelPos → Sample} (hp : positions.length = tile.width * tile.height)
    (hs : store.length = tile.width * tile.height) {x y : Nat} (hx : x < tile.width) (hy : y < tile.height) :
    (putSamples tile part store (List.map sample) positions)[y * tile.width + x]? =
      if part.has (tile.left + x) (tile.top + y) then (positions[y * tile.width + x]?).map sample
      else store[y * tile.width + x]? := by
  have hin : y * tile.width + x < tile.width * tile.height := by
    have := partRow_le (w := tile.width) (h := tile.height) (pw := 1) (dl := x) (row := y) hx hy
    omega
  obtain ⟨p, hget⟩ : ∃ p, positions[y * tile.width + x]? = some p := ⟨_, List.getElem?_eq_getElem (by omega)⟩
  obtain ⟨q, hstore⟩ : ∃ q, store[y * tile.width + x]? = some q := ⟨_, List.getElem?_eq_getElem (by omega)⟩
  have hzip : ((store.zip (positions.map sample)).zip tile.pixels)[y * tile.width + x]? =
      some ((q, sample p), (tile.left + x, tile.top + y)) :=
    List.getElem?_zip_eq_some.mpr ⟨List.getElem?_zip_eq_some.mpr
      ⟨hstore, by rw [List.getElem?_map, hget]; rfl⟩, getElem?_pixels hx hy⟩
  unfold putSamples
  rw [List.getElem?_map, hzip, hget, hstore]
  show some (if part.has (tile.left + x) (tile.top + y) then sample p else q) = _
  split <;> rfl

/-! ### Quantization under DITHER (R22, R23, R25) -/

theorem ditherPixels_state (depth : Nat) (px : List Sample) : ∀ x : Word,
    (ditherPixels depth x px).1 = ditherStep^[3 * px.length] x ∧ (ditherPixels depth x px).2.length = px.length := by
  induction px with
  | nil => exact fun x => ⟨rfl, rfl⟩
  | cons p px ih =>
    intro x
    obtain ⟨h1, h2⟩ := ih (ditherStep^[3] x)
    refine ⟨?_, congrArg (· + 1) h2⟩
    rw [List.length_cons, Nat.mul_succ, Function.iterate_add_apply]
    exact h1

/-- R22: pixel `i` is quantized with the generator's outputs `3 i + 1` to `3 i + 3`. -/
theorem ditherPixels_get (depth : Nat) (px : List Sample) : ∀ (x : Word) (i : Nat) (p : Sample), px[i]? = some p →
    (ditherPixels depth x px).2[i]? = some (quantDither depth p.r (ditherStep^[3 * i + 1] x),
      quantDither depth p.g (ditherStep^[3 * i + 2] x), quantDither depth p.b (ditherStep^[3 * i + 3] x)) := by
  induction px with
  | nil => exact fun x i p h => absurd h (by simp)
  | cons q px ih =>
    intro x i p h
    cases i with
    | zero =>
      obtain rfl : q = p := Option.some.inj h
      rfl
    | succ i =>
      have hstep : ∀ k, ditherStep^[3 * (i + 1) + k] x = ditherStep^[3 * i + k] (ditherStep^[3] x) := by
        intro k
        rw [← Function.iterate_add_apply]
        congr 1
        omega
      rw [hstep, hstep, hstep]
      exact ih (ditherStep^[3] x) i p h

/-- R22: the low bits dropped at depths 8 and 10. -/
theorem quantDither_eq {depth : Nat} (hd : depth = 8 ∨ depth = 10) (v : Nat) (g : Word) : quantDither depth v g =
    if depth = 8 then min ((v + g.toNat % 16) / 16) 255 else min ((v + g.toNat % 4) / 4) 1023 := by
  rcases hd with rfl | rfl <;> rfl

/-! ### Sampling (R16, R18, R19, R73, R76) -/

theorem samplePixel_filled {v : Serving} {buf : FootprintBuffer} {f : FrameFields} {p : PixelPos}
    (h : p.fill = true) : samplePixel v buf f p = { r := f.fillR, g := f.fillG, b := f.fillB, overMark := false } :=
  if_pos h

theorem overspanMoved_filled {v : Serving} {p : PixelPos} (h : p.fill = true) : overspanMoved v p = false := by
  unfold overspanMoved
  rw [h, Bool.not_true, Bool.and_false, Bool.false_and]

/-- R73: a pixel counts when the box moved one of its positions. -/
theorem overspanMoved_iff {v : Serving} {p : PixelPos} (h : p.fill = false) :
    overspanMoved v p = true ↔ v.pos p.r ≠ p.r ∨ v.pos p.g ≠ p.g ∨ v.pos p.b ≠ p.b := by
  unfold overspanMoved
  rw [h]
  cases ho : v.overspan
  · have hpos : ∀ q, v.pos q = q := by
      intro q
      unfold Serving.pos
      rw [ho]
      exact if_neg Bool.false_ne_true
    simp [hpos]
  · simp [or_assoc]

/-! ### The source rows of a sub-tile (R72, R74, R75) -/

theorem exec_subtileRowsReadDone {row : Nat} {ok : Bool} {at_ : Word} {data : List Byte}
    (hw : s.work = some { job := .rows row, ended := true, ok := ok, data := data, endedAt := at_ }) :
    exec .subtileRowsReadDone s = finish (rowsEnded ok (s.setWork none)) := by
  show execSubtileRowsReadDone s = _
  unfold execSubtileRowsReadDone
  rw [hw]

theorem rowsEnded_served {v : Serving} (h : s.tile.serving = some v) : rowsEnded true s =
    if s.ec.abortReq && !s.tile.subTiles.isEmpty then faultFrame .aborted (s.sampled v) else judgeTile (s.sampled v) := by
  unfold rowsEnded
  rw [h]
  rfl

/-- R78: a tile with no sub-tile left is quantized. -/
theorem judgeTile_finished (h : s.tile.subTiles = []) : judgeTile s = finishTile s := by
  unfold judgeTile judgeFuel judgeSubTiles
  rw [h]

theorem workReport_rows {r : Request} {ok : Bool} {data : List Byte} {row : Nat}
    (hw : s.work = some { job := .rows row }) :
    workReport r ok data s = if ok then rowsReport row data s else s.endJob (.rows row) false [] := by
  unfold workReport
  rw [hw]

theorem rowsReport_served {row : Nat} {data : List Byte} {v : Serving} (h : s.tile.serving = some v) :
    rowsReport row data s =
      let u := s.mapTile fun t => { t with buffer := t.buffer.putRow row (sourceTexels data v.box.width) }
      if row + 1 < v.box.height then readBoxRow v (row + 1) u else u.endJob (.rows row) true [] := by
  unfold rowsReport
  rw [h]

/-- R74: the containers of a row, with their overrange marks. -/
theorem sourceTexels_eq (b : List Byte) (columns : Nat) : sourceTexels b columns = (List.range columns).map fun q =>
    ({ r := min (field b (6 * q) 2) 4095, g := min (field b (6 * q + 2) 2) 4095, b := min (field b (6 * q + 4) 2) 4095
       rOver := decide (4095 < field b (6 * q) 2), gOver := decide (4095 < field b (6 * q + 2) 2)
       bOver := decide (4095 < field b (6 * q + 4) 2) } : Texel) := by
  unfold sourceTexels container
  refine List.map_congr_left fun q _ => ?_
  rw [show 2 * (3 * q) = 6 * q by omega, show 2 * (3 * q + 1) = 6 * q + 2 by omega,
    show 2 * (3 * q + 2) = 6 * q + 4 by omega]

/-- Settles O53: the footprint by its fold, the stores by their rows, the quantization and the sampling by their
equations, and the rows' end and answers by `judgeTile` and `rowsReport`. -/
theorem sampledTileIsWritten : Obligations.SampledTileIsWritten := by
  unfold Obligations.SampledTileIsWritten
  refine ⟨?_, ?_, ?_, ?_, ?_, ?_⟩
  · intro px kept left top right bottom b
    refine ⟨fun hk => footprint_nil hk, fun hk => ?_⟩
    obtain ⟨c, hc, hb⟩ := footprint_encloses hk
    have hx : b.x = c.x0 := congrArg Box.x hb
    have hy : b.y = c.y0 := congrArg Box.y hb
    have hwidth : b.width = c.x1 - c.x0 + 1 := congrArg Box.width hb
    have hheight : b.height = c.y1 - c.y0 + 1 := congrArg Box.height hb
    have hq : ∀ q, posBounds q = { x0 := left q, y0 := top q, x1 := right q, y1 := bottom q } := posBounds_eq
    have hin : ∀ q, q ∈ kept → c.x0 ≤ left q ∧ left q ≤ right q ∧ right q ≤ c.x1 ∧
        c.y0 ≤ top q ∧ top q ≤ bottom q ∧ bottom q ≤ c.y1 := by
      intro q hm
      obtain ⟨h1, h2, h3, h4⟩ := hc.inside q hm
      obtain ⟨h5, h6⟩ := posBounds_le q
      rw [hq] at h1 h2 h3 h4 h5 h6
      exact ⟨h1, h5, h2, h3, h6, h4⟩
    obtain ⟨ql, hql, hleft⟩ := hc.left
    obtain ⟨qr, hqr, hright⟩ := hc.right
    obtain ⟨qt, hqt, htop⟩ := hc.top
    obtain ⟨qb, hqb, hbottom⟩ := hc.bottom
    rw [hq] at hleft hright htop hbottom
    refine ⟨fun q hm => ?_, ⟨ql, hql, hleft.trans hx.symm⟩, ⟨qr, hqr, ?_⟩, ⟨qt, hqt, htop.trans hy.symm⟩,
      ⟨qb, hqb, ?_⟩⟩
    · have := hin q hm
      omega
    · have := hin qr hqr
      have hr : right qr = c.x1 := hright
      omega
    · have := hin qb hqb
      have hb : bottom qb = c.y1 := hbottom
      omega
  · intro s part positions store sample f tile
    refine ⟨rfl, fun x y hx hy => getElem?_pixels hx hy, length_pixels tile, fun hp hs hl hr ht hb =>
      ⟨length_rectSlice hp hl hr ht hb, fun x y hx hy => getElem?_rectSlice hp hl hr ht hb hx hy,
        fun x y hx hy => ?_⟩⟩
    intro i
    refine (getElem?_putSamples hp hs hx hy).trans (if_congr ?_ rfl rfl)
    exact decide_eq_true_iff
  · intro f x px next low rounded q hd
    refine ⟨fun hplain => ?_, fun hdither h12 => ?_⟩
    · have hnot : ¬(f.dither = 2 ∧ f.depth ≠ 12) := by
        rintro ⟨h1, h2⟩
        exact hplain.elim (fun h => h h1) h2
      have hround : ∀ v, quantRound f.depth v = rounded v := quantRound_eq hd
      show quantizeTile f x px = _
      unfold quantizeTile
      rw [if_neg hnot]
      simp only [hround]
    · have hlow : ∀ v n, quantDither f.depth v n = low v n.toNat :=
        quantDither_eq (hd.imp_right fun h => h.resolve_right h12)
      have hq : q = ditherPixels f.depth x px := if_pos ⟨hdither, h12⟩
      rw [hq]
      obtain ⟨hstate, hlen⟩ := ditherPixels_state f.depth px x
      refine ⟨hstate, hlen, fun i p hi => ?_⟩
      rw [ditherPixels_get f.depth px x i p hi, hlow, hlow, hlow]
      rfl
  · intro v buf f p held moved texel sampled r g b
    refine ⟨fun hf => ⟨overspanMoved_filled hf, samplePixel_filled hf⟩, fun hf => ⟨?_, ?_⟩⟩
    · exact overspanMoved_iff hf
    · exact if_neg (Bool.eq_false_iff.mp hf)
  · intro row v ok data at_ s hp hw
    have hrow := exec_subtileRowsReadDone hw
    refine ⟨fun hok hv => ?_, fun hok => ?_⟩
    · subst hok
      intro u
      rw [rowsEnded_served (s := s.setWork none) hv] at hrow
      refine ⟨_, hrow, fun hnil r rest hrest hacc => ?_, fun hne => ⟨fun ha => ?_, fun ha hh => ?_⟩⟩
      · rw [if_neg (by rw [show (s.setWork none).tile.subTiles = [] from hnil]; simp),
          judgeTile_finished (s := (s.setWork none).sampled v) hnil,
          finishTile_eq (u := (s.setWork none).sampled v) hrest]
        exact settle_doJob (by exact hp) hacc
      · rw [if_pos (by rw [show (s.setWork none).ec.abortReq = true from ha]; simpa using hne)]
        exact (faultsWith_work .aborted none u _).mp (faultsWith_settle (u := (s.setWork none).sampled v) hp)
      · rw [if_neg (by rw [show (s.setWork none).ec.abortReq = false from ha]; simp)]
        exact subTilesGoOn_settle _ ((s.setWork none).sampled v) hp hh (judgings_lt_fuel _)
    · subst hok
      exact ⟨_, hrow, (faultsWith_work .sourceRead none s _).mp (faultsWith_settle (u := s.setWork none) hp)⟩
  · intro row v a others s hi hp hb hd hr hw m b texels u f r lost
    have hblock : a.req.block ≠ .engineController := by rw [hb]; decide
    have hread : s.OnTime → s.tile.serving = some v → exec (.memoryAttemptAnswer .succeeded others) s =
        finish (if row + 1 < v.box.height then readBoxRow v (row + 1) u else u.endJob (.rows row) true []) := by
      intro ht hv
      have htexels : sourceTexels b v.box.width = texels := sourceTexels_eq b v.box.width
      rw [exec_work_read hi hp ht hblock hd, workReport_rows (by exact hw), if_pos rfl, rowsReport_served (by exact hv),
        htexels]
      rfl
    refine ⟨fun ht hv => ⟨fun hlt hok => ?_, fun hle => ?_⟩, fun hx => ?_⟩
    · rw [hread ht hv, if_pos hlt]
      exact finish_freed_doJob (by exact hr) hok
    · rw [hread ht hv, if_neg (Nat.not_lt.mpr hle)]
      exact finish_ended hr
    · exact exec_work_read_exhausted hi hp hblock hd hr hx fun m => workReport_rows (by exact hw)

end Sys2Proof.Machine
end

