-- ==== Sys2Proof/Proofs/TableBuild.lean ====
section
/-! PROOFS. The table build, and what the start of the pass leaves as it was (O52). -/

namespace Sys2Proof.Machine

variable {s t u : State}

/-! ### What a refused access, and the judging of sub-tiles, leave as they were -/

/-- What of a state a refused access and the judging of sub-tiles leave as it was. -/
structure PassPart where
  tables : Tables
  dram : List Host.Cell
  lens : LensUnit
  reg : RegisterInterface
  row : Nat
  col : Nat
  positions : List PixelPos
  outOfFrame : Nat
  fault : Option FaultCode

def State.passPart (s : State) : PassPart where
  tables := s.tables
  dram := s.dram
  lens := s.lens
  reg := s.reg
  row := s.tile.row
  col := s.tile.col
  positions := s.tile.positions
  outOfFrame := s.tile.outOfFrame
  fault := s.chain.flight.fault

@[simp] theorem passPart_mapEc (f : Controller → Controller) (u : State) : (u.mapEc f).passPart = u.passPart := rfl

@[simp] theorem passPart_mapPort (f : Port → Port) (u : State) : (u.mapPort f).passPart = u.passPart := rfl

@[simp] theorem passPart_setWork (w : Option Work) (u : State) : (u.setWork w).passPart = u.passPart := rfl

@[simp] theorem passPart_doJob (j : Job) (r : Request) (u : State) : (u.doJob j r).passPart = u.passPart := rfl

@[simp] theorem passPart_kick (u : State) : (kick u).passPart = u.passPart := by
  unfold kick
  split <;> rfl

@[simp] theorem passPart_requestStatus (w : StatusWrite) (u : State) : (requestStatus w u).passPart = u.passPart := by
  unfold requestStatus
  simp

@[simp] theorem passPart_requestConfig (w : ConfigWhy) (u : State) : (requestConfig w u).passPart = u.passPart := by
  unfold requestConfig
  simp

@[simp] theorem passPart_clearAssembly (u : State) : (clearAssembly u).passPart = u.passPart := rfl

@[simp] theorem passPart_enterStopped (u : State) : (enterStopped u).passPart = u.passPart := by
  unfold enterStopped
  rw [passPart_requestStatus]
  rfl

@[simp] theorem passPart_beginLook (u : State) : (beginLook u).passPart = u.passPart := by
  unfold beginLook
  split
  · rfl
  · split <;> rfl

@[simp] theorem passPart_endLook (moved : Bool) (u : State) : (endLook moved u).passPart = u.passPart := by
  unfold endLook
  dsimp only
  split
  · split <;> simp
  · simp

theorem passPart_abandonedReport (k : Option RecordKind) (ok : Bool) (u : State) :
    (abandonedReport k ok u).passPart = u.passPart := by
  unfold abandonedReport
  dsimp only
  split
  · split
    · simp
    · split <;> simp
  · simp

theorem passPart_retireReport (r : Request) (todo : List Request) (failed ok : Bool) (u : State) :
    (retireReport r todo failed ok u).passPart = u.passPart := by
  unfold retireReport
  cases todo <;> rfl

theorem passPart_ecReport (data : List Byte) (u : State) : (ecReport false data u).passPart = u.passPart := by
  unfold ecReport
  split <;> rfl

/-- A refused access ends the job that asked for it, or leads to the next of a retirement. -/
theorem passPart_workReport (r : Request) (data : List Byte) (u : State) :
    (workReport r false data u).passPart = u.passPart := by
  unfold workReport
  cases u.work with
  | none => rfl
  | some w =>
    dsimp only
    cases w.job with
    | retire todo failed => exact passPart_retireReport r todo failed false u
    | abandoned k => exact passPart_abandonedReport k false u
    | _ => exact passPart_setWork _ u

theorem passPart_report (r : Request) (data : List Byte) (u : State) : (report r false data u).passPart = u.passPart := by
  unfold report
  split
  · exact passPart_ecReport data u
  · exact passPart_workReport r data u

theorem passPart_pump (fuel : Nat) : ∀ u : State, (pump fuel u).passPart = u.passPart := by
  induction fuel with
  | zero => exact fun u => rfl
  | succ fuel ih =>
    intro u
    unfold pump
    split
    · next r rest _ _ =>
      dsimp only
      split
      · rfl
      · exact (ih _).trans (passPart_report r [] _)
    · rfl

/-- What the Port takes up changes nothing of the pass. -/
theorem passPart_settle (u : State) : (settle u).passPart = u.passPart := passPart_pump _ u

/-! ### The first tile of the pass -/

theorem passPart_retire (u : State) : (retire u).passPart = u.passPart := by
  unfold retire
  rw [measure_eq]
  rfl

/-- R130: a fault of the frame changes nothing of the pass but the fault itself. -/
theorem passPart_returnNext (u : State) : (returnNext u).passPart = u.passPart := by
  unfold returnNext
  split
  · rfl
  · exact passPart_retire u

theorem passPart_faultFrame (code : FaultCode) (u : State) :
    (faultFrame code u).passPart = { u.passPart with fault := some code } := passPart_returnNext _

theorem passPart_finishTile (u : State) : (finishTile u).passPart = u.passPart := by
  unfold finishTile writeOutRow
  dsimp only
  split <;> rfl

theorem abortBetween_free (ha : s.ec.abortReq = false) : ¬abortBetween s = true := by
  unfold abortBetween
  rw [ha]
  exact Bool.false_ne_true

/-- R70 to R73: with no ABORT asked for, the judging of sub-tiles changes nothing of the tile's own. -/
theorem passPart_judgeSubTiles (fuel : Nat) :
    ∀ u : State, u.ec.abortReq = false → (judgeSubTiles fuel u).passPart = u.passPart := by
  induction fuel with
  | zero => exact fun u _ => rfl
  | succ fuel ih =>
    intro u ha
    unfold judgeSubTiles
    split
    · exact passPart_finishTile u
    · dsimp only
      split
      · split
        · rw [if_neg (abortBetween_free (by exact ha))]
          exact ih _ ha
        · rfl
      · exact ih _ ha

/-! ### The tables, spelled out (R5 to R9) -/

theorem clampInt_eq {lo hi : Int} (h : lo ≤ hi) (v : Int) : clampInt lo hi v = max lo (min hi v) := by
  unfold clampInt
  split
  · omega
  · split <;> omega

theorem map_tableIndexes (g : Int → Int) : tableIndexes.map g = (List.range 129).map fun i => g i := by
  unfold tableIndexes
  rw [List.map_map]
  rfl

/-- R8: at strength 0 every entry is 65536. -/
theorem greenEntry_zero (c : Coeffs) (i : Int) : greenEntry c 0 i = 65536 := by
  unfold greenEntry
  rw [Int.mul_zero]
  decide

theorem tintEntry_zero (a b i : Int) : tintEntry 65536 a b 0 i = 65536 := by
  unfold tintEntry
  rw [Int.mul_zero]
  decide

theorem exec_tableBuildDone (hi : s.chain.flight.inFlight = true) (hb : s.chain.flight.building = true) :
    exec .tableBuildDone s = finish (buildEnded s) := by
  show execTableBuildDone s = _
  unfold execTableBuildDone
  rw [hi, hb]
  rfl

/-- The tables and the centre of a frame, spelled out. -/
theorem buildTables_eq (c : Coeffs) (strength : Nat) (cfg : ConfigCopy) (f : FrameFields) :
    let held (v : Int) : Int := max 32768 (min 131071 v)
    let raw (i : Int) : Int := 65536 + rndDiv (c.k1 * i * 4096 + c.k2 * i ^ 2 * 64 + c.k3 * i ^ 3) 4194304
    let green (i : Int) : Int := held (65536 + rndDiv ((raw i - 65536) * strength) 256)
    let tint (a b i : Int) : Int :=
      held (green i + rndDiv (green i * (a * 64 + b * i) * strength) 68719476736)
    let centre (optical : Nat) (shift : Int) (extent : Nat) : Int :=
      max 0 (min (16 * (extent : Int)) ((optical : Int) + max (-1024) (min 1024 shift)))
    let entries (g : Int → Int) : List Int := (List.range 129).map fun i => g i
    buildTables c strength cfg f =
      { green := entries green, red := entries (tint c.ar c.br), blue := entries (tint c.ab c.bb)
        cx16 := centre cfg.opticalX c.sx f.srcW, cy16 := centre cfg.opticalY c.sy f.srcH } := by
  intro held raw green tint centre entries
  have hheld : ∀ v, clampEntry v = held v := clampInt_eq (by decide)
  have hgreen : ∀ i, greenEntry c strength i = green i := fun i => hheld _
  have htint : ∀ a b i, tintEntry (green i) a b strength i = tint a b i := fun a b i => hheld _
  have hcentre : ∀ (optical extent : Nat) (shift : Int), centreCoord optical shift extent = centre optical shift extent := by
    intro optical extent shift
    unfold centreCoord
    rw [clampInt_eq (by omega), clampInt_eq (by decide)]
  unfold buildTables
  simp only [map_tableIndexes, hgreen, htint, hcentre]
  rfl

/-- R2: the tables replaced, and the build ended. -/
def State.built (s : State) : State := { s with
  tables := buildTables s.chain.flight.coeffs s.chain.flight.strength s.ec.cfg s.frame.fields
  chain := { s.chain with flight := { s.chain.flight with building := false } } }

theorem buildEnded_eq (s : State) : buildEnded s = if s.chain.flight.judging then s.built else beginPass s.built := rfl

/-- R66, R68, R121: the first tile begun, before its sub-tiles are judged. -/
theorem passPart_tileBegun (u : State) : u.tileBegun.passPart = { u.passPart with
    positions := u.tileInHand.pixels.map fun p => pixelPos u.tables u.frame.fields u.ec.cfg.rn p.1 p.2
    outOfFrame := u.tile.outOfFrame +
      u.tileInHand.pixels.countP fun p => pixelOut u.tables u.frame.fields u.ec.cfg.rn p.1 p.2 } := rfl

/-- R66, R68: what the start of the pass leaves, with no ABORT asked for. -/
theorem passPart_beginPass_free (ha : u.ec.abortReq = false) :
    (settle (beginPass u)).passPart = ({ u with tile := { u.tile with row := 0, col := 0 } } : State).tileBegun.passPart := by
  have hbegin : beginPass u = judgeTile ({ u with tile := { u.tile with row := 0, col := 0 } } : State).tileBegun :=
    if_neg (Bool.eq_false_iff.mp ha)
  rw [passPart_settle, hbegin]
  exact passPart_judgeSubTiles _ _ ha

/-- R82: what the start of the pass leaves when an ABORT is taken there. -/
theorem passPart_beginPass_aborted (ha : u.ec.abortReq = true) :
    (settle (beginPass u)).passPart = { u.passPart with row := 0, col := 0, fault := some .aborted } := by
  have hbegin : beginPass u = faultFrame .aborted { u with tile := { u.tile with row := 0, col := 0 } } := if_pos ha
  rw [passPart_settle, hbegin, passPart_faultFrame]
  rfl

/-- Settles O52: the tables by their equation, the start of the pass by what it leaves as it was. -/
theorem buildReplacesTheTables : Obligations.BuildReplacesTheTables := by
  unfold Obligations.BuildReplacesTheTables
  refine ⟨fun n d hd => rndDiv_nearest n hd, ?_⟩
  intro s hp hi hb f c strength held raw green tint centre entries tb built
  have htb : buildTables s.chain.flight.coeffs s.chain.flight.strength s.ec.cfg s.frame.fields = tb :=
    buildTables_eq c s.chain.flight.strength s.ec.cfg f
  have hbuilt : s.built = built := by
    unfold State.built
    rw [htb]
  have hrow := exec_tableBuildDone hi hb
  rw [buildEnded_eq, hbuilt] at hrow
  refine ⟨fun hs => ?_, fun hj => ?_, fun hj => ?_⟩
  · have hconst : ∀ g : Int → Int, (∀ i, g i = 65536) → tableIndexes.map g = List.replicate 129 65536 := by
      intro g hg
      rw [funext hg, map_tableIndexes]
      decide
    have hg : ∀ i, greenEntry c s.chain.flight.strength i = 65536 := by
      rw [hs]
      exact greenEntry_zero c
    have ht : ∀ a b i, tintEntry (greenEntry c s.chain.flight.strength i) a b s.chain.flight.strength i = 65536 := by
      intro a b i
      rw [hg, hs]
      exact tintEntry_zero a b i
    rw [← htb]
    exact ⟨hconst _ hg, hconst _ (ht _ _), hconst _ (ht _ _)⟩
  · rw [if_pos hj] at hrow
    exact hrow.trans (congrArg Host.Outcome.next (settle_of_portSettled hp))
  · rw [if_neg (Bool.eq_false_iff.mp hj)] at hrow
    refine ⟨_, hrow, passBegins_settle hp, ?_⟩
    rcases Bool.eq_false_or_eq_true s.ec.abortReq with ha | ha
    · have hpart := passPart_beginPass_aborted (u := built) ha
      exact ⟨congrArg PassPart.tables hpart, congrArg PassPart.dram hpart, congrArg PassPart.lens hpart,
        congrArg PassPart.reg hpart, congrArg PassPart.row hpart, congrArg PassPart.col hpart,
        fun hx => absurd (hx.symm.trans ha) Bool.false_ne_true, fun _ => ⟨congrArg PassPart.fault hpart,
          congrArg PassPart.positions hpart, congrArg PassPart.outOfFrame hpart⟩⟩
    · have hpart := passPart_beginPass_free (u := built) ha
      exact ⟨congrArg PassPart.tables hpart, congrArg PassPart.dram hpart, congrArg PassPart.lens hpart,
        congrArg PassPart.reg hpart, congrArg PassPart.row hpart, congrArg PassPart.col hpart,
        fun _ => ⟨congrArg PassPart.positions hpart, congrArg PassPart.outOfFrame hpart⟩,
        fun hx => absurd (ha.symm.trans hx) Bool.false_ne_true⟩

end Sys2Proof.Machine
end
